-- ==== Sys2Proof/Word.lean ====
section
/-! DEFINITION. The bit-vector types of HUFFCORE: bytes, 32-bit register words, 16-bit node indices (spec R9, R21, R36). -/

namespace Sys2Proof

/-- A byte value, 0 to 255 (R9). -/
abbrev Byte := BitVec 8

/-- A host-visible register or bus word: "every register is 32 bits wide" (R21). -/
abbrev Word := BitVec 32

/-- An arena index: "an index fits in 16 bits" (R36). -/
abbrev NodeIdx := BitVec 16

end Sys2Proof
end

