-- ==== Sys2Proof/Syntax.lean ====
section
/-! DEFINITION. The instructions: the thirteen commands of R80 and the two header tokens of R73, one constructor per row of
spec/opcode_table.json; and the two kinds of encoding they come in. -/

namespace Sys2Proof

/-- One row of the opcode table each. The only operand in an encoding is a byte value (R79, R73). -/
inductive Instr where
  /-- NOP, R171. -/
  | nop
  /-- CLEAR, R172. -/
  | clear
  /-- TINIT, R95. -/
  | tinit
  /-- TLEAF v, R96. -/
  | tleaf (v : Byte)
  /-- TEXPAND, R97. -/
  | texpand
  /-- SERIALIZE, R101. -/
  | serialize
  /-- DESERIALIZE, R105. -/
  | deserialize
  /-- BUILD, R115. -/
  | build
  /-- LOOKUP v, R122. -/
  | lookup (v : Byte)
  /-- ENCODE, R124. -/
  | encode
  /-- DECODE, R126. -/
  | decode
  /-- COMPRESS, R127. -/
  | compress
  /-- DECOMPRESS, R128. -/
  | decompress
  /-- H.EXPAND, the header token `1`, R73. -/
  | hExpand
  /-- H.LEAF v, the header token `0` then the eight bits of `v`, R73. -/
  | hLeaf (v : Byte)
  deriving DecidableEq, Repr

/-- What an instruction is read from: a 32-bit command word (R78), or bits of the header in stream order (R73). -/
inductive Code where
  | command (w : Word)
  | header (bits : List Bool)
  deriving DecidableEq, Repr

end Sys2Proof
end

