-- ==== Sys2Proof/WellFormed.lean ====
section
/-! DEFINITION. When a command word is legal (R81) and when a bit sequence is one header token (R73, R82). An instruction
itself has only byte operands, every value of which is legal, so the checks are on its raw encoding. -/

namespace Sys2Proof

/-- The fields of the one command format CW (R78). -/
structure CommandFields where
  op : Byte
  arg : Byte
  rsv : BitVec 16
  deriving DecidableEq, Repr

/-- OP = bits 7:0, ARG = bits 15:8, RSV = bits 31:16 (R78). -/
def CommandFields.ofWord (w : Word) : CommandFields :=
  ⟨w.extractLsb' 0 8, w.extractLsb' 8 8, w.extractLsb' 16 16⟩

/-- The thirteen opcodes (R80). -/
def opcodes : List Byte :=
  [0x00, 0x01, 0x10, 0x11, 0x12, 0x20, 0x21, 0x30, 0x40, 0x41, 0x42, 0x50, 0x51]

/-- The opcodes that take the byte ARG: TLEAF and LOOKUP (R78, R80). -/
def argumentOpcodes : List Byte := [0x11, 0x40]

/-- First check of R81: RSV is 0. -/
def CommandFields.reservedIsZero (f : CommandFields) : Bool := f.rsv == 0

/-- Second check of R81: OP is one of the thirteen opcodes. -/
def CommandFields.opcodeIsKnown (f : CommandFields) : Bool := opcodes.contains f.op

/-- Third check of R81: ARG is 0 unless the opcode takes an argument. -/
def CommandFields.argumentIsAllowed (f : CommandFields) : Bool :=
  argumentOpcodes.contains f.op || f.arg == 0

/-- A command word is legal when it passes the three checks of R81. -/
def CommandFields.wellFormed (f : CommandFields) : Bool :=
  f.reservedIsZero && f.opcodeIsKnown && f.argumentIsAllowed

/-- Exactly one header token: a `1`, or a `0` and eight value bits (R73). -/
def tokenWellFormed (bits : List Bool) : Bool :=
  match bits with
  | [] => false
  | true :: rest => rest.isEmpty
  | false :: rest => rest.length == 8

/-- The encoding is legal. -/
def Code.wellFormed : Code → Bool
  | .command w => (CommandFields.ofWord w).wellFormed
  | .header bits => tokenWellFormed bits

end Sys2Proof
end

