-- ==== Sys2Proof/Decode.lean ====
section
/-! DEFINITION. The decoder (total, rejecting by name) and the encoder, both from the encoding tables of R73, R78 and R80;
and the bit-field helpers every file uses: bits of a byte and bytes of bits, most significant bit first (R14, R53). -/

namespace Sys2Proof

/-- The number whose `n` binary digits, most significant first, are the first `n` of `bits`; missing bits are 0. -/
def packBits : Nat → List Bool → Nat
  | 0, _ => 0
  | n + 1, [] => packBits n []
  | n + 1, b :: rest => b.toNat * 2 ^ n + packBits n rest

/-- The byte whose bits, most significant first, are `bits` (R14, R53). -/
def byteOfBits (bits : List Bool) : Byte := BitVec.ofNat 8 (packBits 8 bits)

/-- The bits of a byte, most significant first (R14). -/
def bitsOfByte (v : Byte) : List Bool :=
  [v.getLsbD 7, v.getLsbD 6, v.getLsbD 5, v.getLsbD 4, v.getLsbD 3, v.getLsbD 2, v.getLsbD 1, v.getLsbD 0]

/-- The last `n` binary digits of `w`, most significant first. -/
def bitsOfNat : Nat → Nat → List Bool
  | 0, _ => []
  | n + 1, w => w.testBit n :: bitsOfNat n w

/-- The command word with opcode `op` and argument `arg`, RSV = 0 (R78). -/
def commandWord (op arg : Byte) : Word := (0 : BitVec 16) ++ arg ++ op

/-- A row of the opcode map: the word `w` selects the command when `w & mask = value` (R80). -/
structure OpcodeRow where
  value : Word
  mask : Word
  make : Byte → Instr

/-- The opcode map (R80). -/
def opcodeTable : List OpcodeRow := [
  ⟨0x00000000, 0xFFFFFFFF, fun _ => .nop⟩,
  ⟨0x00000001, 0xFFFFFFFF, fun _ => .clear⟩,
  ⟨0x00000010, 0xFFFFFFFF, fun _ => .tinit⟩,
  ⟨0x00000011, 0xFFFF00FF, fun v => .tleaf v⟩,
  ⟨0x00000012, 0xFFFFFFFF, fun _ => .texpand⟩,
  ⟨0x00000020, 0xFFFFFFFF, fun _ => .serialize⟩,
  ⟨0x00000021, 0xFFFFFFFF, fun _ => .deserialize⟩,
  ⟨0x00000030, 0xFFFFFFFF, fun _ => .build⟩,
  ⟨0x00000040, 0xFFFF00FF, fun v => .lookup v⟩,
  ⟨0x00000041, 0xFFFFFFFF, fun _ => .encode⟩,
  ⟨0x00000042, 0xFFFFFFFF, fun _ => .decode⟩,
  ⟨0x00000050, 0xFFFFFFFF, fun _ => .compress⟩,
  ⟨0x00000051, 0xFFFFFFFF, fun _ => .decompress⟩]

/-- Why an encoding is no instruction: the three causes of R81, and a bit sequence that is less or more than one header
token (R73). -/
inductive DecodeError where
  /-- RSV is not 0. -/
  | reservedNotZero
  /-- OP is none of the thirteen opcodes. -/
  | unknownOpcode
  /-- ARG is not 0 on a command that takes no argument. -/
  | argumentNotZero
  /-- The bits end inside a token. -/
  | tokenTooShort
  /-- Bits follow the token. -/
  | tokenTooLong
  deriving DecidableEq, Repr

/-- The cause that makes a word illegal (R81). -/
def illegalCause (w : Word) : DecodeError :=
  if (CommandFields.ofWord w).rsv ≠ 0 then .reservedNotZero
  else if (CommandFields.ofWord w).opcodeIsKnown then .argumentNotZero
  else .unknownOpcode

/-- Decode a command word by the opcode map (R80, R81). -/
def decodeWord (w : Word) : Except DecodeError Instr :=
  match opcodeTable.find? (fun r => w &&& r.mask == r.value) with
  | some r => .ok (r.make (w.extractLsb' 8 8))
  | none => .error (illegalCause w)

/-- Read one header token from the front of a bit sequence (R73). -/
def decodeToken : List Bool → Except DecodeError (Instr × List Bool)
  | [] => .error .tokenTooShort
  | true :: rest => .ok (.hExpand, rest)
  | false :: rest =>
    if rest.length < 8 then .error .tokenTooShort
    else .ok (.hLeaf (byteOfBits (rest.take 8)), rest.drop 8)

/-- Decode an encoding as exactly one instruction. -/
def decode : Code → Except DecodeError Instr
  | .command w => decodeWord w
  | .header bits =>
    match decodeToken bits with
    | .ok (i, []) => .ok i
    | .ok (_, _ :: _) => .error .tokenTooLong
    | .error e => .error e

/-- The encoding of an instruction (R73, R78, R80). -/
def encode : Instr → Code
  | .nop => .command (commandWord 0x00 0)
  | .clear => .command (commandWord 0x01 0)
  | .tinit => .command (commandWord 0x10 0)
  | .tleaf v => .command (commandWord 0x11 v)
  | .texpand => .command (commandWord 0x12 0)
  | .serialize => .command (commandWord 0x20 0)
  | .deserialize => .command (commandWord 0x21 0)
  | .build => .command (commandWord 0x30 0)
  | .lookup v => .command (commandWord 0x40 v)
  | .encode => .command (commandWord 0x41 0)
  | .decode => .command (commandWord 0x42 0)
  | .compress => .command (commandWord 0x50 0)
  | .decompress => .command (commandWord 0x51 0)
  | .hExpand => .header [true]
  | .hLeaf v => .header (false :: bitsOfByte v)

/-- The encoding that a row of spec/opcode_table.json stands for: 32 bits are a command word; a header token's pattern of
1 or 9 bits (8 or 16 when counted in whole bytes) is read as one number whose bit 0 is the pattern's last bit. -/
def tableCode (nbits w : Nat) : Option Code :=
  if nbits = 32 then if w < 2 ^ 32 then some (.command (BitVec.ofNat 32 w)) else none
  else if 1 ≤ nbits ∧ nbits ≤ 8 then if w < 2 then some (.header (bitsOfNat 1 w)) else none
  else if 9 ≤ nbits ∧ nbits ≤ 16 then if w < 2 ^ 9 then some (.header (bitsOfNat 9 w)) else none
  else none

/-- The instruction the decoder reads from an instruction whose bits are `w`, numbered as spec/opcode_table.json numbers
them. -/
def decodeTableWord (nbits w : Nat) : Option Instr :=
  match tableCode nbits w with
  | some c =>
    match decode c with
    | .ok i => some i
    | .error _ => none
  | none => none

end Sys2Proof
end

