-- ==== Sys2Proof/Config.lean ====
section
/-! DEFINITION. What an instance fixes (the three capacities of R5) and the free values: what the spec leaves
unspecified (R164). The free values are opaque: nothing can evaluate them or prove a value of one. -/

namespace Sys2Proof

/-- The implementation parameters of R5 with the constraints R5 puts on them. They are "fixed for an instance" (R47). -/
structure Params where
  /-- BLOCK_MAX: the capacity of BLK in bytes. -/
  blockMax : Nat
  /-- BITS_MAX: the capacity of BITS in bits. -/
  bitsMax : Nat
  /-- NODE_CAP: the number of entries of the arena. -/
  nodeCap : Nat
  blockMax_range : 1 ≤ blockMax ∧ blockMax ≤ 2 ^ 24
  bitsMax_range : 9 ≤ bitsMax ∧ bitsMax ≤ 2 ^ 27 ∧ bitsMax % 8 = 0
  nodeCap_range : 511 ≤ nodeCap ∧ nodeCap ≤ 65535 ∧ nodeCap % 2 = 1
  deriving DecidableEq, Repr

/-- The default parameters of R5. -/
def Config.defaultParams : Params :=
  ⟨65536, 1048576, 511, by decide, by decide, by decide⟩

/-- The byte that index `i` of BLK holds after the `k`-th hardware reset, before anything writes it: unspecified
(R46, R150, R164(a)). A FREE VALUE (log 1). -/
opaque Config.blkUnspecified (k i : Nat) : Byte

/-- The bit that index `i` of BITS holds after the `k`-th hardware reset, before anything writes it: unspecified
(R46, R150, R164(a)). A FREE VALUE (log 1). -/
opaque Config.bitsUnspecified (k i : Nat) : Bool

/-- STATUS[31:1] as the `k`-th read of STATUS during BUSY returns it: unspecified (R58, R155, R164(b)).
A FREE VALUE (log 6). -/
opaque Config.busyStatusBits (k : Nat) : BitVec 31

end Sys2Proof
end

