-- ==== Sys2Proof/Machine/State.lean ====
section
/-! DEFINITION. The state of HUFFCORE as plain data (spec/10_state.md), the reasons a step can stop, and the state after
hardware reset (R46, R150). -/

namespace Sys2Proof.Machine

/-- An entry of the arena NODE (R36). The fields a kind does not use are 0 (R36, X8), so they are not stored. -/
inductive Node where
  /-- FREE: not allocated. -/
  | free
  /-- UNSET: allocated, "neither leaf nor internal". -/
  | unset
  /-- LEAF with its byte `value`. -/
  | leaf (value : Byte)
  /-- INTERNAL with the indices of its `zero` and `one` children. -/
  | internal (zero one : NodeIdx)
  deriving DecidableEq, Repr

/-- The errors that end a command (R130). -/
inductive Err where
  | emptyBlock
  | truncatedHeader
  | illegalCmd
  | noTree
  | noPending
  | treeIncomplete
  | treeOverflow
  | bitsOverflow
  | blkOverflow
  | noCode
  | badLength
  deriving DecidableEq, Repr

/-- The words of the register file (R21): twenty-two registers and the two reserved words. -/
inductive Reg where
  | cmd
  | status
  | errCode
  | errInfo
  | blkLen
  | bitsLen
  | cursor
  | hdrLen
  | nodeCnt
  | root
  | pend
  | symCnt
  | tailBits
  | codeLen
  /-- The reserved words at 0x38 (`second = false`) and 0x3C (`second = true`). -/
  | reserved (second : Bool)
  /-- CODE_BITS`k`. -/
  | codeBits (k : Fin 8)
  deriving DecidableEq, Repr

/-- A host bus access (R51, R56): `width` in bits, `addr` a byte offset from the instance's base. -/
inductive Access where
  | read (width : Nat) (addr : Word)
  | write (width : Nat) (addr : Word) (data : Word)
  deriving DecidableEq, Repr

/-- What the outside world does to the machine in one step. -/
inductive Input where
  /-- The host makes a bus access; a write to CMD starts a command (R23). -/
  | access (a : Access)
  /-- A header token is handed to the tree-construction machine of R73 on its own: the grain at which DESERIALIZE builds
  a tree, made a step of the model (log 3). -/
  | token (bits : List Bool)
  /-- Hardware reset (R150). -/
  | reset
  deriving DecidableEq, Repr

/-- What the last bus access returned to the host. -/
inductive Reply where
  /-- There has been no access since reset. -/
  | none
  /-- A 32-bit read returned `w`. -/
  | word (w : Word)
  /-- An 8-bit read returned `b`. -/
  | byte (b : Byte)
  /-- A write was accepted. -/
  | written
  deriving DecidableEq, Repr

/-- The faults: none. The spec has no condition that stops the machine: an error of a command is an ordinary next state (R8),
no state is stuck (93_implementation_defined.md 2.3), and a violated access rule "is refused, not faulted" (R147). -/
inductive Fault
  deriving DecidableEq, Repr

/-- Why a step gives no next state. Every one is safe: nothing is claimed of what the hardware does there. -/
inductive Refusal where
  /-- `exec`, for an instruction that has no meaning yet. Safe. -/
  | notModelled (mnemonic : String)
  /-- `step`, for a host access to an address outside the map (R51, R58). Safe. -/
  | unmappedAddress
  /-- `step`, for a host access of a width its region does not allow (R56, R58). Safe. -/
  | wrongWidth
  /-- `step`, for a 32-bit host access to an address that is no multiple of 4 (R56, R58). Safe. -/
  | misalignedWord
  /-- `step`, for a host access other than a read of STATUS while a command runs (R58, R155). Safe. -/
  | accessWhileBusy
  /-- The meanings of H.EXPAND and H.LEAF when no node is pending: the bits there are no header token, since the header "ends
  after the token that leaves no pending node" (R73). Safe. -/
  | tokenWithoutPendingNode
  /-- `step`, for bits handed to the tree-construction machine that are not exactly one token (R73). Safe. -/
  | notOneToken
  deriving DecidableEq, Repr

/-- Everything the spec gives the machine (R20), the parameters of the instance (R47), and the model's own four fields. -/
structure State where
  /-- The capacities of the instance (R5). No step writes them. -/
  params : Params
  /-- CMD (R23). -/
  cmd : Word
  /-- STATUS.BUSY (R24). -/
  busy : Bool
  /-- STATUS.DONE (R24). -/
  done : Bool
  /-- STATUS.ERR (R24). -/
  err : Bool
  /-- STATUS.STICKY_ERR (R24). -/
  stickyErr : Bool
  /-- ERRCODE[7:0] (R25). -/
  errCode : Byte
  /-- ERRINFO (R26). -/
  errInfo : Word
  /-- BLK_LEN (R27). -/
  blkLen : Word
  /-- BITS_LEN (R28). -/
  bitsLen : Word
  /-- CURSOR (R29). -/
  cursor : Word
  /-- HDR_LEN (R30). -/
  hdrLen : Word
  /-- NODE_CNT (R31). -/
  nodeCnt : Word
  /-- ROOT[15:0] (R32). -/
  root : NodeIdx
  /-- SYM_CNT (R34). -/
  symCnt : Word
  /-- TAIL_BITS (R35). -/
  tailBits : Word
  /-- CODE_LEN (R37). -/
  codeLen : Word
  /-- CODE_BITS0 to CODE_BITS7 (R37). -/
  codeBits : Vector Word 8
  /-- BLK (R38): the bytes written since hardware reset, by index, strictly rising. An unlisted byte is unspecified. -/
  blk : List Host.Cell
  /-- BITS (R39): the bits written since hardware reset, by index, strictly rising. An unlisted bit is unspecified. -/
  bits : List (Nat × Bool)
  /-- NODE (R36): the entries that are not FREE, by index, strictly rising. -/
  nodes : List (Nat × Node)
  /-- The model's own: what the host and the platform do next, first entry first (log 4). -/
  inputs : List Input
  /-- The model's own: what the last host access returned (log 5). -/
  reply : Reply
  /-- The model's own: hardware resets so far, the index of the unspecified contents of BLK and BITS (log 1). -/
  resets : Nat
  /-- The model's own: STATUS reads made while BUSY so far, the index of the unspecified STATUS bits (log 6). -/
  polls : Nat
  deriving DecidableEq, Repr

/-- The state after hardware reset of an instance with parameters `p` (R46, R150), the `k`-th reset. -/
def State.resetOf (p : Params) (k : Nat) : State where
  params := p
  cmd := 0
  busy := false
  done := false
  err := false
  stickyErr := false
  errCode := 0
  errInfo := 0
  blkLen := 0
  bitsLen := 0
  cursor := 0
  hdrLen := 0
  nodeCnt := 0
  root := 0
  symCnt := 0
  tailBits := 0
  codeLen := 0
  codeBits := #v[0, 0, 0, 0, 0, 0, 0, 0]
  blk := []
  bits := []
  nodes := []
  inputs := []
  reply := .none
  resets := k
  polls := 0

/-- The machine right after reset, with the default parameters of R5. -/
def State.reset : State := State.resetOf Config.defaultParams 0

end Sys2Proof.Machine
end

