-- ==== Sys2Proof/Machine/Ops.lean ====
section
/-! DEFINITION. The named operations over memory, the arena, the buffers and the command frame: the primitives of
spec/00_scope.md section 6, the node operations of R90 to R93, the frame of R170 and error entry R140. -/

namespace Sys2Proof.Machine

/-! ## Sparse memory: index and value pairs, indices strictly rising -/

/-- What is listed at index `a`. -/
def Memory.read {α : Type} : List (Nat × α) → Nat → Option α
  | [], _ => none
  | (k, v) :: rest, a => if k = a then some v else Memory.read rest a

/-- List `v` at index `a`, in its place. -/
def Memory.write {α : Type} : List (Nat × α) → Nat → α → List (Nat × α)
  | [], a, v => [(a, v)]
  | (k, w) :: rest, a, v =>
    if a < k then (a, v) :: (k, w) :: rest
    else if a = k then (a, v) :: rest
    else (k, w) :: Memory.write rest a v

/-- Take index `a` out. -/
def Memory.erase {α : Type} : List (Nat × α) → Nat → List (Nat × α)
  | [], _ => []
  | (k, w) :: rest, a => if k = a then rest else (k, w) :: Memory.erase rest a

/-- The canonical form: indices strictly rising. (What an unlisted byte of BLK or bit of BITS reads as is no known value, so
an entry there is never superfluous; for the arena see `Memory.wfNodes`.) -/
abbrev Memory.wf {α : Type} (m : List (Nat × α)) : Prop := m.Pairwise (fun x y => x.1 < y.1)

/-- The canonical form of the arena: indices strictly rising and no FREE entry listed. -/
abbrev Memory.wfNodes (m : List (Nat × Node)) : Prop := Memory.wf m ∧ ∀ e ∈ m, e.2 ≠ .free

/-- `BLK[i]` (R12, R38). A byte not written since hardware reset is unspecified (R46). -/
def State.blkByte (s : State) (i : Nat) : Byte :=
  (Memory.read s.blk i).getD (Config.blkUnspecified s.resets i)

/-- `BITS[i]` (R12, R39). A bit not written since hardware reset is unspecified (R46). -/
def State.bit (s : State) (i : Nat) : Bool :=
  (Memory.read s.bits i).getD (Config.bitsUnspecified s.resets i)

/-- `NODE[n]` (R12, R36). -/
def State.node (s : State) (n : Nat) : Node := (Memory.read s.nodes n).getD .free

/-- `BLK[i] <- v`. -/
def State.setBlkByte (s : State) (i : Nat) (v : Byte) : State := { s with blk := Memory.write s.blk i v }

/-- `BITS[i] <- b`. -/
def State.setBit (s : State) (i : Nat) (b : Bool) : State := { s with bits := Memory.write s.bits i b }

/-- `NODE[n] <- d`. -/
def State.setNode (s : State) (n : Nat) (d : Node) : State :=
  { s with nodes := if d = .free then Memory.erase s.nodes n else Memory.write s.nodes n d }

/-! ## The command frame and error entry -/

/-- How the body of a command ends (R8, R17): at its end, or at its first `raise E(info)` with the clean-up its rule lists
for `E` already done. -/
inductive BodyResult where
  | completed (s : State)
  | raised (e : Err) (info : Word) (s : State)
  deriving DecidableEq, Repr

/-- ERRCODE of an error (R130). -/
def Err.code : Err → Byte
  | .emptyBlock => 0x01
  | .truncatedHeader => 0x02
  | .illegalCmd => 0x10
  | .noTree => 0x11
  | .noPending => 0x12
  | .treeIncomplete => 0x13
  | .treeOverflow => 0x14
  | .bitsOverflow => 0x15
  | .blkOverflow => 0x16
  | .noCode => 0x17
  | .badLength => 0x18

/-- The first lines of the frame (R170), before the body: CMD holds the word, BUSY = 1, the last outcome is cleared. -/
def beginCommand (w : Word) (s : State) : State :=
  { s with cmd := w, busy := true, done := false, err := false, errCode := 0, errInfo := 0 }

/-- Error entry, part (3) of R140. -/
def errorEntry (e : Err) (info : Word) (s : State) : State :=
  { s with err := true, stickyErr := true, errCode := e.code, errInfo := info }

/-- The last lines of the frame (R170; part (4) of R140): DONE = 1, BUSY = 0. -/
def endCommand (s : State) : State := { s with done := true, busy := false }

/-- How a command ends after its body (R170). -/
def finish : BodyResult → State
  | .completed s => endCommand s
  | .raised e info s => endCommand (errorEntry e info s)

/-- The command frame (R170): what one host write of the legal word `w` to CMD does, given the body of the command. -/
def runFrame (w : Word) (body : State → BodyResult) (s : State) : State := finish (body (beginCommand w s))

/-- The word of an instruction: what CMD holds while it runs (R23). A header token is no command and has none. -/
def wordOf (i : Instr) : Word :=
  match Sys2Proof.encode i with
  | .command w => w
  | .header _ => 0

/-! ## The bit sequence -/

/-- `append_bit(b)` (R13). -/
def appendBit (b : Bool) (s : State) : BodyResult :=
  if s.params.bitsMax ≤ s.bitsLen.toNat then .raised .bitsOverflow 0 s
  else .completed { s.setBit s.bitsLen.toNat b with bitsLen := s.bitsLen + 1 }

/-- `append_bit` for each bit in order, up to the first error. -/
def appendBits : List Bool → State → BodyResult
  | [], s => .completed s
  | b :: rest, s =>
    match appendBit b s with
    | .completed s' => appendBits rest s'
    | .raised e info s' => .raised e info s'

/-- `append_byte(v)` (R14): most significant bit first. -/
def appendByte (v : Byte) (s : State) : BodyResult := appendBits (bitsOfByte v) s

/-- `read_bit()` (R15); `none` is EXHAUSTED, and then nothing has changed. -/
def readBit (s : State) : Option (Bool × State) :=
  if s.bitsLen.toNat ≤ s.cursor.toNat then none
  else some (s.bit s.cursor.toNat, { s with cursor := s.cursor + 1 })

/-- The bits from CURSOR to BITS_LEN: how many `read_bit` can still return. -/
def bitsLeft (s : State) : Nat := s.bitsLen.toNat - s.cursor.toNat

/-- Write 0 into the `n` bits from index `i` on. -/
def zeroBits : Nat → Nat → State → State
  | 0, _, s => s
  | n + 1, i, s => zeroBits n (i + 1) (s.setBit i false)

/-- `zero_fill_tail()` (R16): the bits from BITS_LEN to the next byte boundary. -/
def zeroFillTail (s : State) : State := zeroBits ((8 - s.bitsLen.toNat % 8) % 8) s.bitsLen.toNat s

/-! ## The arena -/

/-- `arena_clear()` (R90). -/
def arenaClear (s : State) : State := { s with nodes := [], nodeCnt := 0, root := 0 }

/-- `tree_init()` (R90). -/
def treeInit (s : State) : State := { (arenaClear s).setNode 0 .unset with nodeCnt := 1, root := 0 }

/-- `make_leaf(n, v)` (R91). -/
def makeLeaf (n : NodeIdx) (v : Byte) (s : State) : State := s.setNode n.toNat (.leaf v)

/-- `expand(n)` (R92): the state after it and the new pair (zero-child, one-child); `none` when fewer than two entries are
free (TreeOverflow), and then nothing has changed. -/
def expand (n : NodeIdx) (s : State) : Option (State × NodeIdx × NodeIdx) :=
  if s.params.nodeCap < s.nodeCnt.toNat + 2 then none
  else
    let z : NodeIdx := s.nodeCnt.setWidth 16
    let o : NodeIdx := (s.nodeCnt + 1).setWidth 16
    let s := { (s.setNode z.toNat .unset).setNode o.toNat .unset with nodeCnt := s.nodeCnt + 2 }
    some (s.setNode n.toNat (.internal z o), z, o)

/-- `fp(n)` (R93) on an arena, `fuel` levels deep. -/
def findPendingFrom (s : State) : Nat → NodeIdx → Option NodeIdx
  | 0, _ => none
  | fuel + 1, n =>
    match s.node n.toNat with
    | .unset => some n
    | .leaf _ => none
    | .free => none
    | .internal z o =>
      match findPendingFrom s fuel z with
      | some p => some p
      | none => findPendingFrom s fuel o

/-- `find_pending()` (R93): the first UNSET node in depth-first pre-order, zero-child first. A tree is at most
`(NODE_CAP-1)/2` deep (R40(e)), so NODE_CAP levels are enough (log 7). -/
def findPending (s : State) : Option NodeIdx :=
  if s.nodeCnt = 0 then none else findPendingFrom s s.params.nodeCap s.root

end Sys2Proof.Machine
end

