-- ==== Sys2Proof/Machine/Flags.lean ====
section
/-! DEFINITION. The flags: the derived fields of STATUS and the STATUS word (R24), and the derived register PEND (R33). -/

namespace Sys2Proof.Machine

/-- STATUS.TREE_PRESENT (R24). -/
def treePresent (s : State) : Bool := s.nodeCnt != 0

/-- STATUS.TREE_COMPLETE (R24). -/
def treeComplete (s : State) : Bool := s.nodeCnt != 0 && (findPending s).isNone

/-- The kind of a node is LEAF. -/
def Node.isLeaf : Node → Bool
  | .leaf _ => true
  | .free => false
  | .unset => false
  | .internal _ _ => false

/-- STATUS.SINGLE (R24). -/
def treeSingle (s : State) : Bool := s.nodeCnt != 0 && (s.node s.root.toNat).isLeaf

/-- STATUS.TAIL (R24). -/
def tailPresent (s : State) : Bool := s.tailBits != 0

/-- The STATUS word: bit 0 BUSY, 1 DONE, 2 ERR, 3 STICKY_ERR, 4 TREE_PRESENT, 5 TREE_COMPLETE, 6 SINGLE, 7 TAIL, the rest 0
(R24). -/
def statusWord (s : State) : Word :=
  (byteOfBits [tailPresent s, treeSingle s, treeComplete s, treePresent s, s.stickyErr, s.err, s.done, s.busy]).setWidth 32

/-- PEND: the index of the pending node, or 0xFFFFFFFF when there is none (R33). -/
def pendWord (s : State) : Word :=
  match findPending s with
  | some p => p.setWidth 32
  | none => 0xFFFFFFFF

end Sys2Proof.Machine
end

