-- ==== Sys2Proof/Machine/Operands.lean ====
section
/-! DEFINITION. The operands of the commands: the byte ARG comes with the instruction; all others are implicit (R79). Here
stand the block a command reads and the checks a command makes on its operands before it runs, in the order of R145. -/

namespace Sys2Proof.Machine

/-- The block `BLK[0..BLK_LEN)` (R27), in order. -/
def blockBytes (s : State) : List Byte := (List.range s.blkLen.toNat).map s.blkByte

/-- An error a check finds, with its ERRINFO; `none` when the check passes. -/
abbrev Check := Option (Err × Word)

/-- BadLength(1) (R143). -/
def checkBlkLen (s : State) : Check :=
  if s.params.blockMax < s.blkLen.toNat then some (.badLength, 1) else none

/-- BadLength(2) (R143). -/
def checkBitsLen (s : State) : Check :=
  if s.params.bitsMax < s.bitsLen.toNat then some (.badLength, 2) else none

/-- BadLength(3) (R143). -/
def checkCursor (s : State) : Check :=
  if s.bitsLen.toNat < s.cursor.toNat then some (.badLength, 3) else none

/-- EmptyBlock (R131). -/
def checkBlockNotEmpty (s : State) : Check :=
  if s.blkLen = 0 then some (.emptyBlock, 0) else none

/-- NoTree (R135). -/
def checkTree (s : State) : Check :=
  if s.nodeCnt = 0 then some (.noTree, 0) else none

/-- TreeIncomplete(p) (R137). -/
def checkComplete (s : State) : Check :=
  match findPending s with
  | some p => some (.treeIncomplete, p.setWidth 32)
  | none => none

/-- The up-front BitsOverflow of SERIALIZE (R101, R138): `BITS_LEN + 5 * NODE_CNT + 4 > BITS_MAX`. -/
def checkHeaderFits (s : State) : Check :=
  if s.params.bitsMax < s.bitsLen.toNat + 5 * s.nodeCnt.toNat + 4 then some (.bitsOverflow, 0) else none

/-- The first error that the checks find (R145). -/
def firstError : List Check → Check
  | [] => none
  | some e :: _ => some e
  | none :: rest => firstError rest

/-- Run a body behind its checks: at the first error nothing has changed. -/
def guarded (checks : List (State → Check)) (body : State → BodyResult) (s : State) : BodyResult :=
  match firstError (checks.map (fun c => c s)) with
  | some (e, info) => .raised e info s
  | none => body s

end Sys2Proof.Machine
end

