-- ==== Sys2Proof/Machine/TreeBuilder.lean ====
section
/-! DEFINITION. The tree builder family (spec/42_tree_builder.md): BUILD. The builder's transient state (R42) lives in the
arguments of these functions. -/

namespace Sys2Proof.Machine

/-- Count one more occurrence of `v`: the list holds each distinct value with its count, in first-encounter order (R110). -/
def countByte (v : Byte) : List (Byte × Nat) → List (Byte × Nat)
  | [] => [(v, 1)]
  | (u, c) :: rest => if u = v then (u, c + 1) :: rest else (u, c) :: countByte v rest

/-- `count()` (R110): `ord` with `cnt`. -/
def countBytes (block : List Byte) : List (Byte × Nat) := block.foldl (fun acc v => countByte v acc) []

/-- An entry of the worklist: a `(weight, node)` pair (R42, R111). -/
structure WorkEntry where
  weight : Nat
  node : NodeIdx
  deriving DecidableEq, Repr

/-- `wl_insert(w, n)` (R112): after every entry of weight at most its own. -/
def wlInsert (e : WorkEntry) : List WorkEntry → List WorkEntry
  | [] => [e]
  | x :: rest => if x.weight ≤ e.weight then x :: wlInsert e rest else e :: x :: rest

/-- The loop of `form_worklist` (R111): a leaf for each distinct value, at the next free index. -/
def formLeaves : List (Byte × Nat) → List WorkEntry → State → State × List WorkEntry
  | [], wl, s => (s, wl)
  | (v, c) :: rest, wl, s =>
    formLeaves rest (wlInsert ⟨c, s.nodeCnt.setWidth 16⟩ wl)
      { s.setNode s.nodeCnt.toNat (.leaf v) with nodeCnt := s.nodeCnt + 1 }

/-- `merge_step()` while two entries remain (R113, R114); each takes one entry off, so `fuel` = the length is enough. -/
def mergeAll : Nat → List WorkEntry → State → State × List WorkEntry
  | fuel + 1, e1 :: e2 :: rest, s =>
    mergeAll fuel (wlInsert ⟨e1.weight + e2.weight, s.nodeCnt.setWidth 16⟩ rest)
      { s.setNode s.nodeCnt.toNat (.internal e1.node e2.node) with nodeCnt := s.nodeCnt + 1 }
  | _, wl, s => (s, wl)

/-- The root is the node of the one entry that remains (R114). -/
def rootOf (wl : List WorkEntry) (s : State) : NodeIdx :=
  match wl with
  | e :: _ => e.node
  | [] => s.root

/-- `build_body()` (R114). -/
def buildRun (s : State) : State :=
  let ord := countBytes (blockBytes s)
  let formed := formLeaves ord [] (arenaClear s)
  let merged := mergeAll formed.2.length formed.2 formed.1
  { merged.1 with root := rootOf merged.2 merged.1, symCnt := BitVec.ofNat 32 ord.length }

/-- The body of BUILD (R115). -/
def buildBody : State → BodyResult :=
  guarded [checkBlkLen, checkBlockNotEmpty] (fun s => .completed (buildRun s))

/-- BUILD (R115). -/
def execBuild (s : State) : Host.Outcome State Fault Refusal :=
  .next (runFrame (wordOf .build) buildBody s)

end Sys2Proof.Machine
end

