-- ==== Sys2Proof/Machine/Tree.lean ====
section
/-! DEFINITION. The tree family (spec/40_tree.md): TINIT, TLEAF, TEXPAND; and the two header tokens of R73, which are the
same operations as DESERIALIZE performs them. -/

namespace Sys2Proof.Machine

/-- TINIT (R95). -/
def execTinit (s : State) : Host.Outcome State Fault Refusal :=
  .next (runFrame (wordOf .tinit) (fun s => .completed (treeInit s)) s)

/-- Act on the pending node, or raise NoPending (R96, R97, R136). -/
def onPending (act : NodeIdx → State → BodyResult) (s : State) : BodyResult :=
  match findPending s with
  | some p => act p s
  | none => .raised .noPending 0 s

/-- The body of TLEAF (R96). -/
def tleafBody (v : Byte) : State → BodyResult :=
  guarded [checkTree] (onPending (fun p s => .completed (makeLeaf p v s)))

/-- TLEAF v (R96). -/
def execTleaf (v : Byte) (s : State) : Host.Outcome State Fault Refusal :=
  .next (runFrame (wordOf (.tleaf v)) (tleafBody v) s)

/-- `expand(p)` as TEXPAND runs it: TreeOverflow with NODE_CNT when it does not fit, and then nothing has changed (R97). -/
def expandOrRaise (p : NodeIdx) (s : State) : BodyResult :=
  match expand p s with
  | some (s', _, _) => .completed s'
  | none => .raised .treeOverflow s.nodeCnt s

/-- The body of TEXPAND (R97). -/
def texpandBody : State → BodyResult := guarded [checkTree] (onPending expandOrRaise)

/-- TEXPAND (R97). -/
def execTexpand (s : State) : Host.Outcome State Fault Refusal :=
  .next (runFrame (wordOf .texpand) texpandBody s)

/-- `fail(E, info)` of R105: no partial tree, HDR_LEN = 0, then the error. -/
def headerFail (e : Err) (info : Word) (s : State) : BodyResult :=
  .raised e info { arenaClear s with hdrLen := 0 }

/-- H.EXPAND (R73): `expand` the pending node; when it does not fit, the header fails as in R105 and the command it
belongs to ends with TreeOverflow. -/
def execHExpand (s : State) : Host.Outcome State Fault Refusal :=
  match findPending s with
  | none => .refused .tokenWithoutPendingNode
  | some p =>
    match expand p s with
    | some (s', _, _) => .next s'
    | none => .next (finish (headerFail .treeOverflow s.nodeCnt s))

/-- H.LEAF v (R73): `make_leaf` the pending node with value `v`. -/
def execHLeaf (v : Byte) (s : State) : Host.Outcome State Fault Refusal :=
  match findPending s with
  | none => .refused .tokenWithoutPendingNode
  | some p => .next (makeLeaf p v s)

end Sys2Proof.Machine
end

