-- ==== Sys2Proof/Machine/TreeCodec.lean ====
section
/-! DEFINITION. The tree codec family (spec/41_tree_codec.md): SERIALIZE, DESERIALIZE. -/

namespace Sys2Proof.Machine

/-- The `value` field of an arena entry: 0 unless LEAF (R36). -/
def Node.value : Node → Byte
  | .leaf v => v
  | .free => 0
  | .unset => 0
  | .internal _ _ => 0

/-- `ser(n)` (R100), `fuel` levels deep. The arena does not change under it, so it is read from `a`. -/
def ser (a : State) : Nat → NodeIdx → State → BodyResult
  | 0, _, s => .completed s
  | fuel + 1, n, s =>
    match a.node n.toNat with
    | .internal z o =>
      match appendBit true s with
      | .raised e info s1 => .raised e info s1
      | .completed s1 =>
        match ser a fuel z s1 with
        | .raised e info s2 => .raised e info s2
        | .completed s2 => ser a fuel o s2
    | d =>
      match appendBit false s with
      | .raised e info s1 => .raised e info s1
      | .completed s1 => appendByte d.value s1

/-- `ser(ROOT)`: NODE_CAP levels are enough for any tree (R40(e), log 7). -/
def serRoot (s : State) : BodyResult := ser s s.params.nodeCap s.root s

/-- SERIALIZE after its checks (R101). -/
def serializeRun (s : State) : BodyResult :=
  match serRoot s with
  | .raised e info s' => .raised e info s'
  | .completed s' => .completed (zeroFillTail { s' with hdrLen := s'.bitsLen - s.bitsLen })

/-- The body of SERIALIZE (R101). -/
def serializeBody : State → BodyResult :=
  guarded [checkBitsLen, checkTree, checkComplete, checkHeaderFits] serializeRun

/-- SERIALIZE (R101). -/
def execSerialize (s : State) : Host.Outcome State Fault Refusal :=
  .next (runFrame (wordOf .serialize) serializeBody s)

/-- `read_distance()` (R104), with `d` ones counted so far; `none` is EXHAUSTED. The state is the one after the bits read. -/
def readDistance : Nat → Nat → State → Option Nat × State
  | 0, _, s => (none, s)
  | fuel + 1, d, s =>
    match readBit s with
    | none => (none, s)
    | some (false, s') => (some d, s')
    | some (true, s') => readDistance fuel (d + 1) s'

/-- `read_value()` (R104), with `n` bits still to read after the value `v` of those read; `none` is EXHAUSTED. -/
def readValue : Nat → Nat → State → Option Nat × State
  | 0, v, s => (some v, s)
  | n + 1, v, s =>
    match readBit s with
    | none => (none, s)
    | some (b, s') => readValue n (2 * v + b.toNat) s'

/-- Read a whole leaf record, distance then value (R71, R105), before anything is expanded. -/
def readRecord (s : State) : Option (Nat × Byte) × State :=
  match readDistance (bitsLeft s + 1) 0 s with
  | (none, s1) => (none, s1)
  | (some d, s1) =>
    match readValue 8 0 s1 with
    | (none, s2) => (none, s2)
    | (some v, s2) => (some (d, BitVec.ofNat 8 v), s2)

/-- `expand` `d` times from `p`, each time going on with the zero-child (R105); `none` when one does not fit. -/
def expandSpine : Nat → NodeIdx → State → Option NodeIdx × State
  | 0, p, s => (some p, s)
  | d + 1, p, s =>
    match expand p s with
    | none => (none, s)
    | some (s', z, _) => expandSpine d z s'

/-- The loop of `deserialize_body` (R105). Each iteration commits a node and consumes at least 9 bits, or ends the loop. -/
def deserializeLoop : Nat → State → BodyResult
  | 0, s => .completed s
  | fuel + 1, s =>
    match findPending s with
    | none => .completed s
    | some p =>
      match readRecord s with
      | (none, s1) => headerFail .truncatedHeader s.cursor s1
      | (some (d, v), s1) =>
        match expandSpine d p s1 with
        | (none, s2) => headerFail .treeOverflow s2.nodeCnt s2
        | (some q, s2) => deserializeLoop fuel (makeLeaf q v s2)

/-- `deserialize_body()` (R105). -/
def deserializeRun (s : State) : BodyResult :=
  match deserializeLoop (bitsLeft s + 1) (treeInit s) with
  | .raised e info s' => .raised e info s'
  | .completed s' => .completed { s' with hdrLen := s'.cursor - s.cursor }

/-- The body of DESERIALIZE (R105). -/
def deserializeBody : State → BodyResult := guarded [checkBitsLen, checkCursor] deserializeRun

/-- DESERIALIZE (R105). -/
def execDeserialize (s : State) : Host.Outcome State Fault Refusal :=
  .next (runFrame (wordOf .deserialize) deserializeBody s)

end Sys2Proof.Machine
end

