-- ==== Sys2Proof/Machine/BlockCodec.lean ====
section
/-! DEFINITION. The block codec family (spec/43_block_codec.md): LOOKUP, ENCODE, DECODE, COMPRESS, DECOMPRESS. -/

namespace Sys2Proof.Machine

/-- `path(n, v)` (R120), `fuel` levels deep: zero-child first. -/
def pathFrom (s : State) (v : Byte) : Nat → NodeIdx → Option (List Bool)
  | 0, _ => none
  | fuel + 1, n =>
    match s.node n.toNat with
    | .leaf u => if u = v then some [] else none
    | .free => none
    | .unset => none
    | .internal z o =>
      match pathFrom s v fuel z with
      | some q => some (false :: q)
      | none =>
        match pathFrom s v fuel o with
        | some q => some (true :: q)
        | none => none

/-- `lookup(v)` (R120). The lookup table only caches it (R121), so there is none here (log 9). -/
def lookupPath (s : State) (v : Byte) : Option (List Bool) := pathFrom s v s.params.nodeCap s.root

/-- CODE_BITS`k` of a code path: bit `i` of the path is bit `31 - (i mod 32)` of CODE_BITS`(i div 32)`, the rest 0 (R37). -/
def codeBitsWord (q : List Bool) (k : Nat) : Word := BitVec.ofNat 32 (packBits 32 (q.drop (32 * k)))

/-- CODE_BITS0 to CODE_BITS7 of a code path (R37, R122). -/
def codeBitsOf (q : List Bool) : Vector Word 8 :=
  #v[codeBitsWord q 0, codeBitsWord q 1, codeBitsWord q 2, codeBitsWord q 3,
     codeBitsWord q 4, codeBitsWord q 5, codeBitsWord q 6, codeBitsWord q 7]

/-- LOOKUP after its checks (R122). -/
def lookupRun (v : Byte) (s : State) : BodyResult :=
  match lookupPath s v with
  | none => .raised .noCode (v.setWidth 32) s
  | some q => .completed { s with codeLen := BitVec.ofNat 32 q.length, codeBits := codeBitsOf q }

/-- The body of LOOKUP (R122). -/
def lookupBody (v : Byte) : State → BodyResult := guarded [checkTree, checkComplete] (lookupRun v)

/-- LOOKUP v (R122). -/
def execLookup (v : Byte) (s : State) : Host.Outcome State Fault Refusal :=
  .next (runFrame (wordOf (.lookup v)) (lookupBody v) s)

/-- The loop of `encode_body` (R123) over the bytes from index `i` on. -/
def encodeBytes : List Byte → Nat → State → BodyResult
  | [], _, s => .completed s
  | v :: rest, i, s =>
    match lookupPath s v with
    | none => .raised .noCode (BitVec.ofNat 32 i) s
    | some q =>
      match appendBits q s with
      | .raised e info s' => .raised e info s'
      | .completed s' => encodeBytes rest (i + 1) s'

/-- `encode_body()` (R123). -/
def encodeRun (s : State) : BodyResult := encodeBytes (blockBytes s) 0 s

/-- ENCODE after its checks (R124): after a running error BITS_LEN is restored; at the end the tail is zero-filled. -/
def encodeAppend (s : State) : BodyResult :=
  match encodeRun s with
  | .raised e info s' => .raised e info { s' with bitsLen := s.bitsLen }
  | .completed s' => .completed (zeroFillTail s')

/-- The body of ENCODE (R124). -/
def encodeBody : State → BodyResult := guarded [checkBlkLen, checkBitsLen, checkTree, checkComplete] encodeAppend

/-- ENCODE (R124). -/
def execEncode (s : State) : Host.Outcome State Fault Refusal :=
  .next (runFrame (wordOf .encode) encodeBody s)

/-- The loop of `decode_body` (R125), at node `n` with `t` bits of the current walk consumed. An internal node reads a bit
and goes to a child, or ends normally when the bits run out; a leaf emits its byte and the walk restarts from the root. -/
def decodeLoop : Nat → NodeIdx → Nat → State → BodyResult
  | 0, _, _, s => .completed s
  | fuel + 1, n, t, s =>
    match s.node n.toNat with
    | .internal z o =>
      match readBit s with
      | none => .completed { s with tailBits := BitVec.ofNat 32 t }
      | some (b, s') => decodeLoop fuel (if b then o else z) (t + 1) s'
    | d =>
      if s.params.blockMax ≤ s.blkLen.toNat then .raised .blkOverflow s.cursor { s with blkLen := 0 }
      else decodeLoop fuel s.root 0 { s.setBlkByte s.blkLen.toNat d.value with blkLen := s.blkLen + 1 }

/-- `decode_body()` (R125). Every bit read brings at most one byte out, so the bound is enough (log 7). -/
def decodeRun (s : State) : BodyResult :=
  let s := { s with blkLen := 0, tailBits := 0 }
  if (s.node s.root.toNat).isLeaf then .completed s
  else decodeLoop (2 * bitsLeft s + 2) s.root 0 s

/-- The body of DECODE (R126). -/
def decodeBody : State → BodyResult := guarded [checkBitsLen, checkCursor, checkTree, checkComplete] decodeRun

/-- DECODE (R126). -/
def execDecode (s : State) : Host.Outcome State Fault Refusal :=
  .next (runFrame (wordOf .decode) decodeBody s)

/-- The output of COMPRESS, header then payload (R127), from a state whose tree is built and whose BITS_LEN is 0. -/
def compressOutput (s : State) : BodyResult :=
  match serRoot s with
  | .raised e info s' => .raised e info s'
  | .completed s' => encodeRun { s' with hdrLen := s'.bitsLen }

/-- COMPRESS after its checks (R127): on BitsOverflow there is no output at all. -/
def compressRun (s : State) : BodyResult :=
  match compressOutput (buildRun { s with bitsLen := 0, hdrLen := 0 }) with
  | .raised e info s' => .raised e info { s' with bitsLen := 0, hdrLen := 0 }
  | .completed s' => .completed (zeroFillTail s')

/-- The body of COMPRESS (R127). -/
def compressBody : State → BodyResult := guarded [checkBlkLen, checkBlockNotEmpty] compressRun

/-- COMPRESS (R127). -/
def execCompress (s : State) : Host.Outcome State Fault Refusal :=
  .next (runFrame (wordOf .compress) compressBody s)

/-- DECOMPRESS after its check (R128): on a header failure there is no output either. -/
def decompressRun (s : State) : BodyResult :=
  match deserializeRun { s with cursor := 0 } with
  | .raised e info s' => .raised e info { s' with blkLen := 0, tailBits := 0 }
  | .completed s' => decodeRun s'

/-- The body of DECOMPRESS (R128). -/
def decompressBody : State → BodyResult := guarded [checkBitsLen] decompressRun

/-- DECOMPRESS (R128). -/
def execDecompress (s : State) : Host.Outcome State Fault Refusal :=
  .next (runFrame (wordOf .decompress) decompressBody s)

end Sys2Proof.Machine
end

