-- ==== Sys2Proof/Machine/Control.lean ====
section
/-! DEFINITION. The control family (spec/44_control.md): NOP, CLEAR. -/

namespace Sys2Proof.Machine

/-- The body of NOP is empty (R171). -/
def nopBody (s : State) : BodyResult := .completed s

/-- NOP (R171). -/
def execNop (s : State) : Host.Outcome State Fault Refusal := .next (runFrame (wordOf .nop) nopBody s)

/-- The body of CLEAR (R172): the arena is cleared, every register other than STATUS is 0, STICKY_ERR is 0. BLK and BITS
keep their contents. -/
def clearBody (s : State) : BodyResult :=
  .completed { arenaClear s with
    cmd := 0
    errCode := 0
    errInfo := 0
    blkLen := 0
    bitsLen := 0
    cursor := 0
    hdrLen := 0
    symCnt := 0
    tailBits := 0
    codeLen := 0
    codeBits := #v[0, 0, 0, 0, 0, 0, 0, 0]
    stickyErr := false }

/-- CLEAR (R172). -/
def execClear (s : State) : Host.Outcome State Fault Refusal := .next (runFrame (wordOf .clear) clearBody s)

end Sys2Proof.Machine
end

