-- ==== Sys2Proof/Machine/Dispatch.lean ====
section
/-! DEFINITION. One arm per instruction: its meaning. -/

namespace Sys2Proof.Machine

def exec (i : Instr) (s : State) : Host.Outcome State Fault Refusal :=
  match i with
  | .nop => Sys2Proof.Machine.execNop s
  | .clear => Sys2Proof.Machine.execClear s
  | .tinit => Sys2Proof.Machine.execTinit s
  | .tleaf v => Sys2Proof.Machine.execTleaf v s
  | .texpand => Sys2Proof.Machine.execTexpand s
  | .serialize => Sys2Proof.Machine.execSerialize s
  | .deserialize => Sys2Proof.Machine.execDeserialize s
  | .build => Sys2Proof.Machine.execBuild s
  | .lookup v => Sys2Proof.Machine.execLookup v s
  | .encode => Sys2Proof.Machine.execEncode s
  | .decode => Sys2Proof.Machine.execDecode s
  | .compress => Sys2Proof.Machine.execCompress s
  | .decompress => Sys2Proof.Machine.execDecompress s
  | .hExpand => Sys2Proof.Machine.execHExpand s
  | .hLeaf v => Sys2Proof.Machine.execHLeaf v s

end Sys2Proof.Machine
end

