-- ==== Sys2Proof/Machine/HostBus.lean ====
section
/-! DEFINITION. The host's view (spec/20_memory.md and R21): the address map, the register file, the apertures, what one host
access does, and hardware reset. -/

namespace Sys2Proof.Machine

/-- What a bus address names (R51): a register word, a byte of BLK, a byte of BITS, or word 0 (`second = false`) or word 1
of an arena entry. -/
inductive Target where
  | reg (r : Reg)
  | blkByte (i : Nat)
  | bitsByte (j : Nat)
  | nodeWord (n : Nat) (second : Bool)
  deriving DecidableEq, Repr

/-- The register file by word number, offset / 4 (R21). -/
def regTable : List Reg :=
  [.cmd, .status, .errCode, .errInfo, .blkLen, .bitsLen, .cursor, .hdrLen, .nodeCnt, .root, .pend, .symCnt, .tailBits,
   .codeLen, .reserved false, .reserved true, .codeBits 0, .codeBits 1, .codeBits 2, .codeBits 3, .codeBits 4, .codeBits 5,
   .codeBits 6, .codeBits 7]

/-- The address map (R51): the target of a byte address, and whether the address is a multiple of 4 where the region is
accessed by words; `none` when the address is unmapped. -/
def targetOf (p : Params) (addr : Nat) : Option Target :=
  if addr < 0x60 then (regTable[addr / 4]?).map .reg
  else if 0x01000000 ≤ addr ∧ addr < 0x01000000 + p.blockMax then some (.blkByte (addr - 0x01000000))
  else if 0x02000000 ≤ addr ∧ addr < 0x02000000 + p.bitsMax / 8 then some (.bitsByte (addr - 0x02000000))
  else if 0x03000000 ≤ addr ∧ addr < 0x03000000 + 8 * p.nodeCap then
    some (.nodeWord ((addr - 0x03000000) / 8) ((addr - 0x03000000) % 8 ≥ 4))
  else none

/-- The width in bits of an access to a target (R56). -/
def Target.width : Target → Nat
  | .reg _ => 32
  | .blkByte _ => 8
  | .bitsByte _ => 8
  | .nodeWord _ _ => 32

/-- Where an access goes, or why it is refused (R51, R56, R58): unmapped, of the wrong width, or a misaligned word. -/
def locate (p : Params) (width : Nat) (addr : Word) : Except Refusal Target :=
  match targetOf p addr.toNat with
  | none => .error .unmappedAddress
  | some t =>
    if width ≠ t.width then .error .wrongWidth
    else if width = 32 ∧ addr.toNat % 4 ≠ 0 then .error .misalignedWord
    else .ok t

/-- A host read of a register (R21 to R37, R45). -/
def State.readReg (s : State) : Reg → Word
  | .cmd => s.cmd
  | .status => statusWord s
  | .errCode => s.errCode.setWidth 32
  | .errInfo => s.errInfo
  | .blkLen => s.blkLen
  | .bitsLen => s.bitsLen
  | .cursor => s.cursor
  | .hdrLen => s.hdrLen
  | .nodeCnt => s.nodeCnt
  | .root => s.root.setWidth 32
  | .pend => pendWord s
  | .symCnt => s.symCnt
  | .tailBits => s.tailBits
  | .codeLen => s.codeLen
  | .reserved _ => 0
  | .codeBits k => s.codeBits[k]

/-- A host write of a register other than CMD (R45): BLK_LEN, BITS_LEN and CURSOR store the value (R27, R28, R29); a write
to any other is ignored. -/
def State.writeReg (s : State) (w : Word) : Reg → State
  | .blkLen => { s with blkLen := w }
  | .bitsLen => { s with bitsLen := w }
  | .cursor => { s with cursor := w }
  | .cmd => s
  | .status => s
  | .errCode => s
  | .errInfo => s
  | .hdrLen => s
  | .nodeCnt => s
  | .root => s
  | .pend => s
  | .symCnt => s
  | .tailBits => s
  | .codeLen => s
  | .reserved _ => s
  | .codeBits _ => s

/-- The bits of byte `j` of the BITS aperture, the earlier bit first (R53). -/
def bitsOfAperture (s : State) (j : Nat) : List Bool := (List.range 8).map (fun m => s.bit (8 * j + m))

/-- Write the bits of `bs` from index `i` of BITS on. -/
def setBits : List Bool → Nat → State → State
  | [], _, s => s
  | b :: rest, i, s => setBits rest (i + 1) (s.setBit i b)

/-- Word 0 of an arena entry (R55): kind in bits 1:0, value in bits 15:8. -/
def Node.word0 : Node → Word
  | .free => 0
  | .unset => 1
  | .leaf v => (0 : BitVec 16) ++ v ++ (2 : BitVec 8)
  | .internal _ _ => 3

/-- Word 1 of an arena entry (R55): zero in bits 15:0, one in bits 31:16. -/
def Node.word1 : Node → Word
  | .internal z o => o ++ z
  | .free => 0
  | .unset => 0
  | .leaf _ => 0

/-- What a host read returns (R21, R52, R53, R55). -/
def readTarget (s : State) : Target → Reply
  | .reg r => .word (s.readReg r)
  | .blkByte i => .byte (s.blkByte i)
  | .bitsByte j => .byte (byteOfBits (bitsOfAperture s j))
  | .nodeWord n second => .word (if second then (s.node n).word1 else (s.node n).word0)

/-- What a host write outside CMD does (R45, R52, R53, R55): a write into the NODE aperture is ignored. -/
def writeTarget (s : State) (data : Word) : Target → State
  | .reg r => s.writeReg data r
  | .blkByte i => s.setBlkByte i (data.setWidth 8)
  | .bitsByte j => setBits (bitsOfByte (data.setWidth 8)) (8 * j) s
  | .nodeWord _ _ => s

/-- An illegal word in CMD (R81, R134): the frame with the error IllegalCmd and ERRINFO the word. -/
def illegalCommand (w : Word) (s : State) : State := runFrame w (fun s => .raised .illegalCmd w s) s

/-- A host write of `w` to CMD (R23, R170). -/
def writeCmd (w : Word) (s : State) : Host.Outcome State Fault Refusal :=
  match decodeWord w with
  | .ok i => exec i s
  | .error _ => .next (illegalCommand w s)

/-- A host access while no command runs (R51 to R59). -/
def accessIdle (a : Access) (s : State) : Host.Outcome State Fault Refusal :=
  match a with
  | .read width addr =>
    match locate s.params width addr with
    | .error r => .refused r
    | .ok t => .next { s with reply := readTarget s t }
  | .write width addr data =>
    match locate s.params width addr with
    | .error r => .refused r
    | .ok (.reg .cmd) => writeCmd data { s with reply := .written }
    | .ok t => .next { writeTarget s data t with reply := .written }

/-- A host access while a command runs (R58, R155): a read of STATUS returns BUSY = 1 and unspecified other bits; any other
access is refused. Commands are atomic, so no step leaves BUSY = 1. -/
def accessBusy (a : Access) (s : State) : Host.Outcome State Fault Refusal :=
  if a = .read 32 4 then
    .next { s with reply := .word (Config.busyStatusBits s.polls ++ (1 : BitVec 1)), polls := s.polls + 1 }
  else .refused .accessWhileBusy

/-- A host access. -/
def access (a : Access) (s : State) : Host.Outcome State Fault Refusal :=
  if s.busy then accessBusy a s else accessIdle a s

/-- A header token on its own (R73). -/
def feedToken (bits : List Bool) (s : State) : Host.Outcome State Fault Refusal :=
  match decode (.header bits) with
  | .ok i => exec i s
  | .error _ => .refused .notOneToken

/-- Hardware reset (R46, R150): the reset state of the same instance, with new unspecified contents of BLK and BITS. What
the host and the platform do next is not the machine's to forget, and the counters of free values never go back. -/
def hardReset (s : State) : State :=
  { State.resetOf s.params (s.resets + 1) with inputs := s.inputs, polls := s.polls }

/-- What one input does. -/
def applyInput (i : Input) (s : State) : Host.Outcome State Fault Refusal :=
  match i with
  | .access a => access a s
  | .token bits => feedToken bits s
  | .reset => .next (hardReset s)

/-- The input that runs an encoding: a host write of the word to CMD at offset 0, or the token's bits. -/
def inputOf : Code → Input
  | .command w => .access (.write 32 0 w)
  | .header bits => .token bits

/-- What running an encoding takes of the state: no command running; and for a header token a pending node, so a state that
has none first gets the tree a header starts from (R73, R105). -/
def readyFor (c : Code) (s : State) : State :=
  match c with
  | .command _ => { s with busy := false }
  | .header _ => if (findPending s).isSome then s else treeInit s

end Sys2Proof.Machine
end

