-- ==== Sys2Proof/Machine/Step.lean ====
section
/-! DEFINITION. The step: the machine takes its next input. One host write to CMD is one step (R7, R170). -/

namespace Sys2Proof.Machine

/-- One step: take the first input and apply it; with no input the machine is idle "and keeps all state" (R166). -/
def step (s : State) : Host.Outcome State Fault Refusal :=
  match s.inputs with
  | [] => .next s
  | i :: rest => applyInput i { s with inputs := rest }

/-- `s` with the instruction whose bits are `w` as its next input, and what running it takes. -/
def State.withFetchWord (s : State) (nbits w : Nat) : State :=
  match tableCode nbits w with
  | some c => { readyFor c s with inputs := inputOf c :: s.inputs }
  | none => s

end Sys2Proof.Machine
end

