-- ==== Sys2Proof/Safety.lean ====
section
/-! DEFINITION. The words in which claims about HUFFCORE are made: how a command ended, what it left alone, the abstract tree
that the arena holds (R99), its header and its code paths, and the invariants of the machine (R40, R170). -/

namespace Sys2Proof

open Sys2Proof.Machine

/-! ## How a command ended, and frames -/

/-- The control registers after a completed command with word `w` (R170): ERR, ERRCODE, ERRINFO and BUSY are 0, DONE is 1,
STICKY_ERR is as before. -/
def Completed (w : Word) (s t : State) : Prop :=
  t.cmd = w ∧ t.busy = false ∧ t.done = true ∧ t.err = false ∧ t.errCode = 0 ∧ t.errInfo = 0 ∧ t.stickyErr = s.stickyErr

/-- The control registers after a command with word `w` that ended with error `e` (R140, R170). -/
def Errored (w : Word) (e : Err) (info : Word) (t : State) : Prop :=
  t.cmd = w ∧ t.busy = false ∧ t.done = true ∧ t.err = true ∧ t.stickyErr = true ∧ t.errCode = e.code ∧ t.errInfo = info

/-- The registers that the command frame writes (R170). -/
def frameRegs : List Reg := [.cmd, .status, .errCode, .errInfo]

/-- The registers that are computed from the arena or follow it: they change when the tree does (R24, R31, R32, R33). -/
def treeRegs : List Reg := [.nodeCnt, .root, .pend]

/-- Every register but those listed reads as before. -/
def SameRegs (changed : List Reg) (s t : State) : Prop := ∀ r, r ∉ changed → t.readReg r = s.readReg r

/-- Every byte of BLK reads as before. -/
def SameBlk (s t : State) : Prop := ∀ i, t.blkByte i = s.blkByte i

/-- Every bit of BITS reads as before. -/
def SameBits (s t : State) : Prop := ∀ i, t.bit i = s.bit i

/-- Every arena entry reads as before. -/
def SameNodes (s t : State) : Prop := ∀ n, t.node n = s.node n

/-- The derived STATUS fields TREE_PRESENT, TREE_COMPLETE, SINGLE and TAIL read as before. -/
def SameDerivedFlags (s t : State) : Prop :=
  (t.readReg .status).extractLsb' 4 4 = (s.readReg .status).extractLsb' 4 4

/-- The parameters and the model's own fields are as before. -/
def SameSurroundings (s t : State) : Prop :=
  t.params = s.params ∧ t.inputs = s.inputs ∧ t.reply = s.reply ∧ t.resets = s.resets ∧ t.polls = s.polls

/-- Nothing but the control registers changed: what an error leaves that strikes before any work (R149). -/
def OnlyFrameChanged (s t : State) : Prop :=
  SameRegs frameRegs s t ∧ SameDerivedFlags s t ∧ SameBlk s t ∧ SameBits s t ∧ SameNodes s t ∧ SameSurroundings s t

/-- The instruction ends with error `e`, and nothing but the control registers changes. -/
def EndsErrored (i : Instr) (s : State) (e : Err) (info : Word) : Prop :=
  ∃ t, exec i s = .next t ∧ Errored (wordOf i) e info t ∧ OnlyFrameChanged s t

/-- The bits of `l` were appended at BITS_LEN (R13), and the bits from the new BITS_LEN to the next byte boundary are 0 (R16);
every other bit reads as before. -/
def BitsAppended (l : List Bool) (s t : State) : Prop :=
  t.bitsLen.toNat = s.bitsLen.toNat + l.length ∧
    (∀ (j : Nat) (h : j < l.length), t.bit (s.bitsLen.toNat + j) = l[j]) ∧
    (∀ j, s.bitsLen.toNat + l.length ≤ j → j < (s.bitsLen.toNat + l.length + 7) / 8 * 8 → t.bit j = false) ∧
    ∀ j, j < s.bitsLen.toNat ∨ (s.bitsLen.toNat + l.length + 7) / 8 * 8 ≤ j → t.bit j = s.bit j

/-- The bytes of `l` stand at the front of BLK; every other byte reads as before. -/
def BlkWritten (l : List Byte) (s t : State) : Prop :=
  (∀ (j : Nat) (h : j < l.length), t.blkByte j = l[j]) ∧ ∀ j, l.length ≤ j → t.blkByte j = s.blkByte j

/-- There is no tree (R90, R107). -/
def NoTree (t : State) : Prop := t.nodeCnt = 0 ∧ t.root = 0 ∧ ∀ n, t.node n = .free

/-- The bits still to be read: from CURSOR to BITS_LEN (R15). -/
def Machine.bitsFrom (s : State) : List Bool := (List.range (bitsLeft s)).map (fun k => s.bit (s.cursor.toNat + k))

/-! ## Host accesses -/

/-- The address is in the map (R51). -/
def Mapped (p : Params) (addr : Nat) : Prop :=
  addr < 0x60 ∨ (0x01000000 ≤ addr ∧ addr < 0x01000000 + p.blockMax) ∨
    (0x02000000 ≤ addr ∧ addr < 0x02000000 + p.bitsMax / 8) ∨ (0x03000000 ≤ addr ∧ addr < 0x03000000 + 8 * p.nodeCap)

/-- An access of this width at this address is one the spec allows (R51, R56): mapped; 32 bits wide and aligned in REG and
NODE, 8 bits wide in BLK and BITS. -/
def AccessAllowed (p : Params) (width addr : Nat) : Prop :=
  Mapped p addr ∧
    ((addr < 0x60 ∨ 0x03000000 ≤ addr) → width = 32 ∧ addr % 4 = 0) ∧
    (0x01000000 ≤ addr ∧ addr < 0x03000000 → width = 8)

/-- A host read of the word at `addr` returns `w` and changes nothing. -/
def ReadsWord (s : State) (addr w : Word) : Prop := access (.read 32 addr) s = .next { s with reply := .word w }

/-- The width of a bus access. -/
def Machine.Access.width : Access → Nat
  | .read w _ => w
  | .write w _ _ => w

/-- The address of a bus access. -/
def Machine.Access.addr : Access → Word
  | .read _ a => a
  | .write _ a _ => a

/-! ## The abstract tree -/

/-- A strict binary tree over byte values, with unset nodes while it is under construction (R36, R99). -/
inductive CodeTree where
  | unset
  | leaf (v : Byte)
  | node (zero one : CodeTree)
  deriving DecidableEq, Repr

/-- No node is unset (R41). -/
def CodeTree.complete : CodeTree → Bool
  | .unset => false
  | .leaf _ => true
  | .node a b => a.complete && b.complete

/-- The number of nodes. -/
def CodeTree.size : CodeTree → Nat
  | .unset => 1
  | .leaf _ => 1
  | .node a b => a.size + b.size + 1

/-- The number of edges on the longest way down. -/
def CodeTree.depth : CodeTree → Nat
  | .unset => 0
  | .leaf _ => 0
  | .node a b => max a.depth b.depth + 1

/-- The leaf values in depth-first pre-order, zero-child first (R72). -/
def CodeTree.values : CodeTree → List Byte
  | .unset => []
  | .leaf v => [v]
  | .node a b => a.values ++ b.values

/-- The header: the tree's tokens in depth-first pre-order, `1` for an internal node, `0` and eight value bits for a leaf
(R73, R100). -/
def CodeTree.header : CodeTree → List Bool
  | .unset => []
  | .leaf v => false :: bitsOfByte v
  | .node a b => true :: (a.header ++ b.header)

/-- The code path of `v`: the choices from the root to the first leaf with value `v` in pre-order (R120). -/
def CodeTree.path (v : Byte) : CodeTree → Option (List Bool)
  | .unset => none
  | .leaf u => if u = v then some [] else none
  | .node a b =>
    match a.path v with
    | some q => some (false :: q)
    | none =>
      match b.path v with
      | some q => some (true :: q)
      | none => none

/-- The payload of a block: the code paths of its bytes, one after the other (R75); `none` when a byte has no leaf. -/
def CodeTree.payload (t : CodeTree) : List Byte → Option (List Bool)
  | [] => some []
  | v :: rest =>
    match t.path v, t.payload rest with
    | some q, some p => some (q ++ p)
    | _, _ => none

/-- Follow a bit sequence down from the root: the subtree it ends at; `none` when it would go on below a leaf (R125). -/
def CodeTree.walk : CodeTree → List Bool → Option CodeTree
  | t, [] => some t
  | .node a _, false :: rest => a.walk rest
  | .node _ b, true :: rest => b.walk rest
  | .unset, _ :: _ => none
  | .leaf _, _ :: _ => none

/-- Put `x` in the place of the first unset node in depth-first pre-order. -/
def CodeTree.fillFirst (x : CodeTree) : CodeTree → CodeTree
  | .unset => x
  | .leaf v => .leaf v
  | .node a b => if a.complete then .node a (CodeTree.fillFirst x b) else .node (CodeTree.fillFirst x a) b

/-- The leaf records of a tree, in order (R71, R72): `d` ones, a zero and eight value bits each. -/
def CodeTree.records : CodeTree → List (List Bool)
  | .unset => []
  | .leaf v => [false :: bitsOfByte v]
  | .node a b =>
    match a.records with
    | [] => b.records
    | r :: rest => (true :: r) :: (rest ++ b.records)

/-- The header as tokens: the instructions that build the tree, one per node in depth-first pre-order (R73, R98). -/
def CodeTree.tokens : CodeTree → List Instr
  | .unset => []
  | .leaf v => [.hLeaf v]
  | .node a b => .hExpand :: (a.tokens ++ b.tokens)

/-- What the decoder makes of a bit sequence (R125): codes, each a walk from the root to a leaf, with the bytes of those
leaves, and a rest that ends at an internal node. -/
def CodeTree.Decoding (t : CodeTree) (bits : List Bool) (codes : List (List Bool)) (bytes : List Byte) (rest : List Bool) : Prop :=
  bits = codes.flatten ++ rest ∧ codes.map t.walk = bytes.map (fun v => some (.leaf v)) ∧
    ∃ x y, t.walk rest = some (.node x y)

/-- The subtree of the arena under entry `n` is `t`, and its entries in pre-order are `is` (R36, R40). -/
def Holds (s : State) : CodeTree → NodeIdx → List Nat → Prop
  | .unset, n, is => s.node n.toNat = .unset ∧ is = [n.toNat]
  | .leaf v, n, is => s.node n.toNat = .leaf v ∧ is = [n.toNat]
  | .node a b, n, is =>
    ∃ z o xs ys, s.node n.toNat = .internal z o ∧ Holds s a z xs ∧ Holds s b o ys ∧ is = n.toNat :: (xs ++ ys)

/-- The arena holds the tree `t`: it hangs under ROOT, and its entries are exactly the allocated ones, each once; the others
are FREE; NODE_CNT is within the capacity (R36, R40(b), R40(c)). -/
def HoldsTree (s : State) (t : CodeTree) : Prop :=
  (∃ is, Holds s t s.root is ∧ is.Perm (List.range s.nodeCnt.toNat)) ∧
    (∀ n, s.nodeCnt.toNat ≤ n → s.node n = .free) ∧ s.nodeCnt.toNat ≤ s.params.nodeCap

/-! ## The abstract builder -/

/-- The builder's one insertion rule over abstract trees: after every entry of weight at most its own (R112). -/
def CodeTree.insertByWeight (e : Nat × CodeTree) : List (Nat × CodeTree) → List (Nat × CodeTree)
  | [] => [e]
  | x :: rest => if x.1 ≤ e.1 then x :: CodeTree.insertByWeight e rest else e :: x :: rest

/-- Merge the two entries at the head while there are two: the first becomes the zero-child (R113). -/
def CodeTree.mergeByWeight : Nat → List (Nat × CodeTree) → List (Nat × CodeTree)
  | n + 1, x :: y :: rest => CodeTree.mergeByWeight n (CodeTree.insertByWeight (x.1 + y.1, .node x.2 y.2) rest)
  | _, l => l

/-- One leaf for each distinct value of the block, in first-encounter order, with its count (R110, R111). -/
def CodeTree.leavesOf (block : List Byte) : List (Nat × CodeTree) :=
  block.eraseDups.map (fun v => (block.count v, .leaf v))

/-- The tree the builder makes of a block (R110 to R114), as an abstract value (R99). -/
def CodeTree.huffman (block : List Byte) : CodeTree :=
  let leaves := (CodeTree.leavesOf block).foldl (fun l e => CodeTree.insertByWeight e l) []
  match CodeTree.mergeByWeight leaves.length leaves with
  | e :: _ => e.2
  | [] => .unset

/-- The order of the worklist: by weight, and among equal weights by arena index, which is the order of insertion (R111,
R112, R118). -/
def Machine.WorkEntry.Before (x y : WorkEntry) : Prop :=
  x.weight < y.weight ∨ (x.weight = y.weight ∧ x.node.toNat < y.node.toNat)

/-- Run instructions one after the other. -/
def runAll : List Instr → State → Host.Outcome State Fault Refusal
  | [], s => .next s
  | i :: rest, s =>
    match exec i s with
    | .next s' => runAll rest s'
    | .fault r => .fault r
    | .refused r => .refused r

/-- The UNSET entries under entry `n`, in depth-first pre-order, `fuel` levels deep. -/
def pendingUnder (s : State) : Nat → NodeIdx → List NodeIdx
  | 0, _ => []
  | fuel + 1, n =>
    match s.node n.toNat with
    | .unset => [n]
    | .free => []
    | .leaf _ => []
    | .internal z o => pendingUnder s fuel z ++ pendingUnder s fuel o

/-- The pending stack, top first (R94): the UNSET entries of the tree in depth-first pre-order. -/
def pendingStack (s : State) : List NodeIdx := if s.nodeCnt = 0 then [] else pendingUnder s s.params.nodeCap s.root

/-- The commands that read BLK_LEN, BITS_LEN and CURSOR and check it (R143). -/
def Instr.checksBlkLen : Instr → Bool
  | .build | .encode | .compress => true
  | .nop | .clear | .tinit | .tleaf _ | .texpand | .serialize | .deserialize | .lookup _ | .decode | .decompress
  | .hExpand | .hLeaf _ => false

@[inherit_doc Instr.checksBlkLen]
def Instr.checksBitsLen : Instr → Bool
  | .serialize | .deserialize | .encode | .decode | .decompress => true
  | .nop | .clear | .tinit | .tleaf _ | .texpand | .build | .lookup _ | .compress | .hExpand | .hLeaf _ => false

@[inherit_doc Instr.checksBlkLen]
def Instr.checksCursor : Instr → Bool
  | .deserialize | .decode => true
  | .nop | .clear | .tinit | .tleaf _ | .texpand | .serialize | .build | .lookup _ | .encode | .compress | .decompress
  | .hExpand | .hLeaf _ => false

/-- The ERRINFO of the BadLength that a command raises in a state (R143); `none` when every length it reads is legal. -/
def badLength (i : Instr) (s : State) : Option Word :=
  if i.checksBlkLen = true ∧ s.params.blockMax < s.blkLen.toNat then some 1
  else if i.checksBitsLen = true ∧ s.params.bitsMax < s.bitsLen.toNat then some 2
  else if i.checksCursor = true ∧ s.bitsLen.toNat < s.cursor.toNat then some 3
  else none

/-! ## Invariants -/

/-- Every store is in its canonical form and lists nothing beyond its capacity (BLK, BITS), or beyond NODE_CNT (NODE), which
is at most NODE_CAP (R36, R38, R39). -/
def StoresOk (s : State) : Prop :=
  (Memory.wf s.blk ∧ ∀ e ∈ s.blk, e.1 < s.params.blockMax) ∧
    (Memory.wf s.bits ∧ ∀ e ∈ s.bits, e.1 < s.params.bitsMax) ∧
    (Memory.wfNodes s.nodes ∧ ∀ e ∈ s.nodes, e.1 < s.nodeCnt.toNat) ∧ s.nodeCnt.toNat ≤ s.params.nodeCap

/-- The arena is empty, or holds one strict binary tree that owns every allocated entry exactly once (R40(b), R40(c)). -/
def ArenaOk (s : State) : Prop :=
  NoTree s ∨ ∃ t, HoldsTree s t

/-- The stored STATUS fields agree with ERRCODE and with each other between two steps (R24, R25, R26, R170): BUSY is 0; ERR is
1 exactly when ERRCODE is not 0; an error has set DONE and STICKY_ERR; without one ERRINFO is 0. -/
def StatusOk (s : State) : Prop :=
  s.busy = false ∧ (s.err = true ↔ s.errCode ≠ 0) ∧ (s.err = true → s.stickyErr = true ∧ s.done = true) ∧
    (s.err = false → s.errInfo = 0)

/-- The instruction is a command of R80, not a header token. -/
def Instr.isCommand : Instr → Bool
  | .hExpand => false
  | .hLeaf _ => false
  | .nop => true
  | .clear => true
  | .tinit => true
  | .tleaf _ => true
  | .texpand => true
  | .serialize => true
  | .deserialize => true
  | .build => true
  | .lookup _ => true
  | .encode => true
  | .decode => true
  | .compress => true
  | .decompress => true

end Sys2Proof
end

