-- ==== Sys2Proof/Certificates/Slice0/Obligations.lean ====
section
/-! DEFINITION. The statements about HUFFCORE for the provers: each says which rule of spec/ it formalises. -/

open Sys2Proof Sys2Proof.Machine

/-! ## Encoding -/

/-- R73, R80: the words written out from the opcode map, and the two header tokens, decode to what they stand for. -/
def Obligations.OpcodeWords : Prop :=
  decode (.command 0x00000000) = .ok .nop ∧ decode (.command 0x00000001) = .ok .clear ∧
    decode (.command 0x00000010) = .ok .tinit ∧ decode (.command 0x00004111) = .ok (.tleaf 0x41) ∧
    decode (.command 0x00000012) = .ok .texpand ∧ decode (.command 0x00000020) = .ok .serialize ∧
    decode (.command 0x00000021) = .ok .deserialize ∧ decode (.command 0x00000030) = .ok .build ∧
    decode (.command 0x00004440) = .ok (.lookup 0x44) ∧ decode (.command 0x00000041) = .ok .encode ∧
    decode (.command 0x00000042) = .ok .decode ∧ decode (.command 0x00000050) = .ok .compress ∧
    decode (.command 0x00000051) = .ok .decompress ∧ decode (.header [true]) = .ok .hExpand ∧
    decode (.header [false, false, true, false, false, false, false, false, true]) = .ok (.hLeaf 0x41)

/-- R80: a word selects a command exactly when it matches the command's row under the row's mask; ARG is bits 15:8 (R78). -/
def Obligations.OpcodeMap : Prop :=
  ∀ w : Word,
    (decode (.command w) = .ok .nop ↔ w &&& 0xFFFFFFFF = 0x00000000) ∧
    (decode (.command w) = .ok .clear ↔ w &&& 0xFFFFFFFF = 0x00000001) ∧
    (decode (.command w) = .ok .tinit ↔ w &&& 0xFFFFFFFF = 0x00000010) ∧
    (∀ v, decode (.command w) = .ok (.tleaf v) ↔ w &&& 0xFFFF00FF = 0x00000011 ∧ w.extractLsb' 8 8 = v) ∧
    (decode (.command w) = .ok .texpand ↔ w &&& 0xFFFFFFFF = 0x00000012) ∧
    (decode (.command w) = .ok .serialize ↔ w &&& 0xFFFFFFFF = 0x00000020) ∧
    (decode (.command w) = .ok .deserialize ↔ w &&& 0xFFFFFFFF = 0x00000021) ∧
    (decode (.command w) = .ok .build ↔ w &&& 0xFFFFFFFF = 0x00000030) ∧
    (∀ v, decode (.command w) = .ok (.lookup v) ↔ w &&& 0xFFFF00FF = 0x00000040 ∧ w.extractLsb' 8 8 = v) ∧
    (decode (.command w) = .ok .encode ↔ w &&& 0xFFFFFFFF = 0x00000041) ∧
    (decode (.command w) = .ok .decode ↔ w &&& 0xFFFFFFFF = 0x00000042) ∧
    (decode (.command w) = .ok .compress ↔ w &&& 0xFFFFFFFF = 0x00000050) ∧
    (decode (.command w) = .ok .decompress ↔ w &&& 0xFFFFFFFF = 0x00000051)

/-- R73, R78, R80: decoding an encoded instruction gives it back, with every operand value; and an encoding has one meaning:
whatever decodes to an instruction is that instruction's encoding. -/
def Obligations.DecodeEncodeAgree : Prop :=
  (∀ i, (encode i).wellFormed = true ∧ decode (encode i) = .ok i) ∧ ∀ c i, decode c = .ok i → c = encode i

/-- R81, R134: which words are illegal, how many are legal, and what writing an illegal one to CMD does. -/
def Obligations.IllegalWords : Prop :=
  (∀ w : Word, (∃ i, decode (.command w) = .ok i) ↔
      w.extractLsb' 16 16 = 0 ∧
        w.extractLsb' 0 8 ∈ ([0x00, 0x01, 0x10, 0x11, 0x12, 0x20, 0x21, 0x30, 0x40, 0x41, 0x42, 0x50, 0x51] : List Byte) ∧
        (w.extractLsb' 0 8 ∈ ([0x11, 0x40] : List Byte) ∨ w.extractLsb' 8 8 = 0)) ∧
    (∃ legal : List Word, legal.Nodup ∧ legal.length = 523 ∧ ∀ w, w ∈ legal ↔ ∃ i, decode (.command w) = .ok i) ∧
    ∀ (s : State) (w : Word) (rest : List Input), s.busy = false → s.inputs = .access (.write 32 0 w) :: rest →
      (∀ i, decode (.command w) ≠ .ok i) →
      ∃ t, step s = .next t ∧ Errored w .illegalCmd w t ∧
        OnlyFrameChanged { s with inputs := rest, reply := .written } t

/-! ## Steps and host accesses -/

/-- R23, R170: when the next thing the host does is to write to CMD a word that decodes to an instruction, the step is `exec`
of that instruction, at the state with that input taken and the write accepted; when the host does nothing HUFFCORE is idle and
keeps all state (R166). -/
def Obligations.StepRunsCommand : Prop :=
  (∀ (s : State) (w : Word) (i : Instr) (rest : List Input), s.busy = false →
    s.inputs = .access (.write 32 0 w) :: rest → decode (.command w) = .ok i →
    step s = exec i { s with inputs := rest, reply := .written }) ∧
  ∀ s : State, s.inputs = [] → step s = .next s

/-- R73, with the model's choice of log 3 that a token is an input of its own: the step is `exec` of the token; bits that are
not one token, and a token when no node is pending, are refused. -/
def Obligations.StepRunsToken : Prop :=
  ∀ (s : State) (bits : List Bool) (rest : List Input), s.inputs = .token bits :: rest →
    (∀ i, decode (.header bits) = .ok i → step s = exec i { s with inputs := rest }) ∧
    ((∀ i, decode (.header bits) ≠ .ok i) → step s = .refused .notOneToken) ∧
    (findPending s = none → ∀ v,
      exec .hExpand s = .refused .tokenWithoutPendingNode ∧ exec (.hLeaf v) s = .refused .tokenWithoutPendingNode)

/-- R58: exactly the accesses to an unmapped address, of the wrong width or alignment are refused while no command runs; while
one runs every access but a read of STATUS is, and that read returns BUSY = 1 and the rest unspecified (a free value). -/
def Obligations.RefusedAccesses : Prop :=
  ∀ (s : State) (a : Access),
    (s.busy = false → ((∃ r, access a s = .refused r) ↔ ¬ AccessAllowed s.params a.width a.addr.toNat)) ∧
    (s.busy = true → a ≠ .read 32 4 → ∃ r, access a s = .refused r) ∧
    (s.busy = true → ∃ t w, access (.read 32 4) s = .next t ∧ t.reply = .word w ∧ w.getLsbD 0 = true ∧
      w.extractLsb' 1 31 = Config.busyStatusBits s.polls ∧ t = { s with reply := .word w, polls := s.polls + 1 })

/-- R21 to R37: what a host read of each word of the register file but STATUS returns; it changes nothing. (STATUS, at 0x04:
`StatusFields`.) -/
def Obligations.RegisterReads : Prop :=
  ∀ s : State, s.busy = false →
    ReadsWord s 0x00 s.cmd ∧ ReadsWord s 0x08 (s.errCode.setWidth 32) ∧ ReadsWord s 0x0C s.errInfo ∧
    ReadsWord s 0x10 s.blkLen ∧ ReadsWord s 0x14 s.bitsLen ∧ ReadsWord s 0x18 s.cursor ∧ ReadsWord s 0x1C s.hdrLen ∧
    ReadsWord s 0x20 s.nodeCnt ∧ ReadsWord s 0x24 (s.root.setWidth 32) ∧
    (∀ p, findPending s = some p → ReadsWord s 0x28 (p.setWidth 32)) ∧
    (findPending s = none → ReadsWord s 0x28 0xFFFFFFFF) ∧
    ReadsWord s 0x2C s.symCnt ∧ ReadsWord s 0x30 s.tailBits ∧ ReadsWord s 0x34 s.codeLen ∧
    ReadsWord s 0x38 0 ∧ ReadsWord s 0x3C 0 ∧
    (∀ k : Fin 8, ReadsWord s (0x40 + 4 * BitVec.ofNat 32 k.val) s.codeBits[k])

/-- R24: the fields of STATUS as a host read returns them. -/
def Obligations.StatusFields : Prop :=
  ∀ s : State, s.busy = false → ∃ w : Word, ReadsWord s 0x04 w ∧
    w.getLsbD 0 = false ∧ w.getLsbD 1 = s.done ∧ w.getLsbD 2 = s.err ∧ w.getLsbD 3 = s.stickyErr ∧
    (w.getLsbD 4 = true ↔ s.nodeCnt ≠ 0) ∧ (w.getLsbD 5 = true ↔ s.nodeCnt ≠ 0 ∧ findPending s = none) ∧
    (w.getLsbD 6 = true ↔ s.nodeCnt ≠ 0 ∧ ∃ v, s.node s.root.toNat = .leaf v) ∧ (w.getLsbD 7 = true ↔ s.tailBits ≠ 0) ∧
    ∀ k, 8 ≤ k → w.getLsbD k = false

/-- R45: a host write to a read-only register is ignored; the reserved words read as 0 and ignore writes; the reserved bits of
STATUS, ERRCODE and ROOT read as 0. -/
def Obligations.ReadOnlyRegisters : Prop :=
  ∀ s : State, s.busy = false →
    (∀ addr data : Word, addr.toNat < 0x60 → addr.toNat % 4 = 0 → addr ∉ ([0x00, 0x10, 0x14, 0x18] : List Word) →
      access (.write 32 addr data) s = .next { s with reply := .written }) ∧
    ReadsWord s 0x38 0 ∧ ReadsWord s 0x3C 0 ∧
    (∀ w, ReadsWord s 0x04 w → w.extractLsb' 8 24 = 0) ∧ (∀ w, ReadsWord s 0x08 w → w.extractLsb' 8 24 = 0) ∧
    (∀ w, ReadsWord s 0x24 w → w.extractLsb' 16 16 = 0)

/-- R59: every host read is free of side effects; a host write to BLK_LEN, BITS_LEN or CURSOR stores the value and does
nothing else; a host write other than to CMD, repeated, changes nothing more. (The writes to BLK and BITS themselves:
`BlkAperture`, `BitsAperture`.) -/
def Obligations.HostAccessEffects : Prop :=
  ∀ s : State, s.busy = false →
    (∀ width addr t, access (.read width addr) s = .next t → t = { s with reply := t.reply }) ∧
    (∀ w, access (.write 32 0x10 w) s = .next { s with blkLen := w, reply := .written } ∧
      access (.write 32 0x14 w) s = .next { s with bitsLen := w, reply := .written } ∧
      access (.write 32 0x18 w) s = .next { s with cursor := w, reply := .written }) ∧
    (∀ width addr data t, addr ≠ 0 → access (.write width addr data) s = .next t →
      access (.write width addr data) t = .next t)

/-- R52: the BLK aperture reads and writes one byte and has no other effect. -/
def Obligations.BlkAperture : Prop :=
  ∀ (s : State) (i : Nat) (data : Word), s.busy = false → i < s.params.blockMax →
    access (.read 8 (BitVec.ofNat 32 (0x01000000 + i))) s = .next { s with reply := .byte (s.blkByte i) } ∧
    ∃ t, access (.write 8 (BitVec.ofNat 32 (0x01000000 + i)) data) s = .next t ∧ t.blkByte i = data.setWidth 8 ∧
      (∀ j, j ≠ i → t.blkByte j = s.blkByte j) ∧ SameRegs [] s t ∧ SameBits s t ∧ SameNodes s t ∧
      SameSurroundings { s with reply := .written } t

/-- R53: byte `j` of the BITS aperture is bits `8j` to `8j+7` of BITS, the earlier bit in the more significant position; a
write sets those eight bits and changes nothing else, BITS_LEN neither. -/
def Obligations.BitsAperture : Prop :=
  ∀ (s : State) (j : Nat) (data : Word), s.busy = false → j < s.params.bitsMax / 8 →
    (∃ b : Byte, access (.read 8 (BitVec.ofNat 32 (0x02000000 + j))) s = .next { s with reply := .byte b } ∧
      (∀ m, m < 8 → b.getLsbD (7 - m) = s.bit (8 * j + m)) ∧
      b.toNat = ((List.range 8).map (fun m => (s.bit (8 * j + m)).toNat * 2 ^ (7 - m))).sum) ∧
    ∃ t, access (.write 8 (BitVec.ofNat 32 (0x02000000 + j)) data) s = .next t ∧
      (∀ m, m < 8 → t.bit (8 * j + m) = data.getLsbD (7 - m)) ∧
      (∀ i, i < 8 * j ∨ 8 * j + 8 ≤ i → t.bit i = s.bit i) ∧ SameRegs [] s t ∧ SameBlk s t ∧ SameNodes s t ∧
      SameSurroundings { s with reply := .written } t

/-- R55: the two words of an arena entry as the NODE aperture shows them; a host write into it is ignored. -/
def Obligations.NodeAperture : Prop :=
  ∀ (s : State) (n : Nat), s.busy = false → n < s.params.nodeCap →
    (∃ w, ReadsWord s (BitVec.ofNat 32 (0x03000000 + 8 * n)) w ∧ w.extractLsb' 2 6 = 0 ∧ w.extractLsb' 16 16 = 0 ∧
      match s.node n with
      | .free => w.extractLsb' 0 2 = 0 ∧ w.extractLsb' 8 8 = 0
      | .unset => w.extractLsb' 0 2 = 1 ∧ w.extractLsb' 8 8 = 0
      | .leaf v => w.extractLsb' 0 2 = 2 ∧ w.extractLsb' 8 8 = v
      | .internal _ _ => w.extractLsb' 0 2 = 3 ∧ w.extractLsb' 8 8 = 0) ∧
    (∃ w, ReadsWord s (BitVec.ofNat 32 (0x03000000 + 8 * n + 4)) w ∧
      match s.node n with
      | .internal z o => w.extractLsb' 0 16 = z ∧ w.extractLsb' 16 16 = o
      | .free => w = 0
      | .unset => w = 0
      | .leaf _ => w = 0) ∧
    ∀ data,
      access (.write 32 (BitVec.ofNat 32 (0x03000000 + 8 * n)) data) s = .next { s with reply := .written } ∧
      access (.write 32 (BitVec.ofNat 32 (0x03000000 + 8 * n + 4)) data) s = .next { s with reply := .written }

/-! ## Reset and the control family -/

/-- R46, R150: hardware reset from any state, a running command included: every register reads 0 but PEND, the arena is FREE;
the parameters and what the host does next are as before. That BLK and BITS then hold fresh free values is the model's form of
"unspecified" (log 1). -/
def Obligations.HardwareReset : Prop :=
  ∀ (s : State) (rest : List Input), s.inputs = .reset :: rest →
    ∃ t, step s = .next t ∧ (∀ r, t.readReg r = if r = .pend then 0xFFFFFFFF else 0) ∧ NoTree t ∧
      t.params = s.params ∧ t.inputs = rest ∧ (∀ i, t.blkByte i = Config.blkUnspecified (s.resets + 1) i) ∧
      ∀ i, t.bit i = Config.bitsUnspecified (s.resets + 1) i

/-- R5, R46: the state right after reset: the default capacities, every register 0 but PEND, no tree. -/
def Obligations.ResetState : Prop :=
  (∀ r, State.reset.readReg r = if r = .pend then 0xFFFFFFFF else 0) ∧ NoTree State.reset ∧
    State.reset.params.blockMax = 65536 ∧ State.reset.params.bitsMax = 1048576 ∧ State.reset.params.nodeCap = 511

/-- R171: NOP completes in every state and changes only the control registers. -/
def Obligations.NopEffect : Prop :=
  ∀ s, ∃ t, exec .nop s = .next t ∧ Completed 0x00000000 s t ∧ OnlyFrameChanged s t

/-- R172: CLEAR completes in every state: every register reads as after reset except STATUS = 2 (DONE), CMD too; the arena is
FREE; BLK and BITS keep their contents. -/
def Obligations.ClearEffect : Prop :=
  ∀ s, ∃ t, exec .clear s = .next t ∧
    (∀ r, t.readReg r = if r = .status then 2 else if r = .pend then 0xFFFFFFFF else 0) ∧ NoTree t ∧
    SameBlk s t ∧ SameBits s t ∧ SameSurroundings s t

/-! ## The tree family -/

/-- R95: TINIT completes in every state: one UNSET root at entry 0, every other entry FREE. -/
def Obligations.TinitEffect : Prop :=
  ∀ s, ∃ t, exec .tinit s = .next t ∧ Completed 0x00000010 s t ∧ t.nodeCnt = 1 ∧ t.root = 0 ∧
    (∀ n, t.node n = if n = 0 then .unset else .free) ∧ t.readReg .pend = 0 ∧
    treePresent t = true ∧ treeComplete t = false ∧ treeSingle t = false ∧ tailPresent t = tailPresent s ∧
    SameRegs (frameRegs ++ treeRegs) s t ∧ SameBlk s t ∧ SameBits s t ∧ SameSurroundings s t

/-- R96: TLEAF raises NoTree, then NoPending; otherwise it makes the pending node a leaf, and nothing else. -/
def Obligations.TleafEffect : Prop :=
  ∀ (v : Byte) (s : State),
    (s.nodeCnt = 0 → EndsErrored (.tleaf v) s .noTree 0) ∧
    (s.nodeCnt ≠ 0 → findPending s = none → EndsErrored (.tleaf v) s .noPending 0) ∧
    ∀ p, findPending s = some p →
      ∃ t, exec (.tleaf v) s = .next t ∧ Completed (commandWord 0x11 v) s t ∧
        (∀ n, t.node n = if n = p.toNat then .leaf v else s.node n) ∧
        (ArenaOk s → (∀ n, s.node n = .unset → n = p.toNat) → treeComplete t = true) ∧
        (p = s.root → treeSingle t = true) ∧
        SameRegs (frameRegs ++ [.pend]) s t ∧ SameBlk s t ∧ SameBits s t ∧ SameSurroundings s t

/-- R97: TEXPAND raises NoTree, NoPending, then TreeOverflow; otherwise it makes the pending node internal with two fresh UNSET
children at the next two entries, the zero-child pending next, and nothing else. -/
def Obligations.TexpandEffect : Prop :=
  ∀ s : State,
    (s.nodeCnt = 0 → EndsErrored .texpand s .noTree 0) ∧
    (s.nodeCnt ≠ 0 → findPending s = none → EndsErrored .texpand s .noPending 0) ∧
    (∀ p, findPending s = some p → s.params.nodeCap < s.nodeCnt.toNat + 2 →
      EndsErrored .texpand s .treeOverflow s.nodeCnt) ∧
    ∀ p, findPending s = some p → s.nodeCnt.toNat + 2 ≤ s.params.nodeCap →
      ∃ t z o, exec .texpand s = .next t ∧ Completed 0x00000012 s t ∧ z.toNat = s.nodeCnt.toNat ∧
        o.toNat = s.nodeCnt.toNat + 1 ∧ t.nodeCnt.toNat = s.nodeCnt.toNat + 2 ∧
        (∀ n, t.node n =
          if n = p.toNat then .internal z o else if n = z.toNat ∨ n = o.toNat then .unset else s.node n) ∧
        (ArenaOk s → findPending t = some z) ∧
        SameRegs (frameRegs ++ [.nodeCnt, .pend]) s t ∧ SameBlk s t ∧ SameBits s t ∧ SameSurroundings s t

/-- R73: the header tokens, each on the pending node. H.LEAF makes it a leaf; H.EXPAND makes it internal with two fresh UNSET
children, the zero-child pending next. An H.EXPAND that does not fit fails the header as DESERIALIZE does (R105; that it does so
on its own is the model's choice, log 3). Nothing else changes. -/
def Obligations.TokenEffects : Prop :=
  ∀ (s : State) (p : NodeIdx), findPending s = some p →
    (∀ v, ∃ t, exec (.hLeaf v) s = .next t ∧ (∀ n, t.node n = if n = p.toNat then .leaf v else s.node n) ∧
      t.busy = s.busy ∧ t.done = s.done ∧ t.err = s.err ∧ t.stickyErr = s.stickyErr ∧
      SameRegs [.status, .pend] s t ∧ SameBlk s t ∧ SameBits s t ∧ SameSurroundings s t) ∧
    (s.nodeCnt.toNat + 2 ≤ s.params.nodeCap →
      ∃ t z o, exec .hExpand s = .next t ∧ z.toNat = s.nodeCnt.toNat ∧ o.toNat = s.nodeCnt.toNat + 1 ∧
        t.nodeCnt.toNat = s.nodeCnt.toNat + 2 ∧
        (∀ n, t.node n =
          if n = p.toNat then .internal z o else if n = z.toNat ∨ n = o.toNat then .unset else s.node n) ∧
        (ArenaOk s → findPending t = some z) ∧
        t.busy = s.busy ∧ t.done = s.done ∧ t.err = s.err ∧ t.stickyErr = s.stickyErr ∧
        SameRegs [.status, .nodeCnt, .pend] s t ∧ SameBlk s t ∧ SameBits s t ∧ SameSurroundings s t) ∧
    (s.params.nodeCap < s.nodeCnt.toNat + 2 →
      ∃ t, exec .hExpand s = .next t ∧ Errored s.cmd .treeOverflow s.nodeCnt t ∧ NoTree t ∧ t.hdrLen = 0 ∧
        SameRegs (frameRegs ++ treeRegs ++ [.hdrLen]) s t ∧ SameBlk s t ∧ SameBits s t ∧ SameSurroundings s t)

/-- R73, R98: running the tokens of a complete tree that fits, from a tree of one UNSET root, builds that tree; DESERIALIZE of
its header makes the same arena, entry for entry. -/
def Obligations.TokensBuildTheTree : Prop :=
  ∀ (s : State) (T : CodeTree), T.complete = true → T.size ≤ s.params.nodeCap →
    ∃ t, runAll T.tokens (treeInit s) = .next t ∧ HoldsTree t T ∧ t.root = 0 ∧
      SameRegs ([.status] ++ treeRegs) s t ∧ SameBlk s t ∧ SameBits s t ∧ SameSurroundings s t ∧
      ∀ rest, s.bitsLen.toNat ≤ s.params.bitsMax → s.cursor.toNat ≤ s.bitsLen.toNat → bitsFrom s = T.header ++ rest →
        ∃ u, exec .deserialize s = .next u ∧ u.err = false ∧ SameNodes t u ∧ u.nodeCnt = t.nodeCnt ∧ u.root = t.root

/-- R94: the pending stack. Its top is the pending node, it holds exactly the UNSET entries, TINIT makes it `[0]`, TLEAF pops
it, TEXPAND pops it and pushes the one-child, then the zero-child. -/
def Obligations.PendingStack : Prop :=
  ∀ (s : State) (T : CodeTree), HoldsTree s T →
    findPending s = (pendingStack s).head? ∧
    (∀ n, s.node n = .unset ↔ ∃ p ∈ pendingStack s, p.toNat = n) ∧
    (∀ t, exec .tinit s = .next t → pendingStack t = [0]) ∧
    (∀ v t p rest, pendingStack s = p :: rest → exec (.tleaf v) s = .next t → pendingStack t = rest) ∧
    ∀ t p rest, pendingStack s = p :: rest → s.nodeCnt.toNat + 2 ≤ s.params.nodeCap → exec .texpand s = .next t →
      pendingStack t = BitVec.ofNat 16 s.nodeCnt.toNat :: BitVec.ofNat 16 (s.nodeCnt.toNat + 1) :: rest

/-! ## The tree codec family -/

/-- R101: SERIALIZE: its errors in their order, and otherwise the header of the tree appended at BITS_LEN, HDR_LEN its length,
the tail zero-filled, and nothing else. -/
def Obligations.SerializeEffect : Prop :=
  ∀ s : State,
    (s.params.bitsMax < s.bitsLen.toNat → EndsErrored .serialize s .badLength 2) ∧
    (s.bitsLen.toNat ≤ s.params.bitsMax → s.nodeCnt = 0 → EndsErrored .serialize s .noTree 0) ∧
    (∀ p, s.bitsLen.toNat ≤ s.params.bitsMax → findPending s = some p →
      EndsErrored .serialize s .treeIncomplete (p.setWidth 32)) ∧
    (s.bitsLen.toNat ≤ s.params.bitsMax → s.nodeCnt ≠ 0 → findPending s = none →
      s.params.bitsMax < s.bitsLen.toNat + 5 * s.nodeCnt.toNat + 4 → EndsErrored .serialize s .bitsOverflow 0) ∧
    ∀ T, HoldsTree s T → T.complete = true → s.bitsLen.toNat + 5 * s.nodeCnt.toNat + 4 ≤ s.params.bitsMax →
      ∃ t, exec .serialize s = .next t ∧ Completed 0x00000020 s t ∧ BitsAppended T.header s t ∧
        t.hdrLen.toNat = 5 * s.nodeCnt.toNat + 4 ∧ SameDerivedFlags s t ∧
        SameRegs (frameRegs ++ [.bitsLen, .hdrLen]) s t ∧ SameBlk s t ∧ SameNodes s t ∧ SameSurroundings s t

/-- R105: DESERIALIZE of the header of a complete tree that fits, followed by any bits: it builds that tree under root 0 and
reads exactly the header. -/
def Obligations.DeserializeBuilds : Prop :=
  ∀ (s : State) (T : CodeTree) (rest : List Bool), s.bitsLen.toNat ≤ s.params.bitsMax → s.cursor.toNat ≤ s.bitsLen.toNat →
    T.complete = true → T.size ≤ s.params.nodeCap → bitsFrom s = T.header ++ rest →
    ∃ t, exec .deserialize s = .next t ∧ Completed 0x00000021 s t ∧ HoldsTree t T ∧ t.root = 0 ∧
      t.cursor.toNat = s.cursor.toNat + T.header.length ∧ t.hdrLen.toNat = T.header.length ∧
      treePresent t = true ∧ treeComplete t = true ∧ tailPresent t = tailPresent s ∧
      SameRegs (frameRegs ++ treeRegs ++ [.cursor, .hdrLen]) s t ∧ SameBlk s t ∧ SameBits s t ∧ SameSurroundings s t

/-- R105, R107, R108, R149: DESERIALIZE on any bits at all: either it builds a complete tree whose header is exactly the bits it
read, or there is no tree afterwards and the error is TruncatedHeader with CURSOR at the end, or TreeOverflow with ERRINFO =
NODE_CNT at that moment, which is NODE_CAP (both are odd, R5, R40(d)). -/
def Obligations.DeserializeAnyBits : Prop :=
  ∀ s : State, s.bitsLen.toNat ≤ s.params.bitsMax → s.cursor.toNat ≤ s.bitsLen.toNat →
    ∃ t, exec .deserialize s = .next t ∧
      SameRegs (frameRegs ++ treeRegs ++ [.cursor, .hdrLen]) s t ∧ SameBlk s t ∧ SameBits s t ∧ SameSurroundings s t ∧
      ((∃ T, Completed 0x00000021 s t ∧ T.complete = true ∧ HoldsTree t T ∧ t.root = 0 ∧
          t.hdrLen.toNat = T.header.length ∧ t.cursor.toNat = s.cursor.toNat + T.header.length ∧
          T.header.length ≤ bitsLeft s ∧ (bitsFrom s).take T.header.length = T.header) ∨
        (NoTree t ∧ t.hdrLen = 0 ∧ t.cursor = s.bitsLen ∧ ∃ r, Errored 0x00000021 .truncatedHeader r t) ∨
        (NoTree t ∧ t.hdrLen = 0 ∧ s.cursor.toNat ≤ t.cursor.toNat ∧ t.cursor.toNat ≤ s.bitsLen.toNat ∧
          Errored 0x00000021 .treeOverflow (BitVec.ofNat 32 s.params.nodeCap) t))

/-- R105, R132: a header that is cut off inside a leaf record, the records before it whole: TruncatedHeader, with ERRINFO the
index of that record's first bit, even if its expansions would not fit. -/
def Obligations.DeserializeTruncated : Prop :=
  ∀ (s : State) (T : CodeTree) (j : Nat) (r tail : List Bool), s.bitsLen.toNat ≤ s.params.bitsMax →
    s.cursor.toNat ≤ s.bitsLen.toNat → T.complete = true → T.records[j]? = some r → tail <+: r → tail.length < r.length →
    bitsFrom s = (T.records.take j).flatten ++ tail →
    1 + 2 * ((T.records.take j).map (fun x => x.length - 9)).sum ≤ s.params.nodeCap →
    ∃ t, exec .deserialize s = .next t ∧
      Errored 0x00000021 .truncatedHeader (s.cursor + BitVec.ofNat 32 (T.records.take j).flatten.length) t ∧
      NoTree t ∧ t.hdrLen = 0 ∧ t.cursor = s.bitsLen ∧
      SameRegs (frameRegs ++ treeRegs ++ [.cursor, .hdrLen]) s t ∧ SameBlk s t ∧ SameBits s t ∧ SameSurroundings s t

/-- R105, R144: a header whose record `j` is whole but asks for expansions that do not fit, those before it fitting:
TreeOverflow with ERRINFO = NODE_CNT at that moment, which is NODE_CAP (both are odd, R5, R40), and CURSOR just after that
record's value bits. -/
def Obligations.DeserializeOverflows : Prop :=
  ∀ (s : State) (T : CodeTree) (j : Nat) (rest : List Bool), s.bitsLen.toNat ≤ s.params.bitsMax →
    s.cursor.toNat ≤ s.bitsLen.toNat → T.complete = true → j < T.records.length →
    bitsFrom s = (T.records.take (j + 1)).flatten ++ rest →
    1 + 2 * ((T.records.take j).map (fun x => x.length - 9)).sum ≤ s.params.nodeCap →
    s.params.nodeCap < 1 + 2 * ((T.records.take (j + 1)).map (fun x => x.length - 9)).sum →
    ∃ t, exec .deserialize s = .next t ∧
      Errored 0x00000021 .treeOverflow (BitVec.ofNat 32 s.params.nodeCap) t ∧ NoTree t ∧ t.hdrLen = 0 ∧
      t.cursor = s.cursor + BitVec.ofNat 32 (T.records.take (j + 1)).flatten.length ∧
      SameRegs (frameRegs ++ treeRegs ++ [.cursor, .hdrLen]) s t ∧ SameBlk s t ∧ SameBits s t ∧ SameSurroundings s t

/-- R109(a), (b): serializing a tree into an empty bit sequence and deserializing it gives the same tree; deserializing bits and
serializing the result gives exactly the bits read. -/
def Obligations.HeaderInverse : Prop :=
  (∀ (s : State) (T : CodeTree), HoldsTree s T → T.complete = true → 5 * s.nodeCnt.toNat + 4 ≤ s.params.bitsMax →
    ∃ t u, exec .serialize { s with bitsLen := 0 } = .next t ∧ t.err = false ∧
      exec .deserialize { t with cursor := 0 } = .next u ∧ u.err = false ∧ HoldsTree u T ∧
      u.cursor.toNat = 5 * s.nodeCnt.toNat + 4 ∧ u.hdrLen = u.cursor ∧ u.bitsLen = u.cursor) ∧
  ∀ s t : State, exec .deserialize s = .next t → t.err = false →
    ∃ u, exec .serialize { t with bitsLen := 0 } = .next u ∧ u.err = false ∧ u.bitsLen = t.hdrLen ∧ u.hdrLen = t.hdrLen ∧
      ∀ k, k < t.hdrLen.toNat → u.bit k = s.bit (s.cursor.toNat + k)

/-- R71, R72, R73, R102, R103: the header of a complete tree with `L` leaves has `10L - 1` bits, which is `5 * size + 4`; its
leaf records, joined, are its tokens, joined; and each record is a distance, a zero and the value of its leaf. -/
def Obligations.HeaderShape : Prop :=
  ∀ T : CodeTree, T.complete = true →
    T.header.length + 1 = 10 * T.values.length ∧ T.header.length = 5 * T.size + 4 ∧ T.records.flatten = T.header ∧
    T.records.length = T.values.length ∧
    ∀ (j : Nat) (h : j < T.records.length) (h' : j < T.values.length),
      ∃ d, T.records[j] = List.replicate d true ++ (false :: bitsOfByte T.values[j])

/-! ## The tree builder family -/

/-- R110: the count finds each distinct byte value once, in first-encounter order, with its number of occurrences: 1 to 256 of
them, the counts summing to the block's length. -/
def Obligations.CountRule : Prop :=
  ∀ block : List Byte,
    countBytes block = block.eraseDups.map (fun v => (v, block.count v)) ∧
    (block ≠ [] → 1 ≤ (countBytes block).length) ∧ (countBytes block).length ≤ 256 ∧
    ((countBytes block).map Prod.snd).sum = block.length

/-- R112: the insertion rule: before the first entry of strictly greater weight; the worklist stays sorted. -/
def Obligations.WorklistInsertion : Prop :=
  ∀ (e : WorkEntry) (wl : List WorkEntry),
    wl.Pairwise (fun x y => x.weight ≤ y.weight) →
    wlInsert e wl = wl.filter (fun x => x.weight ≤ e.weight) ++ e :: wl.filter (fun x => e.weight < x.weight) ∧
    (wlInsert e wl).Pairwise (fun x y => x.weight ≤ y.weight)

/-- R111, R116, R118: at every moment of a build the worklist is sorted by weight and, among equal weights, by arena index,
which is the order of insertion, so the two entries at its head are the two least of a priority queue keyed by
`(weight, index)`; and the weights sum to BLK_LEN. -/
def Obligations.WorklistOrder : Prop :=
  ∀ (s : State) (n : Nat), blockBytes s ≠ [] →
    ∀ formed merged, formed = formLeaves (countBytes (blockBytes s)) [] (arenaClear s) →
      merged = mergeAll n formed.2 formed.1 →
      merged.2.Pairwise WorkEntry.Before ∧ (∀ e ∈ merged.2, e.node.toNat < merged.1.nodeCnt.toNat) ∧
        (merged.2.map WorkEntry.weight).sum = s.blkLen.toNat

/-- R114, R115, R117: BUILD of a legal non-empty block: the arena holds the abstract Huffman tree of the block, complete, with
the distinct values as leaves, `2k - 1` entries, leaves first in first-encounter order, the root last; and nothing else
changes. -/
def Obligations.BuildEffect : Prop :=
  ∀ s : State, s.blkLen ≠ 0 → s.blkLen.toNat ≤ s.params.blockMax → ∀ B, B = blockBytes s →
    ∃ t, exec .build s = .next t ∧ Completed 0x00000030 s t ∧ HoldsTree t (CodeTree.huffman B) ∧
      (CodeTree.huffman B).complete = true ∧ (CodeTree.huffman B).values.Perm B.eraseDups ∧
      t.symCnt.toNat = B.eraseDups.length ∧ t.nodeCnt.toNat = 2 * B.eraseDups.length - 1 ∧
      t.root.toNat = 2 * B.eraseDups.length - 2 ∧
      (∀ (j : Nat) (h : j < B.eraseDups.length), t.node j = .leaf B.eraseDups[j]) ∧
      treeComplete t = true ∧ (treeSingle t = true ↔ B.eraseDups.length = 1) ∧ tailPresent t = tailPresent s ∧
      SameRegs (frameRegs ++ treeRegs ++ [.symCnt]) s t ∧ SameBlk s t ∧ SameBits s t ∧ SameSurroundings s t

/-! ## The block codec family -/

/-- R37, R122: LOOKUP on a complete tree: the code path of the value in CODE_LEN and CODE_BITS, first bit most significant, the
rest 0; NoCode when no leaf holds it; nothing else. -/
def Obligations.LookupEffect : Prop :=
  ∀ (v : Byte) (s : State) (T : CodeTree), HoldsTree s T → T.complete = true →
    (T.path v = none → EndsErrored (.lookup v) s .noCode (v.setWidth 32)) ∧
    ∀ q, T.path v = some q →
      ∃ t, exec (.lookup v) s = .next t ∧ Completed (commandWord 0x40 v) s t ∧ t.codeLen.toNat = q.length ∧
        (∀ (k : Fin 8) (b : Nat), b < 32 → t.codeBits[k].getLsbD (31 - b) = (q[32 * k.val + b]?).getD false) ∧
        SameDerivedFlags s t ∧
        (∀ r, r ∉ frameRegs → r ≠ .codeLen → (∀ k, r ≠ .codeBits k) → t.readReg r = s.readReg r) ∧
        SameBlk s t ∧ SameBits s t ∧ SameNodes s t ∧ SameSurroundings s t

/-- R123, R124: ENCODE of a block whose bytes all have a leaf, with room for its payload: the payload appended at BITS_LEN, the
tail zero-filled, nothing else. An empty block appends nothing. -/
def Obligations.EncodeEffect : Prop :=
  ∀ (s : State) (T : CodeTree) (p : List Bool), s.blkLen.toNat ≤ s.params.blockMax → HoldsTree s T → T.complete = true →
    T.payload (blockBytes s) = some p → s.bitsLen.toNat + p.length ≤ s.params.bitsMax →
    ∃ t, exec .encode s = .next t ∧ Completed 0x00000041 s t ∧ BitsAppended p s t ∧ SameDerivedFlags s t ∧
      SameRegs (frameRegs ++ [.bitsLen]) s t ∧ SameBlk s t ∧ SameNodes s t ∧ SameSurroundings s t

/-- R124, R142, R138, R145: ENCODE stops at the first byte, in block order, that has no leaf (NoCode with its index) or whose
code does not fit (BitsOverflow); BITS_LEN is as at entry, the bits written beyond it stay, nothing is zero-filled. -/
def Obligations.EncodeErrors : Prop :=
  ∀ (s : State) (T : CodeTree) (pre : List Byte) (v : Byte) (post : List Byte) (p : List Bool),
    s.blkLen.toNat ≤ s.params.blockMax → s.bitsLen.toNat ≤ s.params.bitsMax → HoldsTree s T → T.complete = true →
    blockBytes s = pre ++ v :: post → T.payload pre = some p → s.bitsLen.toNat + p.length ≤ s.params.bitsMax →
    (T.path v = none →
      ∃ t, exec .encode s = .next t ∧ Errored 0x00000041 .noCode (BitVec.ofNat 32 pre.length) t ∧
        (∀ j, t.bit j =
          if s.bitsLen.toNat ≤ j ∧ j < s.bitsLen.toNat + p.length then (p[j - s.bitsLen.toNat]?).getD false else s.bit j) ∧
        SameDerivedFlags s t ∧ SameRegs frameRegs s t ∧ SameBlk s t ∧ SameNodes s t ∧ SameSurroundings s t) ∧
    ∀ q, T.path v = some q → s.params.bitsMax < s.bitsLen.toNat + p.length + q.length →
      ∃ t, exec .encode s = .next t ∧ Errored 0x00000041 .bitsOverflow 0 t ∧
        (∀ j, t.bit j =
          if s.bitsLen.toNat ≤ j ∧ j < s.params.bitsMax then ((p ++ q)[j - s.bitsLen.toNat]?).getD false else s.bit j) ∧
        SameDerivedFlags s t ∧ SameRegs frameRegs s t ∧ SameBlk s t ∧ SameNodes s t ∧ SameSurroundings s t

/-- R125, R126, R139: DECODE. With two leaves or more the bits from CURSOR are cut into codes and a rest: the codes' bytes are
emitted and the rest's length is TAIL_BITS, or, when they do not fit, BlkOverflow just after the code of the first that does
not. With a one-node tree nothing is read or emitted. Nothing else changes. -/
def Obligations.DecodeEffect : Prop :=
  ∀ (s : State) (T : CodeTree), s.bitsLen.toNat ≤ s.params.bitsMax → s.cursor.toNat ≤ s.bitsLen.toNat → HoldsTree s T →
    T.complete = true →
    ∃ t, exec .decode s = .next t ∧ SameRegs (frameRegs ++ [.blkLen, .cursor, .tailBits]) s t ∧
      (t.readReg .status).extractLsb' 4 3 = (s.readReg .status).extractLsb' 4 3 ∧
      (tailPresent t = true ↔ t.tailBits ≠ 0) ∧ SameBits s t ∧ SameNodes s t ∧ SameSurroundings s t ∧
      (∀ v, T = .leaf v →
        Completed 0x00000042 s t ∧ t.blkLen = 0 ∧ t.tailBits = 0 ∧ t.cursor = s.cursor ∧ SameBlk s t) ∧
      ∀ a b, T = .node a b →
        ∃ codes bytes rest, T.Decoding (bitsFrom s) codes bytes rest ∧
          (bytes.length ≤ s.params.blockMax →
            Completed 0x00000042 s t ∧ t.blkLen.toNat = bytes.length ∧ BlkWritten bytes s t ∧
              t.tailBits.toNat = rest.length ∧ t.cursor = s.bitsLen) ∧
          (s.params.blockMax < bytes.length →
            Errored 0x00000042 .blkOverflow t.cursor t ∧ t.blkLen = 0 ∧ t.tailBits = 0 ∧
              BlkWritten (bytes.take s.params.blockMax) s t ∧
              t.cursor = s.cursor + BitVec.ofNat 32 (codes.take (s.params.blockMax + 1)).flatten.length)

/-- R76, R125: there is one way to cut bits into codes and a rest, so `DecodeEffect` says what DECODE answers; and for the
payload of a block it is that block with no rest (R75). -/
def Obligations.DecodingIsUnique : Prop :=
  ∀ (a b : CodeTree) (bits : List Bool) (c₁ c₂ : List (List Bool)) (v₁ v₂ : List Byte) (r₁ r₂ : List Bool),
    (CodeTree.node a b).Decoding bits c₁ v₁ r₁ →
    ((CodeTree.node a b).Decoding bits c₂ v₂ r₂ → c₁ = c₂ ∧ v₁ = v₂ ∧ r₁ = r₂) ∧
    ∀ block, (CodeTree.node a b).payload block = some bits → v₁ = block ∧ r₁ = []

/-- R127: COMPRESS of a legal non-empty block. The tree is the block's Huffman tree; the output is its header, then the
payload, from bit 0, and the tail is zero-filled; or, when that does not fit, BitsOverflow, no output, the tree stays. Nothing
else changes. -/
def Obligations.CompressEffect : Prop :=
  ∀ s : State, s.blkLen ≠ 0 → s.blkLen.toNat ≤ s.params.blockMax → ∀ B T, B = blockBytes s → T = CodeTree.huffman B →
    ∃ t p, exec .compress s = .next t ∧ T.payload B = some p ∧ HoldsTree t T ∧ T.complete = true ∧
      t.symCnt.toNat = B.eraseDups.length ∧ t.nodeCnt.toNat = 2 * B.eraseDups.length - 1 ∧
      t.root.toNat = 2 * B.eraseDups.length - 2 ∧ tailPresent t = tailPresent s ∧
      SameRegs (frameRegs ++ treeRegs ++ [.symCnt, .bitsLen, .hdrLen]) s t ∧ SameBlk s t ∧ SameSurroundings s t ∧
      T.header.length + 1 = 10 * B.eraseDups.length ∧
      (T.header.length + p.length ≤ s.params.bitsMax →
        Completed 0x00000050 s t ∧ BitsAppended (T.header ++ p) { s with bitsLen := 0 } t ∧
          t.hdrLen.toNat = T.header.length) ∧
      (s.params.bitsMax < T.header.length + p.length →
        Errored 0x00000050 .bitsOverflow 0 t ∧ t.bitsLen = 0 ∧ t.hdrLen = 0 ∧
          ∀ j, t.bit j = if j < s.params.bitsMax then ((T.header ++ p)[j]?).getD false else s.bit j)

/-- R127, R149: COMPRESS is `BITS_LEN <- 0; BUILD; SERIALIZE; ENCODE`, but for CMD, and with no output at all on BitsOverflow.
When BUILD errs, COMPRESS ends with the same error and nothing else changes. When SERIALIZE overflows, everything is as after it
but CMD, HDR_LEN = 0 and BITS, whose written bits `CompressEffect` says; when ENCODE overflows, everything is as after it but
CMD, BITS_LEN = 0 and HDR_LEN = 0, BITS too. -/
def Obligations.CompressIsItsParts : Prop :=
  ∀ s s₁ t : State, exec .build { s with bitsLen := 0 } = .next s₁ → exec .compress s = .next t →
    (s₁.err = true → t.err = true ∧ t.errCode = s₁.errCode ∧ t.errInfo = s₁.errInfo ∧ OnlyFrameChanged s t) ∧
    (s₁.err = false → ∀ s₂, exec .serialize s₁ = .next s₂ →
      (s₂.err = true → Errored 0x00000050 .bitsOverflow 0 t ∧ s₂.errCode = Err.bitsOverflow.code ∧ t.bitsLen = 0 ∧
        t.hdrLen = 0 ∧ SameRegs [.cmd, .hdrLen] s₂ t ∧ SameBlk s₂ t ∧ SameNodes s₂ t ∧ SameSurroundings s₂ t) ∧
      (s₂.err = false → ∀ s₃, exec .encode s₂ = .next s₃ →
        (s₃.err = true → Errored 0x00000050 .bitsOverflow 0 t ∧ s₃.errCode = Err.bitsOverflow.code ∧ t.bitsLen = 0 ∧
          t.hdrLen = 0 ∧ SameRegs [.cmd, .bitsLen, .hdrLen] s₃ t ∧ SameBlk s₃ t ∧ SameBits s₃ t ∧ SameNodes s₃ t ∧
          SameSurroundings s₃ t) ∧
        (s₃.err = false → SameRegs [.cmd] s₃ t ∧ SameBlk s₃ t ∧ SameBits s₃ t ∧ SameNodes s₃ t ∧
          SameSurroundings s₃ t)))

/-- R125, R128: DECOMPRESS of the header of a complete tree that fits, followed by any bits: that tree under root 0, and then as
DECODE: the codes' bytes and the rest's length, or BlkOverflow at the first byte that does not fit; with a one-node tree
nothing is read beyond the header or emitted. Nothing else changes. -/
def Obligations.DecompressEffect : Prop :=
  ∀ (s : State) (T : CodeTree) (pay : List Bool), s.bitsLen.toNat ≤ s.params.bitsMax → T.complete = true →
    T.size ≤ s.params.nodeCap → bitsFrom { s with cursor := 0 } = T.header ++ pay →
    ∃ t, exec .decompress s = .next t ∧ HoldsTree t T ∧ t.root = 0 ∧ t.hdrLen.toNat = T.header.length ∧
      treePresent t = true ∧ treeComplete t = true ∧ (tailPresent t = true ↔ t.tailBits ≠ 0) ∧
      SameRegs (frameRegs ++ treeRegs ++ [.blkLen, .cursor, .hdrLen, .tailBits]) s t ∧ SameBits s t ∧ SameSurroundings s t ∧
      (∀ v, T = .leaf v → Completed 0x00000051 s t ∧ treeSingle t = true ∧ t.blkLen = 0 ∧ t.tailBits = 0 ∧ t.cursor = 9 ∧
        SameBlk s t) ∧
      ∀ a b, T = .node a b →
        ∃ codes bytes rest, T.Decoding pay codes bytes rest ∧
          (bytes.length ≤ s.params.blockMax →
            Completed 0x00000051 s t ∧ t.blkLen.toNat = bytes.length ∧ BlkWritten bytes s t ∧
              t.tailBits.toNat = rest.length ∧ t.cursor = s.bitsLen) ∧
          (s.params.blockMax < bytes.length →
            Errored 0x00000051 .blkOverflow t.cursor t ∧ t.blkLen = 0 ∧ t.tailBits = 0 ∧
              BlkWritten (bytes.take s.params.blockMax) s t ∧
              t.cursor = BitVec.ofNat 32 (T.header.length + (codes.take (s.params.blockMax + 1)).flatten.length))

/-- R128: DECOMPRESS is `CURSOR <- 0; DESERIALIZE; DECODE`, but for CMD, and with BLK_LEN and TAIL_BITS zeroed on a header
failure. -/
def Obligations.DecompressIsItsParts : Prop :=
  ∀ s s₁ t : State, exec .deserialize { s with cursor := 0 } = .next s₁ → exec .decompress s = .next t →
    (s.params.bitsMax < s.bitsLen.toNat → EndsErrored .decompress s .badLength 2 ∧ s₁.errCode = t.errCode) ∧
    (s.bitsLen.toNat ≤ s.params.bitsMax → s₁.err = true →
      t = { s₁ with cmd := 0x00000051, blkLen := 0, tailBits := 0 }) ∧
    (s.bitsLen.toNat ≤ s.params.bitsMax → s₁.err = false → ∀ s₂, exec .decode s₁ = .next s₂ →
      t = { s₂ with cmd := 0x00000051 })

/-- R129(a), (c): the round trip: a block with at least two distinct values comes back from COMPRESS and DECOMPRESS. -/
def Obligations.RoundTrip : Prop :=
  ∀ s t : State, 2 ≤ (blockBytes s).eraseDups.length → exec .compress s = .next t → t.err = false →
    ∃ u, exec .decompress t = .next u ∧ u.err = false ∧ blockBytes u = blockBytes s ∧ u.tailBits = 0 ∧
      u.cursor = u.bitsLen ∧ u.bitsLen = t.bitsLen ∧ u.hdrLen = t.hdrLen ∧
      u.nodeCnt.toNat = 2 * (blockBytes s).eraseDups.length - 1

/-- R74, R75, R129(b), R159: a block of one byte value: 9 bits whatever its length; DECOMPRESS rebuilds the one-node tree and
emits nothing. -/
def Obligations.SingleSymbolBlock : Prop :=
  ∀ (s : State) (v : Byte), s.blkLen ≠ 0 → s.blkLen.toNat ≤ s.params.blockMax → (∀ b ∈ blockBytes s, b = v) →
    ∃ t u, exec .compress s = .next t ∧ t.err = false ∧ t.hdrLen = 9 ∧ t.bitsLen = 9 ∧ t.symCnt = 1 ∧
      (∀ (j : Nat) (h : j < 9), t.bit j = (false :: bitsOfByte v)[j]) ∧
      exec .decompress t = .next u ∧ u.err = false ∧ HoldsTree u (.leaf v) ∧ treeSingle u = true ∧ u.root = 0 ∧
      u.node 0 = .leaf v ∧ u.blkLen = 0 ∧ u.tailBits = 0 ∧ u.cursor = 9

/-- R129(f): cutting the output of COMPRESS short, the block's tree being `T`. Below HDR_LEN it is a TruncatedHeader with
BLK_LEN = 0, for any block. From there on, with at least two distinct values, DECOMPRESS completes with the first `m` bytes of
the block; TAIL_BITS is what is left of the bits after the codes of those, and it is less than the code of byte `m`, the cut
one; when the whole block comes out TAIL_BITS is 0, and uncut output gives the whole block. -/
def Obligations.TruncationHandling : Prop :=
  ∀ (s t : State) (n : Word) (B : List Byte) (T : CodeTree), B = blockBytes s → T = CodeTree.huffman B →
    exec .compress s = .next t → t.err = false → n.toNat ≤ t.bitsLen.toNat →
    ∃ u, exec .decompress { t with bitsLen := n } = .next u ∧
      (n.toNat < t.hdrLen.toNat → (∃ r, Errored 0x00000051 .truncatedHeader r u) ∧ u.blkLen = 0) ∧
      (t.hdrLen.toNat ≤ n.toNat → 2 ≤ B.eraseDups.length →
        u.err = false ∧ ∃ m p, m ≤ B.length ∧ blockBytes u = B.take m ∧ T.payload (B.take m) = some p ∧
          n.toNat = t.hdrLen.toNat + p.length + u.tailBits.toNat ∧
          (∀ h : m < B.length, ∃ q, T.path B[m] = some q ∧ u.tailBits.toNat < q.length) ∧
          (m = B.length → u.tailBits = 0) ∧ (n = t.bitsLen → m = B.length))

/-- R129(e), R160: COMPRESS depends on the block and the parameters alone: whatever else two states hold, the same block gives
the same outcome, tree and output. -/
def Obligations.CompressDeterminism : Prop :=
  ∀ s₁ s₂ : State, s₁.params = s₂.params → s₁.blkLen ≠ 0 → s₁.blkLen.toNat ≤ s₁.params.blockMax →
    blockBytes s₁ = blockBytes s₂ →
    ∃ t₁ t₂, exec .compress s₁ = .next t₁ ∧ exec .compress s₂ = .next t₂ ∧
      (∀ r ∈ [Reg.cmd, .errCode, .errInfo, .bitsLen, .hdrLen, .nodeCnt, .root, .pend, .symCnt],
        t₁.readReg r = t₂.readReg r) ∧
      t₁.err = t₂.err ∧ (∀ n, t₁.node n = t₂.node n) ∧ ∀ j, j < t₁.bitsLen.toNat → t₁.bit j = t₂.bit j

/-- R75, R127: the length of a payload: for each distinct value, its number of occurrences times the length of its code. -/
def Obligations.PayloadLength : Prop :=
  ∀ (T : CodeTree) (B : List Byte) (p : List Bool), T.payload B = some p →
    p.length = (B.eraseDups.map (fun v => B.count v * ((T.path v).getD []).length)).sum

/-- R40(d), (e), (f), (g), R41: the shape of the tree an arena holds: NODE_CNT is odd, the depth is at most half of
`NODE_CNT - 1`, a complete tree with `L` leaves has `2L - 1` entries, a search for the pending node finds one exactly when the
tree is incomplete, and no value's code path is a prefix of another's. -/
def Obligations.TreeShape : Prop :=
  ∀ (s : State) (T : CodeTree), HoldsTree s T →
    s.nodeCnt.toNat % 2 = 1 ∧ 2 * T.depth + 1 ≤ s.nodeCnt.toNat ∧
    (T.complete = true → s.nodeCnt.toNat + 1 = 2 * T.values.length) ∧
    (findPending s = none ↔ T.complete = true) ∧ (T.complete = true ↔ ∀ n, s.node n ≠ .unset) ∧
    (∀ v, lookupPath s v = T.path v) ∧
    ∀ u v p q, lookupPath s u = some p → lookupPath s v = some q → p <+: q → u = v

/-! ## Errors -/

/-- R143: BadLength: which commands check which register, in the fixed order; nothing else changes; otherwise it is never
raised. -/
def Obligations.BadLengthRule : Prop :=
  ∀ (i : Instr) (s : State), i.isCommand = true →
    (∀ info, badLength i s = some info → EndsErrored i s .badLength info) ∧
    (badLength i s = none → ∀ t, exec i s = .next t → t.errCode ≠ 0x18)

/-- R131: EmptyBlock: BUILD and COMPRESS with BLK_LEN = 0, before anything is changed; no other command raises it. -/
def Obligations.EmptyBlockRule : Prop :=
  ∀ s : State,
    (s.blkLen = 0 → EndsErrored .build s .emptyBlock 0 ∧ EndsErrored .compress s .emptyBlock 0) ∧
    (∀ i t, i.isCommand = true → exec i s = .next t → t.errCode = 0x01 → s.blkLen = 0 ∧ (i = .build ∨ i = .compress)) ∧
    (s.bitsLen = 0 → ∃ t, exec .decompress s = .next t ∧ Errored 0x00000051 .truncatedHeader 0 t ∧ t.blkLen = 0)

/-- R135, R136, R137, in the order of R145: NoTree, NoPending and TreeIncomplete: which commands raise them and when; nothing
else changes. -/
def Obligations.TreeConditionErrors : Prop :=
  ∀ (i : Instr) (s : State), badLength i s = none →
    (s.nodeCnt = 0 → (∃ v, i = .tleaf v) ∨ i = .texpand ∨ i = .serialize ∨ (∃ v, i = .lookup v) ∨ i = .encode ∨ i = .decode →
      EndsErrored i s .noTree 0) ∧
    (s.nodeCnt ≠ 0 → findPending s = none → (∃ v, i = .tleaf v) ∨ i = .texpand → EndsErrored i s .noPending 0) ∧
    ∀ p, findPending s = some p → i = .serialize ∨ (∃ v, i = .lookup v) ∨ i = .encode ∨ i = .decode →
      EndsErrored i s .treeIncomplete (p.setWidth 32)

/-- R130, R145: the errors a command can raise at all. -/
def Obligations.ErrorTable : Prop :=
  ∀ (s t : State),
    (∀ i ∈ [Instr.nop, .clear, .tinit], exec i s = .next t → t.errCode = 0x00) ∧
    (∀ v, exec (.tleaf v) s = .next t → t.errCode ∈ ([0x00, 0x11, 0x12] : List Byte)) ∧
    (exec .texpand s = .next t → t.errCode ∈ ([0x00, 0x11, 0x12, 0x14] : List Byte)) ∧
    (exec .serialize s = .next t → t.errCode ∈ ([0x00, 0x18, 0x11, 0x13, 0x15] : List Byte)) ∧
    (exec .deserialize s = .next t → t.errCode ∈ ([0x00, 0x18, 0x02, 0x14] : List Byte)) ∧
    (exec .build s = .next t → t.errCode ∈ ([0x00, 0x18, 0x01] : List Byte)) ∧
    (∀ v, exec (.lookup v) s = .next t → t.errCode ∈ ([0x00, 0x11, 0x13, 0x17] : List Byte)) ∧
    (exec .encode s = .next t → t.errCode ∈ ([0x00, 0x18, 0x11, 0x13, 0x17, 0x15] : List Byte)) ∧
    (exec .decode s = .next t → t.errCode ∈ ([0x00, 0x18, 0x11, 0x13, 0x16] : List Byte)) ∧
    (exec .compress s = .next t → t.errCode ∈ ([0x00, 0x18, 0x01, 0x15] : List Byte)) ∧
    (exec .decompress s = .next t → t.errCode ∈ ([0x00, 0x18, 0x02, 0x14, 0x16] : List Byte))

/-! ## The whole machine -/

/-- R8, R141, R163, R170: every command, in every state, ends in one next state with DONE = 1, BUSY = 0 and ERR = 1 exactly when
ERRCODE is not 0; a completed one leaves ERRCODE and ERRINFO 0; STICKY_ERR is set by an error and cleared by CLEAR only; CMD
holds the word, or 0 after CLEAR; the parameters never change (R47). -/
def Obligations.EveryCommandEnds : Prop :=
  ∀ (i : Instr) (s : State), i.isCommand = true →
    ∃ t, exec i s = .next t ∧ t.done = true ∧ t.busy = false ∧ (t.err = true ↔ t.errCode ≠ 0) ∧
      (t.err = false → t.errInfo = 0) ∧ (i ≠ .clear → t.cmd = wordOf i ∧ t.stickyErr = (s.stickyErr || t.err)) ∧
      (i = .clear → t.cmd = 0 ∧ t.stickyErr = false) ∧ SameSurroundings s t

/-- R50, R63: the decoding commands do not write BITS and the encoding commands do not write BLK, whatever their outcome; nor does
any tree or control command write either. -/
def Obligations.BuffersWrittenByTheirOwners : Prop :=
  ∀ (i : Instr) (s t : State), exec i s = .next t →
    (i ≠ .serialize → i ≠ .encode → i ≠ .compress → SameBits s t) ∧
    (i ≠ .decode → i ≠ .decompress → SameBlk s t)

/-- R36, R38, R39 and the model's canonical form of memory (log 11): a step keeps every store canonical and within its
capacity. -/
def Obligations.StoresStayOk : Prop :=
  ∀ s t : State, StoresOk s → step s = .next t → StoresOk t

/-- R40(b), (c): a step keeps the arena empty or one strict binary tree that owns every allocated entry exactly once. -/
def Obligations.ArenaStaysATree : Prop :=
  ∀ s t : State, ArenaOk s → step s = .next t → ArenaOk t

/-- R24, R25, R26, R170: a step keeps the stored fields of STATUS in agreement with ERRCODE and ERRINFO. -/
def Obligations.StatusStaysOk : Prop :=
  ∀ s t : State, StatusOk s → step s = .next t → StatusOk t

/-- R46: the three invariants hold after reset. -/
def Obligations.ResetKeepsInvariants : Prop :=
  StoresOk State.reset ∧ ArenaOk State.reset ∧ StatusOk State.reset
end

