-- ==== Sys2Proof/Laws/State.lean ====
section
/-! SUPPORT. What each update of the state does to each field: one lemma per field per update, true by rfl. -/

namespace Sys2Proof.Machine

/-! ### setBlkByte -/

@[simp] theorem setBlkByte_params (s : State) (i : Nat) (v : Byte) : (s.setBlkByte i v).params = s.params := rfl
@[simp] theorem setBlkByte_cmd (s : State) (i : Nat) (v : Byte) : (s.setBlkByte i v).cmd = s.cmd := rfl
@[simp] theorem setBlkByte_busy (s : State) (i : Nat) (v : Byte) : (s.setBlkByte i v).busy = s.busy := rfl
@[simp] theorem setBlkByte_done (s : State) (i : Nat) (v : Byte) : (s.setBlkByte i v).done = s.done := rfl
@[simp] theorem setBlkByte_err (s : State) (i : Nat) (v : Byte) : (s.setBlkByte i v).err = s.err := rfl
@[simp] theorem setBlkByte_stickyErr (s : State) (i : Nat) (v : Byte) : (s.setBlkByte i v).stickyErr = s.stickyErr := rfl
@[simp] theorem setBlkByte_errCode (s : State) (i : Nat) (v : Byte) : (s.setBlkByte i v).errCode = s.errCode := rfl
@[simp] theorem setBlkByte_errInfo (s : State) (i : Nat) (v : Byte) : (s.setBlkByte i v).errInfo = s.errInfo := rfl
@[simp] theorem setBlkByte_blkLen (s : State) (i : Nat) (v : Byte) : (s.setBlkByte i v).blkLen = s.blkLen := rfl
@[simp] theorem setBlkByte_bitsLen (s : State) (i : Nat) (v : Byte) : (s.setBlkByte i v).bitsLen = s.bitsLen := rfl
@[simp] theorem setBlkByte_cursor (s : State) (i : Nat) (v : Byte) : (s.setBlkByte i v).cursor = s.cursor := rfl
@[simp] theorem setBlkByte_hdrLen (s : State) (i : Nat) (v : Byte) : (s.setBlkByte i v).hdrLen = s.hdrLen := rfl
@[simp] theorem setBlkByte_nodeCnt (s : State) (i : Nat) (v : Byte) : (s.setBlkByte i v).nodeCnt = s.nodeCnt := rfl
@[simp] theorem setBlkByte_root (s : State) (i : Nat) (v : Byte) : (s.setBlkByte i v).root = s.root := rfl
@[simp] theorem setBlkByte_symCnt (s : State) (i : Nat) (v : Byte) : (s.setBlkByte i v).symCnt = s.symCnt := rfl
@[simp] theorem setBlkByte_tailBits (s : State) (i : Nat) (v : Byte) : (s.setBlkByte i v).tailBits = s.tailBits := rfl
@[simp] theorem setBlkByte_codeLen (s : State) (i : Nat) (v : Byte) : (s.setBlkByte i v).codeLen = s.codeLen := rfl
@[simp] theorem setBlkByte_codeBits (s : State) (i : Nat) (v : Byte) : (s.setBlkByte i v).codeBits = s.codeBits := rfl
@[simp] theorem setBlkByte_blk (s : State) (i : Nat) (v : Byte) : (s.setBlkByte i v).blk = Memory.write s.blk i v := rfl
@[simp] theorem setBlkByte_bits (s : State) (i : Nat) (v : Byte) : (s.setBlkByte i v).bits = s.bits := rfl
@[simp] theorem setBlkByte_nodes (s : State) (i : Nat) (v : Byte) : (s.setBlkByte i v).nodes = s.nodes := rfl
@[simp] theorem setBlkByte_inputs (s : State) (i : Nat) (v : Byte) : (s.setBlkByte i v).inputs = s.inputs := rfl
@[simp] theorem setBlkByte_reply (s : State) (i : Nat) (v : Byte) : (s.setBlkByte i v).reply = s.reply := rfl
@[simp] theorem setBlkByte_resets (s : State) (i : Nat) (v : Byte) : (s.setBlkByte i v).resets = s.resets := rfl
@[simp] theorem setBlkByte_polls (s : State) (i : Nat) (v : Byte) : (s.setBlkByte i v).polls = s.polls := rfl

/-! ### setBit -/

@[simp] theorem setBit_params (s : State) (i : Nat) (b : Bool) : (s.setBit i b).params = s.params := rfl
@[simp] theorem setBit_cmd (s : State) (i : Nat) (b : Bool) : (s.setBit i b).cmd = s.cmd := rfl
@[simp] theorem setBit_busy (s : State) (i : Nat) (b : Bool) : (s.setBit i b).busy = s.busy := rfl
@[simp] theorem setBit_done (s : State) (i : Nat) (b : Bool) : (s.setBit i b).done = s.done := rfl
@[simp] theorem setBit_err (s : State) (i : Nat) (b : Bool) : (s.setBit i b).err = s.err := rfl
@[simp] theorem setBit_stickyErr (s : State) (i : Nat) (b : Bool) : (s.setBit i b).stickyErr = s.stickyErr := rfl
@[simp] theorem setBit_errCode (s : State) (i : Nat) (b : Bool) : (s.setBit i b).errCode = s.errCode := rfl
@[simp] theorem setBit_errInfo (s : State) (i : Nat) (b : Bool) : (s.setBit i b).errInfo = s.errInfo := rfl
@[simp] theorem setBit_blkLen (s : State) (i : Nat) (b : Bool) : (s.setBit i b).blkLen = s.blkLen := rfl
@[simp] theorem setBit_bitsLen (s : State) (i : Nat) (b : Bool) : (s.setBit i b).bitsLen = s.bitsLen := rfl
@[simp] theorem setBit_cursor (s : State) (i : Nat) (b : Bool) : (s.setBit i b).cursor = s.cursor := rfl
@[simp] theorem setBit_hdrLen (s : State) (i : Nat) (b : Bool) : (s.setBit i b).hdrLen = s.hdrLen := rfl
@[simp] theorem setBit_nodeCnt (s : State) (i : Nat) (b : Bool) : (s.setBit i b).nodeCnt = s.nodeCnt := rfl
@[simp] theorem setBit_root (s : State) (i : Nat) (b : Bool) : (s.setBit i b).root = s.root := rfl
@[simp] theorem setBit_symCnt (s : State) (i : Nat) (b : Bool) : (s.setBit i b).symCnt = s.symCnt := rfl
@[simp] theorem setBit_tailBits (s : State) (i : Nat) (b : Bool) : (s.setBit i b).tailBits = s.tailBits := rfl
@[simp] theorem setBit_codeLen (s : State) (i : Nat) (b : Bool) : (s.setBit i b).codeLen = s.codeLen := rfl
@[simp] theorem setBit_codeBits (s : State) (i : Nat) (b : Bool) : (s.setBit i b).codeBits = s.codeBits := rfl
@[simp] theorem setBit_blk (s : State) (i : Nat) (b : Bool) : (s.setBit i b).blk = s.blk := rfl
@[simp] theorem setBit_bits (s : State) (i : Nat) (b : Bool) : (s.setBit i b).bits = Memory.write s.bits i b := rfl
@[simp] theorem setBit_nodes (s : State) (i : Nat) (b : Bool) : (s.setBit i b).nodes = s.nodes := rfl
@[simp] theorem setBit_inputs (s : State) (i : Nat) (b : Bool) : (s.setBit i b).inputs = s.inputs := rfl
@[simp] theorem setBit_reply (s : State) (i : Nat) (b : Bool) : (s.setBit i b).reply = s.reply := rfl
@[simp] theorem setBit_resets (s : State) (i : Nat) (b : Bool) : (s.setBit i b).resets = s.resets := rfl
@[simp] theorem setBit_polls (s : State) (i : Nat) (b : Bool) : (s.setBit i b).polls = s.polls := rfl

/-! ### setNode -/

@[simp] theorem setNode_params (s : State) (n : Nat) (d : Node) : (s.setNode n d).params = s.params := rfl
@[simp] theorem setNode_cmd (s : State) (n : Nat) (d : Node) : (s.setNode n d).cmd = s.cmd := rfl
@[simp] theorem setNode_busy (s : State) (n : Nat) (d : Node) : (s.setNode n d).busy = s.busy := rfl
@[simp] theorem setNode_done (s : State) (n : Nat) (d : Node) : (s.setNode n d).done = s.done := rfl
@[simp] theorem setNode_err (s : State) (n : Nat) (d : Node) : (s.setNode n d).err = s.err := rfl
@[simp] theorem setNode_stickyErr (s : State) (n : Nat) (d : Node) : (s.setNode n d).stickyErr = s.stickyErr := rfl
@[simp] theorem setNode_errCode (s : State) (n : Nat) (d : Node) : (s.setNode n d).errCode = s.errCode := rfl
@[simp] theorem setNode_errInfo (s : State) (n : Nat) (d : Node) : (s.setNode n d).errInfo = s.errInfo := rfl
@[simp] theorem setNode_blkLen (s : State) (n : Nat) (d : Node) : (s.setNode n d).blkLen = s.blkLen := rfl
@[simp] theorem setNode_bitsLen (s : State) (n : Nat) (d : Node) : (s.setNode n d).bitsLen = s.bitsLen := rfl
@[simp] theorem setNode_cursor (s : State) (n : Nat) (d : Node) : (s.setNode n d).cursor = s.cursor := rfl
@[simp] theorem setNode_hdrLen (s : State) (n : Nat) (d : Node) : (s.setNode n d).hdrLen = s.hdrLen := rfl
@[simp] theorem setNode_nodeCnt (s : State) (n : Nat) (d : Node) : (s.setNode n d).nodeCnt = s.nodeCnt := rfl
@[simp] theorem setNode_root (s : State) (n : Nat) (d : Node) : (s.setNode n d).root = s.root := rfl
@[simp] theorem setNode_symCnt (s : State) (n : Nat) (d : Node) : (s.setNode n d).symCnt = s.symCnt := rfl
@[simp] theorem setNode_tailBits (s : State) (n : Nat) (d : Node) : (s.setNode n d).tailBits = s.tailBits := rfl
@[simp] theorem setNode_codeLen (s : State) (n : Nat) (d : Node) : (s.setNode n d).codeLen = s.codeLen := rfl
@[simp] theorem setNode_codeBits (s : State) (n : Nat) (d : Node) : (s.setNode n d).codeBits = s.codeBits := rfl
@[simp] theorem setNode_blk (s : State) (n : Nat) (d : Node) : (s.setNode n d).blk = s.blk := rfl
@[simp] theorem setNode_bits (s : State) (n : Nat) (d : Node) : (s.setNode n d).bits = s.bits := rfl
@[simp] theorem setNode_nodes (s : State) (n : Nat) (d : Node) : (s.setNode n d).nodes = if d = .free then Memory.erase s.nodes n else Memory.write s.nodes n d := rfl
@[simp] theorem setNode_inputs (s : State) (n : Nat) (d : Node) : (s.setNode n d).inputs = s.inputs := rfl
@[simp] theorem setNode_reply (s : State) (n : Nat) (d : Node) : (s.setNode n d).reply = s.reply := rfl
@[simp] theorem setNode_resets (s : State) (n : Nat) (d : Node) : (s.setNode n d).resets = s.resets := rfl
@[simp] theorem setNode_polls (s : State) (n : Nat) (d : Node) : (s.setNode n d).polls = s.polls := rfl

/-! ### beginCommand -/

@[simp] theorem beginCommand_params (s : State) (w : Word) : (beginCommand w s).params = s.params := rfl
@[simp] theorem beginCommand_cmd (s : State) (w : Word) : (beginCommand w s).cmd = w := rfl
@[simp] theorem beginCommand_busy (s : State) (w : Word) : (beginCommand w s).busy = true := rfl
@[simp] theorem beginCommand_done (s : State) (w : Word) : (beginCommand w s).done = false := rfl
@[simp] theorem beginCommand_err (s : State) (w : Word) : (beginCommand w s).err = false := rfl
@[simp] theorem beginCommand_stickyErr (s : State) (w : Word) : (beginCommand w s).stickyErr = s.stickyErr := rfl
@[simp] theorem beginCommand_errCode (s : State) (w : Word) : (beginCommand w s).errCode = 0 := rfl
@[simp] theorem beginCommand_errInfo (s : State) (w : Word) : (beginCommand w s).errInfo = 0 := rfl
@[simp] theorem beginCommand_blkLen (s : State) (w : Word) : (beginCommand w s).blkLen = s.blkLen := rfl
@[simp] theorem beginCommand_bitsLen (s : State) (w : Word) : (beginCommand w s).bitsLen = s.bitsLen := rfl
@[simp] theorem beginCommand_cursor (s : State) (w : Word) : (beginCommand w s).cursor = s.cursor := rfl
@[simp] theorem beginCommand_hdrLen (s : State) (w : Word) : (beginCommand w s).hdrLen = s.hdrLen := rfl
@[simp] theorem beginCommand_nodeCnt (s : State) (w : Word) : (beginCommand w s).nodeCnt = s.nodeCnt := rfl
@[simp] theorem beginCommand_root (s : State) (w : Word) : (beginCommand w s).root = s.root := rfl
@[simp] theorem beginCommand_symCnt (s : State) (w : Word) : (beginCommand w s).symCnt = s.symCnt := rfl
@[simp] theorem beginCommand_tailBits (s : State) (w : Word) : (beginCommand w s).tailBits = s.tailBits := rfl
@[simp] theorem beginCommand_codeLen (s : State) (w : Word) : (beginCommand w s).codeLen = s.codeLen := rfl
@[simp] theorem beginCommand_codeBits (s : State) (w : Word) : (beginCommand w s).codeBits = s.codeBits := rfl
@[simp] theorem beginCommand_blk (s : State) (w : Word) : (beginCommand w s).blk = s.blk := rfl
@[simp] theorem beginCommand_bits (s : State) (w : Word) : (beginCommand w s).bits = s.bits := rfl
@[simp] theorem beginCommand_nodes (s : State) (w : Word) : (beginCommand w s).nodes = s.nodes := rfl
@[simp] theorem beginCommand_inputs (s : State) (w : Word) : (beginCommand w s).inputs = s.inputs := rfl
@[simp] theorem beginCommand_reply (s : State) (w : Word) : (beginCommand w s).reply = s.reply := rfl
@[simp] theorem beginCommand_resets (s : State) (w : Word) : (beginCommand w s).resets = s.resets := rfl
@[simp] theorem beginCommand_polls (s : State) (w : Word) : (beginCommand w s).polls = s.polls := rfl

/-! ### errorEntry -/

@[simp] theorem errorEntry_params (s : State) (e : Err) (info : Word) : (errorEntry e info s).params = s.params := rfl
@[simp] theorem errorEntry_cmd (s : State) (e : Err) (info : Word) : (errorEntry e info s).cmd = s.cmd := rfl
@[simp] theorem errorEntry_busy (s : State) (e : Err) (info : Word) : (errorEntry e info s).busy = s.busy := rfl
@[simp] theorem errorEntry_done (s : State) (e : Err) (info : Word) : (errorEntry e info s).done = s.done := rfl
@[simp] theorem errorEntry_err (s : State) (e : Err) (info : Word) : (errorEntry e info s).err = true := rfl
@[simp] theorem errorEntry_stickyErr (s : State) (e : Err) (info : Word) : (errorEntry e info s).stickyErr = true := rfl
@[simp] theorem errorEntry_errCode (s : State) (e : Err) (info : Word) : (errorEntry e info s).errCode = e.code := rfl
@[simp] theorem errorEntry_errInfo (s : State) (e : Err) (info : Word) : (errorEntry e info s).errInfo = info := rfl
@[simp] theorem errorEntry_blkLen (s : State) (e : Err) (info : Word) : (errorEntry e info s).blkLen = s.blkLen := rfl
@[simp] theorem errorEntry_bitsLen (s : State) (e : Err) (info : Word) : (errorEntry e info s).bitsLen = s.bitsLen := rfl
@[simp] theorem errorEntry_cursor (s : State) (e : Err) (info : Word) : (errorEntry e info s).cursor = s.cursor := rfl
@[simp] theorem errorEntry_hdrLen (s : State) (e : Err) (info : Word) : (errorEntry e info s).hdrLen = s.hdrLen := rfl
@[simp] theorem errorEntry_nodeCnt (s : State) (e : Err) (info : Word) : (errorEntry e info s).nodeCnt = s.nodeCnt := rfl
@[simp] theorem errorEntry_root (s : State) (e : Err) (info : Word) : (errorEntry e info s).root = s.root := rfl
@[simp] theorem errorEntry_symCnt (s : State) (e : Err) (info : Word) : (errorEntry e info s).symCnt = s.symCnt := rfl
@[simp] theorem errorEntry_tailBits (s : State) (e : Err) (info : Word) : (errorEntry e info s).tailBits = s.tailBits := rfl
@[simp] theorem errorEntry_codeLen (s : State) (e : Err) (info : Word) : (errorEntry e info s).codeLen = s.codeLen := rfl
@[simp] theorem errorEntry_codeBits (s : State) (e : Err) (info : Word) : (errorEntry e info s).codeBits = s.codeBits := rfl
@[simp] theorem errorEntry_blk (s : State) (e : Err) (info : Word) : (errorEntry e info s).blk = s.blk := rfl
@[simp] theorem errorEntry_bits (s : State) (e : Err) (info : Word) : (errorEntry e info s).bits = s.bits := rfl
@[simp] theorem errorEntry_nodes (s : State) (e : Err) (info : Word) : (errorEntry e info s).nodes = s.nodes := rfl
@[simp] theorem errorEntry_inputs (s : State) (e : Err) (info : Word) : (errorEntry e info s).inputs = s.inputs := rfl
@[simp] theorem errorEntry_reply (s : State) (e : Err) (info : Word) : (errorEntry e info s).reply = s.reply := rfl
@[simp] theorem errorEntry_resets (s : State) (e : Err) (info : Word) : (errorEntry e info s).resets = s.resets := rfl
@[simp] theorem errorEntry_polls (s : State) (e : Err) (info : Word) : (errorEntry e info s).polls = s.polls := rfl

/-! ### endCommand -/

@[simp] theorem endCommand_params (s : State) : (endCommand s).params = s.params := rfl
@[simp] theorem endCommand_cmd (s : State) : (endCommand s).cmd = s.cmd := rfl
@[simp] theorem endCommand_busy (s : State) : (endCommand s).busy = false := rfl
@[simp] theorem endCommand_done (s : State) : (endCommand s).done = true := rfl
@[simp] theorem endCommand_err (s : State) : (endCommand s).err = s.err := rfl
@[simp] theorem endCommand_stickyErr (s : State) : (endCommand s).stickyErr = s.stickyErr := rfl
@[simp] theorem endCommand_errCode (s : State) : (endCommand s).errCode = s.errCode := rfl
@[simp] theorem endCommand_errInfo (s : State) : (endCommand s).errInfo = s.errInfo := rfl
@[simp] theorem endCommand_blkLen (s : State) : (endCommand s).blkLen = s.blkLen := rfl
@[simp] theorem endCommand_bitsLen (s : State) : (endCommand s).bitsLen = s.bitsLen := rfl
@[simp] theorem endCommand_cursor (s : State) : (endCommand s).cursor = s.cursor := rfl
@[simp] theorem endCommand_hdrLen (s : State) : (endCommand s).hdrLen = s.hdrLen := rfl
@[simp] theorem endCommand_nodeCnt (s : State) : (endCommand s).nodeCnt = s.nodeCnt := rfl
@[simp] theorem endCommand_root (s : State) : (endCommand s).root = s.root := rfl
@[simp] theorem endCommand_symCnt (s : State) : (endCommand s).symCnt = s.symCnt := rfl
@[simp] theorem endCommand_tailBits (s : State) : (endCommand s).tailBits = s.tailBits := rfl
@[simp] theorem endCommand_codeLen (s : State) : (endCommand s).codeLen = s.codeLen := rfl
@[simp] theorem endCommand_codeBits (s : State) : (endCommand s).codeBits = s.codeBits := rfl
@[simp] theorem endCommand_blk (s : State) : (endCommand s).blk = s.blk := rfl
@[simp] theorem endCommand_bits (s : State) : (endCommand s).bits = s.bits := rfl
@[simp] theorem endCommand_nodes (s : State) : (endCommand s).nodes = s.nodes := rfl
@[simp] theorem endCommand_inputs (s : State) : (endCommand s).inputs = s.inputs := rfl
@[simp] theorem endCommand_reply (s : State) : (endCommand s).reply = s.reply := rfl
@[simp] theorem endCommand_resets (s : State) : (endCommand s).resets = s.resets := rfl
@[simp] theorem endCommand_polls (s : State) : (endCommand s).polls = s.polls := rfl

/-! ### arenaClear -/

@[simp] theorem arenaClear_params (s : State) : (arenaClear s).params = s.params := rfl
@[simp] theorem arenaClear_cmd (s : State) : (arenaClear s).cmd = s.cmd := rfl
@[simp] theorem arenaClear_busy (s : State) : (arenaClear s).busy = s.busy := rfl
@[simp] theorem arenaClear_done (s : State) : (arenaClear s).done = s.done := rfl
@[simp] theorem arenaClear_err (s : State) : (arenaClear s).err = s.err := rfl
@[simp] theorem arenaClear_stickyErr (s : State) : (arenaClear s).stickyErr = s.stickyErr := rfl
@[simp] theorem arenaClear_errCode (s : State) : (arenaClear s).errCode = s.errCode := rfl
@[simp] theorem arenaClear_errInfo (s : State) : (arenaClear s).errInfo = s.errInfo := rfl
@[simp] theorem arenaClear_blkLen (s : State) : (arenaClear s).blkLen = s.blkLen := rfl
@[simp] theorem arenaClear_bitsLen (s : State) : (arenaClear s).bitsLen = s.bitsLen := rfl
@[simp] theorem arenaClear_cursor (s : State) : (arenaClear s).cursor = s.cursor := rfl
@[simp] theorem arenaClear_hdrLen (s : State) : (arenaClear s).hdrLen = s.hdrLen := rfl
@[simp] theorem arenaClear_nodeCnt (s : State) : (arenaClear s).nodeCnt = 0 := rfl
@[simp] theorem arenaClear_root (s : State) : (arenaClear s).root = 0 := rfl
@[simp] theorem arenaClear_symCnt (s : State) : (arenaClear s).symCnt = s.symCnt := rfl
@[simp] theorem arenaClear_tailBits (s : State) : (arenaClear s).tailBits = s.tailBits := rfl
@[simp] theorem arenaClear_codeLen (s : State) : (arenaClear s).codeLen = s.codeLen := rfl
@[simp] theorem arenaClear_codeBits (s : State) : (arenaClear s).codeBits = s.codeBits := rfl
@[simp] theorem arenaClear_blk (s : State) : (arenaClear s).blk = s.blk := rfl
@[simp] theorem arenaClear_bits (s : State) : (arenaClear s).bits = s.bits := rfl
@[simp] theorem arenaClear_nodes (s : State) : (arenaClear s).nodes = [] := rfl
@[simp] theorem arenaClear_inputs (s : State) : (arenaClear s).inputs = s.inputs := rfl
@[simp] theorem arenaClear_reply (s : State) : (arenaClear s).reply = s.reply := rfl
@[simp] theorem arenaClear_resets (s : State) : (arenaClear s).resets = s.resets := rfl
@[simp] theorem arenaClear_polls (s : State) : (arenaClear s).polls = s.polls := rfl

/-! ### treeInit -/

@[simp] theorem treeInit_params (s : State) : (treeInit s).params = s.params := rfl
@[simp] theorem treeInit_cmd (s : State) : (treeInit s).cmd = s.cmd := rfl
@[simp] theorem treeInit_busy (s : State) : (treeInit s).busy = s.busy := rfl
@[simp] theorem treeInit_done (s : State) : (treeInit s).done = s.done := rfl
@[simp] theorem treeInit_err (s : State) : (treeInit s).err = s.err := rfl
@[simp] theorem treeInit_stickyErr (s : State) : (treeInit s).stickyErr = s.stickyErr := rfl
@[simp] theorem treeInit_errCode (s : State) : (treeInit s).errCode = s.errCode := rfl
@[simp] theorem treeInit_errInfo (s : State) : (treeInit s).errInfo = s.errInfo := rfl
@[simp] theorem treeInit_blkLen (s : State) : (treeInit s).blkLen = s.blkLen := rfl
@[simp] theorem treeInit_bitsLen (s : State) : (treeInit s).bitsLen = s.bitsLen := rfl
@[simp] theorem treeInit_cursor (s : State) : (treeInit s).cursor = s.cursor := rfl
@[simp] theorem treeInit_hdrLen (s : State) : (treeInit s).hdrLen = s.hdrLen := rfl
@[simp] theorem treeInit_nodeCnt (s : State) : (treeInit s).nodeCnt = 1 := rfl
@[simp] theorem treeInit_root (s : State) : (treeInit s).root = 0 := rfl
@[simp] theorem treeInit_symCnt (s : State) : (treeInit s).symCnt = s.symCnt := rfl
@[simp] theorem treeInit_tailBits (s : State) : (treeInit s).tailBits = s.tailBits := rfl
@[simp] theorem treeInit_codeLen (s : State) : (treeInit s).codeLen = s.codeLen := rfl
@[simp] theorem treeInit_codeBits (s : State) : (treeInit s).codeBits = s.codeBits := rfl
@[simp] theorem treeInit_blk (s : State) : (treeInit s).blk = s.blk := rfl
@[simp] theorem treeInit_bits (s : State) : (treeInit s).bits = s.bits := rfl
@[simp] theorem treeInit_nodes (s : State) : (treeInit s).nodes = [(0, .unset)] := rfl
@[simp] theorem treeInit_inputs (s : State) : (treeInit s).inputs = s.inputs := rfl
@[simp] theorem treeInit_reply (s : State) : (treeInit s).reply = s.reply := rfl
@[simp] theorem treeInit_resets (s : State) : (treeInit s).resets = s.resets := rfl
@[simp] theorem treeInit_polls (s : State) : (treeInit s).polls = s.polls := rfl

/-! ### makeLeaf -/

@[simp] theorem makeLeaf_params (s : State) (n : NodeIdx) (v : Byte) : (makeLeaf n v s).params = s.params := rfl
@[simp] theorem makeLeaf_cmd (s : State) (n : NodeIdx) (v : Byte) : (makeLeaf n v s).cmd = s.cmd := rfl
@[simp] theorem makeLeaf_busy (s : State) (n : NodeIdx) (v : Byte) : (makeLeaf n v s).busy = s.busy := rfl
@[simp] theorem makeLeaf_done (s : State) (n : NodeIdx) (v : Byte) : (makeLeaf n v s).done = s.done := rfl
@[simp] theorem makeLeaf_err (s : State) (n : NodeIdx) (v : Byte) : (makeLeaf n v s).err = s.err := rfl
@[simp] theorem makeLeaf_stickyErr (s : State) (n : NodeIdx) (v : Byte) : (makeLeaf n v s).stickyErr = s.stickyErr := rfl
@[simp] theorem makeLeaf_errCode (s : State) (n : NodeIdx) (v : Byte) : (makeLeaf n v s).errCode = s.errCode := rfl
@[simp] theorem makeLeaf_errInfo (s : State) (n : NodeIdx) (v : Byte) : (makeLeaf n v s).errInfo = s.errInfo := rfl
@[simp] theorem makeLeaf_blkLen (s : State) (n : NodeIdx) (v : Byte) : (makeLeaf n v s).blkLen = s.blkLen := rfl
@[simp] theorem makeLeaf_bitsLen (s : State) (n : NodeIdx) (v : Byte) : (makeLeaf n v s).bitsLen = s.bitsLen := rfl
@[simp] theorem makeLeaf_cursor (s : State) (n : NodeIdx) (v : Byte) : (makeLeaf n v s).cursor = s.cursor := rfl
@[simp] theorem makeLeaf_hdrLen (s : State) (n : NodeIdx) (v : Byte) : (makeLeaf n v s).hdrLen = s.hdrLen := rfl
@[simp] theorem makeLeaf_nodeCnt (s : State) (n : NodeIdx) (v : Byte) : (makeLeaf n v s).nodeCnt = s.nodeCnt := rfl
@[simp] theorem makeLeaf_root (s : State) (n : NodeIdx) (v : Byte) : (makeLeaf n v s).root = s.root := rfl
@[simp] theorem makeLeaf_symCnt (s : State) (n : NodeIdx) (v : Byte) : (makeLeaf n v s).symCnt = s.symCnt := rfl
@[simp] theorem makeLeaf_tailBits (s : State) (n : NodeIdx) (v : Byte) : (makeLeaf n v s).tailBits = s.tailBits := rfl
@[simp] theorem makeLeaf_codeLen (s : State) (n : NodeIdx) (v : Byte) : (makeLeaf n v s).codeLen = s.codeLen := rfl
@[simp] theorem makeLeaf_codeBits (s : State) (n : NodeIdx) (v : Byte) : (makeLeaf n v s).codeBits = s.codeBits := rfl
@[simp] theorem makeLeaf_blk (s : State) (n : NodeIdx) (v : Byte) : (makeLeaf n v s).blk = s.blk := rfl
@[simp] theorem makeLeaf_bits (s : State) (n : NodeIdx) (v : Byte) : (makeLeaf n v s).bits = s.bits := rfl
@[simp] theorem makeLeaf_nodes (s : State) (n : NodeIdx) (v : Byte) : (makeLeaf n v s).nodes = Memory.write s.nodes n.toNat (.leaf v) := rfl
@[simp] theorem makeLeaf_inputs (s : State) (n : NodeIdx) (v : Byte) : (makeLeaf n v s).inputs = s.inputs := rfl
@[simp] theorem makeLeaf_reply (s : State) (n : NodeIdx) (v : Byte) : (makeLeaf n v s).reply = s.reply := rfl
@[simp] theorem makeLeaf_resets (s : State) (n : NodeIdx) (v : Byte) : (makeLeaf n v s).resets = s.resets := rfl
@[simp] theorem makeLeaf_polls (s : State) (n : NodeIdx) (v : Byte) : (makeLeaf n v s).polls = s.polls := rfl

/-! ### hardReset -/

@[simp] theorem hardReset_params (s : State) : (hardReset s).params = s.params := rfl
@[simp] theorem hardReset_cmd (s : State) : (hardReset s).cmd = 0 := rfl
@[simp] theorem hardReset_busy (s : State) : (hardReset s).busy = false := rfl
@[simp] theorem hardReset_done (s : State) : (hardReset s).done = false := rfl
@[simp] theorem hardReset_err (s : State) : (hardReset s).err = false := rfl
@[simp] theorem hardReset_stickyErr (s : State) : (hardReset s).stickyErr = false := rfl
@[simp] theorem hardReset_errCode (s : State) : (hardReset s).errCode = 0 := rfl
@[simp] theorem hardReset_errInfo (s : State) : (hardReset s).errInfo = 0 := rfl
@[simp] theorem hardReset_blkLen (s : State) : (hardReset s).blkLen = 0 := rfl
@[simp] theorem hardReset_bitsLen (s : State) : (hardReset s).bitsLen = 0 := rfl
@[simp] theorem hardReset_cursor (s : State) : (hardReset s).cursor = 0 := rfl
@[simp] theorem hardReset_hdrLen (s : State) : (hardReset s).hdrLen = 0 := rfl
@[simp] theorem hardReset_nodeCnt (s : State) : (hardReset s).nodeCnt = 0 := rfl
@[simp] theorem hardReset_root (s : State) : (hardReset s).root = 0 := rfl
@[simp] theorem hardReset_symCnt (s : State) : (hardReset s).symCnt = 0 := rfl
@[simp] theorem hardReset_tailBits (s : State) : (hardReset s).tailBits = 0 := rfl
@[simp] theorem hardReset_codeLen (s : State) : (hardReset s).codeLen = 0 := rfl
@[simp] theorem hardReset_codeBits (s : State) : (hardReset s).codeBits = #v[0, 0, 0, 0, 0, 0, 0, 0] := rfl
@[simp] theorem hardReset_blk (s : State) : (hardReset s).blk = [] := rfl
@[simp] theorem hardReset_bits (s : State) : (hardReset s).bits = [] := rfl
@[simp] theorem hardReset_nodes (s : State) : (hardReset s).nodes = [] := rfl
@[simp] theorem hardReset_inputs (s : State) : (hardReset s).inputs = s.inputs := rfl
@[simp] theorem hardReset_reply (s : State) : (hardReset s).reply = .none := rfl
@[simp] theorem hardReset_resets (s : State) : (hardReset s).resets = s.resets + 1 := rfl
@[simp] theorem hardReset_polls (s : State) : (hardReset s).polls = s.polls := rfl

end Sys2Proof.Machine
end

