-- ==== Sys2Proof/Laws/Memory.lean ====
section
/-! SUPPORT. The laws of sparse memory: read after write, and that every operation keeps the canonical form; and the same for
the three stores of the state. -/

namespace Sys2Proof.Machine

variable {α : Type}

theorem Memory.read_write (m : List (Nat × α)) (a : Nat) (v : α) (b : Nat) :
    Memory.read (Memory.write m a v) b = if b = a then some v else Memory.read m b := by
  induction m with
  | nil =>
    by_cases h : b = a
    · simp [Memory.write, Memory.read, h]
    · simp [Memory.write, Memory.read, h, Ne.symm h]
  | cons e rest ih =>
    obtain ⟨k, w⟩ := e
    simp only [Memory.write]
    split
    · by_cases h : b = a
      · simp [Memory.read, h]
      · simp [Memory.read, h, Ne.symm h]
    · split
      · subst k
        by_cases h : b = a
        · simp [Memory.read, h]
        · simp [Memory.read, h, Ne.symm h]
      · simp only [Memory.read, ih]
        by_cases h : b = a
        · subst b
          have : k ≠ a := by omega
          simp [this]
        · simp [h]

theorem Memory.read_erase_of_ne (m : List (Nat × α)) {a b : Nat} (h : b ≠ a) :
    Memory.read (Memory.erase m a) b = Memory.read m b := by
  induction m with
  | nil => rfl
  | cons e rest ih =>
    obtain ⟨k, w⟩ := e
    simp only [Memory.erase]
    split
    · subst k
      simp [Memory.read, Ne.symm h]
    · simp [Memory.read, ih]

theorem Memory.mem_of_read {m : List (Nat × α)} {a : Nat} {v : α} (h : Memory.read m a = some v) : (a, v) ∈ m := by
  induction m with
  | nil => simp [Memory.read] at h
  | cons e rest ih =>
    obtain ⟨k, w⟩ := e
    simp only [Memory.read] at h
    split at h
    · subst k
      simp_all
    · exact List.mem_cons_of_mem _ (ih h)

theorem Memory.read_of_mem {m : List (Nat × α)} {a : Nat} {v : α} (hw : Memory.wf m) (h : (a, v) ∈ m) :
    Memory.read m a = some v := by
  induction m with
  | nil => simp at h
  | cons e rest ih =>
    obtain ⟨k, w⟩ := e
    have hp := List.pairwise_cons.mp hw
    rcases List.mem_cons.mp h with h | h
    · cases h
      simp [Memory.read]
    · have : k < a := hp.1 _ h
      simp only [Memory.read]
      rw [if_neg (by omega)]
      exact ih hp.2 h

theorem Memory.mem_write {m : List (Nat × α)} {a : Nat} {v : α} {e : Nat × α} (h : e ∈ Memory.write m a v) :
    e = (a, v) ∨ e ∈ m := by
  induction m with
  | nil => simp_all [Memory.write]
  | cons x rest ih =>
    obtain ⟨k, w⟩ := x
    simp only [Memory.write] at h
    split at h
    · simpa using h
    · split at h
      · rcases List.mem_cons.mp h with h | h
        · exact .inl h
        · exact .inr (List.mem_cons_of_mem _ h)
      · rcases List.mem_cons.mp h with h | h
        · exact .inr (by simp [h])
        · rcases ih h with h | h
          · exact .inl h
          · exact .inr (List.mem_cons_of_mem _ h)

theorem Memory.mem_erase {m : List (Nat × α)} {a : Nat} {e : Nat × α} (h : e ∈ Memory.erase m a) : e ∈ m := by
  induction m with
  | nil => simp [Memory.erase] at h
  | cons x rest ih =>
    obtain ⟨k, w⟩ := x
    simp only [Memory.erase] at h
    split at h
    · exact List.mem_cons_of_mem _ h
    · rcases List.mem_cons.mp h with h | h
      · simp [h]
      · exact List.mem_cons_of_mem _ (ih h)

/-- A write keeps the canonical form. -/
theorem Memory.wf_write {m : List (Nat × α)} (hw : Memory.wf m) (a : Nat) (v : α) : Memory.wf (Memory.write m a v) := by
  induction m with
  | nil => simp [Memory.write]
  | cons x rest ih =>
    obtain ⟨k, w⟩ := x
    have hp := List.pairwise_cons.mp hw
    simp only [Memory.write]
    split
    · rename_i hlt
      refine List.pairwise_cons.mpr ⟨fun y hy => ?_, hw⟩
      rcases List.mem_cons.mp hy with h | h
      · simp [h, hlt]
      · exact Nat.lt_trans hlt (hp.1 y h)
    · split
      · subst a
        exact List.pairwise_cons.mpr ⟨hp.1, hp.2⟩
      · refine List.pairwise_cons.mpr ⟨fun y hy => ?_, ih hp.2⟩
        rcases Memory.mem_write hy with h | h
        · simp only [h]
          omega
        · exact hp.1 y h

/-- Taking an entry out keeps the canonical form. -/
theorem Memory.wf_erase {m : List (Nat × α)} (hw : Memory.wf m) (a : Nat) : Memory.wf (Memory.erase m a) := by
  induction m with
  | nil => simp [Memory.erase]
  | cons x rest ih =>
    obtain ⟨k, w⟩ := x
    have hp := List.pairwise_cons.mp hw
    simp only [Memory.erase]
    split
    · exact hp.2
    · exact List.pairwise_cons.mpr ⟨fun y hy => hp.1 y (Memory.mem_erase hy), ih hp.2⟩

theorem Memory.not_read_of_lt {m : List (Nat × α)} {a : Nat} (h : ∀ e ∈ m, a < e.1) : Memory.read m a = none := by
  induction m with
  | nil => rfl
  | cons x rest ih =>
    obtain ⟨k, w⟩ := x
    have hk : a < k := h (k, w) (by simp)
    simp only [Memory.read]
    rw [if_neg (by omega)]
    exact ih (fun e he => h e (List.mem_cons_of_mem _ he))

theorem Memory.read_erase_self {m : List (Nat × α)} (hw : Memory.wf m) (a : Nat) :
    Memory.read (Memory.erase m a) a = none := by
  induction m with
  | nil => rfl
  | cons x rest ih =>
    obtain ⟨k, w⟩ := x
    have hp := List.pairwise_cons.mp hw
    simp only [Memory.erase]
    split
    · subst k
      exact Memory.not_read_of_lt (fun e he => hp.1 e he)
    · simp_all [Memory.read]

/-- Writing an arena entry that is not FREE keeps the arena's canonical form. -/
theorem Memory.wfNodes_write {m : List (Nat × Node)} (hw : Memory.wfNodes m) (n : Nat) {d : Node} (hd : d ≠ .free) :
    Memory.wfNodes (Memory.write m n d) := by
  refine ⟨Memory.wf_write hw.1 n d, fun e he => ?_⟩
  rcases Memory.mem_write he with h | h
  · simpa [h] using hd
  · exact hw.2 e h

/-- Writing any arena entry keeps the arena's canonical form. -/
theorem setNode_wfNodes {s : State} (hw : Memory.wfNodes s.nodes) (n : Nat) (d : Node) :
    Memory.wfNodes (s.setNode n d).nodes := by
  by_cases hd : d = .free
  · simp only [setNode_nodes, hd, if_true]
    exact ⟨Memory.wf_erase hw.1 n, fun e he => hw.2 e (Memory.mem_erase he)⟩
  · simp only [setNode_nodes, hd, if_false]
    exact Memory.wfNodes_write hw n hd

/-! ### Reading the three stores -/

/-- BLK reads the same in two states that list the same bytes under the same reset count. -/
theorem blkByte_congr {s t : State} (h : t.blk = s.blk) (hr : t.resets = s.resets) (i : Nat) :
    t.blkByte i = s.blkByte i := by
  simp [State.blkByte, h, hr]

/-- BITS reads the same in two states that list the same bits under the same reset count. -/
theorem bit_congr {s t : State} (h : t.bits = s.bits) (hr : t.resets = s.resets) (i : Nat) : t.bit i = s.bit i := by
  simp [State.bit, h, hr]

/-- NODE reads the same in two states that list the same entries. -/
theorem node_congr {s t : State} (h : t.nodes = s.nodes) (n : Nat) : t.node n = s.node n := by
  simp [State.node, h]

theorem blkByte_setBlkByte (s : State) (i : Nat) (v : Byte) (j : Nat) :
    (s.setBlkByte i v).blkByte j = if j = i then v else s.blkByte j := by
  simp only [State.blkByte, setBlkByte_blk, setBlkByte_resets, Memory.read_write]
  split <;> rfl

theorem bit_setBit (s : State) (i : Nat) (b : Bool) (j : Nat) :
    (s.setBit i b).bit j = if j = i then b else s.bit j := by
  simp only [State.bit, setBit_bits, setBit_resets, Memory.read_write]
  split <;> rfl

theorem node_setNode_of_ne (s : State) {n : Nat} {d : Node} {m : Nat} (h : m ≠ n) : (s.setNode n d).node m = s.node m := by
  simp only [State.node, setNode_nodes]
  split
  · rw [Memory.read_erase_of_ne _ h]
  · rw [Memory.read_write, if_neg h]

theorem node_setNode (s : State) (n : Nat) {d : Node} (hd : d ≠ .free) (m : Nat) :
    (s.setNode n d).node m = if m = n then d else s.node m := by
  by_cases h : m = n
  · simp [State.node, hd, Memory.read_write, h]
  · rw [node_setNode_of_ne s h, if_neg h]

theorem node_arenaClear (s : State) (n : Nat) : (arenaClear s).node n = .free := rfl

theorem node_treeInit (s : State) (n : Nat) : (treeInit s).node n = if n = 0 then .unset else .free := by
  by_cases h : n = 0
  · simp [State.node, Memory.read, h]
  · simp [State.node, Memory.read, h, Ne.symm h]

theorem node_makeLeaf (s : State) (p : NodeIdx) (v : Byte) (m : Nat) :
    (makeLeaf p v s).node m = if m = p.toNat then .leaf v else s.node m :=
  node_setNode s p.toNat (by simp) m

/-- The stores of the reset state are in canonical form. -/
theorem resetOf_stores_wf (p : Params) (k : Nat) :
    Memory.wf (State.resetOf p k).blk ∧ Memory.wf (State.resetOf p k).bits ∧ Memory.wfNodes (State.resetOf p k).nodes := by
  simp [State.resetOf, Memory.wf, Memory.wfNodes]

end Sys2Proof.Machine
end

