-- ==== Sys2Proof/Laws/Bits.lean ====
section
/-! SUPPORT. The bit sequence: what appending and reading bits does, said once over lists of bits. -/

namespace Sys2Proof

/-! ### Bits of a byte -/

theorem packBits_lt (n : Nat) : ∀ l : List Bool, packBits n l < 2 ^ n := by
  induction n with
  | zero => intro l; simp [packBits]
  | succ n ih =>
    intro l
    cases l with
    | nil =>
      have := ih []
      simp only [packBits, Nat.pow_succ]
      omega
    | cons b rest =>
      have := ih rest
      cases b <;> simp [packBits, Nat.pow_succ] <;> omega

/-- Digit `b` of a packed number, counted from the most significant, is bit `b` of the list; missing bits are 0. -/
theorem packBits_testBit (n : Nat) : ∀ (l : List Bool) (b : Nat), b < n →
    (packBits n l).testBit (n - 1 - b) = (l[b]?).getD false := by
  induction n with
  | zero => intro l b hb; omega
  | succ n ih =>
    intro l b hb
    cases l with
    | nil =>
      simp only [packBits]
      cases b with
      | zero =>
        have := packBits_lt n []
        simpa using Nat.testBit_lt_two_pow this
      | succ b =>
        have := ih [] b (by omega)
        rw [show n + 1 - 1 - (b + 1) = n - 1 - b by omega]
        simpa using this
    | cons c rest =>
      have hlt := packBits_lt n rest
      simp only [packBits]
      cases b with
      | zero =>
        rw [show n + 1 - 1 - 0 = n by omega, Nat.mul_comm, Nat.testBit_two_pow_mul_add _ hlt]
        cases c <;> simp
      | succ b =>
        have := ih rest b (by omega)
        rw [show n + 1 - 1 - (b + 1) = n - 1 - b by omega, Nat.mul_comm, Nat.testBit_two_pow_mul_add _ hlt, if_pos (by omega)]
        simpa using this

theorem byteOfBits_bitsOfByte (v : Byte) : byteOfBits (bitsOfByte v) = v := by
  revert v
  decide +kernel

theorem bitsOfByte_length (v : Byte) : (bitsOfByte v).length = 8 := rfl

theorem packBits_append (n : Nat) : ∀ (l r : List Bool), n ≤ l.length → packBits n (l ++ r) = packBits n l := by
  induction n with
  | zero => intros; rfl
  | succ n ih =>
    intro l r h
    cases l with
    | nil => simp at h
    | cons b rest => simp only [List.cons_append, packBits, ih rest r (by simpa using h)]

theorem byteOfBits_append (l r : List Bool) (h : 8 ≤ l.length) : byteOfBits (l ++ r) = byteOfBits l := by
  simp [byteOfBits, packBits_append 8 l r h]

theorem bitsOfByte_byteOfBits_eight : ∀ b0 b1 b2 b3 b4 b5 b6 b7 : Bool,
    [b0, b1, b2, b3, b4, b5, b6, b7] = bitsOfByte (byteOfBits [b0, b1, b2, b3, b4, b5, b6, b7]) := by
  decide

/-- Eight bits make one byte and come back from it (R14, R53). -/
theorem bitsOfByte_byteOfBits {l : List Bool} (h : 8 ≤ l.length) : bitsOfByte (byteOfBits l) = l.take 8 := by
  match l, h with
  | b0 :: b1 :: b2 :: b3 :: b4 :: b5 :: b6 :: b7 :: r, _ =>
    have := byteOfBits_append [b0, b1, b2, b3, b4, b5, b6, b7] r (by simp)
    simp only [List.cons_append, List.nil_append] at this
    rw [this, ← bitsOfByte_byteOfBits_eight]
    rfl
  | [], h | [_], h | [_, _], h | [_, _, _], h | [_, _, _, _], h | [_, _, _, _, _], h | [_, _, _, _, _, _], h
  | [_, _, _, _, _, _, _], h => simp at h

end Sys2Proof

namespace Sys2Proof.Machine

/-! ### Writing a run of cells -/

/-- Write the values of `l` at the indices from `i` on. -/
def Memory.writeAll {α : Type} : List (Nat × α) → Nat → List α → List (Nat × α)
  | m, _, [] => m
  | m, i, v :: rest => Memory.writeAll (Memory.write m i v) (i + 1) rest

theorem Memory.writeAll_append {α : Type} (m : List (Nat × α)) (i : Nat) (l r : List α) :
    Memory.writeAll m i (l ++ r) = Memory.writeAll (Memory.writeAll m i l) (i + l.length) r := by
  induction l generalizing m i with
  | nil => simp [Memory.writeAll]
  | cons v rest ih => simp [Memory.writeAll, ih, Nat.add_assoc, Nat.add_comm 1]

theorem Memory.read_writeAll {α : Type} (m : List (Nat × α)) (i : Nat) (l : List α) (j : Nat) :
    Memory.read (Memory.writeAll m i l) j = if i ≤ j ∧ j < i + l.length then l[j - i]? else Memory.read m j := by
  induction l generalizing m i with
  | nil =>
    simp only [Memory.writeAll, List.length_nil]
    rw [if_neg (by omega)]
  | cons v rest ih =>
    simp only [Memory.writeAll, ih, Memory.read_write, List.length_cons]
    by_cases h1 : j = i
    · subst h1
      rw [if_neg (by omega), if_pos (by omega)]
      simp
    · by_cases h2 : i + 1 ≤ j ∧ j < i + 1 + rest.length
      · rw [if_pos h2, if_pos (by omega)]
        have : j - i = (j - (i + 1)) + 1 := by omega
        rw [this, List.getElem?_cons_succ]
      · rw [if_neg h2, if_neg h1, if_neg (by omega)]

theorem Memory.mem_writeAll {α : Type} {m : List (Nat × α)} {i : Nat} {l : List α} {e : Nat × α}
    (h : e ∈ Memory.writeAll m i l) : e ∈ m ∨ (i ≤ e.1 ∧ e.1 < i + l.length) := by
  induction l generalizing m i with
  | nil => exact .inl h
  | cons v rest ih =>
    rcases ih h with h | h
    · rcases Memory.mem_write h with h | h
      · right
        simp [h]
      · exact .inl h
    · right
      simp only [List.length_cons]
      omega

/-- Writing a run of cells keeps the canonical form. -/
theorem Memory.wf_writeAll {α : Type} {m : List (Nat × α)} (hw : Memory.wf m) (i : Nat) (l : List α) :
    Memory.wf (Memory.writeAll m i l) := by
  induction l generalizing m i with
  | nil => exact hw
  | cons v rest ih => exact ih (Memory.wf_write hw i v) (i + 1)

/-- A bit after a run of bits was written. -/
theorem bit_of_writeAll {s t : State} {i : Nat} {l : List Bool} (h : t.bits = Memory.writeAll s.bits i l)
    (hr : t.resets = s.resets) (j : Nat) :
    t.bit j = if i ≤ j ∧ j < i + l.length then (l[j - i]?).getD false else s.bit j := by
  simp only [State.bit, h, hr, Memory.read_writeAll]
  split
  · rename_i hj
    have : j - i < l.length := by omega
    simp [List.getElem?_eq_getElem this]
  · rfl

theorem zeroBits_eq (n i : Nat) (s : State) :
    zeroBits n i s = { s with bits := Memory.writeAll s.bits i (List.replicate n false) } := by
  induction n generalizing i s with
  | zero => rfl
  | succ n ih => simp [zeroBits, ih, State.setBit, Memory.writeAll, List.replicate_succ]

theorem setBits_eq (l : List Bool) (i : Nat) (s : State) :
    setBits l i s = { s with bits := Memory.writeAll s.bits i l } := by
  induction l generalizing i s with
  | nil => rfl
  | cons b rest ih => simp [setBits, ih, State.setBit, Memory.writeAll]

/-- How many bits `zero_fill_tail` writes. -/
def tailGap (s : State) : Nat := (8 - s.bitsLen.toNat % 8) % 8

theorem zeroFillTail_eq (s : State) :
    zeroFillTail s =
      { s with bits := Memory.writeAll s.bits s.bitsLen.toNat (List.replicate (tailGap s) false) } :=
  zeroBits_eq _ _ _

/-! ### Results of bodies -/

/-- The state a body leaves, however it ends. -/
def BodyResult.state : BodyResult → State
  | .completed s => s
  | .raised _ _ s => s

/-- Go on after a completed body. -/
def BodyResult.bind (r : BodyResult) (f : State → BodyResult) : BodyResult :=
  match r with
  | .completed s => f s
  | .raised e info s => .raised e info s

@[simp] theorem BodyResult.completed_bind (s : State) (f : State → BodyResult) : (BodyResult.completed s).bind f = f s := rfl

@[simp] theorem BodyResult.raised_bind (e : Err) (info : Word) (s : State) (f : State → BodyResult) :
    (BodyResult.raised e info s).bind f = .raised e info s := rfl

theorem BodyResult.bind_assoc (r : BodyResult) (f g : State → BodyResult) :
    (r.bind f).bind g = r.bind (fun s => (f s).bind g) := by
  cases r <;> rfl

theorem BodyResult.bind_completed (r : BodyResult) : r.bind .completed = r := by
  cases r <;> rfl

/-! ### Appending -/

theorem appendBits_cons (b : Bool) (rest : List Bool) (s : State) :
    appendBits (b :: rest) s = (appendBit b s).bind (appendBits rest) := by
  simp only [appendBits]
  cases appendBit b s <;> rfl

theorem appendBits_append (l r : List Bool) (s : State) :
    appendBits (l ++ r) s = (appendBits l s).bind (appendBits r) := by
  induction l generalizing s with
  | nil => rfl
  | cons b rest ih =>
    have : appendBits (rest ++ r) = fun s => (appendBits rest s).bind (appendBits r) := funext ih
    rw [List.cons_append, appendBits_cons, appendBits_cons, this, BodyResult.bind_assoc]

/-- The state after the bits of `l` were appended. -/
def appended (l : List Bool) (s : State) : State :=
  { s with
    bits := Memory.writeAll s.bits s.bitsLen.toNat l
    bitsLen := s.bitsLen + BitVec.ofNat 32 l.length }

@[simp] theorem appended_nil (s : State) : appended [] s = s := by
  simp [appended, Memory.writeAll]

theorem toNat_add_ofNat {x : Word} {k : Nat} (h : x.toNat + k < 2 ^ 32) :
    (x + BitVec.ofNat 32 k).toNat = x.toNat + k := by
  rw [BitVec.toNat_add, BitVec.toNat_ofNat]
  omega

theorem bitsMax_lt (s : State) : s.params.bitsMax < 2 ^ 32 := by
  have := s.params.bitsMax_range.2.1
  omega

/-- Appending bits that fit completes and does nothing but append them (R13). -/
theorem appendBits_fits (l : List Bool) (s : State) (h : s.bitsLen.toNat + l.length ≤ s.params.bitsMax) :
    appendBits l s = .completed (appended l s) := by
  induction l generalizing s with
  | nil => simp [appendBits]
  | cons b rest ih =>
    have hm := bitsMax_lt s
    simp only [List.length_cons] at h
    have hlen : (s.bitsLen + 1).toNat = s.bitsLen.toNat + 1 := toNat_add_ofNat (k := 1) (by omega)
    rw [appendBits_cons, appendBit, if_neg (by omega), BodyResult.completed_bind, ih _ (by simp only [hlen]; simp; omega)]
    simp only [appended, hlen, setBit_bits, Memory.writeAll, List.length_cons]
    congr 2
    rw [Nat.add_comm, BitVec.ofNat_add, BitVec.add_assoc]
    rfl

/-- Appending bits that do not fit writes those that do and raises BitsOverflow (R13, R138). -/
theorem appendBits_overflows (l : List Bool) (s : State) (hs : s.bitsLen.toNat ≤ s.params.bitsMax)
    (h : s.params.bitsMax < s.bitsLen.toNat + l.length) :
    appendBits l s = .raised .bitsOverflow 0 (appended (l.take (s.params.bitsMax - s.bitsLen.toNat)) s) := by
  have hl : l = l.take (s.params.bitsMax - s.bitsLen.toNat) ++ l.drop (s.params.bitsMax - s.bitsLen.toNat) :=
    (List.take_append_drop _ _).symm
  have hm := bitsMax_lt s
  have hlen : (l.take (s.params.bitsMax - s.bitsLen.toNat)).length = s.params.bitsMax - s.bitsLen.toNat := by
    rw [List.length_take]
    omega
  conv_lhs => rw [hl]
  rw [appendBits_append, appendBits_fits _ _ (by omega), BodyResult.completed_bind]
  generalize hd : l.drop (s.params.bitsMax - s.bitsLen.toNat) = d
  cases d with
  | nil =>
    have := congrArg List.length hd
    simp only [List.length_drop, List.length_nil] at this
    omega
  | cons b rest =>
    rw [appendBits_cons, appendBit, if_pos, BodyResult.raised_bind]
    simp only [appended, hlen]
    rw [toNat_add_ofNat (by omega)]
    omega

/-- Whatever is appended, only BITS and BITS_LEN change, and the only error is BitsOverflow with ERRINFO 0. -/
theorem appendBits_cases (l : List Bool) (s : State) :
    ∃ t, t = { s with bits := t.bits, bitsLen := t.bitsLen } ∧
      (appendBits l s = .completed t ∨ appendBits l s = .raised .bitsOverflow 0 t) := by
  by_cases hs : s.bitsLen.toNat ≤ s.params.bitsMax
  · by_cases h : s.bitsLen.toNat + l.length ≤ s.params.bitsMax
    · exact ⟨_, rfl, .inl (appendBits_fits l s h)⟩
    · exact ⟨_, rfl, .inr (appendBits_overflows l s hs (by omega))⟩
  · cases l with
    | nil => exact ⟨s, rfl, .inl rfl⟩
    | cons b rest =>
      refine ⟨s, rfl, .inr ?_⟩
      rw [appendBits_cons, appendBit, if_pos (by omega)]
      rfl

/-! ### Reading -/

@[simp] theorem bitsFrom_length (s : State) : (bitsFrom s).length = bitsLeft s := by
  simp [bitsFrom]

/-- The state after `k` bits were read. -/
def advance (k : Nat) (s : State) : State := { s with cursor := s.cursor + BitVec.ofNat 32 k }

@[simp] theorem advance_zero (s : State) : advance 0 s = s := by
  simp [advance]

theorem advance_advance (j k : Nat) (s : State) : advance j (advance k s) = advance (k + j) s := by
  simp [advance, BitVec.ofNat_add, BitVec.add_assoc]

theorem cursor_advance {k : Nat} {s : State} (h : k ≤ bitsLeft s) :
    (advance k s).cursor.toNat = s.cursor.toNat + k := by
  have := s.bitsLen.isLt
  have := s.cursor.isLt
  simp only [bitsLeft] at h
  simp only [advance]
  by_cases hk : k = 0
  · simp [hk]
  · rw [toNat_add_ofNat (by omega)]

theorem bitsLeft_advance {k : Nat} {s : State} (h : k ≤ bitsLeft s) : bitsLeft (advance k s) = bitsLeft s - k := by
  have h2 := cursor_advance h
  simp only [bitsLeft] at *
  rw [h2]
  simp only [advance]
  omega

theorem bitsFrom_advance {k : Nat} {s : State} (h : k ≤ bitsLeft s) : bitsFrom (advance k s) = (bitsFrom s).drop k := by
  apply List.ext_getElem
  · simp [bitsLeft_advance h]
  · intro i h1 h2
    simp only [bitsFrom, List.getElem_map, List.getElem_range, List.getElem_drop, cursor_advance h, Nat.add_assoc]
    rfl

theorem readBit_of_nil {s : State} (h : bitsFrom s = []) : readBit s = none := by
  have := congrArg List.length h
  simp only [bitsFrom_length, List.length_nil, bitsLeft] at this
  simp only [readBit]
  rw [if_pos (by omega)]

theorem readBit_of_cons {s : State} {b : Bool} {rest : List Bool} (h : bitsFrom s = b :: rest) :
    readBit s = some (b, advance 1 s) ∧ bitsFrom (advance 1 s) = rest := by
  have hlen := congrArg List.length h
  simp only [bitsFrom_length, List.length_cons] at hlen
  refine ⟨?_, by rw [bitsFrom_advance (by omega), h]; rfl⟩
  have h0 : (bitsFrom s)[0]'(by simp; omega) = b := by simp [h]
  simp only [bitsFrom, List.getElem_map, List.getElem_range, Nat.add_zero] at h0
  simp only [bitsLeft] at hlen
  simp only [readBit]
  rw [if_neg (by omega), h0]
  rfl

/-- A leaf record at the front of a bit sequence: its distance and value; `none` when the bits end inside it (R71). -/
def recordOf (l : List Bool) : Option (Nat × Byte) :=
  match l.dropWhile id with
  | [] => none
  | _ :: rest => if rest.length < 8 then none else some ((l.takeWhile id).length, byteOfBits rest)

theorem readDistance_eq (fuel d : Nat) (s : State) (hf : bitsLeft s < fuel) :
    readDistance fuel d s =
      match (bitsFrom s).dropWhile id with
      | [] => (none, advance (bitsLeft s) s)
      | _ :: _ => (some (d + ((bitsFrom s).takeWhile id).length), advance (((bitsFrom s).takeWhile id).length + 1) s) := by
  induction fuel generalizing d s with
  | zero => omega
  | succ fuel ih =>
    simp only [readDistance]
    generalize hl : bitsFrom s = l
    have hlen : l.length = bitsLeft s := by rw [← hl, bitsFrom_length]
    cases l with
    | nil =>
      simp only [List.length_nil] at hlen
      simp [readBit_of_nil hl, ← hlen]
    | cons b rest =>
      obtain ⟨hr, hf'⟩ := readBit_of_cons hl
      simp only [List.length_cons] at hlen
      have hleft : bitsLeft (advance 1 s) = bitsLeft s - 1 := bitsLeft_advance (by omega)
      rw [hr]
      cases b with
      | false => simp
      | true =>
        simp only [List.dropWhile_cons, List.takeWhile_cons, id, if_true, List.length_cons]
        rw [ih _ _ (by omega), hf']
        split
        · rw [advance_advance, hleft]
          congr 2
          omega
        · rw [advance_advance]
          simp only [Prod.mk.injEq, Option.some.injEq]
          exact ⟨by omega, by congr 1; omega⟩

theorem readValue_eq (n v : Nat) (s : State) :
    readValue n v s =
      if bitsLeft s < n then (none, advance (bitsLeft s) s)
      else (some (v * 2 ^ n + packBits n (bitsFrom s)), advance n s) := by
  induction n generalizing v s with
  | zero => simp [readValue, packBits]
  | succ n ih =>
    simp only [readValue]
    generalize hl : bitsFrom s = l
    have hlen : l.length = bitsLeft s := by rw [← hl, bitsFrom_length]
    cases l with
    | nil =>
      simp only [List.length_nil] at hlen
      simp [readBit_of_nil hl, ← hlen]
    | cons b rest =>
      obtain ⟨hr, hf'⟩ := readBit_of_cons hl
      simp only [List.length_cons] at hlen
      have hleft : bitsLeft (advance 1 s) = bitsLeft s - 1 := bitsLeft_advance (by omega)
      rw [hr]
      simp only [ih, hf', hleft]
      by_cases h : bitsLeft s < n + 1
      · rw [if_pos (by omega), if_pos h, advance_advance]
        congr 2
        omega
      · rw [if_neg (by omega), if_neg h, advance_advance]
        simp only [packBits, Prod.mk.injEq, Option.some.injEq]
        refine ⟨?_, by congr 1; omega⟩
        rw [Nat.pow_succ]
        ring

/-- Reading a leaf record: its distance and value with the cursor after it, or EXHAUSTED with the cursor at the end (R104,
R105). -/
theorem readRecord_eq (s : State) :
    readRecord s =
      match recordOf (bitsFrom s) with
      | none => (none, advance (bitsLeft s) s)
      | some (d, v) => (some (d, v), advance (d + 9) s) := by
  simp only [readRecord, recordOf]
  rw [readDistance_eq _ _ _ (Nat.lt_succ_self _)]
  generalize hl : bitsFrom s = l
  have hlen : l.length = bitsLeft s := by rw [← hl, bitsFrom_length]
  generalize hd : l.dropWhile id = r
  cases r with
  | nil => rfl
  | cons b rest =>
    have hsplit := List.takeWhile_append_dropWhile (p := id) (l := l)
    rw [hd] at hsplit
    have hlen2 := congrArg List.length hsplit
    simp only [List.length_append, List.length_cons] at hlen2
    generalize hk : (l.takeWhile id).length = k at *
    have hle : k + 1 ≤ bitsLeft s := by omega
    have hfrom : bitsFrom (advance (k + 1) s) = rest := by
      have hl2 : l = (l.takeWhile id ++ [b]) ++ rest := by
        rw [List.append_assoc]
        exact hsplit.symm
      rw [bitsFrom_advance hle, hl, hl2]
      exact List.drop_left' (by simp [hk])
    simp only [readValue_eq, hfrom, bitsLeft_advance hle, Nat.zero_add]
    by_cases h : rest.length < 8
    · rw [if_pos (by omega), if_pos h]
      simp only [advance_advance]
      congr 2
      omega
    · rw [if_neg (by omega), if_neg h]
      simp [advance_advance, byteOfBits, Nat.add_assoc]

/-- A record is at most as long as the bits it is read from. -/
theorem recordOf_length {l : List Bool} {d : Nat} {v : Byte} (h : recordOf l = some (d, v)) : d + 9 ≤ l.length := by
  simp only [recordOf] at h
  have hsplit := congrArg List.length (List.takeWhile_append_dropWhile (p := id) (l := l))
  split at h
  · cases h
  · rename_i heq
    rw [heq] at hsplit
    simp only [List.length_append, List.length_cons] at hsplit
    split at h
    · cases h
    · cases h
      omega

/-- The record that stands at the front of a header. -/
theorem recordOf_append (d : Nat) (v : Byte) (rest : List Bool) :
    recordOf (List.replicate d true ++ (false :: (bitsOfByte v ++ rest))) = some (d, v) := by
  induction d with
  | zero =>
    simp only [recordOf, List.replicate_zero, List.nil_append, List.dropWhile_cons, List.takeWhile_cons, id]
    simp [bitsOfByte_length, byteOfBits_append _ rest (Nat.le_of_eq (bitsOfByte_length v).symm), byteOfBits_bitsOfByte]
  | succ d ih =>
    simp only [recordOf, List.replicate_succ, List.cons_append, List.dropWhile_cons, List.takeWhile_cons, id, if_true,
      List.length_cons] at ih ⊢
    split at ih
    · cases ih
    · split at ih
      · cases ih
      · simp_all

end Sys2Proof.Machine
end

