-- ==== Sys2Proof/Laws/Arena.lean ====
section
/-! SUPPORT. The arena as a tree: what searching, walking and growing the arena does to the abstract tree it holds. -/

namespace Sys2Proof

open Sys2Proof.Machine

/-! ### Trees -/

theorem CodeTree.size_pos (t : CodeTree) : 0 < t.size := by
  cases t <;> simp [CodeTree.size]

theorem CodeTree.depth_le (t : CodeTree) : 2 * t.depth + 1 ≤ t.size := by
  induction t with
  | unset => simp [CodeTree.depth, CodeTree.size]
  | leaf v => simp [CodeTree.depth, CodeTree.size]
  | node a b iha ihb =>
    simp only [CodeTree.depth, CodeTree.size]
    omega

/-- A strict binary tree has an odd number of nodes (R40(d)). -/
theorem CodeTree.size_odd (t : CodeTree) : t.size % 2 = 1 := by
  induction t with
  | unset => rfl
  | leaf v => rfl
  | node a b iha ihb =>
    simp only [CodeTree.size]
    omega

/-- A complete tree with `L` leaves has `2L - 1` nodes (R40(g)). -/
theorem CodeTree.size_eq_values {t : CodeTree} (h : t.complete = true) : t.size + 1 = 2 * t.values.length := by
  induction t with
  | unset => simp [CodeTree.complete] at h
  | leaf v => rfl
  | node a b iha ihb =>
    simp only [CodeTree.complete, Bool.and_eq_true] at h
    have ha := iha h.1
    have hb := ihb h.2
    simp only [CodeTree.size, CodeTree.values, List.length_append]
    omega

/-- The header of a complete tree has `5 * size + 4` bits (R103). -/
theorem CodeTree.header_length {t : CodeTree} (h : t.complete = true) : t.header.length = 5 * t.size + 4 := by
  induction t with
  | unset => simp [CodeTree.complete] at h
  | leaf v => simp [CodeTree.header, bitsOfByte_length, CodeTree.size]
  | node a b iha ihb =>
    simp only [CodeTree.complete, Bool.and_eq_true] at h
    have ha := iha h.1
    have hb := ihb h.2
    simp only [CodeTree.header, CodeTree.size, List.length_cons, List.length_append]
    omega

/-- A chain of `d` internal nodes down the zero-children that ends at `x`, the one-children unset. -/
def CodeTree.spine : Nat → CodeTree → CodeTree
  | 0, x => x
  | d + 1, x => .node (CodeTree.spine d x) .unset

/-! ### Which arenas hold a tree -/

theorem holds_congr {s t : State} {T : CodeTree} {n : NodeIdx} {is : List Nat} (h : Holds s T n is)
    (hm : ∀ m ∈ is, t.node m = s.node m) : Holds t T n is := by
  induction T generalizing n is with
  | unset =>
    obtain ⟨h1, rfl⟩ := h
    exact ⟨by rw [hm _ (by simp), h1], rfl⟩
  | leaf v =>
    obtain ⟨h1, rfl⟩ := h
    exact ⟨by rw [hm _ (by simp), h1], rfl⟩
  | node a b iha ihb =>
    obtain ⟨z, o, xs, ys, h1, ha, hb, rfl⟩ := h
    exact ⟨z, o, xs, ys, by rw [hm _ (by simp), h1], iha ha (fun m h => hm m (by simp [h])),
      ihb hb (fun m h => hm m (by simp [h])), rfl⟩

theorem holds_length {s : State} {T : CodeTree} {n : NodeIdx} {is : List Nat} (h : Holds s T n is) : is.length = T.size := by
  induction T generalizing n is with
  | unset => simp [h.2, CodeTree.size]
  | leaf v => simp [h.2, CodeTree.size]
  | node a b iha ihb =>
    obtain ⟨z, o, xs, ys, -, ha, hb, rfl⟩ := h
    simp [CodeTree.size, iha ha, ihb hb]

theorem holds_mem {s : State} {T : CodeTree} {n : NodeIdx} {is : List Nat} (h : Holds s T n is) : n.toNat ∈ is := by
  cases T with
  | unset => simp [h.2]
  | leaf v => simp [h.2]
  | node a b =>
    obtain ⟨z, o, xs, ys, -, -, -, rfl⟩ := h
    simp

/-- The arena determines the tree under an entry. -/
theorem holds_unique {s : State} {T U : CodeTree} {n : NodeIdx} {is js : List Nat} (h : Holds s T n is) (h' : Holds s U n js) :
    T = U ∧ is = js := by
  induction T generalizing U n is js with
  | unset =>
    obtain ⟨h1, rfl⟩ := h
    cases U with
    | unset => exact ⟨rfl, h'.2.symm⟩
    | leaf v => simp [Holds, h1] at h'
    | node a b => simp [Holds, h1] at h'
  | leaf v =>
    obtain ⟨h1, rfl⟩ := h
    cases U with
    | unset => simp [Holds, h1] at h'
    | leaf w =>
      obtain ⟨h2, rfl⟩ := h'
      simp_all
    | node a b => simp [Holds, h1] at h'
  | node a b iha ihb =>
    obtain ⟨z, o, xs, ys, h1, ha, hb, rfl⟩ := h
    cases U with
    | unset => simp [Holds, h1] at h'
    | leaf w => simp [Holds, h1] at h'
    | node c d =>
      obtain ⟨z', o', xs', ys', h2, hc, hd, rfl⟩ := h'
      rw [h1] at h2
      obtain ⟨rfl, rfl⟩ : z = z' ∧ o = o' := by simpa using h2
      obtain ⟨rfl, rfl⟩ := iha ha hc
      obtain ⟨rfl, rfl⟩ := ihb hb hd
      exact ⟨rfl, rfl⟩

/-- `find_pending` on a tree: none exactly when it is complete; otherwise an UNSET entry of the tree (R93). -/
theorem findPendingFrom_holds {s : State} {T : CodeTree} {n : NodeIdx} {is : List Nat} {fuel : Nat} (h : Holds s T n is)
    (hf : T.depth < fuel) :
    (T.complete = true ∧ findPendingFrom s fuel n = none) ∨
      (T.complete = false ∧ ∃ p, findPendingFrom s fuel n = some p ∧ p.toNat ∈ is ∧ s.node p.toNat = .unset) := by
  induction T generalizing n is fuel with
  | unset =>
    obtain ⟨fuel, rfl⟩ : ∃ k, fuel = k + 1 := ⟨fuel - 1, by omega⟩
    obtain ⟨h1, rfl⟩ := h
    exact .inr ⟨rfl, n, by simp [findPendingFrom, h1], by simp, h1⟩
  | leaf v =>
    obtain ⟨fuel, rfl⟩ : ∃ k, fuel = k + 1 := ⟨fuel - 1, by omega⟩
    obtain ⟨h1, rfl⟩ := h
    exact .inl ⟨rfl, by simp [findPendingFrom, h1]⟩
  | node a b iha ihb =>
    obtain ⟨fuel, rfl⟩ : ∃ k, fuel = k + 1 := ⟨fuel - 1, by omega⟩
    obtain ⟨z, o, xs, ys, h1, ha, hb, rfl⟩ := h
    simp only [CodeTree.depth] at hf
    rcases iha ha (fuel := fuel) (by omega) with ⟨hca, hfa⟩ | ⟨hca, p, hfa, hp, hu⟩
    · rcases ihb hb (fuel := fuel) (by omega) with ⟨hcb, hfb⟩ | ⟨hcb, p, hfb, hp, hu⟩
      · exact .inl ⟨by simp [CodeTree.complete, hca, hcb], by simp [findPendingFrom, h1, hfa, hfb]⟩
      · exact .inr ⟨by simp [CodeTree.complete, hcb], p, by simp [findPendingFrom, h1, hfa, hfb], by simp [hp], hu⟩
    · exact .inr ⟨by simp [CodeTree.complete, hca], p, by simp [findPendingFrom, h1, hfa], by simp [hp], hu⟩

/-- Growing a tree at its pending node: `x` takes its place. -/
theorem holds_fillFirst {s t : State} {T X : CodeTree} {n p : NodeIdx} {is js : List Nat} {fuel : Nat} (h : Holds s T n is)
    (hf : T.depth < fuel) (hnd : is.Nodup) (hp : findPendingFrom s fuel n = some p) (hx : Holds t X p js)
    (hm : ∀ m ∈ is, m ≠ p.toNat → t.node m = s.node m) :
    ∃ is' rest, Holds t (CodeTree.fillFirst X T) n is' ∧ is.Perm (p.toNat :: rest) ∧ is'.Perm (js ++ rest) := by
  induction T generalizing n is fuel with
  | unset =>
    obtain ⟨fuel, rfl⟩ : ∃ k, fuel = k + 1 := ⟨fuel - 1, by omega⟩
    obtain ⟨h1, rfl⟩ := h
    obtain rfl : n = p := by simpa [findPendingFrom, h1] using hp
    exact ⟨js, [], hx, .refl _, by simp⟩
  | leaf v =>
    obtain ⟨fuel, rfl⟩ : ∃ k, fuel = k + 1 := ⟨fuel - 1, by omega⟩
    obtain ⟨h1, rfl⟩ := h
    simp [findPendingFrom, h1] at hp
  | node a b iha ihb =>
    obtain ⟨fuel, rfl⟩ : ∃ k, fuel = k + 1 := ⟨fuel - 1, by omega⟩
    obtain ⟨z, o, xs, ys, h1, ha, hb, rfl⟩ := h
    simp only [CodeTree.depth] at hf
    obtain ⟨hn, hnd'⟩ := List.nodup_cons.mp hnd
    obtain ⟨hxs, hys, hdis⟩ := List.nodup_append.mp hnd'
    rcases findPendingFrom_holds ha (fuel := fuel) (by omega) with ⟨hca, hfa⟩ | ⟨hca, q, hfa, hq, hu⟩
    · have hpb : findPendingFrom s fuel o = some p := by simpa [findPendingFrom, h1, hfa] using hp
      have hpm : p.toNat ∈ ys := by
        rcases findPendingFrom_holds hb (fuel := fuel) (by omega) with ⟨-, hfb⟩ | ⟨-, q, hfb, hq, -⟩
        · simp [hfb] at hpb
        · rw [hfb] at hpb
          simpa [← Option.some.inj hpb] using hq
      have hnp : n.toNat ≠ p.toNat := fun e => hn (by rw [e]; simp [hpm])
      obtain ⟨is', rest, hh, h2, h3⟩ := ihb hb (by omega) hys hpb (fun m hm' => hm m (by simp [hm']))
      refine ⟨n.toNat :: (xs ++ is'), n.toNat :: (xs ++ rest), ?_, ?_, ?_⟩
      · simp only [CodeTree.fillFirst, hca, if_true]
        refine ⟨z, o, xs, is', by rw [hm _ (by simp) hnp, h1], holds_congr ha (fun m hm' => ?_), hh, rfl⟩
        exact hm m (by simp [hm']) (fun e => hdis _ hm' _ hpm e)
      · refine ((h2.append_left xs).cons n.toNat).trans ?_
        refine (List.Perm.cons _ List.perm_middle).trans (.swap ..)
      · refine ((h3.append_left xs).cons n.toNat).trans ?_
        rw [← List.append_assoc]
        refine ((List.perm_append_comm.append_right rest).cons _).trans ?_
        simp only [List.append_assoc]
        exact List.perm_middle.symm
    · have hpa : p = q := by simpa [findPendingFrom, h1, hfa, eq_comm] using hp
      subst hpa
      have hnp : n.toNat ≠ p.toNat := fun e => hn (by rw [e]; simp [hq])
      obtain ⟨is', rest, hh, h2, h3⟩ := iha ha (by omega) hxs hfa (fun m hm' => hm m (by simp [hm']))
      refine ⟨n.toNat :: (is' ++ ys), n.toNat :: (rest ++ ys), ?_, ?_, ?_⟩
      · have hc : a.complete = false := hca
        simp only [CodeTree.fillFirst, hc]
        refine ⟨z, o, is', ys, by rw [hm _ (by simp) hnp, h1], hh, holds_congr hb (fun m hm' => ?_), rfl⟩
        exact hm m (by simp [hm']) (fun e => hdis _ hq _ hm' e.symm)
      · refine ((h2.append_right ys).cons n.toNat).trans ?_
        exact .swap ..
      · refine ((h3.append_right ys).cons n.toNat).trans ?_
        rw [List.append_assoc]
        exact List.perm_middle.symm

/-- `lookup` on a tree is the abstract code path (R120). -/
theorem pathFrom_holds {s : State} {T : CodeTree} {n : NodeIdx} {is : List Nat} {fuel : Nat} (v : Byte) (h : Holds s T n is)
    (hf : T.depth < fuel) : pathFrom s v fuel n = T.path v := by
  induction T generalizing n is fuel with
  | unset =>
    obtain ⟨fuel, rfl⟩ : ∃ k, fuel = k + 1 := ⟨fuel - 1, by omega⟩
    simp [pathFrom, h.1, CodeTree.path]
  | leaf u =>
    obtain ⟨fuel, rfl⟩ : ∃ k, fuel = k + 1 := ⟨fuel - 1, by omega⟩
    simp [pathFrom, h.1, CodeTree.path]
  | node a b iha ihb =>
    obtain ⟨fuel, rfl⟩ : ∃ k, fuel = k + 1 := ⟨fuel - 1, by omega⟩
    obtain ⟨z, o, xs, ys, h1, ha, hb, rfl⟩ := h
    simp only [CodeTree.depth] at hf
    simp only [pathFrom, h1, CodeTree.path, iha ha (fuel := fuel) (by omega), ihb hb (fuel := fuel) (by omega)]
    all_goals cases CodeTree.path v a <;> rfl

/-- The serializer's traversal of a complete tree appends its header (R100). -/
theorem ser_holds {a : State} {T : CodeTree} {n : NodeIdx} {is : List Nat} {fuel : Nat} (s : State) (h : Holds a T n is)
    (hc : T.complete = true) (hf : T.depth < fuel) : ser a fuel n s = appendBits T.header s := by
  induction T generalizing n is fuel s with
  | unset => simp [CodeTree.complete] at hc
  | leaf v =>
    obtain ⟨fuel, rfl⟩ : ∃ k, fuel = k + 1 := ⟨fuel - 1, by omega⟩
    simp only [ser, h.1, CodeTree.header, appendBits_cons, appendByte, Node.value]
    cases appendBit false s <;> rfl
  | node x y iha ihb =>
    obtain ⟨fuel, rfl⟩ : ∃ k, fuel = k + 1 := ⟨fuel - 1, by omega⟩
    obtain ⟨z, o, xs, ys, h1, ha, hb, rfl⟩ := h
    simp only [CodeTree.depth] at hf
    simp only [CodeTree.complete, Bool.and_eq_true] at hc
    simp only [ser, h1, CodeTree.header, appendBits_cons]
    cases appendBit true s with
    | raised e info s1 => rfl
    | completed s1 =>
      rw [BodyResult.completed_bind, appendBits_append]
      simp only [iha s1 ha hc.1 (fuel := fuel) (by omega)]
      cases appendBits x.header s1 with
      | raised e info s2 => rfl
      | completed s2 => exact ihb s2 hb hc.2 (by omega)

/-! ### The whole arena -/

theorem holdsTree_size {s : State} {T : CodeTree} (h : HoldsTree s T) : T.size = s.nodeCnt.toNat := by
  obtain ⟨⟨is, hh, hp⟩, -, -⟩ := h
  rw [← holds_length hh, hp.length_eq, List.length_range]

theorem holdsTree_nodeCnt_ne {s : State} {T : CodeTree} (h : HoldsTree s T) : s.nodeCnt ≠ 0 := by
  intro h0
  have hs := holdsTree_size h
  have := T.size_pos
  simp [h0] at hs
  omega

/-- NODE_CAP levels of recursion are enough for any tree the arena holds (R40(e)). -/
theorem holdsTree_depth {s : State} {T : CodeTree} (h : HoldsTree s T) : T.depth < s.params.nodeCap := by
  have h1 := holdsTree_size h
  have h2 := T.depth_le
  have h3 := h.2.2
  omega

/-- The arena determines the tree it holds. -/
theorem holdsTree_unique {s : State} {T U : CodeTree} (h : HoldsTree s T) (h' : HoldsTree s U) : T = U := by
  obtain ⟨⟨is, hh, -⟩, -⟩ := h
  obtain ⟨⟨js, hh', -⟩, -⟩ := h'
  exact (holds_unique hh hh').1

theorem holdsTree_congr {s t : State} {T : CodeTree} (h : HoldsTree s T) (hn : ∀ m, t.node m = s.node m)
    (hr : t.root = s.root) (hc : t.nodeCnt = s.nodeCnt) (hp : t.params = s.params) : HoldsTree t T := by
  obtain ⟨⟨is, hh, hperm⟩, hfree, hcap⟩ := h
  exact ⟨⟨is, by rw [hr]; exact holds_congr hh (fun m _ => hn m), by rw [hc]; exact hperm⟩,
    fun m hm => by rw [hn]; exact hfree m (by rwa [hc] at hm), by rw [hc, hp]; exact hcap⟩

theorem findPendingFrom_congr {s t : State} (hn : ∀ m, t.node m = s.node m) (fuel : Nat) (n : NodeIdx) :
    findPendingFrom t fuel n = findPendingFrom s fuel n := by
  induction fuel generalizing n with
  | zero => rfl
  | succ fuel ih => simp only [findPendingFrom, hn, ih]

/-- `find_pending` depends on the arena, ROOT and NODE_CNT only. -/
theorem findPending_congr {s t : State} (hn : ∀ m, t.node m = s.node m) (hr : t.root = s.root)
    (hc : t.nodeCnt = s.nodeCnt) (hp : t.params = s.params) : findPending t = findPending s := by
  simp only [findPending, hr, hc, hp, findPendingFrom_congr hn]

theorem pathFrom_congr {s t : State} (hn : ∀ m, t.node m = s.node m) (v : Byte) (fuel : Nat) (n : NodeIdx) :
    pathFrom t v fuel n = pathFrom s v fuel n := by
  induction fuel generalizing n with
  | zero => rfl
  | succ fuel ih => simp only [pathFrom, hn, ih]

/-- `lookup` depends on the arena and ROOT only (R120). -/
theorem lookupPath_congr {s t : State} (hn : ∀ m, t.node m = s.node m) (hr : t.root = s.root) (hp : t.params = s.params)
    (v : Byte) : lookupPath t v = lookupPath s v := by
  simp only [lookupPath, hr, hp, pathFrom_congr hn]

theorem ser_congr {s t : State} (hn : ∀ m, t.node m = s.node m) (fuel : Nat) (n : NodeIdx) (u : State) :
    ser t fuel n u = ser s fuel n u := by
  induction fuel generalizing n u with
  | zero => rfl
  | succ fuel ih => simp only [ser, hn, ih]

/-- `find_pending` on the arena (R93): none exactly when the tree is complete (R41). -/
theorem findPending_holdsTree {s : State} {T : CodeTree} (h : HoldsTree s T) :
    (T.complete = true ∧ findPending s = none) ∨
      (T.complete = false ∧ ∃ p, findPending s = some p ∧ p.toNat < s.nodeCnt.toNat ∧ s.node p.toNat = .unset) := by
  have hd := holdsTree_depth h
  have h0 := holdsTree_nodeCnt_ne h
  obtain ⟨⟨is, hh, hperm⟩, -, -⟩ := h
  simp only [findPending, if_neg h0]
  rcases findPendingFrom_holds hh hd with ⟨h1, h2⟩ | ⟨h1, p, h2, h3, h4⟩
  · exact .inl ⟨h1, h2⟩
  · exact .inr ⟨h1, p, h2, by simpa using hperm.mem_iff.mp h3, h4⟩

theorem findPending_of_complete {s : State} {T : CodeTree} (h : HoldsTree s T) (hc : T.complete = true) :
    findPending s = none := by
  rcases findPending_holdsTree h with ⟨-, h⟩ | ⟨h, -⟩
  · exact h
  · simp [h] at hc

theorem lookupPath_holdsTree {s : State} {T : CodeTree} (h : HoldsTree s T) (v : Byte) : lookupPath s v = T.path v := by
  obtain ⟨is, hh, -⟩ := h.1
  exact pathFrom_holds v hh (holdsTree_depth h)

theorem serRoot_holdsTree {s : State} {T : CodeTree} (h : HoldsTree s T) (hc : T.complete = true) :
    serRoot s = appendBits T.header s := by
  obtain ⟨is, hh, -⟩ := h.1
  exact ser_holds s hh hc (holdsTree_depth h)

/-- The tree grown at the pending node: `x` stands there, its entries the old pending one and those allocated since. -/
theorem holdsTree_fillFirst {s t : State} {T X : CodeTree} {p : NodeIdx} {js : List Nat} {k : Nat} (h : HoldsTree s T)
    (hp : findPending s = some p) (hx : Holds t X p js)
    (hm : ∀ m, m < s.nodeCnt.toNat → m ≠ p.toNat → t.node m = s.node m)
    (hjs : js.Perm (p.toNat :: List.range' s.nodeCnt.toNat k)) (hcnt : t.nodeCnt.toNat = s.nodeCnt.toNat + k)
    (hroot : t.root = s.root) (hfree : ∀ m, s.nodeCnt.toNat + k ≤ m → t.node m = .free)
    (hcap : t.nodeCnt.toNat ≤ t.params.nodeCap) : HoldsTree t (CodeTree.fillFirst X T) := by
  have hd := holdsTree_depth h
  have h0 := holdsTree_nodeCnt_ne h
  obtain ⟨⟨is, hh, hperm⟩, -, -⟩ := h
  simp only [findPending, if_neg h0] at hp
  have hnd : is.Nodup := hperm.nodup_iff.mpr List.nodup_range
  obtain ⟨is', rest, h1, h2, h3⟩ := holds_fillFirst hh hd hnd hp hx
    (fun m hmem hne => hm m (by simpa using hperm.mem_iff.mp hmem) hne)
  refine ⟨⟨is', by rw [hroot]; exact h1, ?_⟩, fun m hge => hfree m (by omega), hcap⟩
  have hr : List.range (s.nodeCnt.toNat + k) = List.range s.nodeCnt.toNat ++ List.range' s.nodeCnt.toNat k := by
    rw [List.range_eq_range', List.range_eq_range', ← List.range'_append_1, Nat.zero_add]
  rw [hcnt, hr]
  refine h3.trans ((hjs.append_right rest).trans ?_)
  refine List.Perm.trans ?_ ((h2.symm.trans hperm).append_right _)
  exact List.perm_append_comm.cons _

end Sys2Proof
end

