-- ==== Sys2Proof/Laws/Grow.lean ====
section
/-! SUPPORT. Growing the arena: `expand`, the chain of expansions of a leaf record, and the tree they leave. -/

namespace Sys2Proof.Machine

theorem nodeCap_lt (s : State) : s.params.nodeCap < 2 ^ 16 := by
  have := s.params.nodeCap_range.2.1
  omega

theorem nodeIdx_toNat {w : Word} (h : w.toNat < 2 ^ 16) : (w.setWidth 16).toNat = w.toNat := by
  rw [BitVec.toNat_setWidth, Nat.mod_eq_of_lt h]

/-- `expand` when two entries are free (R92). -/
theorem expand_fits (p : NodeIdx) (s : State) (h : s.nodeCnt.toNat + 2 ≤ s.params.nodeCap) :
    ∃ s' z o, expand p s = some (s', z, o) ∧ z.toNat = s.nodeCnt.toNat ∧ o.toNat = s.nodeCnt.toNat + 1 ∧
      s' = { s with nodes := s'.nodes, nodeCnt := s.nodeCnt + 2 } ∧ s'.nodeCnt.toNat = s.nodeCnt.toNat + 2 ∧
      ∀ m, s'.node m =
        if m = p.toNat then .internal z o
        else if m = s.nodeCnt.toNat ∨ m = s.nodeCnt.toNat + 1 then .unset else s.node m := by
  have hc := nodeCap_lt s
  have h1 : (s.nodeCnt + 1).toNat = s.nodeCnt.toNat + 1 := toNat_add_ofNat (k := 1) (by omega)
  have h2 : (s.nodeCnt + 2).toNat = s.nodeCnt.toNat + 2 := toNat_add_ofNat (k := 2) (by omega)
  have hz : (s.nodeCnt.setWidth 16).toNat = s.nodeCnt.toNat := nodeIdx_toNat (by omega)
  have ho : ((s.nodeCnt + 1).setWidth 16).toNat = s.nodeCnt.toNat + 1 := by rw [nodeIdx_toNat (by omega), h1]
  refine ⟨_, s.nodeCnt.setWidth 16, (s.nodeCnt + 1).setWidth 16, by rw [expand, if_neg (by omega)], hz, ho, rfl, h2,
    fun m => ?_⟩
  rw [node_setNode _ _ (by simp)]
  split
  · rfl
  · have : ∀ (u : State) (c : Word) (m : Nat), ({ u with nodeCnt := c } : State).node m = u.node m := fun _ _ _ => rfl
    rw [this, node_setNode _ _ (by simp), node_setNode _ _ (by simp), hz, ho]
    by_cases ha : m = s.nodeCnt.toNat + 1
    · simp [ha]
    · by_cases hb : m = s.nodeCnt.toNat
      · simp [hb]
      · simp [ha, hb]

/-- `expand` when fewer than two entries are free (R92). -/
theorem expand_full (p : NodeIdx) (s : State) (h : s.params.nodeCap < s.nodeCnt.toNat + 2) : expand p s = none := by
  rw [expand, if_pos h]

/-- `expand` changes the arena and NODE_CNT only. -/
theorem expand_frame {p z o : NodeIdx} {s s' : State} (h : expand p s = some (s', z, o)) :
    s' = { s with nodes := s'.nodes, nodeCnt := s'.nodeCnt } := by
  simp only [expand] at h
  split at h
  · cases h
  · cases h
    rfl

/-- The expansions of a record change the arena and NODE_CNT only, whether or not they fit. -/
theorem expandSpine_frame (d : Nat) (p : NodeIdx) (s : State) :
    (expandSpine d p s).2 =
      { s with nodes := (expandSpine d p s).2.nodes, nodeCnt := (expandSpine d p s).2.nodeCnt } := by
  induction d generalizing p s with
  | zero => rfl
  | succ d ih =>
    simp only [expandSpine]
    split
    · rfl
    · rename_i s' z o h
      have h1 := expand_frame h
      have h2 := ih z s'
      rw [h1] at h2 ⊢
      exact h2

/-- The `d` expansions of a record that fit (R105): a chain of internal nodes from `p` down to an UNSET entry `q`; with a
leaf put at `q`, the arena holds a spine at `p`. -/
theorem expandSpine_fits (d : Nat) (p : NodeIdx) (s : State) (hcap : s.nodeCnt.toNat + 2 * d ≤ s.params.nodeCap)
    (hp : p.toNat < s.nodeCnt.toNat) (hu : s.node p.toNat = .unset) :
    ∃ q s', expandSpine d p s = (some q, s') ∧ s'.nodeCnt.toNat = s.nodeCnt.toNat + 2 * d ∧
      q.toNat < s'.nodeCnt.toNat ∧ (q.toNat = p.toNat ∨ s.nodeCnt.toNat ≤ q.toNat) ∧ s'.node q.toNat = .unset ∧
      (∀ m, m ≠ p.toNat → (m < s.nodeCnt.toNat ∨ s.nodeCnt.toNat + 2 * d ≤ m) → s'.node m = s.node m) ∧
      ∀ (t : State) (x : CodeTree), (∀ m, m ≠ q.toNat → t.node m = s'.node m) → Holds t x q [q.toNat] →
        ∃ js, Holds t (CodeTree.spine d x) p js ∧ js.Perm (p.toNat :: List.range' s.nodeCnt.toNat (2 * d)) := by
  induction d generalizing p s with
  | zero =>
    refine ⟨p, s, rfl, rfl, hp, .inl rfl, hu, fun _ _ _ => rfl, fun t x ht hx => ⟨[p.toNat], hx, ?_⟩⟩
    simp
  | succ d ih =>
    obtain ⟨s1, z, o, he, hz, ho, hs1, hc1, hn1⟩ := expand_fits p s (by omega)
    have hparams : s1.params = s.params := by rw [hs1]
    have hzu : s1.node z.toNat = .unset := by rw [hn1, if_neg (by omega), if_pos (by omega)]
    obtain ⟨q, s', hsp, hcnt, hq, hqz, hqu, hsame, hhold⟩ := ih z s1 (by rw [hc1, hparams]; omega) (by omega) hzu
    have hne : ∀ m, m < s.nodeCnt.toNat → s'.node m = s1.node m := fun m hm => hsame m (by omega) (.inl (by omega))
    refine ⟨q, s', by simp only [expandSpine, he]; exact hsp, by omega, hq, by omega, hqu, fun m hmp hm => ?_, fun t x ht hx => ?_⟩
    · have h1 : s'.node m = s1.node m := hsame m (by omega) (by omega)
      rw [h1, hn1, if_neg hmp, if_neg (by omega)]
    · obtain ⟨js, hj, hjp⟩ := hhold t x ht hx
      have hqp : q.toNat ≠ p.toNat := by
        intro e
        have := hne p.toNat hp
        rw [e, this, hn1, if_pos rfl] at hqu
        cases hqu
      have hos : s'.node o.toNat = .unset := by
        rw [hsame o.toNat (by omega) (.inl (by omega)), hn1, if_neg (by omega), if_pos (by omega)]
      have hqne : q.toNat ≠ o.toNat := by omega
      refine ⟨p.toNat :: (js ++ [o.toNat]), ⟨z, o, js, [o.toNat], ?_, hj, ⟨?_, rfl⟩, rfl⟩, ?_⟩
      · rw [ht _ hqp.symm, hne _ hp, hn1, if_pos rfl]
      · rw [ht _ hqne.symm, hos]
      · refine List.Perm.cons _ ?_
        have hr : List.range' s.nodeCnt.toNat (2 * (d + 1)) =
            z.toNat :: o.toNat :: List.range' s1.nodeCnt.toNat (2 * d) := by
          have : 2 * (d + 1) = 2 * d + 1 + 1 := by omega
          rw [this, List.range'_succ, List.range'_succ, hz, ho, hc1]
        rw [hr]
        refine (hjp.append_right _).trans ?_
        simp only [List.cons_append]
        exact (List.perm_append_comm (l₂ := [o.toNat])).cons _

end Sys2Proof.Machine
end

