-- ==== Sys2Proof/Laws/Builder.lean ====
section
/-! SUPPORT. The builder: its frequency count, its worklist and its merges make the abstract Huffman tree of the block. -/

namespace Sys2Proof

/-! ### The count -/

theorem nodup_eraseDups (block : List Byte) : block.eraseDups.Nodup := by
  induction h : block.length using Nat.strongRecOn generalizing block with
  | _ n ih =>
    cases block with
    | nil => simp
    | cons v rest =>
      rw [List.eraseDups_cons]
      refine List.nodup_cons.mpr ⟨?_, ih _ ?_ _ rfl⟩
      · simp [List.mem_eraseDups]
      · have := List.length_filter_le (fun b => !b == v) rest
        simp only [List.length_cons] at h
        omega

theorem eraseDups_length_pos {block : List Byte} (h : block ≠ []) : 0 < block.eraseDups.length := by
  cases block with
  | nil => simp at h
  | cons v rest => simp [List.eraseDups_cons]

/-- There are at most 256 distinct byte values (R110). -/
theorem eraseDups_length_le (block : List Byte) : block.eraseDups.length ≤ 256 := by
  have h1 : (block.eraseDups.map BitVec.toNat).Nodup :=
    (nodup_eraseDups block).map (fun a b h => BitVec.eq_of_toNat_eq h)
  have h2 : (block.eraseDups.map BitVec.toNat) ⊆ List.range 256 := by
    intro x hx
    obtain ⟨b, -, rfl⟩ := List.mem_map.mp hx
    simpa using b.isLt
  have := (List.subperm_of_subset h1 h2).length_le
  simpa using this

namespace Machine

theorem countByte_map_fst_of_mem (v : Byte) (l : List (Byte × Nat)) (h : v ∈ l.map Prod.fst) :
    (countByte v l).map Prod.fst = l.map Prod.fst := by
  induction l with
  | nil => simp at h
  | cons e rest ih =>
    obtain ⟨u, c⟩ := e
    simp only [countByte]
    split
    · simp
    · rename_i hne
      have : v ∈ rest.map Prod.fst := by simpa [Ne.symm hne] using h
      simp [ih this]

theorem countByte_of_not_mem (v : Byte) (l : List (Byte × Nat)) (h : v ∉ l.map Prod.fst) : countByte v l = l ++ [(v, 1)] := by
  induction l with
  | nil => rfl
  | cons e rest ih =>
    obtain ⟨u, c⟩ := e
    simp only [List.map_cons, List.mem_cons, not_or] at h
    simp only [countByte, if_neg (Ne.symm h.1), ih h.2, List.cons_append]

theorem countByte_map (v : Byte) (ks : List Byte) (f : Byte → Nat) (hn : ks.Nodup) (h : v ∈ ks) :
    countByte v (ks.map (fun u => (u, f u))) = ks.map (fun u => (u, if u = v then f u + 1 else f u)) := by
  induction ks with
  | nil => simp at h
  | cons u rest ih =>
    have hn' := List.nodup_cons.mp hn
    simp only [List.map_cons, countByte]
    by_cases hu : u = v
    · subst hu
      simp only [if_true, List.cons.injEq, true_and]
      refine List.map_congr_left (fun w hw => ?_)
      have : w ≠ u := fun e => hn'.1 (e ▸ hw)
      simp [this]
    · have : v ∈ rest := by simpa [Ne.symm hu] using h
      simp [hu, ih hn'.2 this]

theorem eraseDups_concat (l : List Byte) (v : Byte) :
    (l ++ [v]).eraseDups = if v ∈ l then l.eraseDups else l.eraseDups ++ [v] := by
  rw [List.eraseDups_append]
  by_cases h : v ∈ l
  · simp [h, List.removeAll]
  · simp [h, List.removeAll, List.eraseDups_cons]

/-- `count()` finds each distinct value once, in first-encounter order, with its number of occurrences (R110). -/
theorem countBytes_eq (block : List Byte) : countBytes block = block.eraseDups.map (fun v => (v, block.count v)) := by
  induction block using List.reverseRecOn with
  | nil => rfl
  | append_singleton l v ih =>
    have hstep : countBytes (l ++ [v]) = countByte v (countBytes l) := by simp [countBytes]
    rw [hstep, ih, eraseDups_concat]
    by_cases h : v ∈ l
    · rw [countByte_map v _ _ (nodup_eraseDups l) (List.mem_eraseDups.mpr h), if_pos h]
      refine List.map_congr_left (fun u _ => ?_)
      by_cases hu : u = v
      · simp [hu, List.count_append]
      · simp [hu, List.count_append, Ne.symm hu]
    · rw [countByte_of_not_mem, if_neg h, List.map_append]
      · congr 1
        · refine List.map_congr_left (fun u hu => ?_)
          have : u ≠ v := fun e => h (e ▸ List.mem_eraseDups.mp hu)
          simp [List.count_append, Ne.symm this]
        · simp [List.count_append, List.count_eq_zero_of_not_mem h]
      · simpa [Function.comp_def] using h

/-! ### The worklist -/

theorem wlInsert_length (e : WorkEntry) (wl : List WorkEntry) : (wlInsert e wl).length = wl.length + 1 := by
  induction wl with
  | nil => rfl
  | cons x rest ih =>
    simp only [wlInsert]
    split <;> simp [ih]

theorem wlInsert_perm (e : WorkEntry) (wl : List WorkEntry) : (wlInsert e wl).Perm (e :: wl) := by
  induction wl with
  | nil => exact .refl _
  | cons x rest ih =>
    simp only [wlInsert]
    split
    · exact (ih.cons x).trans (.swap ..)
    · exact .refl _

/-- The worklist stays sorted, ties in order of insertion, when the new entry's index is the highest (R111, R112). -/
theorem wlInsert_sorted (e : WorkEntry) (wl : List WorkEntry) (h : wl.Pairwise WorkEntry.Before)
    (hn : ∀ x ∈ wl, x.node.toNat < e.node.toNat) : (wlInsert e wl).Pairwise WorkEntry.Before := by
  induction wl with
  | nil => simp [wlInsert]
  | cons x rest ih =>
    have hp := List.pairwise_cons.mp h
    simp only [wlInsert]
    split
    · rename_i hle
      refine List.pairwise_cons.mpr ⟨fun y hy => ?_, ih hp.2 (fun y hy => hn y (List.mem_cons_of_mem _ hy))⟩
      rcases List.mem_cons.mp ((wlInsert_perm e rest).mem_iff.mp hy) with rfl | hy
      · have := hn x (by simp)
        rcases Nat.lt_or_eq_of_le hle with h | h
        · exact .inl h
        · exact .inr ⟨h, this⟩
      · exact hp.1 y hy
    · rename_i hgt
      refine List.pairwise_cons.mpr ⟨fun y hy => ?_, h⟩
      rcases List.mem_cons.mp hy with rfl | hy
      · exact .inl (by omega)
      · rcases hp.1 y hy with h | h
        · exact .inl (by omega)
        · exact .inl (by omega)

/-- The arena holds the trees of an abstract worklist at the nodes of a worklist; `is` lists their entries. -/
def HoldsAll (s : State) : List WorkEntry → List (Nat × CodeTree) → List Nat → Prop
  | [], [], is => is = []
  | e :: wl, a :: al, is =>
    e.weight = a.1 ∧ ∃ xs ys, Holds s a.2 e.node xs ∧ HoldsAll s wl al ys ∧ is = xs ++ ys
  | [], _ :: _, _ => False
  | _ :: _, [], _ => False

theorem holdsAll_length {s : State} {wl : List WorkEntry} {al : List (Nat × CodeTree)} {is : List Nat}
    (h : HoldsAll s wl al is) : wl.length = al.length := by
  induction wl generalizing al is with
  | nil =>
    cases al with
    | nil => rfl
    | cons _ _ => exact h.elim
  | cons e wl ih =>
    cases al with
    | nil => exact h.elim
    | cons a al =>
      obtain ⟨-, xs, ys, -, h2, -⟩ := h
      simp [ih h2]

theorem holdsAll_congr {s t : State} {wl : List WorkEntry} {al : List (Nat × CodeTree)} {is : List Nat}
    (h : HoldsAll s wl al is) (hm : ∀ m ∈ is, t.node m = s.node m) : HoldsAll t wl al is := by
  induction wl generalizing al is with
  | nil =>
    cases al with
    | nil => exact h
    | cons _ _ => exact h.elim
  | cons e wl ih =>
    cases al with
    | nil => exact h.elim
    | cons a al =>
      obtain ⟨h0, xs, ys, h1, h2, rfl⟩ := h
      exact ⟨h0, xs, ys, holds_congr h1 (fun m hx => hm m (by simp [hx])), ih h2 (fun m hy => hm m (by simp [hy])), rfl⟩

theorem holdsAll_insert {s : State} {wl : List WorkEntry} {al : List (Nat × CodeTree)} {is js : List Nat} {e : WorkEntry}
    {a : Nat × CodeTree} (h : HoldsAll s wl al is) (hw : e.weight = a.1) (ha : Holds s a.2 e.node js) :
    ∃ is', HoldsAll s (wlInsert e wl) (CodeTree.insertByWeight a al) is' ∧ is'.Perm (js ++ is) := by
  induction wl generalizing al is with
  | nil =>
    cases al with
    | nil =>
      obtain rfl : is = [] := h
      exact ⟨js ++ [], ⟨hw, js, [], ha, rfl, rfl⟩, .refl _⟩
    | cons _ _ => exact h.elim
  | cons x wl ih =>
    cases al with
    | nil => exact h.elim
    | cons b al =>
      obtain ⟨h0, xs, ys, h1, h2, rfl⟩ := h
      simp only [wlInsert, CodeTree.insertByWeight, h0, hw]
      by_cases hle : b.1 ≤ a.1
      · rw [if_pos hle, if_pos hle]
        obtain ⟨is', h3, h4⟩ := ih h2
        refine ⟨xs ++ is', ⟨h0, xs, is', h1, h3, rfl⟩, ?_⟩
        refine (h4.append_left xs).trans ?_
        rw [← List.append_assoc, ← List.append_assoc]
        exact List.perm_append_comm.append_right ys
      · rw [if_neg hle, if_neg hle]
        exact ⟨js ++ (xs ++ ys), ⟨hw, js, xs ++ ys, ha, ⟨h0, xs, ys, h1, h2, rfl⟩, rfl⟩, .refl _⟩

/-! ### The leaves -/

/-- `form_worklist` (R111): leaf `j` of the list at the `j`-th free entry, and a worklist of them all. -/
theorem formLeaves_spec (ord : List (Byte × Nat)) (wl : List WorkEntry) (al : List (Nat × CodeTree)) (is : List Nat) (s : State)
    (h : HoldsAll s wl al is) (hp : is.Perm (List.range s.nodeCnt.toNat)) (hs : wl.Pairwise WorkEntry.Before)
    (hn : ∀ x ∈ wl, x.node.toNat < s.nodeCnt.toNat) (hcap : s.nodeCnt.toNat + ord.length ≤ s.params.nodeCap)
    (hfree : ∀ m, s.nodeCnt.toNat ≤ m → s.node m = .free) :
    ∃ is', HoldsAll (formLeaves ord wl s).1 (formLeaves ord wl s).2
        ((ord.map (fun e => (e.2, CodeTree.leaf e.1))).foldl (fun l e => CodeTree.insertByWeight e l) al) is' ∧
      is'.Perm (List.range (formLeaves ord wl s).1.nodeCnt.toNat) ∧
      (formLeaves ord wl s).2.Pairwise WorkEntry.Before ∧
      (∀ x ∈ (formLeaves ord wl s).2, x.node.toNat < (formLeaves ord wl s).1.nodeCnt.toNat) ∧
      (formLeaves ord wl s).1.nodeCnt.toNat = s.nodeCnt.toNat + ord.length ∧
      (∀ m, (formLeaves ord wl s).1.nodeCnt.toNat ≤ m → (formLeaves ord wl s).1.node m = .free) ∧
      (∀ m, m < s.nodeCnt.toNat → (formLeaves ord wl s).1.node m = s.node m) ∧
      (∀ (j : Nat) (hj : j < ord.length), (formLeaves ord wl s).1.node (s.nodeCnt.toNat + j) = .leaf ord[j].1) ∧
      (formLeaves ord wl s).1 =
        { s with nodes := (formLeaves ord wl s).1.nodes, nodeCnt := (formLeaves ord wl s).1.nodeCnt } ∧
      ((formLeaves ord wl s).2.map WorkEntry.weight).sum = (wl.map WorkEntry.weight).sum + (ord.map Prod.snd).sum := by
  induction ord generalizing wl al is s with
  | nil => exact ⟨is, h, hp, hs, hn, by simp [formLeaves], hfree, fun _ _ => rfl, fun j hj => by simp at hj, rfl, by simp [formLeaves]⟩
  | cons e ord ih =>
    obtain ⟨v, c⟩ := e
    have hc := nodeCap_lt s
    simp only [List.length_cons] at hcap
    have hcnt : (s.nodeCnt + 1).toNat = s.nodeCnt.toNat + 1 := toNat_add_ofNat (k := 1) (by omega)
    have hidx : (s.nodeCnt.setWidth 16).toNat = s.nodeCnt.toNat := nodeIdx_toNat (by omega)
    let s1 : State := { s.setNode s.nodeCnt.toNat (.leaf v) with nodeCnt := s.nodeCnt + 1 }
    have hnode : ∀ m, s1.node m = if m = s.nodeCnt.toNat then .leaf v else s.node m :=
      fun m => node_setNode s s.nodeCnt.toNat (d := .leaf v) (by simp) m
    have hc1 : s1.nodeCnt.toNat = s.nodeCnt.toNat + 1 := hcnt
    have hh : HoldsAll s1 wl al is := holdsAll_congr h (fun m hm => by
      have : m < s.nodeCnt.toNat := by simpa using hp.mem_iff.mp hm
      rw [hnode, if_neg (by omega)])
    have hleaf : Holds s1 (.leaf v) (s.nodeCnt.setWidth 16) [s.nodeCnt.toNat] := by
      refine ⟨?_, by rw [hidx]⟩
      rw [hidx, hnode, if_pos rfl]
    obtain ⟨is1, h1, hp1⟩ := holdsAll_insert (e := ⟨c, s.nodeCnt.setWidth 16⟩) (a := (c, .leaf v)) hh rfl hleaf
    have hmem : ∀ x ∈ wlInsert ⟨c, s.nodeCnt.setWidth 16⟩ wl, x.node.toNat < s1.nodeCnt.toNat := by
      intro x hx
      rcases List.mem_cons.mp ((wlInsert_perm _ _).mem_iff.mp hx) with rfl | hx
      · rw [hidx]
        omega
      · have := hn x hx
        omega
    obtain ⟨is', g1, g2, g3, g4, g5, g6, g7, g8, g9, g10⟩ := ih (wlInsert ⟨c, s.nodeCnt.setWidth 16⟩ wl)
      (CodeTree.insertByWeight (c, .leaf v) al) is1 s1 h1
      (by
        rw [hc1, List.range_succ]
        exact hp1.trans (List.perm_append_comm.trans (hp.append_right _)))
      (wlInsert_sorted _ _ hs (fun x hx => by rw [hidx]; exact hn x hx)) hmem
      (by rw [hc1]; show _ ≤ s.params.nodeCap; omega)
      (fun m hm => by rw [hnode, if_neg (by omega)]; exact hfree m (by omega))
    refine ⟨is', g1, g2, g3, g4, ?_, g6, fun m hm => ?_, fun j hj => ?_, ?_, ?_⟩
    · rw [List.length_cons]
      show (formLeaves ord _ s1).1.nodeCnt.toNat = _
      omega
    · show (formLeaves ord _ s1).1.node m = _
      rw [g7 m (by omega), hnode, if_neg (by omega)]
    · show (formLeaves ord _ s1).1.node _ = _
      cases j with
      | zero =>
        rw [Nat.add_zero, g7 _ (by omega), hnode, if_pos rfl]
        rfl
      | succ j =>
        have := g8 j (by simpa using hj)
        rw [hc1] at this
        rw [show s.nodeCnt.toNat + (j + 1) = s.nodeCnt.toNat + 1 + j by omega, this]
        rfl
    · exact g9
    · have hsum := ((wlInsert_perm ⟨c, s.nodeCnt.setWidth 16⟩ wl).map WorkEntry.weight).sum_eq
      show ((formLeaves ord _ s1).2.map WorkEntry.weight).sum = _
      rw [g10, hsum]
      simp only [List.map_cons, List.sum_cons]
      omega

/-! ### The merges -/

/-- `merge_step` while two entries remain (R113, R114): the abstract merges, at the next free entries. -/
theorem mergeAll_spec (fuel : Nat) (wl : List WorkEntry) (al : List (Nat × CodeTree)) (is : List Nat) (s : State)
    (h : HoldsAll s wl al is) (hp : is.Perm (List.range s.nodeCnt.toNat)) (hs : wl.Pairwise WorkEntry.Before)
    (hn : ∀ x ∈ wl, x.node.toNat < s.nodeCnt.toNat) (hcap : s.nodeCnt.toNat + (wl.length - 1) ≤ s.params.nodeCap)
    (hfree : ∀ m, s.nodeCnt.toNat ≤ m → s.node m = .free) :
    ∃ is', HoldsAll (mergeAll fuel wl s).1 (mergeAll fuel wl s).2 (CodeTree.mergeByWeight fuel al) is' ∧
      is'.Perm (List.range (mergeAll fuel wl s).1.nodeCnt.toNat) ∧
      (mergeAll fuel wl s).2.Pairwise WorkEntry.Before ∧
      (∀ m, (mergeAll fuel wl s).1.nodeCnt.toNat ≤ m → (mergeAll fuel wl s).1.node m = .free) ∧
      (∀ m, m < s.nodeCnt.toNat → (mergeAll fuel wl s).1.node m = s.node m) ∧
      (mergeAll fuel wl s).1 =
        { s with nodes := (mergeAll fuel wl s).1.nodes, nodeCnt := (mergeAll fuel wl s).1.nodeCnt } ∧
      ((mergeAll fuel wl s).2.map WorkEntry.weight).sum = (wl.map WorkEntry.weight).sum ∧
      (mergeAll fuel wl s).1.nodeCnt.toNat ≤ s.params.nodeCap ∧
      (wl ≠ [] → wl.length ≤ fuel + 1 → ∃ e, (mergeAll fuel wl s).2 = [e] ∧
        (mergeAll fuel wl s).1.nodeCnt.toNat = s.nodeCnt.toNat + (wl.length - 1) ∧
        (2 ≤ wl.length → e.node.toNat + 1 = (mergeAll fuel wl s).1.nodeCnt.toNat) ∧ (wl.length = 1 → wl = [e])) := by
  induction fuel generalizing wl al is s with
  | zero =>
    refine ⟨is, h, hp, hs, hfree, fun _ _ => rfl, rfl, rfl, by simp only [mergeAll]; omega, fun hne hle => ?_⟩
    match wl, hne, hle with
    | [e], _, _ => exact ⟨e, rfl, by simp [mergeAll], by simp, by simp⟩
  | succ fuel ih =>
    match wl, al, h with
    | [], [], h => exact ⟨is, h, hp, hs, hfree, fun _ _ => rfl, rfl, rfl, by simp only [mergeAll]; omega, fun hne => absurd rfl hne⟩
    | [e], [a], h =>
      exact ⟨is, h, hp, hs, hfree, fun _ _ => rfl, rfl, rfl, by simp only [mergeAll]; omega,
        fun _ _ => ⟨e, rfl, by simp [mergeAll], by simp, by simp⟩⟩
    | e1 :: e2 :: rest, a1 :: a2 :: al, h =>
      obtain ⟨h0, xs, ys', h1, ⟨h2, ys, zs, h3, h4, rfl⟩, rfl⟩ := h
      have hc := nodeCap_lt s
      simp only [List.length_cons] at hcap
      have hcnt : (s.nodeCnt + 1).toNat = s.nodeCnt.toNat + 1 := toNat_add_ofNat (k := 1) (by omega)
      have hidx : (s.nodeCnt.setWidth 16).toNat = s.nodeCnt.toNat := nodeIdx_toNat (by omega)
      let s1 : State := { s.setNode s.nodeCnt.toNat (.internal e1.node e2.node) with nodeCnt := s.nodeCnt + 1 }
      have hnode : ∀ m, s1.node m = if m = s.nodeCnt.toNat then .internal e1.node e2.node else s.node m :=
        fun m => node_setNode s s.nodeCnt.toNat (d := .internal e1.node e2.node) (by simp) m
      have hc1 : s1.nodeCnt.toNat = s.nodeCnt.toNat + 1 := hcnt
      have hlt : ∀ m ∈ xs ++ (ys ++ zs), m < s.nodeCnt.toNat := fun m hm => by simpa using hp.mem_iff.mp hm
      have hsame : ∀ m ∈ xs ++ (ys ++ zs), s1.node m = s.node m := fun m hm => by
        have := hlt m hm
        rw [hnode, if_neg (by omega)]
      have hrest : HoldsAll s1 rest al zs := holdsAll_congr h4 (fun m hm => hsame m (by simp [hm]))
      have hnew : Holds s1 (.node a1.2 a2.2) (s.nodeCnt.setWidth 16) (s.nodeCnt.toNat :: (xs ++ ys)) := by
        refine ⟨e1.node, e2.node, xs, ys, ?_, holds_congr h1 (fun m hm => hsame m (by simp [hm])),
          holds_congr h3 (fun m hm => hsame m (by simp [hm])), by rw [hidx]⟩
        rw [hidx, hnode, if_pos rfl]
      have hw : e1.weight + e2.weight = a1.1 + a2.1 := by rw [h0, h2]
      obtain ⟨is1, g1, gp1⟩ := holdsAll_insert (e := ⟨e1.weight + e2.weight, s.nodeCnt.setWidth 16⟩)
        (a := (a1.1 + a2.1, .node a1.2 a2.2)) hrest hw hnew
      have hs' := List.pairwise_cons.mp (List.pairwise_cons.mp hs).2
      have hlen1 := wlInsert_length ⟨e1.weight + e2.weight, s.nodeCnt.setWidth 16⟩ rest
      obtain ⟨is', k1, k2, k3, k4, k5, k6, k7, k8, k9⟩ := ih (wlInsert ⟨e1.weight + e2.weight, s.nodeCnt.setWidth 16⟩ rest)
        (CodeTree.insertByWeight (a1.1 + a2.1, .node a1.2 a2.2) al) is1 s1 g1
        (by
          rw [hc1, List.range_succ]
          refine gp1.trans ?_
          refine List.Perm.trans ?_ (List.perm_append_comm (l₁ := [s.nodeCnt.toNat]))
          refine List.Perm.cons _ ?_
          show ((xs ++ ys) ++ zs).Perm _
          rw [List.append_assoc]
          exact hp)
        (wlInsert_sorted _ _ hs'.2 (fun x hx => by
          rw [hidx]
          exact hn x (by simp [hx])))
        (fun x hx => by
          rcases List.mem_cons.mp ((wlInsert_perm _ _).mem_iff.mp hx) with rfl | hx
          · rw [hidx]
            omega
          · have := hn x (by simp [hx])
            omega)
        (by rw [hc1, hlen1]; show _ ≤ s.params.nodeCap; omega)
        (fun m hm => by rw [hnode, if_neg (by omega)]; exact hfree m (by omega))
      refine ⟨is', k1, k2, k3, k4, fun m hm => ?_, k6, ?_, k8, fun _ hle => ?_⟩
      · show (mergeAll fuel _ s1).1.node m = _
        rw [k5 m (by omega), hnode, if_neg (by omega)]
      · have hsum := ((wlInsert_perm ⟨e1.weight + e2.weight, s.nodeCnt.setWidth 16⟩ rest).map WorkEntry.weight).sum_eq
        show ((mergeAll fuel _ s1).2.map WorkEntry.weight).sum = _
        rw [k7, hsum]
        simp only [List.map_cons, List.sum_cons]
        omega
      · simp only [List.length_cons] at hle
        obtain ⟨e, j1, j2, j3, j4⟩ := k9 (by
          intro hnil
          rw [hnil] at hlen1
          simp at hlen1) (by omega)
        refine ⟨e, j1, ?_, fun _ => ?_, fun h1 => ?_⟩
        · show (mergeAll fuel _ s1).1.nodeCnt.toNat = _
          simp only [List.length_cons]
          omega
        · show e.node.toNat + 1 = (mergeAll fuel _ s1).1.nodeCnt.toNat
          by_cases hr : 1 ≤ rest.length
          · exact j3 (by omega)
          · have := j4 (by omega)
            have hr0 : rest = [] := List.eq_nil_of_length_eq_zero (by omega)
            subst hr0
            simp only [wlInsert, List.cons.injEq, and_true] at this
            rw [← this, hidx, j2]
            simp only [wlInsert, List.length_singleton]
            omega
        · simp only [List.length_cons] at h1
          omega
    | [], _ :: _, h => exact h.elim
    | _ :: _, [], h => exact h.elim
    | [e1], _ :: _ :: _, h =>
      obtain ⟨-, xs, ys, -, h2, -⟩ := h
      exact h2.elim
    | e1 :: _ :: _, [_], h =>
      obtain ⟨-, xs, ys, -, h2, -⟩ := h
      exact h2.elim

end Machine

/-! ### The abstract builder -/

theorem CodeTree.insertByWeight_perm (e : Nat × CodeTree) (l : List (Nat × CodeTree)) : (CodeTree.insertByWeight e l).Perm (e :: l) := by
  induction l with
  | nil => exact .refl _
  | cons x rest ih =>
    simp only [CodeTree.insertByWeight]
    split
    · exact (ih.cons x).trans (.swap ..)
    · exact .refl _

theorem CodeTree.foldl_insertByWeight_perm (l acc : List (Nat × CodeTree)) :
    (l.foldl (fun l e => CodeTree.insertByWeight e l) acc).Perm (l ++ acc) := by
  induction l generalizing acc with
  | nil => exact .refl _
  | cons e rest ih =>
    refine (ih _).trans ?_
    refine ((CodeTree.insertByWeight_perm e acc).append_left rest).trans ?_
    exact List.perm_middle

/-- The merges keep the leaf values, and whether every tree is complete (R114). -/
theorem CodeTree.mergeByWeight_spec (n : Nat) (l : List (Nat × CodeTree)) :
    ((CodeTree.mergeByWeight n l).flatMap (fun e => e.2.values)).Perm (l.flatMap (fun e => e.2.values)) ∧
      ((∀ e ∈ l, e.2.complete = true) → ∀ e ∈ CodeTree.mergeByWeight n l, e.2.complete = true) := by
  induction n generalizing l with
  | zero => exact ⟨.refl _, fun h => h⟩
  | succ n ih =>
    match l with
    | [] => exact ⟨.refl _, fun h => h⟩
    | [x] => exact ⟨.refl _, fun h => h⟩
    | x :: y :: rest =>
      obtain ⟨h1, h2⟩ := ih (CodeTree.insertByWeight (x.1 + y.1, .node x.2 y.2) rest)
      have hp := CodeTree.insertByWeight_perm (x.1 + y.1, .node x.2 y.2) rest
      refine ⟨h1.trans ((hp.flatMap_right _).trans ?_), fun h => h2 (fun e he => ?_)⟩
      · simp [CodeTree.values]
      · rcases List.mem_cons.mp (hp.mem_iff.mp he) with rfl | he
        · simp [CodeTree.complete, h x (by simp), h y (by simp)]
        · exact h e (by simp [he])

namespace Machine

/-! ### The whole builder -/

theorem blockBytes_congr {s t : State} (hb : t.blk = s.blk) (hr : t.resets = s.resets) (hl : t.blkLen = s.blkLen) :
    blockBytes t = blockBytes s := by
  simp only [blockBytes, hl]
  exact List.map_congr_left (fun i _ => blkByte_congr hb hr i)

@[simp] theorem blockBytes_length (s : State) : (blockBytes s).length = s.blkLen.toNat := by
  simp [blockBytes]

/-- The sum of the counts of the distinct values is the length of the block (R110). -/
theorem sum_count_eraseDups (block : List Byte) : (block.eraseDups.map (fun v => block.count v)).sum = block.length := by
  have h1 : block.eraseDups.Nodup := nodup_eraseDups block
  have h2 : block.eraseDups.toFinset = block.toFinset := by
    ext v
    simp [List.mem_eraseDups]
  have h3 := List.sum_toFinset_count_eq_length block
  rw [← h3, ← h2, List.sum_toFinset _ h1]

/-- `build_body` (R114): the arena holds the abstract Huffman tree of the block; leaves first, in first-encounter order; the
root last. -/
theorem buildRun_spec (s : State) (hne : blockBytes s ≠ []) :
    HoldsTree (buildRun s) (CodeTree.huffman (blockBytes s)) ∧ (CodeTree.huffman (blockBytes s)).complete = true ∧
      (CodeTree.huffman (blockBytes s)).values.Perm (blockBytes s).eraseDups ∧
      (buildRun s).nodeCnt.toNat = 2 * (blockBytes s).eraseDups.length - 1 ∧
      (buildRun s).root.toNat = 2 * (blockBytes s).eraseDups.length - 2 ∧
      (∀ (j : Nat) (hj : j < (blockBytes s).eraseDups.length),
        (buildRun s).node j = .leaf (blockBytes s).eraseDups[j]) ∧
      buildRun s =
        { s with
          nodes := (buildRun s).nodes, nodeCnt := (buildRun s).nodeCnt, root := (buildRun s).root
          symCnt := BitVec.ofNat 32 (blockBytes s).eraseDups.length } := by
  have hk1 := eraseDups_length_pos hne
  have hk2 := eraseDups_length_le (blockBytes s)
  have hcap := s.params.nodeCap_range.1
  have hordlen : (countBytes (blockBytes s)).length = (blockBytes s).eraseDups.length := by
    rw [countBytes_eq, List.length_map]
  obtain ⟨is1, f1, f2, f3, f4, f5, f6, -, f8, f9, f10⟩ := formLeaves_spec (countBytes (blockBytes s)) [] [] []
    (arenaClear s) rfl (by simp [List.range_zero]) List.Pairwise.nil (by simp)
    (by simp only [arenaClear_nodeCnt, arenaClear_params]; rw [hordlen]; simp; omega) (fun _ _ => rfl)
  generalize hF : formLeaves (countBytes (blockBytes s)) [] (arenaClear s) = F at *
  have hwl := holdsAll_length f1
  have hfcnt : F.1.nodeCnt.toNat = (blockBytes s).eraseDups.length := by
    rw [f5, hordlen]
    simp
  have hleaves : (countBytes (blockBytes s)).map (fun e => (e.2, CodeTree.leaf e.1)) = CodeTree.leavesOf (blockBytes s) := by
    rw [countBytes_eq, List.map_map]
    rfl
  rw [hleaves] at f1 hwl
  have hperm := CodeTree.foldl_insertByWeight_perm (CodeTree.leavesOf (blockBytes s)) []
  rw [List.append_nil] at hperm
  have hal : ((CodeTree.leavesOf (blockBytes s)).foldl (fun l e => CodeTree.insertByWeight e l) []).length =
      (blockBytes s).eraseDups.length := by
    rw [hperm.length_eq]
    simp [CodeTree.leavesOf]
  rw [hal] at hwl
  have hpar : F.1.params = s.params := by rw [f9]; rfl
  obtain ⟨is2, m1, m2, m3, m4, m5, m6, m7, m8, m9⟩ := mergeAll_spec F.2.length F.2 _ is1 F.1 f1 f2 f3 f4
    (by rw [hpar, hfcnt, hwl]; omega) f6
  obtain ⟨e, n1, n2, n3, n4⟩ := m9 (fun h => by rw [h] at hwl; simp at hwl; omega) (by omega)
  obtain ⟨p1, p2⟩ := CodeTree.mergeByWeight_spec F.2.length
    ((CodeTree.leavesOf (blockBytes s)).foldl (fun l e => CodeTree.insertByWeight e l) [])
  have hbuild : buildRun s =
      { (mergeAll F.2.length F.2 F.1).1 with
        root := e.node, symCnt := BitVec.ofNat 32 (blockBytes s).eraseDups.length } := by
    simp only [buildRun, hF, n1, rootOf, hordlen]
  have hal1 := holdsAll_length m1
  rw [n1] at m1 hal1
  obtain ⟨a, ha⟩ : ∃ a, CodeTree.mergeByWeight F.2.length
      ((CodeTree.leavesOf (blockBytes s)).foldl (fun l e => CodeTree.insertByWeight e l) []) = [a] := by
    match h : CodeTree.mergeByWeight F.2.length
        ((CodeTree.leavesOf (blockBytes s)).foldl (fun l e => CodeTree.insertByWeight e l) []), hal1 with
    | [a], _ => exact ⟨a, rfl⟩
  have hhuff : CodeTree.huffman (blockBytes s) = a.2 := by
    simp only [CodeTree.huffman, hal, ← hwl, ha]
  rw [ha] at m1 p1 p2
  obtain ⟨-, xs, ys, q1, q2, q3⟩ := m1
  obtain rfl : ys = [] := q2
  rw [List.append_nil] at q3
  subst q3
  have hcnt : (buildRun s).nodeCnt.toNat = 2 * (blockBytes s).eraseDups.length - 1 := by
    rw [hbuild]
    show (mergeAll F.2.length F.2 F.1).1.nodeCnt.toNat = _
    omega
  refine ⟨⟨⟨is2, ?_, ?_⟩, ?_, ?_⟩, ?_, ?_, hcnt, ?_, ?_, ?_⟩
  · rw [hhuff, hbuild]
    exact holds_congr q1 (fun _ _ => rfl)
  · rw [hbuild]
    exact m2
  · rw [hbuild]
    exact m4
  · rw [hbuild]
    show _ ≤ (mergeAll F.2.length F.2 F.1).1.params.nodeCap
    rw [m6]
    exact m8
  · rw [hhuff]
    refine p2 (fun x hx => ?_) a (by simp)
    obtain ⟨v, -, rfl⟩ := List.mem_map.mp (hperm.mem_iff.mp hx)
    rfl
  · rw [hhuff]
    have h1 : a.2.values.Perm ((CodeTree.leavesOf (blockBytes s)).flatMap (fun e => e.2.values)) := by
      simpa using p1.trans (hperm.flatMap_right _)
    have h2 : (CodeTree.leavesOf (blockBytes s)).flatMap (fun e => e.2.values) = (blockBytes s).eraseDups := by
      simp [CodeTree.leavesOf, List.flatMap_map, CodeTree.values]
    rwa [h2] at h1
  · have hroot : (buildRun s).root = e.node := by rw [hbuild]
    rw [hroot]
    by_cases h2 : 2 ≤ F.2.length
    · have := n3 h2
      omega
    · have h1 : F.2.length = 1 := by omega
      have hb := f4 e (by rw [n4 h1]; simp)
      omega
  · intro j hj
    have h1 : (buildRun s).node j = F.1.node j := by
      rw [hbuild]
      exact m5 j (by omega)
    have h2 := f8 j (by omega)
    have h0 : (arenaClear s).nodeCnt.toNat = 0 := rfl
    rw [h0, Nat.zero_add] at h2
    rw [h1, h2]
    simp only [countBytes_eq, List.getElem_map]
  · rw [hbuild, m6, f9]
    rfl

theorem holdsAll_mem {s : State} {wl : List WorkEntry} {al : List (Nat × CodeTree)} {is : List Nat} (h : HoldsAll s wl al is)
    {e : WorkEntry} (he : e ∈ wl) : e.node.toNat ∈ is := by
  induction wl generalizing al is with
  | nil => cases he
  | cons x rest ih =>
    cases al with
    | nil => cases h
    | cons a al =>
      obtain ⟨-, xs, ys, h1, h2, rfl⟩ := h
      rcases List.mem_cons.mp he with rfl | he
      · exact List.mem_append_left _ (holds_mem h1)
      · exact List.mem_append_right _ (ih h2 he)

/-- At every moment of the merging the worklist is in order, its nodes are allocated, and the weights sum to the length of the
block (R111, R112, R116). -/
theorem worklist_spec (s : State) (n : Nat) (hne : blockBytes s ≠ []) :
    let merged := mergeAll n (formLeaves (countBytes (blockBytes s)) [] (arenaClear s)).2
      (formLeaves (countBytes (blockBytes s)) [] (arenaClear s)).1
    merged.2.Pairwise WorkEntry.Before ∧ (∀ e ∈ merged.2, e.node.toNat < merged.1.nodeCnt.toNat) ∧
      (merged.2.map WorkEntry.weight).sum = s.blkLen.toNat := by
  have hk1 := eraseDups_length_pos hne
  have hk2 := eraseDups_length_le (blockBytes s)
  have hcap := s.params.nodeCap_range.1
  have hordlen : (countBytes (blockBytes s)).length = (blockBytes s).eraseDups.length := by
    rw [countBytes_eq, List.length_map]
  obtain ⟨is1, f1, f2, f3, f4, f5, f6, -, -, f9, f10⟩ := formLeaves_spec (countBytes (blockBytes s)) [] [] []
    (arenaClear s) rfl (by simp [List.range_zero]) List.Pairwise.nil (by simp)
    (by simp only [arenaClear_nodeCnt, arenaClear_params]; rw [hordlen]; simp; omega) (fun _ _ => rfl)
  generalize hF : formLeaves (countBytes (blockBytes s)) [] (arenaClear s) = F at *
  have hfcnt : F.1.nodeCnt.toNat = (blockBytes s).eraseDups.length := by
    rw [f5, hordlen]
    simp
  have hpar : F.1.params = s.params := by rw [f9]; rfl
  have hlen : F.2.length = (blockBytes s).eraseDups.length := by
    have := holdsAll_length f1
    rw [this, (CodeTree.foldl_insertByWeight_perm _ _).length_eq]
    simp [hordlen]
  obtain ⟨is2, m1, m2, m3, -, -, -, m7, -⟩ := mergeAll_spec n F.2 _ is1 F.1 f1 f2 f3 f4
    (by rw [hpar, hfcnt, hlen]; omega) f6
  refine ⟨m3, fun e he => by simpa using m2.mem_iff.mp (holdsAll_mem m1 he), ?_⟩
  rw [m7, f10, countBytes_eq]
  have hmap : ((blockBytes s).eraseDups.map (fun v => (v, (blockBytes s).count v))).map Prod.snd =
      (blockBytes s).eraseDups.map (fun v => (blockBytes s).count v) := by
    rw [List.map_map]
    rfl
  rw [hmap, sum_count_eraseDups, blockBytes_length]
  simp

end Machine

end Sys2Proof
end

