-- ==== Sys2Proof/Laws/Decoding.lean ====
section
/-! SUPPORT. What the decoder makes of a word and of header bits, said once. -/

namespace Sys2Proof

theorem and_ones (w : Word) : w &&& 0xFFFFFFFF#32 = w := by
  have : (0xFFFFFFFF#32 : Word) = BitVec.allOnes 32 := by decide
  rw [this, BitVec.and_allOnes]

/-- The opcode map as one chain of comparisons (R80). -/
theorem decodeWord_chain (w : Word) : decodeWord w =
    if w = 0x00#32 then .ok .nop else if w = 0x01#32 then .ok .clear else if w = 0x10#32 then .ok .tinit
    else if w &&& 0xFFFF00FF#32 = 0x11#32 then .ok (.tleaf (w.extractLsb' 8 8))
    else if w = 0x12#32 then .ok .texpand else if w = 0x20#32 then .ok .serialize else if w = 0x21#32 then .ok .deserialize
    else if w = 0x30#32 then .ok .build else if w &&& 0xFFFF00FF#32 = 0x40#32 then .ok (.lookup (w.extractLsb' 8 8))
    else if w = 0x41#32 then .ok .encode else if w = 0x42#32 then .ok .decode else if w = 0x50#32 then .ok .compress
    else if w = 0x51#32 then .ok .decompress else .error (illegalCause w) := by
  have e : ∀ c : Word, w ≠ c → (w == c) = false := fun c h => beq_false_of_ne h
  simp only [decodeWord, opcodeTable, List.find?]
  by_cases h0 : w = 0x00#32
  · simp [h0]
  by_cases h1 : w = 0x01#32
  · simp [h1]
  by_cases h2 : w = 0x10#32
  · simp [h2]
  by_cases h3 : w &&& 0xFFFF00FF#32 = 0x11#32
  · simp [and_ones, *]
  by_cases h4 : w = 0x12#32
  · simp [h4]
  by_cases h5 : w = 0x20#32
  · simp [h5]
  by_cases h6 : w = 0x21#32
  · simp [h6]
  by_cases h7 : w = 0x30#32
  · simp [h7]
  by_cases h8 : w &&& 0xFFFF00FF#32 = 0x40#32
  · simp [and_ones, *]
  by_cases h9 : w = 0x41#32
  · simp [h9]
  by_cases h10 : w = 0x42#32
  · simp [h10]
  by_cases h11 : w = 0x50#32
  · simp [h11]
  by_cases h12 : w = 0x51#32
  · simp [h12]
  simp [and_ones, e, beq_false_of_ne h3, beq_false_of_ne h8, h0,h1,h2,h3,h4,h5,h6,h7,h8,h9,h10,h11,h12]

/-- A word that matches a row with an argument is that row's encoding with its argument. -/
theorem and_mask {w : Word} {c : Byte} (h : w &&& 0xFFFF00FF#32 = (c.setWidth 32 : Word)) :
    w = commandWord c (w.extractLsb' 8 8) := by
  apply BitVec.eq_of_getLsbD_eq
  intro i hi
  have := congrArg (fun x => x.getLsbD i) h
  simp only [BitVec.getLsbD_and, BitVec.getLsbD_setWidth, hi, decide_true, Bool.true_and] at this
  simp only [commandWord, BitVec.getLsbD_append, BitVec.getLsbD_extractLsb']
  revert this
  have hm : (0xFFFF00FF#32 : Word).getLsbD i = if i < 8 then true else if i < 16 then false else true := by
    revert i; decide
  rw [hm]
  (split_ifs <;> simp_all); omega

/-- What the token reader takes off the front is the token's encoding (R73). -/
theorem decodeToken_spec {bits : List Bool} {i : Instr} {rest : List Bool} (h : decodeToken bits = .ok (i, rest)) :
    ∃ code, encode i = .header code ∧ bits = code ++ rest := by
  match bits with
  | [] => cases h
  | true :: r => cases h; exact ⟨[true], rfl, rfl⟩
  | false :: r =>
    simp only [decodeToken] at h
    split at h
    · cases h
    · cases h
      refine ⟨_, rfl, ?_⟩
      have h8 : 8 ≤ (r.take 8).length := by simp; omega
      rw [bitsOfByte_byteOfBits h8, List.take_take, Nat.min_self, List.cons_append, List.take_append_drop]

/-- A word never decodes to a header token. -/
theorem isCommand_of_decodeWord {w : Word} {i : Instr} (h : decodeWord w = .ok i) : i.isCommand = true := by
  have hall : ∀ r ∈ opcodeTable, ∀ v, (r.make v).isCommand = true := by
    intro r hr v
    fin_cases hr <;> rfl
  simp only [decodeWord] at h
  split at h
  · rename_i r hr
    cases h
    exact hall r (List.mem_of_find?_eq_some hr) _
  · cases h

end Sys2Proof
end

