-- ==== Sys2Proof/Laws/Codec.lean ====
section
/-! SUPPORT. The deserializer: what one leaf record does, and what the loop does on the header of a tree, on a header that is
cut off, and on any bits at all. -/

namespace Sys2Proof

/-! ### Leaf records -/

/-- The distance and value of the first leaf record, and the subtrees still to come, nearest first. -/
def CodeTree.leftSpine : CodeTree → Nat × Byte × List CodeTree
  | .unset => (0, 0, [])
  | .leaf v => (0, v, [])
  | .node a b => (a.leftSpine.1 + 1, a.leftSpine.2.1, a.leftSpine.2.2 ++ [b])

/-- Fill the unset nodes of a tree, in depth-first pre-order, with the trees of a list; and what is left of the list. -/
def CodeTree.fillAll : CodeTree → List CodeTree → CodeTree × List CodeTree
  | .unset, [] => (.unset, [])
  | .unset, x :: rest => (x, rest)
  | .leaf v, ts => (.leaf v, ts)
  | .node a b, ts => (.node (a.fillAll ts).1 (b.fillAll (a.fillAll ts).2).1, (b.fillAll (a.fillAll ts).2).2)

/-- The number of unset nodes. -/
def CodeTree.unsets : CodeTree → Nat
  | .unset => 1
  | .leaf _ => 0
  | .node a b => a.unsets + b.unsets

theorem CodeTree.unsets_eq_zero (t : CodeTree) : t.unsets = 0 ↔ t.complete = true := by
  induction t with
  | unset => simp [CodeTree.unsets, CodeTree.complete]
  | leaf v => simp [CodeTree.unsets, CodeTree.complete]
  | node a b iha ihb => simp [CodeTree.unsets, CodeTree.complete, iha, ihb]

theorem CodeTree.fillAll_complete {t : CodeTree} (h : t.complete = true) (ts : List CodeTree) : t.fillAll ts = (t, ts) := by
  induction t generalizing ts with
  | unset => simp [CodeTree.complete] at h
  | leaf v => rfl
  | node a b iha ihb =>
    simp only [CodeTree.complete, Bool.and_eq_true] at h
    simp [CodeTree.fillAll, iha h.1, ihb h.2]

theorem CodeTree.fillAll_fillFirst {t : CodeTree} (h : t.complete = false) (x : CodeTree) (ts : List CodeTree) :
    (CodeTree.fillFirst x t).fillAll ts = t.fillAll ((x.fillAll ts).1 :: (x.fillAll ts).2) := by
  induction t generalizing ts with
  | unset => rfl
  | leaf v => simp [CodeTree.complete] at h
  | node a b iha ihb =>
    simp only [CodeTree.complete, Bool.and_eq_false_iff] at h
    by_cases ha : a.complete = true
    · have hb : b.complete = false := by simpa [ha] using h
      simp [CodeTree.fillFirst, ha, CodeTree.fillAll, CodeTree.fillAll_complete ha, ihb hb]
    · have ha' : a.complete = false := by simpa using ha
      simp [CodeTree.fillFirst, ha', CodeTree.fillAll, iha ha']

theorem CodeTree.unsets_fillFirst {t : CodeTree} (h : t.complete = false) (x : CodeTree) :
    (CodeTree.fillFirst x t).unsets + 1 = t.unsets + x.unsets := by
  induction t with
  | unset => simp [CodeTree.fillFirst, CodeTree.unsets, Nat.add_comm]
  | leaf v => simp [CodeTree.complete] at h
  | node a b iha ihb =>
    simp only [CodeTree.complete, Bool.and_eq_false_iff] at h
    by_cases ha : a.complete = true
    · have hb : b.complete = false := by simpa [ha] using h
      simp only [CodeTree.fillFirst, ha, if_true, CodeTree.unsets]
      have := ihb hb
      omega
    · have ha' : a.complete = false := by simpa using ha
      simp only [CodeTree.fillFirst, ha', CodeTree.unsets]
      have := iha ha'
      simp only [Bool.false_eq_true, if_false, CodeTree.unsets]
      omega

theorem CodeTree.unsets_spine (d : Nat) (v : Byte) : (CodeTree.spine d (.leaf v)).unsets = d := by
  induction d with
  | zero => rfl
  | succ d ih => simp [CodeTree.spine, CodeTree.unsets, ih]

theorem CodeTree.leftSpine_length (t : CodeTree) : t.leftSpine.2.2.length = t.leftSpine.1 := by
  induction t with
  | unset => rfl
  | leaf v => rfl
  | node a b iha ihb => simp [CodeTree.leftSpine, iha]

theorem CodeTree.leftSpine_complete {t : CodeTree} (h : t.complete = true) : ∀ u ∈ t.leftSpine.2.2, u.complete = true := by
  induction t with
  | unset => simp [CodeTree.complete] at h
  | leaf v => simp [CodeTree.leftSpine]
  | node a b iha ihb =>
    simp only [CodeTree.complete, Bool.and_eq_true] at h
    intro u hu
    simp only [CodeTree.leftSpine, List.mem_append, List.mem_singleton] at hu
    rcases hu with hu | rfl
    · exact iha h.1 u hu
    · exact h.2

/-- The nodes of a list of trees beyond the roots. -/
def CodeTree.extra (ts : List CodeTree) : Nat := (ts.map (fun t => t.size - 1)).sum

theorem CodeTree.leftSpine_size (t : CodeTree) : t.size = 2 * t.leftSpine.1 + 1 + CodeTree.extra t.leftSpine.2.2 := by
  induction t with
  | unset => rfl
  | leaf v => rfl
  | node a b iha ihb =>
    have := b.size_pos
    simp only [CodeTree.size, CodeTree.leftSpine, CodeTree.extra, List.map_append, List.sum_append, List.map_cons, List.map_nil,
      List.sum_cons, List.sum_nil]
    simp only [CodeTree.extra] at iha
    omega

/-- The headers of a list of trees, one after the other. -/
def CodeTree.headers (ts : List CodeTree) : List Bool := (ts.map CodeTree.header).flatten

theorem CodeTree.header_leftSpine {t : CodeTree} (h : t.complete = true) :
    t.header = List.replicate t.leftSpine.1 true ++
      (false :: (bitsOfByte t.leftSpine.2.1 ++ CodeTree.headers t.leftSpine.2.2)) := by
  induction t with
  | unset => simp [CodeTree.complete] at h
  | leaf v => simp [CodeTree.header, CodeTree.leftSpine, CodeTree.headers]
  | node a b iha ihb =>
    simp only [CodeTree.complete, Bool.and_eq_true] at h
    simp only [CodeTree.header, CodeTree.leftSpine, iha h.1, List.replicate_succ, CodeTree.headers, List.map_append, List.flatten_append,
      List.cons_append, List.append_assoc, List.map_cons, List.map_nil, List.flatten_cons, List.flatten_nil,
      List.append_nil]

theorem CodeTree.fillAll_spine {t : CodeTree} (h : t.complete = true) (rest : List CodeTree) :
    (CodeTree.spine t.leftSpine.1 (.leaf t.leftSpine.2.1)).fillAll (t.leftSpine.2.2 ++ rest) = (t, rest) := by
  induction t generalizing rest with
  | unset => simp [CodeTree.complete] at h
  | leaf v => rfl
  | node a b iha ihb =>
    simp only [CodeTree.complete, Bool.and_eq_true] at h
    simp [CodeTree.leftSpine, CodeTree.spine, CodeTree.fillAll, iha h.1]

theorem CodeTree.records_leftSpine {t : CodeTree} (h : t.complete = true) :
    t.records = (List.replicate t.leftSpine.1 true ++ (false :: bitsOfByte t.leftSpine.2.1)) ::
      (t.leftSpine.2.2.map CodeTree.records).flatten := by
  induction t with
  | unset => simp [CodeTree.complete] at h
  | leaf v => rfl
  | node a b iha ihb =>
    simp only [CodeTree.complete, Bool.and_eq_true] at h
    simp [CodeTree.records, iha h.1, CodeTree.leftSpine, List.replicate_succ]

/-- The two descriptions of the header, leaf records and pre-order tokens, give the same bits (R102). -/
theorem CodeTree.flatten_records {t : CodeTree} (h : t.complete = true) : t.records.flatten = t.header := by
  induction t with
  | unset => simp [CodeTree.complete] at h
  | leaf v => simp [CodeTree.records, CodeTree.header]
  | node a b iha ihb =>
    simp only [CodeTree.complete, Bool.and_eq_true] at h
    have ha := iha h.1
    simp only [CodeTree.records, CodeTree.header, ← ihb h.2, ← ha]
    rw [CodeTree.records_leftSpine h.1]
    simp

end Sys2Proof

namespace Sys2Proof.Machine

theorem holdsTree_advance {s : State} {T : CodeTree} (h : HoldsTree s T) (k : Nat) : HoldsTree (advance k s) T :=
  holdsTree_congr h (fun _ => rfl) rfl rfl rfl

theorem bitsFrom_congr {s t : State} (hb : t.bits = s.bits) (hr : t.resets = s.resets) (hl : t.bitsLen = s.bitsLen)
    (hc : t.cursor = s.cursor) : bitsFrom t = bitsFrom s := by
  simp only [bitsFrom, bitsLeft, hl, hc]
  exact List.map_congr_left (fun k _ => bit_congr hb hr _)

/-- The tree after `tree_init()` (R90). -/
theorem holdsTree_treeInit (s : State) : HoldsTree (treeInit s) .unset := by
  refine ⟨⟨[0], ⟨by simp [node_treeInit], by simp⟩, by simp [List.range_succ]⟩, fun n hn => ?_, ?_⟩
  · simp only [treeInit_nodeCnt] at hn
    rw [node_treeInit, if_neg (by simp at hn; omega)]
  · have := s.params.nodeCap_range.1
    simp
    omega

/-- `make_leaf` after the expansions of a record that fit: the pending node has become a spine that ends in the leaf. -/
theorem record_fits {s : State} {T : CodeTree} {p : NodeIdx} (h : HoldsTree s T) (hp : findPending s = some p) (d : Nat)
    (v : Byte) (hcap : s.nodeCnt.toNat + 2 * d ≤ s.params.nodeCap) :
    ∃ q s', expandSpine d p s = (some q, s') ∧
      makeLeaf q v s' = { s with nodes := (makeLeaf q v s').nodes, nodeCnt := (makeLeaf q v s').nodeCnt } ∧
      (makeLeaf q v s').nodeCnt.toNat = s.nodeCnt.toNat + 2 * d ∧
      HoldsTree (makeLeaf q v s') (CodeTree.fillFirst (CodeTree.spine d (.leaf v)) T) := by
  have hpd : p.toNat < s.nodeCnt.toNat ∧ s.node p.toNat = .unset := by
    rcases findPending_holdsTree h with ⟨-, h2⟩ | ⟨-, p', h2, h3, h4⟩
    · simp [h2] at hp
    · rw [h2] at hp
      cases hp
      exact ⟨h3, h4⟩
  obtain ⟨q, s', hsp, hcnt, hq, hqz, hqu, hsame, hhold⟩ := expandSpine_fits d p s hcap hpd.1 hpd.2
  have hfr : s' = { s with nodes := s'.nodes, nodeCnt := s'.nodeCnt } := by
    have := expandSpine_frame d p s
    rwa [hsp] at this
  have hmk : makeLeaf q v s' =
      { s with nodes := (makeLeaf q v s').nodes, nodeCnt := (makeLeaf q v s').nodeCnt } := by
    simp only [makeLeaf, State.setNode]
    rw [hfr]
  refine ⟨q, s', hsp, hmk, by simpa using hcnt, ?_⟩
  obtain ⟨js, hj, hjp⟩ := hhold (makeLeaf q v s') (.leaf v) (fun m hm => by rw [node_makeLeaf, if_neg hm])
    ⟨by rw [node_makeLeaf, if_pos rfl], rfl⟩
  refine holdsTree_fillFirst h hp hj (fun m hm hmp => ?_) hjp (by simpa using hcnt) (by rw [hmk]) (fun m hm => ?_) ?_
  · rw [node_makeLeaf, if_neg (by omega), hsame m hmp (.inl hm)]
  · rw [node_makeLeaf, if_neg (by omega), hsame m (by omega) (.inr hm)]
    exact h.2.1 m (by omega)
  · rw [makeLeaf_nodeCnt, hcnt, hmk]
    exact hcap

/-- The expansions of a record that do not fit stop with NODE_CNT as near NODE_CAP as pairs allow (R92, R144). -/
theorem expandSpine_overflows (d : Nat) (p : NodeIdx) (s : State) (hle : s.nodeCnt.toNat ≤ s.params.nodeCap)
    (h : s.params.nodeCap < s.nodeCnt.toNat + 2 * d) :
    ∃ s', expandSpine d p s = (none, s') ∧
      s'.nodeCnt.toNat = s.nodeCnt.toNat + 2 * ((s.params.nodeCap - s.nodeCnt.toNat) / 2) := by
  induction d generalizing p s with
  | zero => omega
  | succ d ih =>
    by_cases hr : s.nodeCnt.toNat + 2 ≤ s.params.nodeCap
    · obtain ⟨s1, z, o, he, -, -, hs1, hc1, -⟩ := expand_fits p s hr
      have hparams : s1.params = s.params := by rw [hs1]
      obtain ⟨s', h1, h2⟩ := ih z s1 (by rw [hc1, hparams]; omega) (by rw [hc1, hparams]; omega)
      refine ⟨s', by simp only [expandSpine, he]; exact h1, ?_⟩
      rw [h2, hc1, hparams]
      omega
    · refine ⟨s, by simp only [expandSpine, expand_full p s (by omega)], ?_⟩
      omega

/-- One iteration of the deserializer's loop, with the tree incomplete, said whole: the record is cut off; or it is whole and
does not fit; or it is whole, fits, and the loop goes on with the tree grown by its spine (R105). -/
theorem deserializeLoop_step {s : State} {T : CodeTree} (fuel : Nat) (h : HoldsTree s T) (hc : T.complete = false) :
    (recordOf (bitsFrom s) = none ∧
        deserializeLoop (fuel + 1) s = headerFail .truncatedHeader s.cursor (advance (bitsLeft s) s)) ∨
      ∃ d v, recordOf (bitsFrom s) = some (d, v) ∧
        ((s.params.nodeCap < s.nodeCnt.toNat + 2 * d ∧
            ∃ s', s' = { advance (d + 9) s with nodes := s'.nodes, nodeCnt := s'.nodeCnt } ∧
              s'.nodeCnt.toNat = s.nodeCnt.toNat + 2 * ((s.params.nodeCap - s.nodeCnt.toNat) / 2) ∧
              deserializeLoop (fuel + 1) s = headerFail .treeOverflow s'.nodeCnt s') ∨
          (s.nodeCnt.toNat + 2 * d ≤ s.params.nodeCap ∧
            ∃ s', s' = { advance (d + 9) s with nodes := s'.nodes, nodeCnt := s'.nodeCnt } ∧
              s'.nodeCnt.toNat = s.nodeCnt.toNat + 2 * d ∧
              HoldsTree s' (CodeTree.fillFirst (CodeTree.spine d (.leaf v)) T) ∧
              deserializeLoop (fuel + 1) s = deserializeLoop fuel s')) := by
  obtain ⟨p, hp⟩ : ∃ p, findPending s = some p := by
    rcases findPending_holdsTree h with ⟨h1, -⟩ | ⟨-, p, h2, -, -⟩
    · simp [h1] at hc
    · exact ⟨p, h2⟩
  have hrec := readRecord_eq s
  cases hr : recordOf (bitsFrom s) with
  | none =>
    rw [hr] at hrec
    exact .inl ⟨rfl, by simp only [deserializeLoop, hp, hrec]⟩
  | some dv =>
    obtain ⟨d, v⟩ := dv
    rw [hr] at hrec
    refine .inr ⟨d, v, rfl, ?_⟩
    have hadv := holdsTree_advance h (d + 9)
    have hpa : findPending (advance (d + 9) s) = some p := by
      rw [← hp]
      exact findPending_congr (fun _ => rfl) rfl rfl rfl
    by_cases hcap : s.nodeCnt.toNat + 2 * d ≤ s.params.nodeCap
    · obtain ⟨q, s', hsp, hmk, hcnt, hh⟩ := record_fits hadv hpa d v hcap
      exact .inr ⟨hcap, makeLeaf q v s', hmk, hcnt, hh, by simp only [deserializeLoop, hp, hrec, hsp]⟩
    · obtain ⟨s', hsp, hcnt⟩ := expandSpine_overflows d p (advance (d + 9) s) hadv.2.2 (Nat.not_le.mp hcap)
      have hfr := expandSpine_frame d p (advance (d + 9) s)
      rw [hsp] at hfr
      exact .inl ⟨by omega, s', hfr, hcnt, by simp only [deserializeLoop, hp, hrec, hsp]⟩

/-- With no pending node the loop ends. -/
theorem deserializeLoop_complete {s : State} {T : CodeTree} (fuel : Nat) (h : HoldsTree s T) (hc : T.complete = true) :
    deserializeLoop fuel s = .completed s := by
  cases fuel with
  | zero => rfl
  | succ fuel => simp only [deserializeLoop, findPending_of_complete h hc]

/-- The loop on the headers of the trees still to come: it completes, the unset nodes are filled with those trees in order,
and exactly their headers are consumed (R105, R109). -/
theorem deserializeLoop_headers (fuel : Nat) (s : State) (T : CodeTree) (ts : List CodeTree) (rest : List Bool)
    (h : HoldsTree s T) (hu : T.unsets = ts.length) (hts : ∀ u ∈ ts, u.complete = true)
    (hbits : bitsFrom s = CodeTree.headers ts ++ rest) (hcap : s.nodeCnt.toNat + CodeTree.extra ts ≤ s.params.nodeCap)
    (hf : bitsLeft s < fuel) :
    ∃ t, deserializeLoop fuel s = .completed t ∧
      t = { advance (CodeTree.headers ts).length s with nodes := t.nodes, nodeCnt := t.nodeCnt } ∧
      HoldsTree t (T.fillAll ts).1 := by
  induction fuel generalizing s T ts with
  | zero => omega
  | succ fuel ih =>
    cases ts with
    | nil =>
      have hc := (CodeTree.unsets_eq_zero T).mp hu
      refine ⟨s, deserializeLoop_complete _ h hc, by simp [CodeTree.headers], ?_⟩
      rwa [CodeTree.fillAll_complete hc]
    | cons t1 ts =>
      have hc : T.complete = false := by
        by_contra hcon
        have := (CodeTree.unsets_eq_zero T).mpr (by simpa using hcon)
        simp [this] at hu
      have ht1 : t1.complete = true := hts t1 (by simp)
      have hhead := CodeTree.header_leftSpine ht1
      have hsz := CodeTree.leftSpine_size t1
      have hheads : CodeTree.headers (t1 :: ts) =
          List.replicate t1.leftSpine.1 true ++ (false :: (bitsOfByte t1.leftSpine.2.1 ++
            CodeTree.headers (t1.leftSpine.2.2 ++ ts))) := by
        simp only [CodeTree.headers, List.map_cons, List.flatten_cons, hhead, List.map_append, List.flatten_append,
          List.append_assoc, List.cons_append]
      have hrec : recordOf (bitsFrom s) = some (t1.leftSpine.1, t1.leftSpine.2.1) := by
        rw [hbits, hheads]
        simp only [List.append_assoc, List.cons_append]
        exact recordOf_append ..
      have hextra : CodeTree.extra (t1 :: ts) = 2 * t1.leftSpine.1 + CodeTree.extra (t1.leftSpine.2.2 ++ ts) := by
        simp only [CodeTree.extra, List.map_cons, List.sum_cons, List.map_append, List.sum_append] at hsz ⊢
        omega
      have hlen : t1.leftSpine.1 + 9 ≤ bitsLeft s := by
        have := recordOf_length hrec
        simpa using this
      rcases deserializeLoop_step fuel h hc with ⟨hn, -⟩ | ⟨d, v, hs, hor⟩
      · simp [hrec] at hn
      · rw [hrec] at hs
        obtain ⟨rfl, rfl⟩ : t1.leftSpine.1 = d ∧ t1.leftSpine.2.1 = v := by simpa using hs
        rcases hor with ⟨hbad, -⟩ | ⟨-, s', hs', hcnt, hh, hstep⟩
        · omega
        · have hfrom : bitsFrom s' = CodeTree.headers (t1.leftSpine.2.2 ++ ts) ++ rest := by
            have h1 : bitsFrom s' = bitsFrom (advance (t1.leftSpine.1 + 9) s) :=
              bitsFrom_congr (by rw [hs']) (by rw [hs']) (by rw [hs']) (by rw [hs'])
            rw [h1, bitsFrom_advance hlen, hbits, hheads]
            have : List.replicate t1.leftSpine.1 true ++ (false :: (bitsOfByte t1.leftSpine.2.1 ++
                CodeTree.headers (t1.leftSpine.2.2 ++ ts))) ++ rest =
                (List.replicate t1.leftSpine.1 true ++ (false :: bitsOfByte t1.leftSpine.2.1)) ++
                  (CodeTree.headers (t1.leftSpine.2.2 ++ ts) ++ rest) := by simp
            rw [this]
            exact List.drop_left' (by simp [bitsOfByte_length])
          have hleft : bitsLeft s' = bitsLeft s - (t1.leftSpine.1 + 9) := by
            rw [← bitsLeft_advance hlen]
            simp only [bitsLeft]
            rw [hs']
          have hparams : s'.params = s.params := by rw [hs']; rfl
          obtain ⟨t, h1, h2, h3⟩ := ih s' _ (t1.leftSpine.2.2 ++ ts) hh
            (by
              have := CodeTree.unsets_fillFirst hc (CodeTree.spine t1.leftSpine.1 (.leaf t1.leftSpine.2.1))
              rw [CodeTree.unsets_spine] at this
              have h4 := CodeTree.leftSpine_length t1
              simp only [List.length_cons] at hu
              simp only [List.length_append]
              omega)
            (fun u hu' => by
              rcases List.mem_append.mp hu' with hu' | hu'
              · exact CodeTree.leftSpine_complete ht1 u hu'
              · exact hts u (by simp [hu']))
            hfrom (by rw [hcnt, hparams]; omega) (by omega)
          refine ⟨t, by rw [hstep, h1], ?_, ?_⟩
          · rw [h2, hs']
            have : (CodeTree.headers (t1 :: ts)).length =
                t1.leftSpine.1 + 9 + (CodeTree.headers (t1.leftSpine.2.2 ++ ts)).length := by
              rw [hheads]
              simp [bitsOfByte_length]
              omega
            rw [this]
            have := advance_advance (CodeTree.headers (t1.leftSpine.2.2 ++ ts)).length (t1.leftSpine.1 + 9) s
            rw [← this]
            rfl
          · rw [CodeTree.fillAll_fillFirst hc, CodeTree.fillAll_spine ht1] at h3
            exact h3

/-! ### A header that is cut off -/

/-- The leaf records of the trees of a list. -/
def recordsOf (ts : List CodeTree) : List (List Bool) := (ts.map CodeTree.records).flatten

theorem recordOf_cut (d : Nat) (v : Byte) (tail : List Bool)
    (hp : tail <+: List.replicate d true ++ (false :: bitsOfByte v)) (hlt : tail.length < d + 9) :
    recordOf tail = none := by
  induction d generalizing tail with
  | zero =>
    cases tail with
    | nil => rfl
    | cons b rest =>
      obtain ⟨rfl, -⟩ := List.cons_prefix_cons.mp (by simpa using hp)
      simp only [List.length_cons] at hlt
      simp [recordOf]
      omega
  | succ d ih =>
    cases tail with
    | nil => rfl
    | cons b rest =>
      rw [List.replicate_succ, List.cons_append] at hp
      obtain ⟨rfl, hp'⟩ := List.cons_prefix_cons.mp hp
      have := ih rest hp' (by simp only [List.length_cons] at hlt; omega)
      simp only [recordOf, List.dropWhile_cons, List.takeWhile_cons, id, if_true, List.length_cons] at this ⊢
      split at this
      · rfl
      · split at this
        · simp_all
        · simp at this

/-- How many expansions the records ask for: the ones in front of each. -/
def expansions (rs : List (List Bool)) : Nat := (rs.map (fun x => x.length - 9)).sum

/-- The loop on the first `j` records of headers still to come, whole and fitting: they are consumed, the tree has grown, and
the records that follow are those of the trees then still to come (R105). -/
theorem deserializeLoop_records (j : Nat) (fuel : Nat) (s : State) (T : CodeTree) (ts : List CodeTree) (rest : List Bool)
    (h : HoldsTree s T) (hu : T.unsets = ts.length) (hts : ∀ u ∈ ts, u.complete = true) (hj : j ≤ (recordsOf ts).length)
    (hbits : bitsFrom s = ((recordsOf ts).take j).flatten ++ rest)
    (hcap : s.nodeCnt.toNat + 2 * expansions ((recordsOf ts).take j) ≤ s.params.nodeCap) (hf : bitsLeft s < fuel) :
    ∃ t T' ts' fuel', deserializeLoop fuel s = deserializeLoop fuel' t ∧ bitsLeft t < fuel' ∧
      t = { advance ((recordsOf ts).take j).flatten.length s with nodes := t.nodes, nodeCnt := t.nodeCnt } ∧
      HoldsTree t T' ∧ T'.unsets = ts'.length ∧ (∀ u ∈ ts', u.complete = true) ∧
      recordsOf ts' = (recordsOf ts).drop j ∧
      t.nodeCnt.toNat = s.nodeCnt.toNat + 2 * expansions ((recordsOf ts).take j) ∧ bitsFrom t = rest := by
  induction j generalizing fuel s T ts with
  | zero => exact ⟨s, T, ts, fuel, rfl, hf, by simp, h, hu, hts, rfl, by simp [expansions], by simpa using hbits⟩
  | succ j ih =>
    obtain ⟨fuel, rfl⟩ : ∃ k, fuel = k + 1 := ⟨fuel - 1, by omega⟩
    cases ts with
    | nil => simp [recordsOf] at hj
    | cons t1 ts =>
      have hc : T.complete = false := by
        by_contra hcon
        have := (CodeTree.unsets_eq_zero T).mpr (by simpa using hcon)
        simp [this] at hu
      have ht1 : t1.complete = true := hts t1 (by simp)
      have hrecs : recordsOf (t1 :: ts) =
          (List.replicate t1.leftSpine.1 true ++ (false :: bitsOfByte t1.leftSpine.2.1)) ::
            recordsOf (t1.leftSpine.2.2 ++ ts) := by
        simp [recordsOf, CodeTree.records_leftSpine ht1]
      have hlen9 : (List.replicate t1.leftSpine.1 true ++ (false :: bitsOfByte t1.leftSpine.2.1)).length =
          t1.leftSpine.1 + 9 := by simp [bitsOfByte_length]
      rw [hrecs] at hj hbits hcap ⊢
      simp only [List.take_succ_cons, List.flatten_cons, List.append_assoc, List.cons_append] at hbits
      have hexp : expansions ((List.replicate t1.leftSpine.1 true ++ (false :: bitsOfByte t1.leftSpine.2.1)) ::
          (recordsOf (t1.leftSpine.2.2 ++ ts)).take j) =
          t1.leftSpine.1 + expansions ((recordsOf (t1.leftSpine.2.2 ++ ts)).take j) := by
        simp only [expansions, List.map_cons, List.sum_cons, hlen9, Nat.add_sub_cancel]
      rw [List.take_succ_cons, hexp] at hcap
      have hrec : recordOf (bitsFrom s) = some (t1.leftSpine.1, t1.leftSpine.2.1) := by
        rw [hbits]
        exact recordOf_append ..
      have hlen : t1.leftSpine.1 + 9 ≤ bitsLeft s := by
        have := recordOf_length hrec
        simpa using this
      rcases deserializeLoop_step fuel h hc with ⟨hn, -⟩ | ⟨d, v, hs, hor⟩
      · simp [hrec] at hn
      · rw [hrec] at hs
        obtain ⟨rfl, rfl⟩ : t1.leftSpine.1 = d ∧ t1.leftSpine.2.1 = v := by simpa using hs
        rcases hor with ⟨hbad, -⟩ | ⟨-, s', hs', hcnt, hh, hstep⟩
        · omega
        · have hfrom : bitsFrom s' = ((recordsOf (t1.leftSpine.2.2 ++ ts)).take j).flatten ++ rest := by
            have h1 : bitsFrom s' = bitsFrom (advance (t1.leftSpine.1 + 9) s) :=
              bitsFrom_congr (by rw [hs']) (by rw [hs']) (by rw [hs']) (by rw [hs'])
            rw [h1, bitsFrom_advance hlen, hbits]
            have : List.replicate t1.leftSpine.1 true ++ (false :: (bitsOfByte t1.leftSpine.2.1 ++
                (((recordsOf (t1.leftSpine.2.2 ++ ts)).take j).flatten ++ rest))) =
                (List.replicate t1.leftSpine.1 true ++ (false :: bitsOfByte t1.leftSpine.2.1)) ++
                  (((recordsOf (t1.leftSpine.2.2 ++ ts)).take j).flatten ++ rest) := by simp
            rw [this]
            exact List.drop_left' hlen9
          have hleft : bitsLeft s' = bitsLeft s - (t1.leftSpine.1 + 9) := by
            rw [← bitsLeft_advance hlen]
            simp only [bitsLeft]
            rw [hs']
          have hparams : s'.params = s.params := by rw [hs']; rfl
          obtain ⟨t, T', ts', fuel', h1, h2, h3, h4, h5, h6, h7, h8, h9⟩ := ih fuel s' _ (t1.leftSpine.2.2 ++ ts) hh
            (by
              have := CodeTree.unsets_fillFirst hc (CodeTree.spine t1.leftSpine.1 (.leaf t1.leftSpine.2.1))
              rw [CodeTree.unsets_spine] at this
              have h4 := CodeTree.leftSpine_length t1
              simp only [List.length_cons] at hu
              simp only [List.length_append]
              omega)
            (fun u hu' => by
              rcases List.mem_append.mp hu' with hu' | hu'
              · exact CodeTree.leftSpine_complete ht1 u hu'
              · exact hts u (by simp [hu']))
            (by simpa using hj) hfrom (by rw [hcnt, hparams]; omega) (by omega)
          refine ⟨t, T', ts', fuel', by rw [hstep, h1], h2, ?_, h4, h5, h6, by rw [h7]; rfl, ?_, h9⟩
          · rw [h3, hs', List.take_succ_cons, List.flatten_cons, List.length_append, hlen9,
              ← advance_advance ((recordsOf (t1.leftSpine.2.2 ++ ts)).take j).flatten.length (t1.leftSpine.1 + 9) s]
            rfl
          · rw [h8, hcnt, List.take_succ_cons, hexp]
            omega

/-- The loop on headers that are cut off inside a leaf record: TruncatedHeader with the start of that record (R105, R132). -/
theorem deserializeLoop_cut (fuel : Nat) (s : State) (T : CodeTree) (ts : List CodeTree) (j : Nat) (tail r : List Bool)
    (h : HoldsTree s T) (hu : T.unsets = ts.length) (hts : ∀ u ∈ ts, u.complete = true)
    (hbits : bitsFrom s = ((recordsOf ts).take j).flatten ++ tail) (hj : (recordsOf ts)[j]? = some r)
    (htail : tail <+: r) (hlt : tail.length < r.length)
    (hcap : s.nodeCnt.toNat + 2 * expansions ((recordsOf ts).take j) ≤ s.params.nodeCap) (hf : bitsLeft s < fuel) :
    ∃ t, deserializeLoop fuel s =
        headerFail .truncatedHeader (s.cursor + BitVec.ofNat 32 ((recordsOf ts).take j).flatten.length) t ∧
      t = { advance (bitsLeft s) s with nodes := t.nodes, nodeCnt := t.nodeCnt } := by
  have hjlt : j < (recordsOf ts).length := (List.getElem?_eq_some_iff.mp hj).1
  have hleftk : ((recordsOf ts).take j).flatten.length ≤ bitsLeft s := by
    rw [← bitsFrom_length, hbits, List.length_append]
    omega
  obtain ⟨t, T', ts', fuel', h1, h2, h3, h4, h5, h6, h7, h8, h9⟩ :=
    deserializeLoop_records j fuel s T ts tail h hu hts (by omega) hbits hcap hf
  obtain ⟨fuel', rfl⟩ : ∃ k, fuel' = k + 1 := ⟨fuel' - 1, by omega⟩
  cases ts' with
  | nil =>
    have h10 := congrArg List.length h7
    rw [List.length_drop] at h10
    have h11 : (recordsOf []).length = 0 := rfl
    omega
  | cons t1 ts' =>
    have hc : T'.complete = false := by
      by_contra hcon
      have := (CodeTree.unsets_eq_zero T').mpr (by simpa using hcon)
      simp [this] at h5
    have ht1 : t1.complete = true := h6 t1 (by simp)
    have hr : r = List.replicate t1.leftSpine.1 true ++ (false :: bitsOfByte t1.leftSpine.2.1) := by
      have h10 : (recordsOf (t1 :: ts'))[0]? = some r := by rw [h7, List.getElem?_drop]; simpa using hj
      simpa [recordsOf, CodeTree.records_leftSpine ht1, eq_comm] using h10
    subst hr
    have hn : recordOf (bitsFrom t) = none := by
      rw [h9]
      exact recordOf_cut _ _ _ htail (by simpa [bitsOfByte_length] using hlt)
    have hleft : bitsLeft t = bitsLeft s - ((recordsOf ts).take j).flatten.length := by
      rw [← bitsLeft_advance hleftk]
      simp only [bitsLeft]
      rw [h3]
    rcases deserializeLoop_step fuel' h4 hc with ⟨-, hstep⟩ | ⟨d, v, hs, -⟩
    · refine ⟨advance (bitsLeft t) t, ?_, ?_⟩
      · rw [h1, hstep]
        congr 1
        rw [h3]
        rfl
      · have := advance_advance (bitsLeft t) ((recordsOf ts).take j).flatten.length s
        rw [show ((recordsOf ts).take j).flatten.length + bitsLeft t = bitsLeft s by omega] at this
        rw [← this]
        generalize bitsLeft t = k
        rw [h3]
        rfl
    · simp [hn] at hs

/-- The loop on headers whose record `j` is whole and does not fit: TreeOverflow with the NODE_CNT reached, CURSOR after the
record (R105, R144). -/
theorem deserializeLoop_overflow (fuel : Nat) (s : State) (T : CodeTree) (ts : List CodeTree) (j : Nat) (rest : List Bool)
    (h : HoldsTree s T) (hu : T.unsets = ts.length) (hts : ∀ u ∈ ts, u.complete = true) (hj : j < (recordsOf ts).length)
    (hbits : bitsFrom s = ((recordsOf ts).take (j + 1)).flatten ++ rest)
    (hcap : s.nodeCnt.toNat + 2 * expansions ((recordsOf ts).take j) ≤ s.params.nodeCap)
    (hover : s.params.nodeCap < s.nodeCnt.toNat + 2 * expansions ((recordsOf ts).take (j + 1))) (hf : bitsLeft s < fuel) :
    ∃ t, deserializeLoop fuel s = headerFail .treeOverflow (BitVec.ofNat 32 s.params.nodeCap) t ∧
      t = { advance ((recordsOf ts).take (j + 1)).flatten.length s with nodes := t.nodes, nodeCnt := t.nodeCnt } := by
  have htake : (recordsOf ts).take (j + 1) = (recordsOf ts).take j ++ [(recordsOf ts)[j]] :=
    (List.take_concat_get' _ _ hj).symm
  rw [htake] at hbits hover ⊢
  simp only [List.flatten_append, List.flatten_cons, List.flatten_nil, List.append_nil, List.append_assoc] at hbits
  have hexp : ∀ (a b : List (List Bool)), expansions (a ++ b) = expansions a + expansions b := by
    intro a b
    simp only [expansions, List.map_append, List.sum_append]
  rw [hexp] at hover
  obtain ⟨t, T', ts', fuel', h1, h2, h3, h4, h5, h6, h7, h8, h9⟩ :=
    deserializeLoop_records j fuel s T ts _ h hu hts (by omega) hbits hcap hf
  obtain ⟨fuel', rfl⟩ : ∃ k, fuel' = k + 1 := ⟨fuel' - 1, by omega⟩
  have hparams : t.params = s.params := by rw [h3]; rfl
  cases ts' with
  | nil =>
    have h10 := congrArg List.length h7
    rw [List.length_drop] at h10
    have h11 : (recordsOf []).length = 0 := rfl
    omega
  | cons t1 ts' =>
    have hc : T'.complete = false := by
      by_contra hcon
      have := (CodeTree.unsets_eq_zero T').mpr (by simpa using hcon)
      simp [this] at h5
    have ht1 : t1.complete = true := h6 t1 (by simp)
    have hr : (recordsOf ts)[j] = List.replicate t1.leftSpine.1 true ++ (false :: bitsOfByte t1.leftSpine.2.1) := by
      have h10 : (recordsOf (t1 :: ts'))[0]? = some (recordsOf ts)[j] := by rw [h7, List.getElem?_drop]; simp [hj]
      simpa [recordsOf, CodeTree.records_leftSpine ht1, eq_comm] using h10
    rw [hr] at h9 hover ⊢
    have hrec : recordOf (bitsFrom t) = some (t1.leftSpine.1, t1.leftSpine.2.1) := by
      rw [h9, List.append_assoc, List.cons_append]
      exact recordOf_append ..
    have hone : expansions [List.replicate t1.leftSpine.1 true ++ (false :: bitsOfByte t1.leftSpine.2.1)] =
        t1.leftSpine.1 := by simp [expansions, bitsOfByte_length]
    rw [hone] at hover
    rcases deserializeLoop_step fuel' h4 hc with ⟨hn, -⟩ | ⟨d, v, hs, hor⟩
    · simp [hrec] at hn
    · rw [hrec] at hs
      obtain ⟨rfl, rfl⟩ : t1.leftSpine.1 = d ∧ t1.leftSpine.2.1 = v := by simpa using hs
      rcases hor with ⟨-, s', hs', hcnt, hstep⟩ | ⟨hok, -⟩
      · refine ⟨s', ?_, ?_⟩
        · rw [h1, hstep]
          congr 1
          apply BitVec.eq_of_toNat_eq
          have hodd : t.nodeCnt.toNat % 2 = 1 := by rw [← holdsTree_size h4]; exact T'.size_odd
          have hcapodd := s.params.nodeCap_range
          have hle := h4.2.2
          rw [hparams] at hcnt hle
          rw [BitVec.toNat_ofNat, hcnt]
          omega
        · rw [hs', List.flatten_append, List.length_append]
          have hl : [List.replicate t1.leftSpine.1 true ++ (false :: bitsOfByte t1.leftSpine.2.1)].flatten.length =
              t1.leftSpine.1 + 9 := by simp [bitsOfByte_length]
          rw [hl, ← advance_advance (t1.leftSpine.1 + 9) ((recordsOf ts).take j).flatten.length s]
          generalize t1.leftSpine.1 + 9 = k
          rw [h3]
          rfl
      · rw [hparams, h8] at hok
        omega

/-! ### Any bits -/

theorem fillAll_spine_any (d : Nat) (v : Byte) (ts : List CodeTree) (hlen : d ≤ ts.length)
    (hts : ∀ u ∈ ts, u.complete = true) :
    ∃ x, (CodeTree.spine d (.leaf v)).fillAll ts = (x, ts.drop d) ∧ x.complete = true ∧
      x.header = List.replicate d true ++ (false :: (bitsOfByte v ++ CodeTree.headers (ts.take d))) := by
  induction d with
  | zero => exact ⟨.leaf v, rfl, rfl, by simp [CodeTree.header, CodeTree.headers]⟩
  | succ d ih =>
    obtain ⟨x, h1, h2, h3⟩ := ih (by omega)
    have hd : ts.drop d = ts[d] :: ts.drop (d + 1) := List.drop_eq_getElem_cons (by omega)
    refine ⟨.node x ts[d], ?_, ?_, ?_⟩
    · simp only [CodeTree.spine, CodeTree.fillAll, h1, hd]
    · simp [CodeTree.complete, h2, hts ts[d] (List.getElem_mem _)]
    · have htk : ts.take (d + 1) = ts.take d ++ [ts[d]] := (List.take_append_getElem (by omega)).symm
      rw [htk]
      simp only [CodeTree.header, h3, List.replicate_succ, CodeTree.headers, List.map_append, List.flatten_append, List.map_cons,
        List.map_nil, List.flatten_cons, List.flatten_nil, List.append_nil, List.cons_append, List.append_assoc]

/-- What the front of a bit sequence is when a record stands there. -/
theorem take_of_recordOf {l : List Bool} {d : Nat} {v : Byte} (h : recordOf l = some (d, v)) :
    l.take (d + 9) = List.replicate d true ++ (false :: bitsOfByte v) := by
  have hsplit := List.takeWhile_append_dropWhile (p := id) (l := l)
  have hall : ∀ b ∈ l.takeWhile id, b = true := fun b hb => by simpa using List.mem_takeWhile_imp hb
  have hhead : ∀ b r, l.dropWhile id = b :: r → b = false := by
    intro b r hb
    have := List.head?_dropWhile_not id l
    rw [hb] at this
    simpa using this
  simp only [recordOf] at h
  generalize l.takeWhile id = tw at *
  split at h
  · cases h
  · rename_i b rest heq
    split at h
    · cases h
    · rename_i h8
      simp only [Option.some.injEq, Prod.mk.injEq] at h
      obtain ⟨rfl, rfl⟩ := h
      have hrep : tw = List.replicate tw.length true := List.eq_replicate_iff.mpr ⟨rfl, hall⟩
      have hb := hhead _ _ heq
      subst hb
      rw [← hsplit, heq, List.take_append, ← hrep]
      have hlen : tw.length + 9 - tw.length = 9 := by omega
      rw [hlen, List.take_of_length_le (by omega), List.take_succ_cons]
      congr 2
      exact (bitsOfByte_byteOfBits (by omega)).symm

/-- The loop on any bits: it completes with a complete tree, having consumed exactly the headers that fill the tree's unset
nodes; or the header fails, truncated with CURSOR at the end, or too big for the arena (R105, R109(b), R149). -/
theorem deserializeLoop_any (fuel : Nat) (s : State) (T : CodeTree) (h : HoldsTree s T) (hf : bitsLeft s < fuel) :
    (∃ t U k ts, deserializeLoop fuel s = .completed t ∧ k ≤ bitsLeft s ∧
        t = { advance k s with nodes := t.nodes, nodeCnt := t.nodeCnt } ∧ HoldsTree t U ∧ U.complete = true ∧
        T.fillAll ts = (U, []) ∧ ts.length = T.unsets ∧ (∀ u ∈ ts, u.complete = true) ∧
        (bitsFrom s).take k = CodeTree.headers ts) ∨
      (∃ t info, deserializeLoop fuel s = headerFail .truncatedHeader info t ∧
        t = { advance (bitsLeft s) s with nodes := t.nodes, nodeCnt := t.nodeCnt }) ∨
      (∃ t k, deserializeLoop fuel s = headerFail .treeOverflow (BitVec.ofNat 32 s.params.nodeCap) t ∧ k ≤ bitsLeft s ∧
        t = { advance k s with nodes := t.nodes, nodeCnt := t.nodeCnt }) := by
  induction fuel generalizing s T with
  | zero => omega
  | succ fuel ih =>
    by_cases hc : T.complete = true
    · refine .inl ⟨s, T, 0, [], deserializeLoop_complete _ h hc, by omega, by simp, h, hc, CodeTree.fillAll_complete hc [], ?_,
        by simp, by simp [CodeTree.headers]⟩
      simpa using ((CodeTree.unsets_eq_zero T).mpr hc).symm
    · have hc' : T.complete = false := by simpa using hc
      rcases deserializeLoop_step fuel h hc' with ⟨-, hstep⟩ | ⟨d, v, hrec, hor⟩
      · exact .inr (.inl ⟨_, _, hstep, rfl⟩)
      · have hlen : d + 9 ≤ bitsLeft s := by
          have := recordOf_length hrec
          simpa using this
        rcases hor with ⟨hbad, s', hs', hcnt, hstep⟩ | ⟨-, s', hs', hcnt, hh, hstep⟩
        · refine .inr (.inr ⟨s', d + 9, ?_, hlen, hs'⟩)
          rw [hstep]
          congr 1
          have h1 := holdsTree_size h
          have h2 := T.size_odd
          have h3 := s.params.nodeCap_range.2.2
          have h4 := h.2.2
          have h5 := nodeCap_lt s
          apply BitVec.eq_of_toNat_eq
          rw [hcnt, BitVec.toNat_ofNat]
          omega
        · have hfrom : bitsFrom s' = (bitsFrom s).drop (d + 9) := by
            rw [← bitsFrom_advance hlen]
            exact bitsFrom_congr (by rw [hs']) (by rw [hs']) (by rw [hs']) (by rw [hs'])
          have hleft : bitsLeft s' = bitsLeft s - (d + 9) := by
            rw [← bitsLeft_advance hlen]
            simp only [bitsLeft]
            rw [hs']
          have hadv : ∀ k, k ≤ bitsLeft s' → ∀ t : State,
              t = { advance k s' with nodes := t.nodes, nodeCnt := t.nodeCnt } →
              t = { advance (d + 9 + k) s with nodes := t.nodes, nodeCnt := t.nodeCnt } := by
            intro k _ t ht
            rw [ht, hs', ← advance_advance k (d + 9) s]
            rfl
          rcases ih s' _ hh (by omega) with ⟨t, U, k, ts, h1, h2, h3, h4, h5, h6, h7, h8, h9⟩ | ⟨t, info, h1, h2⟩ |
              ⟨t, k, h1, h2, h3⟩
          · have hun := CodeTree.unsets_fillFirst hc' (CodeTree.spine d (.leaf v))
            rw [CodeTree.unsets_spine] at hun
            have hpos : 0 < T.unsets := by
              by_contra hcon
              have := (CodeTree.unsets_eq_zero T).mp (by omega)
              simp [this] at hc
            obtain ⟨x, hx1, hx2, hx3⟩ := fillAll_spine_any d v ts (by omega) h8
            refine .inl ⟨t, U, d + 9 + k, x :: ts.drop d, by rw [hstep, h1], by omega, hadv k h2 t h3, h4, h5, ?_, ?_, ?_, ?_⟩
            · rw [CodeTree.fillAll_fillFirst hc', hx1] at h6
              exact h6
            · simp only [List.length_cons, List.length_drop]
              omega
            · intro u hu
              rcases List.mem_cons.mp hu with rfl | hu
              · exact hx2
              · exact h8 u (List.mem_of_mem_drop hu)
            · have htake := take_of_recordOf hrec
              rw [hfrom] at h9
              rw [List.take_add, htake, h9]
              have hsplit : CodeTree.headers ts = CodeTree.headers (ts.take d) ++ CodeTree.headers (ts.drop d) := by
                simp only [CodeTree.headers, ← List.flatten_append, ← List.map_append, List.take_append_drop]
              rw [hsplit]
              simp only [CodeTree.headers, List.map_cons, List.flatten_cons, hx3, List.append_assoc, List.cons_append]
          · refine .inr (.inl ⟨t, info, by rw [hstep, h1], ?_⟩)
            have := hadv _ (Nat.le_refl _) t h2
            rwa [show d + 9 + bitsLeft s' = bitsLeft s by omega] at this
          · refine .inr (.inr ⟨t, d + 9 + k, ?_, by omega, hadv k h2 t h3⟩)
            rw [hstep, h1]
            congr 2
            rw [hs']
            rfl

/-! ### The whole deserializer -/

theorem add_sub_cancel_word (a b : Word) : a + b - a = b := by
  rw [BitVec.add_comm, BitVec.add_sub_cancel]

theorem bitsLeft_treeInit (s : State) : bitsLeft (treeInit s) = bitsLeft s := rfl

theorem bitsFrom_treeInit (s : State) : bitsFrom (treeInit s) = bitsFrom s := bitsFrom_congr rfl rfl rfl rfl

/-- HDR_LEN is the number of bits consumed (R105). -/
theorem deserialize_hdrLen {s t : State} {k : Nat}
    (h : t = { advance k (treeInit s) with nodes := t.nodes, nodeCnt := t.nodeCnt }) :
    ({ t with hdrLen := t.cursor - s.cursor } : State) =
      { advance k s with nodes := t.nodes, nodeCnt := t.nodeCnt, root := 0, hdrLen := BitVec.ofNat 32 k } := by
  have hcur : t.cursor = s.cursor + BitVec.ofNat 32 k := by rw [h]; rfl
  have hsub : t.cursor - s.cursor = BitVec.ofNat 32 k := by rw [hcur, add_sub_cancel_word]
  rw [hsub, h]
  rfl

/-- `deserialize_body` on the header of a tree that fits: the arena holds the tree, exactly the header is consumed (R105,
R109(a)). -/
theorem deserializeRun_header {s : State} {T : CodeTree} {rest : List Bool} (hc : T.complete = true)
    (hcap : T.size ≤ s.params.nodeCap) (hbits : bitsFrom s = T.header ++ rest) :
    ∃ t, deserializeRun s = .completed t ∧
      t = { advance T.header.length s with
            nodes := t.nodes, nodeCnt := t.nodeCnt, root := 0, hdrLen := BitVec.ofNat 32 T.header.length } ∧
      HoldsTree t T := by
  have hpos := T.size_pos
  have hcnt : (treeInit s).nodeCnt.toNat = 1 := rfl
  obtain ⟨t, h1, h2, h3⟩ := deserializeLoop_headers (bitsLeft s + 1) (treeInit s) .unset [T] rest (holdsTree_treeInit s) rfl
    (by simpa using hc) (by rw [bitsFrom_treeInit, hbits]; simp [CodeTree.headers])
    (by simp only [hcnt, treeInit_params, CodeTree.extra, List.map_cons, List.map_nil, List.sum_cons, List.sum_nil]; omega)
    (by rw [bitsLeft_treeInit]; omega)
  refine ⟨{ t with hdrLen := t.cursor - s.cursor }, by simp only [deserializeRun, h1], ?_,
    holdsTree_congr h3 (fun _ => rfl) rfl rfl rfl⟩
  have hk : (CodeTree.headers [T]).length = T.header.length := by simp [CodeTree.headers]
  rw [hk] at h2
  exact deserialize_hdrLen h2

/-- `deserialize_body` on any bits (R105, R107, R109(b), R149). -/
theorem deserializeRun_any (s : State) :
    (∃ t T, deserializeRun s = .completed t ∧ T.complete = true ∧ HoldsTree t T ∧ T.header.length ≤ bitsLeft s ∧
        (bitsFrom s).take T.header.length = T.header ∧
        t = { advance T.header.length s with
              nodes := t.nodes, nodeCnt := t.nodeCnt, root := 0, hdrLen := BitVec.ofNat 32 T.header.length }) ∨
      (∃ info, deserializeRun s = .raised .truncatedHeader info
        { advance (bitsLeft s) s with nodes := [], nodeCnt := 0, root := 0, hdrLen := 0 }) ∨
      (∃ k, k ≤ bitsLeft s ∧ deserializeRun s = .raised .treeOverflow (BitVec.ofNat 32 s.params.nodeCap)
        { advance k s with nodes := [], nodeCnt := 0, root := 0, hdrLen := 0 }) := by
  have hclear : ∀ (k : Nat) (t : State), t = { advance k (treeInit s) with nodes := t.nodes, nodeCnt := t.nodeCnt } →
      ({ arenaClear t with hdrLen := 0 } : State) =
        { advance k s with nodes := [], nodeCnt := 0, root := 0, hdrLen := 0 } := by
    intro k t ht
    rw [ht]
    rfl
  rcases deserializeLoop_any (bitsLeft s + 1) (treeInit s) .unset (holdsTree_treeInit s)
      (by rw [bitsLeft_treeInit]; omega) with ⟨t, U, k, ts, h1, h2, h3, h4, h5, h6, h7, h8, h9⟩ | ⟨t, info, h1, h2⟩ |
      ⟨t, k, h1, h2, h3⟩
  · match ts, h7 with
    | [x], _ =>
      obtain rfl : x = U := by simpa [CodeTree.fillAll] using h6
      rw [bitsFrom_treeInit] at h9
      rw [bitsLeft_treeInit] at h2
      simp only [CodeTree.headers, List.map_cons, List.map_nil, List.flatten_cons, List.flatten_nil, List.append_nil] at h9
      have hk : k = x.header.length := by
        rw [← h9, List.length_take, bitsFrom_length]
        omega
      subst hk
      refine .inl ⟨{ t with hdrLen := t.cursor - s.cursor }, x, by simp only [deserializeRun, h1], h5,
        holdsTree_congr h4 (fun _ => rfl) rfl rfl rfl, h2, h9,
        deserialize_hdrLen h3⟩
  · refine .inr (.inl ⟨info, ?_⟩)
    simp only [deserializeRun, h1, headerFail]
    rw [hclear _ t h2]
    rfl
  · refine .inr (.inr ⟨k, h2, ?_⟩)
    simp only [deserializeRun, h1, headerFail]
    rw [hclear _ t h3]
    rfl

/-- `deserialize_body` on a header cut off inside a leaf record (R105, R132): `j` records are whole, and `tail` is a proper
part of the next. -/
theorem deserializeRun_cut {s : State} {T : CodeTree} {j : Nat} {tail r : List Bool} (hc : T.complete = true)
    (hcap : 1 + 2 * expansions (T.records.take j) ≤ s.params.nodeCap)
    (hbits : bitsFrom s = (T.records.take j).flatten ++ tail)
    (hj : T.records[j]? = some r) (htail : tail <+: r) (hlt : tail.length < r.length) :
    deserializeRun s =
      .raised .truncatedHeader (s.cursor + BitVec.ofNat 32 (T.records.take j).flatten.length)
        { advance (bitsLeft s) s with nodes := [], nodeCnt := 0, root := 0, hdrLen := 0 } := by
  have hcnt : (treeInit s).nodeCnt.toNat = 1 := rfl
  have hrecs : recordsOf [T] = T.records := by simp [recordsOf]
  obtain ⟨t, h1, h2⟩ := deserializeLoop_cut (bitsLeft s + 1) (treeInit s) .unset [T] j tail r (holdsTree_treeInit s) rfl
    (by simpa using hc) (by rw [bitsFrom_treeInit, hbits, hrecs]) (by rw [hrecs]; exact hj) htail hlt
    (by rw [hcnt, treeInit_params, hrecs]; exact hcap) (by rw [bitsLeft_treeInit]; omega)
  rw [hrecs] at h1
  simp only [deserializeRun, h1, headerFail]
  rw [h2]
  rfl

/-- `deserialize_body` on a header whose record `j` is whole and does not fit (R105, R144). -/
theorem deserializeRun_overflow {s : State} {T : CodeTree} {j : Nat} {rest : List Bool} (hc : T.complete = true)
    (hj : j < T.records.length) (hbits : bitsFrom s = (T.records.take (j + 1)).flatten ++ rest)
    (hcap : 1 + 2 * expansions (T.records.take j) ≤ s.params.nodeCap)
    (hover : s.params.nodeCap < 1 + 2 * expansions (T.records.take (j + 1))) :
    deserializeRun s =
      .raised .treeOverflow (BitVec.ofNat 32 s.params.nodeCap)
        { advance (T.records.take (j + 1)).flatten.length s with nodes := [], nodeCnt := 0, root := 0, hdrLen := 0 } := by
  have hcnt : (treeInit s).nodeCnt.toNat = 1 := rfl
  have hrecs : recordsOf [T] = T.records := by simp [recordsOf]
  obtain ⟨t, h1, h2⟩ := deserializeLoop_overflow (bitsLeft s + 1) (treeInit s) .unset [T] j rest (holdsTree_treeInit s) rfl
    (by simpa using hc) (by rw [hrecs]; exact hj) (by rw [bitsFrom_treeInit, hbits, hrecs])
    (by rw [hcnt, treeInit_params, hrecs]; exact hcap) (by rw [hcnt, treeInit_params, hrecs]; exact hover)
    (by rw [bitsLeft_treeInit]; omega)
  rw [hrecs] at h2
  simp only [deserializeRun, h1, headerFail]
  rw [h2]
  rfl

end Sys2Proof.Machine
end

