-- ==== Sys2Proof/Laws/Payload.lean ====
section
/-! SUPPORT. The payload: the encoder's loop appends the code paths of the block, the decoder's loop cuts the bits into walks
from the root to a leaf and a rest. -/

namespace Sys2Proof

/-! ### Walks -/

theorem CodeTree.walk_append (t : CodeTree) (l r : List Bool) : t.walk (l ++ r) = (t.walk l).bind (fun u => u.walk r) := by
  induction l generalizing t with
  | nil => simp [CodeTree.walk]
  | cons b rest ih =>
    cases t with
    | unset => simp [CodeTree.walk]
    | leaf v => simp [CodeTree.walk]
    | node x y => cases b <;> simp [CodeTree.walk, ih]

theorem CodeTree.walk_leaf {v : Byte} {l : List Bool} {u : CodeTree} (h : (CodeTree.leaf v).walk l = some u) : l = [] ∧ u = .leaf v := by
  cases l with
  | nil => simpa [CodeTree.walk, eq_comm] using h
  | cons b rest => simp [CodeTree.walk] at h

/-- A code path leads from the root to a leaf with its value (R75, R120). -/
theorem CodeTree.walk_path {t : CodeTree} {v : Byte} {q : List Bool} (h : t.path v = some q) : t.walk q = some (.leaf v) := by
  induction t generalizing q with
  | unset => simp [CodeTree.path] at h
  | leaf u =>
    simp only [CodeTree.path] at h
    split at h
    · rename_i hu
      cases h
      simp [CodeTree.walk, hu]
    · cases h
  | node a b iha ihb =>
    simp only [CodeTree.path] at h
    split at h
    · rename_i q' hq
      cases h
      simpa [CodeTree.walk] using iha hq
    · split at h
      · rename_i q' hq
        cases h
        simpa [CodeTree.walk] using ihb hq
      · cases h

/-- A value has a code path exactly when some leaf holds it (R120). -/
theorem CodeTree.path_isSome (t : CodeTree) (v : Byte) : (t.path v).isSome = true ↔ v ∈ t.values := by
  induction t with
  | unset => simp [CodeTree.path, CodeTree.values]
  | leaf u =>
    by_cases h : u = v
    · simp [CodeTree.path, CodeTree.values, h]
    · simp [CodeTree.path, CodeTree.values, h, Ne.symm h]
  | node a b iha ihb =>
    simp only [CodeTree.path, CodeTree.values, List.mem_append, ← iha, ← ihb]
    cases a.path v <;> cases b.path v <;> simp

theorem CodeTree.path_length {t : CodeTree} {v : Byte} {q : List Bool} (h : t.path v = some q) : q.length ≤ t.depth := by
  induction t generalizing q with
  | unset => simp [CodeTree.path] at h
  | leaf u =>
    simp only [CodeTree.path] at h
    split at h
    · cases h
      simp
    · cases h
  | node a b iha ihb =>
    simp only [CodeTree.path] at h
    simp only [CodeTree.depth]
    split at h
    · rename_i q' hq
      cases h
      have := iha hq
      simp only [List.length_cons]
      omega
    · split at h
      · rename_i q' hq
        cases h
        have := ihb hq
        simp only [List.length_cons]
        omega
      · cases h

/-- The prefix property (R40(f)): the paths of two different values are not prefixes of one another. -/
theorem CodeTree.path_not_prefix {t : CodeTree} {u v : Byte} {p q : List Bool} (hp : t.path u = some p) (hq : t.path v = some q)
    (hpq : p <+: q) : u = v := by
  obtain ⟨r, rfl⟩ := hpq
  have h1 := CodeTree.walk_path hq
  rw [CodeTree.walk_append, CodeTree.walk_path hp] at h1
  have := (CodeTree.walk_leaf h1).2
  cases this
  rfl

theorem CodeTree.payload_isSome (t : CodeTree) (block : List Byte) :
    (t.payload block).isSome = true ↔ ∀ v ∈ block, v ∈ t.values := by
  induction block with
  | nil => simp [CodeTree.payload]
  | cons v rest ih =>
    have hv := t.path_isSome v
    simp only [CodeTree.payload, List.mem_cons, forall_eq_or_imp, ← ih, ← hv]
    cases t.path v <;> cases t.payload rest <;> simp

theorem CodeTree.payload_decoding {a b : CodeTree} {block : List Byte} {p : List Bool}
    (h : (CodeTree.node a b).payload block = some p) :
    ∃ codes, (CodeTree.node a b).Decoding p codes block [] := by
  induction block generalizing p with
  | nil =>
    cases h
    exact ⟨[], rfl, rfl, a, b, rfl⟩
  | cons v rest ih =>
    simp only [CodeTree.payload] at h
    split at h
    · rename_i q p' hq hp'
      cases h
      obtain ⟨codes, h1, h2, h3⟩ := ih hp'
      refine ⟨q :: codes, ?_, ?_, h3⟩
      · simp [h1]
      · simp [h2, CodeTree.walk_path hq]
    · cases h

/-- There is one way to cut a bit sequence (R76, the prefix property). -/
theorem CodeTree.decoding_unique {a b : CodeTree} {bits : List Bool} {c1 c2 : List (List Bool)} {v1 v2 : List Byte}
    {r1 r2 : List Bool} (h1 : (CodeTree.node a b).Decoding bits c1 v1 r1) (h2 : (CodeTree.node a b).Decoding bits c2 v2 r2) :
    c1 = c2 ∧ v1 = v2 ∧ r1 = r2 := by
  induction c1 generalizing bits c2 v1 v2 with
  | nil =>
    obtain ⟨hb1, hm1, x1, y1, hx1⟩ := h1
    obtain ⟨hb2, hm2, x2, y2, hx2⟩ := h2
    obtain rfl : v1 = [] := List.map_eq_nil_iff.mp hm1.symm
    obtain rfl : bits = r1 := hb1
    cases c2 with
    | nil =>
      obtain rfl : v2 = [] := List.map_eq_nil_iff.mp hm2.symm
      exact ⟨rfl, rfl, hb2⟩
    | cons q c2 =>
      cases v2 with
      | nil => simp at hm2
      | cons v v2 =>
        simp only [List.map_cons, List.cons.injEq] at hm2
        have : bits = q ++ (c2.flatten ++ r2) := by simpa using hb2
        rw [this, CodeTree.walk_append, hm2.1] at hx1
        have := (CodeTree.walk_leaf hx1).2
        cases this
  | cons q1 c1 ih =>
    obtain ⟨hb1, hm1, hx1⟩ := h1
    obtain ⟨hb2, hm2, hx2⟩ := h2
    cases v1 with
    | nil => simp at hm1
    | cons v v1 =>
      simp only [List.map_cons, List.cons.injEq] at hm1
      cases c2 with
      | nil =>
        obtain ⟨x2, y2, hx2⟩ := hx2
        have : r2 = q1 ++ (c1.flatten ++ r1) := by simpa [hb1, eq_comm] using hb2
        rw [this, CodeTree.walk_append, hm1.1] at hx2
        have := (CodeTree.walk_leaf hx2).2
        cases this
      | cons q2 c2 =>
        cases v2 with
        | nil => simp at hm2
        | cons w v2 =>
          simp only [List.map_cons, List.cons.injEq] at hm2
          have hb : q1 ++ (c1.flatten ++ r1) = q2 ++ (c2.flatten ++ r2) := by
            simpa [hb1] using hb2
          have hq : q1 = q2 ∧ v = w := by
            rcases List.append_eq_append_iff.mp hb with ⟨e, rfl, -⟩ | ⟨e, rfl, -⟩
            · have := hm2.1
              rw [CodeTree.walk_append, hm1.1] at this
              obtain ⟨rfl, h⟩ := CodeTree.walk_leaf this
              cases h
              simp
            · have := hm1.1
              rw [CodeTree.walk_append, hm2.1] at this
              obtain ⟨rfl, h⟩ := CodeTree.walk_leaf this
              cases h
              simp
          obtain ⟨rfl, rfl⟩ := hq
          have hb' : c1.flatten ++ r1 = c2.flatten ++ r2 := List.append_cancel_left hb
          obtain ⟨h1, h2, h3⟩ := ih ⟨rfl, hm1.2, hx1⟩ ⟨hb', hm2.2, hx2⟩
          exact ⟨by rw [h1], by rw [h2], h3⟩

end Sys2Proof

namespace Sys2Proof.Machine

/-! ### The encoder -/

/-- `encode_body` on a block whose bytes all have a leaf appends its payload (R123). -/
theorem encodeBytes_payload {T : CodeTree} (block : List Byte) {p : List Bool} (i : Nat) (s : State) (h : HoldsTree s T)
    (hp : T.payload block = some p) : encodeBytes block i s = appendBits p s := by
  induction block generalizing i s p with
  | nil =>
    cases hp
    rfl
  | cons v rest ih =>
    simp only [CodeTree.payload] at hp
    split at hp
    · rename_i q p' hq hp'
      cases hp
      simp only [encodeBytes, lookupPath_holdsTree h, hq, appendBits_append]
      obtain ⟨t, ht, h1 | h1⟩ := appendBits_cases q s
      · rw [h1]
        exact ih _ t (holdsTree_congr h (fun m => node_congr (by rw [ht]) m) (by rw [ht]) (by rw [ht]) (by rw [ht])) hp'
      · rw [h1]
        rfl
    · cases hp

/-- `encode_body` byte by byte: the payload of the first bytes is appended, then the rest is encoded (R123). -/
theorem encodeBytes_append {T : CodeTree} (block : List Byte) {p : List Bool} (rest : List Byte) (i : Nat) (s : State)
    (h : HoldsTree s T) (hp : T.payload block = some p) :
    encodeBytes (block ++ rest) i s = (appendBits p s).bind (encodeBytes rest (i + block.length)) := by
  induction block generalizing i s p with
  | nil =>
    cases hp
    rfl
  | cons u block ih =>
    simp only [CodeTree.payload] at hp
    split at hp
    · rename_i q p' hq hp'
      cases hp
      simp only [List.cons_append, encodeBytes, lookupPath_holdsTree h, hq, appendBits_append, List.length_cons]
      obtain ⟨t, ht, h1 | h1⟩ := appendBits_cases q s
      · rw [h1, BodyResult.completed_bind]
        have := ih (i + 1) t
          (holdsTree_congr h (fun m => node_congr (by rw [ht]) m) (by rw [ht]) (by rw [ht]) (by rw [ht])) hp'
        rw [Nat.add_assoc, Nat.add_comm 1] at this
        exact this
      · rw [h1]
        rfl
    · cases hp

/-- Whatever the block and the tree, the encoder changes BITS and BITS_LEN only. -/
theorem encodeBytes_frame (block : List Byte) (i : Nat) (s : State) :
    (encodeBytes block i s).state =
      { s with bits := (encodeBytes block i s).state.bits, bitsLen := (encodeBytes block i s).state.bitsLen } := by
  induction block generalizing i s with
  | nil => rfl
  | cons v rest ih =>
    simp only [encodeBytes]
    split
    · rfl
    · rename_i q hq
      obtain ⟨t, ht, h1 | h1⟩ := appendBits_cases q s
      · rw [h1]
        have := ih (i + 1) t
        rw [ht] at this ⊢
        exact this
      · rw [h1]
        exact ht

/-! ### The decoder -/

/-- The state after the bytes of `l` were emitted. -/
def emitted (l : List Byte) (s : State) : State :=
  { s with
    blk := Memory.writeAll s.blk s.blkLen.toNat l
    blkLen := s.blkLen + BitVec.ofNat 32 l.length }

theorem emitted_nil (s : State) : emitted [] s = s := by
  simp [emitted, Memory.writeAll]

theorem blockMax_lt (s : State) : s.params.blockMax < 2 ^ 32 := by
  have := s.params.blockMax_range.2
  omega

theorem emitted_cons (v : Byte) (l : List Byte) (s : State) (h : s.blkLen.toNat < s.params.blockMax) :
    emitted (v :: l) s = emitted l { s.setBlkByte s.blkLen.toNat v with blkLen := s.blkLen + 1 } := by
  have hm := blockMax_lt s
  have hlen : (s.blkLen + 1).toNat = s.blkLen.toNat + 1 := toNat_add_ofNat (k := 1) (by omega)
  simp only [emitted, hlen, setBlkByte_blk, Memory.writeAll, List.length_cons]
  congr 1
  rw [Nat.add_comm, BitVec.ofNat_add, BitVec.add_assoc]
  rfl

theorem emitted_advance (l : List Byte) (k : Nat) (s : State) : emitted l (advance k s) = advance k (emitted l s) := rfl

/-- One walk of the decoder from an entry down (R125): to a leaf; or the bits run out at an internal node. -/
theorem decodeLoop_walk {T : CodeTree} (n : NodeIdx) (is : List Nat) (t : Nat) (s : State) (h : Holds s T n is)
    (hc : T.complete = true) :
    (∃ q v, q.length ≤ bitsLeft s ∧ q <+: bitsFrom s ∧ T.walk q = some (.leaf v) ∧ q.length ≤ T.depth ∧
        ∃ m, s.node m.toNat = .leaf v ∧ ∀ fuel, decodeLoop (fuel + q.length) n t s =
          decodeLoop fuel m (t + q.length) (advance q.length s)) ∨
      ((∃ x y, T.walk (bitsFrom s) = some (.node x y)) ∧ ∀ fuel, decodeLoop (fuel + 1 + bitsLeft s) n t s =
          .completed { advance (bitsLeft s) s with tailBits := BitVec.ofNat 32 (t + bitsLeft s) }) := by
  induction T generalizing n is t s with
  | unset => simp [CodeTree.complete] at hc
  | leaf v => exact .inl ⟨[], v, by simp, List.nil_prefix, rfl, by simp, n, h.1, fun fuel => by simp⟩
  | node a b iha ihb =>
    obtain ⟨z, o, xs, ys, h1, ha, hb, rfl⟩ := h
    simp only [CodeTree.complete, Bool.and_eq_true] at hc
    generalize hl : bitsFrom s = l
    have hlen : l.length = bitsLeft s := by rw [← hl, bitsFrom_length]
    cases l with
    | nil =>
      simp only [List.length_nil] at hlen
      refine .inr ⟨⟨a, b, rfl⟩, fun fuel => ?_⟩
      rw [← hlen]
      simp only [Nat.add_zero, decodeLoop, h1, readBit_of_nil hl, advance_zero]
    | cons bit rest =>
      obtain ⟨hr, hf⟩ := readBit_of_cons hl
      simp only [List.length_cons] at hlen
      have hleft : bitsLeft (advance 1 s) = bitsLeft s - 1 := bitsLeft_advance (by omega)
      have hstep : ∀ fuel, decodeLoop (fuel + 1) n t s =
          decodeLoop fuel (if bit then o else z) (t + 1) (advance 1 s) := by
        intro fuel
        simp only [decodeLoop, h1, hr]
      have key : ∀ (U : CodeTree) (m : NodeIdx), m = (if bit then o else z) → U.depth < (CodeTree.node a b).depth →
          (∀ q, U.walk q = (CodeTree.node a b).walk (bit :: q)) →
          ((∃ q v, q.length ≤ bitsLeft (advance 1 s) ∧ q <+: bitsFrom (advance 1 s) ∧ U.walk q = some (.leaf v) ∧
              q.length ≤ U.depth ∧ ∃ m', (advance 1 s).node m'.toNat = .leaf v ∧
                ∀ fuel, decodeLoop (fuel + q.length) m (t + 1) (advance 1 s) =
                  decodeLoop fuel m' (t + 1 + q.length) (advance q.length (advance 1 s))) ∨
            ((∃ x y, U.walk (bitsFrom (advance 1 s)) = some (.node x y)) ∧
              ∀ fuel, decodeLoop (fuel + 1 + bitsLeft (advance 1 s)) m (t + 1) (advance 1 s) =
                .completed { advance (bitsLeft (advance 1 s)) (advance 1 s) with
                  tailBits := BitVec.ofNat 32 (t + 1 + bitsLeft (advance 1 s)) })) →
          (∃ q v, q.length ≤ bitsLeft s ∧ q <+: bit :: rest ∧ (CodeTree.node a b).walk q = some (.leaf v) ∧
              q.length ≤ (CodeTree.node a b).depth ∧ ∃ m', s.node m'.toNat = .leaf v ∧
                ∀ fuel, decodeLoop (fuel + q.length) n t s =
                  decodeLoop fuel m' (t + q.length) (advance q.length s)) ∨
            ((∃ x y, (CodeTree.node a b).walk (bit :: rest) = some (.node x y)) ∧
              ∀ fuel, decodeLoop (fuel + 1 + bitsLeft s) n t s =
                .completed { advance (bitsLeft s) s with tailBits := BitVec.ofNat 32 (t + bitsLeft s) }) := by
        rintro U m rfl hd hw (⟨q, v, h1, h2, h3, h4, m', h5, h6⟩ | ⟨⟨x, y, hx⟩, h6⟩)
        · refine .inl ⟨bit :: q, v, ?_, ?_, ?_, ?_, m', h5, fun fuel => ?_⟩
          · simp only [List.length_cons]
            omega
          · rw [hf] at h2
            exact List.cons_prefix_cons.mpr ⟨rfl, h2⟩
          · rw [← hw, h3]
          · simp only [List.length_cons]
            omega
          · rw [List.length_cons, ← Nat.add_assoc, hstep, h6, advance_advance, Nat.add_comm 1 q.length,
              show t + 1 + q.length = t + (q.length + 1) by omega]
        · refine .inr ⟨⟨x, y, ?_⟩, fun fuel => ?_⟩
          · rw [← hw, ← hf, hx]
          · rw [show fuel + 1 + bitsLeft s = fuel + 1 + bitsLeft (advance 1 s) + 1 by omega, hstep, h6, advance_advance,
              hleft]
            rw [show 1 + (bitsLeft s - 1) = bitsLeft s by omega, show t + 1 + (bitsLeft s - 1) = t + bitsLeft s by omega]
      cases bit with
      | false =>
        exact key a z rfl (by simp only [CodeTree.depth]; omega) (fun q => by simp [CodeTree.walk])
          (iha z xs (t + 1) (advance 1 s) (holds_congr ha (fun _ _ => rfl)) hc.1)
      | true =>
        exact key b o rfl (by simp only [CodeTree.depth]; omega) (fun q => by simp [CodeTree.walk])
          (ihb o ys (t + 1) (advance 1 s) (holds_congr hb (fun _ _ => rfl)) hc.2)

/-- The decoder's loop from the root of a tree with at least two leaves (R125): the bits are cut into codes and a rest; the
bytes of the codes are emitted, as many as fit BLK. -/
theorem decodeLoop_root {a b : CodeTree} (len fuel : Nat) (s : State) (h : HoldsTree s (.node a b))
    (hc : (CodeTree.node a b).complete = true) (hlen : bitsLeft s ≤ len) (hb : s.blkLen.toNat ≤ s.params.blockMax)
    (hf : 2 * bitsLeft s + 2 ≤ fuel) :
    ∃ codes bytes rest, (CodeTree.node a b).Decoding (bitsFrom s) codes bytes rest ∧
      (s.blkLen.toNat + bytes.length ≤ s.params.blockMax →
        decodeLoop fuel s.root 0 s =
          .completed { advance (bitsLeft s) (emitted bytes s) with tailBits := BitVec.ofNat 32 rest.length }) ∧
      (s.params.blockMax < s.blkLen.toNat + bytes.length →
        ∀ k, k = (codes.take (s.params.blockMax - s.blkLen.toNat + 1)).flatten.length →
        decodeLoop fuel s.root 0 s =
          .raised .blkOverflow (s.cursor + BitVec.ofNat 32 k)
            { advance k (emitted (bytes.take (s.params.blockMax - s.blkLen.toNat)) s) with blkLen := 0 }) := by
  induction len generalizing fuel s with
  | zero =>
    obtain ⟨is, hh, -⟩ := h.1
    have hl : bitsFrom s = [] := List.eq_nil_of_length_eq_zero (by rw [bitsFrom_length]; omega)
    rcases decodeLoop_walk s.root is 0 s hh hc with ⟨q, v, h1, -, h3, -⟩ | ⟨⟨x, y, hx⟩, h6⟩
    · obtain rfl : q = [] := List.eq_nil_of_length_eq_zero (by omega)
      cases h3
    · refine ⟨[], [], bitsFrom s, ⟨by simp, rfl, x, y, hx⟩, fun _ => ?_, fun hbad => ?_⟩
      · obtain ⟨f, rfl⟩ : ∃ f, fuel = f + 1 + bitsLeft s := ⟨fuel - 1 - bitsLeft s, by omega⟩
        rw [h6, bitsFrom_length, emitted_nil, Nat.zero_add]
      · simp only [List.length_nil] at hbad
        omega
  | succ len ih =>
    obtain ⟨is, hh, -⟩ := h.1
    rcases decodeLoop_walk s.root is 0 s hh hc with ⟨q, v, h1, h2, h3, -, m, h5, h6⟩ | ⟨⟨x, y, hx⟩, h6⟩
    · have hq : 0 < q.length := by
        cases q with
        | nil => cases h3
        | cons _ _ => simp
      obtain ⟨r, hr⟩ := h2
      obtain ⟨f, rfl⟩ : ∃ f, fuel = f + 1 + q.length := ⟨fuel - 1 - q.length, by omega⟩
      have hn : (advance q.length s).node m.toNat = .leaf v := h5
      have hfrom : bitsFrom (advance q.length s) = r := by
        rw [bitsFrom_advance h1, ← hr]
        exact List.drop_left
      by_cases hfull : s.params.blockMax ≤ s.blkLen.toNat
      · -- the byte does not fit
        obtain ⟨codes, bytes, rest, hd⟩ : ∃ codes bytes rest, (CodeTree.node a b).Decoding r codes bytes rest := by
          have hle := bitsLeft_advance h1
          obtain ⟨codes, bytes, rest, hd, -⟩ := ih (2 * bitsLeft s + 2) (advance q.length s) (holdsTree_advance h _)
            (by omega) hb (by omega)
          rw [hfrom] at hd
          exact ⟨codes, bytes, rest, hd⟩
        refine ⟨q :: codes, v :: bytes, rest, ⟨by rw [← hr, hd.1]; simp, by simp [h3, hd.2.1], hd.2.2⟩, fun hfit => ?_,
          fun _ k hk => ?_⟩
        · simp only [List.length_cons] at hfit
          omega
        · have h0 : s.params.blockMax - s.blkLen.toNat = 0 := by omega
          rw [h6]
          have hif : (advance q.length s).params.blockMax ≤ (advance q.length s).blkLen.toNat := hfull
          simp only [decodeLoop, hn, if_pos hif]
          obtain rfl : k = q.length := by simp [hk, h0]
          rw [h0, List.take_zero, emitted_nil]
          rfl
      · -- the byte is emitted
        have hblk := blockMax_lt s
        have hlen1 : (s.blkLen + 1).toNat = s.blkLen.toNat + 1 := toNat_add_ofNat (k := 1) (by omega)
        let s1 : State := { (advance q.length s).setBlkByte s.blkLen.toNat v with blkLen := s.blkLen + 1 }
        have hs1 : ∀ l, emitted l s1 = advance q.length (emitted (v :: l) s) := by
          intro l
          rw [emitted_cons v l s (by omega)]
          rfl
        have hleft1 : bitsLeft s1 = bitsLeft s - q.length := bitsLeft_advance h1
        have hfrom1 : bitsFrom s1 = r := by
          rw [← hfrom]
          exact bitsFrom_congr rfl rfl rfl rfl
        obtain ⟨codes, bytes, rest, hd, hfit, hover⟩ := ih f s1
          (holdsTree_congr h (fun _ => rfl) rfl rfl rfl) (by omega)
          (by show (s.blkLen + 1).toNat ≤ s.params.blockMax; omega) (by omega)
        rw [hfrom1] at hd
        have hstep : decodeLoop (f + 1 + q.length) s.root 0 s = decodeLoop f s1.root 0 s1 := by
          rw [h6]
          have hif : ¬ (advance q.length s).params.blockMax ≤ (advance q.length s).blkLen.toNat := hfull
          simp only [decodeLoop, hn, if_neg hif]
          rfl
        have hb1 : s1.blkLen.toNat = s.blkLen.toNat + 1 := hlen1
        have hp1 : s1.params = s.params := rfl
        refine ⟨q :: codes, v :: bytes, rest, ⟨by rw [← hr, hd.1]; simp, by simp [h3, hd.2.1], hd.2.2⟩, fun hfit' => ?_,
          fun hover' k hk => ?_⟩
        · rw [hstep, hfit (by rw [hb1, hp1]; simp only [List.length_cons] at hfit'; omega), hs1, advance_advance, hleft1,
            show q.length + (bitsLeft s - q.length) = bitsLeft s by omega]
        · have htk : s.params.blockMax - s.blkLen.toNat = s1.params.blockMax - s1.blkLen.toNat + 1 := by
            rw [hb1, hp1]
            omega
          rw [hstep, hover (by rw [hb1, hp1]; simp only [List.length_cons] at hover'; omega) _ rfl, hs1, advance_advance, htk,
            List.take_succ_cons]
          obtain rfl : k = q.length + (codes.take (s1.params.blockMax - s1.blkLen.toNat + 1)).flatten.length := by
            rw [hk, htk]
            simp
          have hcur : s1.cursor = s.cursor + BitVec.ofNat 32 q.length := rfl
          rw [hcur, BitVec.add_assoc, ← BitVec.ofNat_add]
    · refine ⟨[], [], bitsFrom s, ⟨by simp, rfl, x, y, hx⟩, fun _ => ?_, fun hbad => ?_⟩
      · obtain ⟨f, rfl⟩ : ∃ f, fuel = f + 1 + bitsLeft s := ⟨fuel - 1 - bitsLeft s, by omega⟩
        rw [h6, bitsFrom_length, emitted_nil, Nat.zero_add]
      · simp only [List.length_nil] at hbad
        omega

/-- `decode_body` with a tree of at least two leaves (R125). -/
theorem decodeRun_node {a b : CodeTree} {s : State} (h : HoldsTree s (.node a b)) (hc : (CodeTree.node a b).complete = true) :
    ∃ codes bytes rest, (CodeTree.node a b).Decoding (bitsFrom s) codes bytes rest ∧
      (bytes.length ≤ s.params.blockMax →
        decodeRun s = .completed
          { advance (bitsLeft s) s with
            blk := Memory.writeAll s.blk 0 bytes
            blkLen := BitVec.ofNat 32 bytes.length
            tailBits := BitVec.ofNat 32 rest.length }) ∧
      (s.params.blockMax < bytes.length → ∀ k, k = (codes.take (s.params.blockMax + 1)).flatten.length →
        decodeRun s = .raised .blkOverflow (s.cursor + BitVec.ofNat 32 k)
          { advance k s with
            blk := Memory.writeAll s.blk 0 (bytes.take s.params.blockMax)
            blkLen := 0
            tailBits := 0 }) := by
  obtain ⟨is, hh, -⟩ := h.1
  obtain ⟨z, o, xs, ys, h1, -⟩ := hh
  have hrun : decodeRun s =
      decodeLoop (2 * bitsLeft s + 2) s.root 0 { s with blkLen := 0, tailBits := 0 } := by
    have hn : ({ s with blkLen := 0, tailBits := 0 } : State).node s.root.toNat = .internal z o := h1
    simp only [decodeRun, hn, Node.isLeaf]
    rfl
  obtain ⟨codes, bytes, rest, hd, hfit, hover⟩ := decodeLoop_root (bitsLeft s) (2 * bitsLeft s + 2)
    { s with blkLen := 0, tailBits := 0 } (holdsTree_congr h (fun _ => rfl) rfl rfl rfl) hc (Nat.le_refl _) (by simp)
    (Nat.le_refl _)
  have hbits : bitsFrom ({ s with blkLen := 0, tailBits := 0 } : State) = bitsFrom s := bitsFrom_congr rfl rfl rfl rfl
  rw [hbits] at hd
  refine ⟨codes, bytes, rest, hd, fun hb => ?_, fun hb k hk => ?_⟩
  · rw [hrun, hfit (by simpa using hb)]
    have h0 : ∀ x : Word, 0 + x = x := BitVec.zero_add
    simp only [emitted, h0]
    rfl
  · rw [hrun, hover (by simpa using hb) k (by simpa using hk)]
    have h0 : ∀ n, n - (0 : Word).toNat = n := Nat.sub_zero
    simp only [emitted, h0]
    rfl

/-- `decode_body` with a one-node tree emits nothing and reads nothing (R125). -/
theorem decodeRun_leaf {v : Byte} {s : State} (h : HoldsTree s (.leaf v)) :
    decodeRun s = .completed { s with blkLen := 0, tailBits := 0 } := by
  obtain ⟨is, hh, -⟩ := h.1
  have hn : ({ s with blkLen := 0, tailBits := 0 } : State).node s.root.toNat = .leaf v := hh.1
  simp only [decodeRun, hn, Node.isLeaf, if_true]

end Sys2Proof.Machine
end

