-- ==== Sys2Proof/Laws/Frames.lean ====
section
/-! SUPPORT. The command frame, the checks and the frames of statements: how a body's result becomes the outcome of a command,
and what keeps registers, stores and derived flags as they were. -/

namespace Sys2Proof.Machine

/-! ### What the frame does not touch -/

@[simp] theorem findPending_beginCommand (w : Word) (s : State) : findPending (beginCommand w s) = findPending s :=
  findPending_congr (fun _ => rfl) rfl rfl rfl

@[simp] theorem findPending_endCommand (s : State) : findPending (endCommand s) = findPending s :=
  findPending_congr (fun _ => rfl) rfl rfl rfl

@[simp] theorem findPending_errorEntry (e : Err) (info : Word) (s : State) :
    findPending (errorEntry e info s) = findPending s :=
  findPending_congr (fun _ => rfl) rfl rfl rfl

theorem holdsTree_beginCommand {w : Word} {s : State} {T : CodeTree} (h : HoldsTree s T) : HoldsTree (beginCommand w s) T :=
  holdsTree_congr h (fun _ => rfl) rfl rfl rfl

theorem holdsTree_endCommand {s : State} {T : CodeTree} (h : HoldsTree s T) : HoldsTree (endCommand s) T :=
  holdsTree_congr h (fun _ => rfl) rfl rfl rfl

theorem holdsTree_errorEntry {e : Err} {info : Word} {s : State} {T : CodeTree} (h : HoldsTree s T) :
    HoldsTree (errorEntry e info s) T :=
  holdsTree_congr h (fun _ => rfl) rfl rfl rfl

@[simp] theorem blockBytes_beginCommand (w : Word) (s : State) : blockBytes (beginCommand w s) = blockBytes s :=
  blockBytes_congr rfl rfl rfl

@[simp] theorem bitsFrom_beginCommand (w : Word) (s : State) : bitsFrom (beginCommand w s) = bitsFrom s :=
  bitsFrom_congr rfl rfl rfl rfl

@[simp] theorem bitsLeft_beginCommand (w : Word) (s : State) : bitsLeft (beginCommand w s) = bitsLeft s := rfl

/-! ### The derived flags -/

/-- Bits 7:4 of STATUS, the derived fields (R24). -/
theorem statusWord_derived (s : State) :
    (statusWord s).extractLsb' 4 4 =
      BitVec.ofNat 4 ((tailPresent s).toNat * 8 + (treeSingle s).toNat * 4 + (treeComplete s).toNat * 2 +
        (treePresent s).toNat) := by
  simp only [statusWord]
  generalize tailPresent s = a
  generalize treeSingle s = b
  generalize treeComplete s = c
  generalize treePresent s = d
  generalize s.stickyErr = e
  generalize s.err = f
  generalize s.done = g
  generalize s.busy = h
  revert a b c d e f g h
  decide

/-- Bits 6:4 of STATUS, the fields derived from the arena (R24). -/
theorem statusWord_tree (s : State) :
    (statusWord s).extractLsb' 4 3 =
      BitVec.ofNat 3 ((treeSingle s).toNat * 4 + (treeComplete s).toNat * 2 + (treePresent s).toNat) := by
  simp only [statusWord]
  generalize tailPresent s = a
  generalize treeSingle s = b
  generalize treeComplete s = c
  generalize treePresent s = d
  generalize s.stickyErr = e
  generalize s.err = f
  generalize s.done = g
  generalize s.busy = h
  revert a b c d e f g h
  decide

theorem treePresent_congr {s t : State} (hc : t.nodeCnt = s.nodeCnt) : treePresent t = treePresent s := by
  simp only [treePresent, hc]

theorem treeComplete_congr {s t : State} (hc : t.nodeCnt = s.nodeCnt) (hf : findPending t = findPending s) :
    treeComplete t = treeComplete s := by
  simp only [treeComplete, hc, hf]

theorem treeSingle_congr {s t : State} (hc : t.nodeCnt = s.nodeCnt) (hr : t.root = s.root)
    (hn : ∀ n, t.node n = s.node n) : treeSingle t = treeSingle s := by
  simp only [treeSingle, hc, hr, hn]

theorem tailPresent_congr {s t : State} (h : t.tailBits = s.tailBits) : tailPresent t = tailPresent s := by
  simp only [tailPresent, h]

/-- The derived flags depend on the arena, NODE_CNT, ROOT and TAIL_BITS only. -/
theorem sameDerivedFlags_of {s t : State} (hc : t.nodeCnt = s.nodeCnt) (hr : t.root = s.root) (hp : t.params = s.params)
    (ht : t.tailBits = s.tailBits) (hn : ∀ n, t.node n = s.node n) : SameDerivedFlags s t := by
  simp only [SameDerivedFlags, State.readReg, statusWord_derived, treePresent_congr hc,
    treeComplete_congr hc (findPending_congr hn hr hc hp), treeSingle_congr hc hr hn, tailPresent_congr ht]

theorem treeComplete_iff (s : State) : treeComplete s = true ↔ s.nodeCnt ≠ 0 ∧ findPending s = none := by
  simp [treeComplete]

theorem treePresent_iff (s : State) : treePresent s = true ↔ s.nodeCnt ≠ 0 := by
  simp [treePresent]

theorem tailPresent_iff (s : State) : tailPresent s = true ↔ s.tailBits ≠ 0 := by
  simp [tailPresent]

theorem treeSingle_iff (s : State) : treeSingle s = true ↔ s.nodeCnt ≠ 0 ∧ ∃ v, s.node s.root.toNat = .leaf v := by
  simp only [treeSingle, Bool.and_eq_true, bne_iff_ne]
  refine and_congr_right (fun _ => ?_)
  cases s.node s.root.toNat <;> simp [Node.isLeaf]

/-- A tree in the arena is the one-node tree exactly when STATUS.SINGLE is 1 (R24). -/
theorem treeSingle_holdsTree {s : State} {T : CodeTree} (h : HoldsTree s T) : treeSingle s = true ↔ ∃ v, T = .leaf v := by
  have h0 := holdsTree_nodeCnt_ne h
  obtain ⟨is, hh, -⟩ := h.1
  rw [treeSingle_iff]
  cases T with
  | unset => simp [hh.1]
  | leaf v => exact ⟨fun _ => ⟨v, rfl⟩, fun _ => ⟨h0, v, hh.1⟩⟩
  | node a b =>
    obtain ⟨z, o, xs, ys, h1, -⟩ := hh
    simp [h1]

theorem treeComplete_holdsTree {s : State} {T : CodeTree} (h : HoldsTree s T) : treeComplete s = true ↔ T.complete = true := by
  have h0 := holdsTree_nodeCnt_ne h
  rw [treeComplete_iff]
  rcases findPending_holdsTree h with ⟨h1, h2⟩ | ⟨h1, p, h2, -⟩
  · exact ⟨fun _ => h1, fun _ => ⟨h0, h2⟩⟩
  · simp [h1, h2]

/-! ### Registers -/

/-- Registers that read as before: each of the stored fields is as before or excused, and so is the pending node. -/
theorem sameRegs_intro {changed : List Reg} {s t : State} (h0 : Reg.cmd ∈ changed ∨ t.cmd = s.cmd)
    (h1 : Reg.status ∈ changed) (h2 : Reg.errCode ∈ changed ∨ t.errCode = s.errCode)
    (h3 : Reg.errInfo ∈ changed ∨ t.errInfo = s.errInfo) (h4 : Reg.blkLen ∈ changed ∨ t.blkLen = s.blkLen)
    (h5 : Reg.bitsLen ∈ changed ∨ t.bitsLen = s.bitsLen) (h6 : Reg.cursor ∈ changed ∨ t.cursor = s.cursor)
    (h7 : Reg.hdrLen ∈ changed ∨ t.hdrLen = s.hdrLen) (h8 : Reg.nodeCnt ∈ changed ∨ t.nodeCnt = s.nodeCnt)
    (h9 : Reg.root ∈ changed ∨ t.root = s.root) (h10 : Reg.pend ∈ changed ∨ findPending t = findPending s)
    (h11 : Reg.symCnt ∈ changed ∨ t.symCnt = s.symCnt) (h12 : Reg.tailBits ∈ changed ∨ t.tailBits = s.tailBits)
    (h13 : Reg.codeLen ∈ changed ∨ t.codeLen = s.codeLen) (h14 : t.codeBits = s.codeBits) : SameRegs changed s t := by
  intro r hr
  cases r with
  | cmd => simpa [State.readReg, hr] using h0
  | status => exact absurd h1 hr
  | errCode => rcases h2 with h | h; exacts [absurd h hr, by simp only [State.readReg, h]]
  | errInfo => simpa [State.readReg, hr] using h3
  | blkLen => simpa [State.readReg, hr] using h4
  | bitsLen => simpa [State.readReg, hr] using h5
  | cursor => simpa [State.readReg, hr] using h6
  | hdrLen => simpa [State.readReg, hr] using h7
  | nodeCnt => simpa [State.readReg, hr] using h8
  | root => rcases h9 with h | h; exacts [absurd h hr, by simp only [State.readReg, h]]
  | pend => rcases h10 with h | h; exacts [absurd h hr, by simp only [State.readReg, pendWord, h]]
  | symCnt => simpa [State.readReg, hr] using h11
  | tailBits => simpa [State.readReg, hr] using h12
  | codeLen => simpa [State.readReg, hr] using h13
  | reserved b => rfl
  | codeBits k => simp only [State.readReg, h14]

/-! ### Errors before any work -/

/-- Error entry with nothing else changed (R140): what an error leaves that strikes before any work. -/
theorem errored_untouched (w : Word) (e : Err) (info : Word) (s : State) :
    Errored w e info (finish (.raised e info (beginCommand w s))) ∧
      OnlyFrameChanged s (finish (.raised e info (beginCommand w s))) := by
  refine ⟨⟨rfl, rfl, rfl, rfl, rfl, rfl, rfl⟩, ?_, sameDerivedFlags_of rfl rfl rfl rfl (fun _ => rfl), fun _ => rfl,
    fun _ => rfl, fun _ => rfl, rfl, rfl, rfl, rfl, rfl⟩
  refine sameRegs_intro ?_ ?_ ?_ ?_ (.inr rfl) (.inr rfl) (.inr rfl) (.inr rfl) (.inr rfl) (.inr rfl)
    (.inr (findPending_congr (fun _ => rfl) rfl rfl rfl)) (.inr rfl) (.inr rfl) (.inr rfl) rfl <;> simp [frameRegs]

/-- A command whose body raises before it changes anything ends errored with nothing else changed (R140, R149). -/
theorem endsErrored_of_body {i : Instr} {s : State} {body : State → BodyResult} {e : Err} {info : Word}
    (hx : exec i s = .next (runFrame (wordOf i) body s))
    (hb : body (beginCommand (wordOf i) s) = .raised e info (beginCommand (wordOf i) s)) : EndsErrored i s e info := by
  refine ⟨_, hx, ?_⟩
  rw [runFrame, hb]
  exact errored_untouched _ _ _ _

/-- A command whose body completes. -/
theorem exec_completed {i : Instr} {s u : State} {body : State → BodyResult}
    (hx : exec i s = .next (runFrame (wordOf i) body s)) (hb : body (beginCommand (wordOf i) s) = .completed u) :
    exec i s = .next (endCommand u) := by
  rw [hx, runFrame, hb]
  rfl

/-- A command whose body raises an error. -/
theorem exec_raised {i : Instr} {s u : State} {body : State → BodyResult} {e : Err} {info : Word}
    (hx : exec i s = .next (runFrame (wordOf i) body s)) (hb : body (beginCommand (wordOf i) s) = .raised e info u) :
    exec i s = .next (endCommand (errorEntry e info u)) := by
  rw [hx, runFrame, hb]
  rfl

/-- Checks that find nothing let the body run. -/
theorem guarded_none {checks : List (State → Check)} {body : State → BodyResult} {s : State}
    (h : firstError (checks.map (fun c => c s)) = none) : guarded checks body s = body s := by
  simp only [guarded, h]

/-- The first check that finds an error ends the command with it, and nothing has changed. -/
theorem guarded_some {checks : List (State → Check)} {body : State → BodyResult} {s : State} {e : Err} {info : Word}
    (h : firstError (checks.map (fun c => c s)) = some (e, info)) : guarded checks body s = .raised e info s := by
  simp only [guarded, h]

/-- A guarded body either stops at its checks with nothing changed or runs. -/
theorem guarded_cases (checks : List (State → Check)) (body : State → BodyResult) (s : State) :
    (∃ e info, firstError (checks.map (fun c => c s)) = some (e, info) ∧ guarded checks body s = .raised e info s) ∨
      (firstError (checks.map (fun c => c s)) = none ∧ guarded checks body s = body s) := by
  cases h : firstError (checks.map (fun c => c s)) with
  | none => exact .inr ⟨rfl, guarded_none h⟩
  | some x => exact .inl ⟨x.1, x.2, rfl, guarded_some h⟩

/-! ### The checks, one by one (R131, R135, R137, R138, R143) -/

theorem checkBlkLen_none {s : State} (h : s.blkLen.toNat ≤ s.params.blockMax) : checkBlkLen s = none :=
  if_neg (Nat.not_lt.mpr h)

theorem checkBlkLen_some {s : State} (h : s.params.blockMax < s.blkLen.toNat) : checkBlkLen s = some (.badLength, 1) :=
  if_pos h

theorem checkBitsLen_none {s : State} (h : s.bitsLen.toNat ≤ s.params.bitsMax) : checkBitsLen s = none :=
  if_neg (Nat.not_lt.mpr h)

theorem checkBitsLen_some {s : State} (h : s.params.bitsMax < s.bitsLen.toNat) : checkBitsLen s = some (.badLength, 2) :=
  if_pos h

theorem checkCursor_none {s : State} (h : s.cursor.toNat ≤ s.bitsLen.toNat) : checkCursor s = none :=
  if_neg (Nat.not_lt.mpr h)

theorem checkCursor_some {s : State} (h : s.bitsLen.toNat < s.cursor.toNat) : checkCursor s = some (.badLength, 3) :=
  if_pos h

theorem checkBlockNotEmpty_none {s : State} (h : s.blkLen ≠ 0) : checkBlockNotEmpty s = none := if_neg h

theorem checkBlockNotEmpty_some {s : State} (h : s.blkLen = 0) : checkBlockNotEmpty s = some (.emptyBlock, 0) := if_pos h

theorem checkTree_none {s : State} (h : s.nodeCnt ≠ 0) : checkTree s = none := if_neg h

theorem checkTree_some {s : State} (h : s.nodeCnt = 0) : checkTree s = some (.noTree, 0) := if_pos h

theorem checkComplete_none {s : State} (h : findPending s = none) : checkComplete s = none := by
  simp only [checkComplete, h]

theorem checkComplete_some {s : State} {p : NodeIdx} (h : findPending s = some p) :
    checkComplete s = some (.treeIncomplete, p.setWidth 32) := by
  simp only [checkComplete, h]

theorem checkHeaderFits_none {s : State} (h : s.bitsLen.toNat + 5 * s.nodeCnt.toNat + 4 ≤ s.params.bitsMax) :
    checkHeaderFits s = none := if_neg (Nat.not_lt.mpr h)

theorem checkHeaderFits_some {s : State} (h : s.params.bitsMax < s.bitsLen.toNat + 5 * s.nodeCnt.toNat + 4) :
    checkHeaderFits s = some (.bitsOverflow, 0) := if_pos h

/-! The checks see the frame's first lines as nothing. -/

@[simp] theorem checkBlkLen_beginCommand (w : Word) (s : State) : checkBlkLen (beginCommand w s) = checkBlkLen s := rfl
@[simp] theorem checkBitsLen_beginCommand (w : Word) (s : State) : checkBitsLen (beginCommand w s) = checkBitsLen s := rfl
@[simp] theorem checkCursor_beginCommand (w : Word) (s : State) : checkCursor (beginCommand w s) = checkCursor s := rfl
@[simp] theorem checkBlockNotEmpty_beginCommand (w : Word) (s : State) :
    checkBlockNotEmpty (beginCommand w s) = checkBlockNotEmpty s := rfl
@[simp] theorem checkTree_beginCommand (w : Word) (s : State) : checkTree (beginCommand w s) = checkTree s := rfl
@[simp] theorem checkComplete_beginCommand (w : Word) (s : State) : checkComplete (beginCommand w s) = checkComplete s := by
  simp only [checkComplete, findPending_beginCommand]
@[simp] theorem checkHeaderFits_beginCommand (w : Word) (s : State) :
    checkHeaderFits (beginCommand w s) = checkHeaderFits s := rfl

/-! ### The bodies of the commands, by name -/

/-- The body that a command runs inside its frame (R170). -/
def bodyOf : Instr → State → BodyResult
  | .nop => nopBody
  | .clear => clearBody
  | .tinit => fun s => .completed (treeInit s)
  | .tleaf v => tleafBody v
  | .texpand => texpandBody
  | .serialize => serializeBody
  | .deserialize => deserializeBody
  | .build => buildBody
  | .lookup v => lookupBody v
  | .encode => encodeBody
  | .decode => decodeBody
  | .compress => compressBody
  | .decompress => decompressBody
  | .hExpand => .completed
  | .hLeaf _ => .completed

/-- Every command runs its body inside the one frame (R170). -/
theorem exec_command {i : Instr} (h : i.isCommand = true) (s : State) :
    exec i s = .next (runFrame (wordOf i) (bodyOf i) s) := by
  cases i <;> first | rfl | cases h

/-! ### Output: bits appended and the tail zero-filled; and input read to its end -/

/-- Bits appended, then the tail zero-filled (R13, R16). -/
theorem bitsAppended_zeroFill {l : List Bool} {s t : State} (h : s.bitsLen.toNat + l.length ≤ s.params.bitsMax)
    (hb : t.bits = (zeroFillTail (appended l s)).bits) (hl : t.bitsLen = (appended l s).bitsLen) (hr : t.resets = s.resets) :
    BitsAppended l s t := by
  have hm := bitsMax_lt s
  have hlen : (appended l s).bitsLen.toNat = s.bitsLen.toNat + l.length := toNat_add_ofNat (by omega)
  have hgap : s.bitsLen.toNat + l.length + tailGap (appended l s) = (s.bitsLen.toNat + l.length + 7) / 8 * 8 := by
    simp only [tailGap, hlen]; omega
  rw [zeroFillTail_eq] at hb
  have hbit : ∀ j, t.bit j = 
      if s.bitsLen.toNat + l.length ≤ j ∧ j < s.bitsLen.toNat + l.length + tailGap (appended l s) then false
      else if s.bitsLen.toNat ≤ j ∧ j < s.bitsLen.toNat + l.length then (l[j - s.bitsLen.toNat]?).getD false else s.bit j := by
    intro j
    have h1 : (appended l s).bit j =
        if s.bitsLen.toNat ≤ j ∧ j < s.bitsLen.toNat + l.length then (l[j - s.bitsLen.toNat]?).getD false else s.bit j :=
      bit_of_writeAll (s := s) (t := appended l s) rfl rfl j
    have h2 := bit_of_writeAll (s := appended l s) (t := t) (i := (appended l s).bitsLen.toNat)
      (l := List.replicate (tailGap (appended l s)) false) (by rw [hb]) (by rw [hr]; rfl) j
    rw [h2, hlen, List.length_replicate, h1]
    split
    · rename_i h3
      rw [List.getElem?_replicate]; split <;> rfl
    · rfl
  refine ⟨by rw [hl, hlen], fun j hj => ?_, fun j h1 h2 => ?_, fun j h1 => ?_⟩
  · rw [hbit, if_neg (by omega), if_pos (by omega)]
    simp [hj]
  · rw [hbit, if_pos (by omega)]
  · rw [hbit, if_neg (by omega), if_neg (by omega)]

/-- SERIALIZE of a complete tree that fits (R101). -/
theorem serializeRun_fits {s : State} {T : CodeTree} (h : HoldsTree s T) (hc : T.complete = true)
    (hfit : s.bitsLen.toNat + T.header.length ≤ s.params.bitsMax) :
    serializeRun s = .completed { zeroFillTail (appended T.header s) with hdrLen := BitVec.ofNat 32 T.header.length } := by
  simp only [serializeRun, serRoot_holdsTree h hc, appendBits_fits _ _ hfit, zeroFillTail_eq]
  congr 1
  have : (appended T.header s).bitsLen - s.bitsLen = BitVec.ofNat 32 T.header.length := add_sub_cancel_word _ _
  rw [this]; rfl

theorem ofNat_toNat_word {n : Nat} (h : n < 2 ^ 32) : (BitVec.ofNat 32 n).toNat = n := by
  rw [BitVec.toNat_ofNat, Nat.mod_eq_of_lt h]

/-- Reading every bit left brings CURSOR to BITS_LEN. -/
theorem advance_end {s : State} (h : s.cursor.toNat ≤ s.bitsLen.toNat) : (advance (bitsLeft s) s).cursor = s.bitsLen := by
  apply BitVec.eq_of_toNat_eq
  rw [cursor_advance (Nat.le_refl _)]
  have hb : bitsLeft s = s.bitsLen.toNat - s.cursor.toNat := rfl
  omega

end Sys2Proof.Machine
end

