-- ==== Sys2Proof/Laws/Bus.lean ====
section
/-! SUPPORT. The host's bus: where an access goes, when it is refused, what a register read returns, and that a repeated write
changes nothing more. -/

namespace Sys2Proof

open Sys2Proof.Machine

/-- The write that starts a command goes to CMD (R23). -/
theorem locate_cmd (p : Params) : locate p 32 0 = .ok (.reg .cmd) := by
  simp [locate, targetOf, regTable, Target.width]

theorem regTable_some {k : Nat} (h : k < 24) : ∃ r, regTable[k]? = some r := by
  have : k < regTable.length := h
  exact ⟨_, List.getElem?_eq_getElem this⟩

/-- What the address map maps (R51). -/
theorem target_some (p : Params) (addr : Nat) : (targetOf p addr).isSome = true ↔ Mapped p addr := by
  simp only [targetOf, Mapped]
  split_ifs with h1 h2 h3 h4
  · obtain ⟨r, hr⟩ := regTable_some (k := addr / 4) (by omega)
    simp [hr, h1]
  · simp; omega
  · simp; omega
  · simp; omega
  · simp; omega

/-- The width of a mapped address (R56). -/
theorem target_width (p : Params) (addr : Nat) (t : Target) (h : targetOf p addr = some t) :
    (t.width = 32 ∧ (addr < 0x60 ∨ 0x03000000 ≤ addr)) ∨ (t.width = 8 ∧ 0x01000000 ≤ addr ∧ addr < 0x03000000) := by
  have h1 := p.blockMax_range.2
  have h2 := p.bitsMax_range.2.1
  simp only [targetOf] at h
  split_ifs at h with g1 g2 g3 g4
  · obtain ⟨r, hr⟩ := regTable_some (k := addr / 4) (by omega)
    simp only [hr, Option.map_some, Option.some.injEq] at h; subst h
    exact .inl ⟨rfl, .inl g1⟩
  · simp only [Option.some.injEq] at h; subst h
    exact .inr ⟨rfl, by omega, by omega⟩
  · simp only [Option.some.injEq] at h; subst h
    exact .inr ⟨rfl, by omega, by omega⟩
  · simp only [Option.some.injEq] at h; subst h
    exact .inl ⟨rfl, by omega⟩

/-- Exactly the allowed accesses go somewhere (R51, R56). -/
theorem locate_iff (p : Params) (width : Nat) (addr : Word) :
    (∃ t, locate p width addr = .ok t) ↔ AccessAllowed p width addr.toNat := by
  simp only [locate, AccessAllowed, ← target_some]
  cases h : targetOf p addr.toNat with
  | none => simp
  | some t =>
    have hw := target_width _ _ _ h
    simp only [Option.isSome_some, true_and]
    rcases hw with ⟨hw, ha⟩ | ⟨hw, ha⟩
    · rw [hw]
      constructor
      · rintro ⟨t', h'⟩
        split_ifs at h' with g1 g2
        refine ⟨fun _ => ⟨by omega, by omega⟩, fun _ => by omega⟩
      · rintro ⟨h1, -⟩
        obtain ⟨rfl, h2⟩ := h1 ha
        exact ⟨t, by simp [h2]⟩
    · rw [hw]
      constructor
      · rintro ⟨t', h'⟩
        split_ifs at h' with g1 g2
        refine ⟨fun _ => by omega, fun _ => by omega⟩
      · rintro ⟨-, h1⟩
        obtain rfl := h1 ha
        exact ⟨t, by simp⟩

/-- A command completes in every state. -/
theorem exec_not_refused {w : Word} {i : Instr} (h : decodeWord w = .ok i) (s : State) : ∃ t, exec i s = .next t := by
  exact ⟨_, exec_command (isCommand_of_decodeWord h) s⟩

/-- While no command runs, an access is refused only when it goes nowhere. -/
theorem accessIdle_next (a : Access) (s : State) : (∃ t, accessIdle a s = .next t) ∨
    (∃ r, accessIdle a s = .refused r ∧ ∀ t, locate s.params a.width a.addr ≠ .ok t) := by
  cases a with
  | read width addr =>
    simp only [accessIdle, Access.width, Access.addr]
    cases locate s.params width addr with
    | error r => exact .inr ⟨r, rfl, by simp⟩
    | ok t => exact .inl ⟨_, rfl⟩
  | write width addr data =>
    simp only [accessIdle, Access.width, Access.addr]
    cases h : locate s.params width addr with
    | error r => exact .inr ⟨r, rfl, by simp⟩
    | ok t =>
      refine .inl ?_
      split
      · rename_i h; cases h
      · simp only [writeCmd]
        split
        · rename_i i hi; exact exec_not_refused hi _
        · exact ⟨_, rfl⟩
      · exact ⟨_, rfl⟩

theorem accessIdle_ok (a : Access) (s : State) (t : Target)
    (h : locate s.params a.width a.addr = .ok t) : ∀ r, accessIdle a s ≠ .refused r := by
  rcases accessIdle_next a s with ⟨u, hu⟩ | ⟨r, -, h'⟩
  · intro r; rw [hu]; simp
  · exact absurd h (h' t)

theorem access_idle {s : State} (hb : s.busy = false) (a : Access) : access a s = accessIdle a s := by
  simp only [access, hb]; rfl

theorem reads {s : State} (hb : s.busy = false) {addr : Word} {t : Target} (hl : locate s.params 32 addr = .ok t) {w : Word}
    (hr : readTarget s t = .word w) : ReadsWord s addr w := by
  rw [ReadsWord, access_idle hb]; simp only [accessIdle, hl, hr]

/-- Where a word access to the register file goes (R21). -/
theorem locate_reg (p : Params) (addr : Word) (h : addr.toNat < 0x60) (h4 : addr.toNat % 4 = 0) :
    locate p 32 addr = .ok (.reg (regTable[addr.toNat / 4]'(by show _ < 24; omega))) := by
  have hk : addr.toNat / 4 < regTable.length := by show _ < 24; omega
  have : targetOf p addr.toNat = some (.reg regTable[addr.toNat / 4]) := by
    simp only [targetOf, if_pos h, List.getElem?_eq_getElem hk, Option.map_some]
  simp only [locate, this, Target.width]
  simp [h4]

/-- A host read of the register file returns the register. -/
theorem readsReg {s : State} (hb : s.busy = false) (addr : Word) (h : addr.toNat < 0x60) (h4 : addr.toNat % 4 = 0) :
   ReadsWord s addr (s.readReg (regTable[addr.toNat / 4]'(by show _ < 24; omega))) :=
  reads hb (locate_reg _ addr h h4) rfl

/-- The places of the STATUS bits (R24). -/
theorem statusWord_bits : ∀ a b c d e f g h : Bool, let w : Word := (byteOfBits [a,b,c,d,e,f,g,h]).setWidth 32
    w.getLsbD 0 = h ∧ w.getLsbD 1 = g ∧ w.getLsbD 2 = f ∧ w.getLsbD 3 = e ∧ w.getLsbD 4 = d ∧ w.getLsbD 5 = c ∧
      w.getLsbD 6 = b ∧ w.getLsbD 7 = a := by
  decide

theorem readsWord_inj {s : State} {a w w' : Word} (h : ReadsWord s a w) (h' : ReadsWord s a w') : w = w' := by
  simp only [ReadsWord] at h h'
  rw [h] at h'
  have := congrArg State.reply (Host.Outcome.next.inj h')
  simpa using this

theorem setWidth_hi {n : Nat} (x : BitVec n) (m : Nat) (h : n + m = 32) : (x.setWidth 32 : Word).extractLsb' n m = 0 := by
  ext i hi
  simp

/-- A write to a read-only register is ignored (R45). -/
theorem writeReg_ro {s : State} {r : Reg} {w : Word} (h : r ≠ .blkLen ∧ r ≠ .bitsLen ∧ r ≠ .cursor) :
    s.writeReg w r = s := by
  cases r <;> simp_all [State.writeReg]

theorem Machine.Memory.write_write_same {α : Type} (m : List (Nat × α)) (a : Nat) (v : α) :
    Memory.write (Memory.write m a v) a v = Memory.write m a v := by
  induction m with
  | nil => simp [Memory.write]
  | cons e rest ih =>
    obtain ⟨k, w⟩ := e
    simp only [Memory.write]
    split
    · simp [Memory.write]
    · split
      · simp [Memory.write]
      · simp only [Memory.write, ih]; simp [*]

theorem Machine.Memory.write_comm {α : Type} (m : List (Nat × α)) {a b : Nat} (h : a < b) (v w : α) :
   Memory.write (Memory.write m b w) a v = Memory.write (Memory.write m a v) b w := by
  induction m with
  | nil => simp only [Memory.write, if_pos h, if_neg (show ¬ b < a by omega), if_neg (show ¬ b = a by omega)]
  | cons e rest ih =>
    obtain ⟨k, x⟩ := e
    rcases Nat.lt_trichotomy b k with hb | rfl | hb
    · have ha : a < k := by omega
      simp only [Memory.write, if_pos hb, if_pos ha, if_pos h, if_neg (show ¬ b < a by omega),
        if_neg (show ¬ b = a by omega)]
    · simp only [Memory.write, if_neg (Nat.lt_irrefl b), if_true, if_pos h, if_neg (show ¬ b < a by omega),
        if_neg (show ¬ b = a by omega)]
    · have hb1 : ¬ b < k := by omega
      have hb2 : ¬ b = k := by omega
      rcases Nat.lt_trichotomy a k with ha | rfl | ha
      · simp only [Memory.write, if_neg hb1, if_neg hb2, if_pos ha, if_neg (show ¬ b < a by omega),
          if_neg (show ¬ b = a by omega)]
      · simp only [Memory.write, if_neg hb1, if_neg hb2, if_neg (Nat.lt_irrefl a), if_true]
      · have ha1 : ¬ a < k := by omega
        have ha2 : ¬ a = k := by omega
        simp only [Memory.write, if_neg hb1, if_neg hb2, if_neg ha1, if_neg ha2, ih]

theorem Machine.Memory.writeAll_write_comm {α : Type} (l : List α) (m : List (Nat × α)) {a i : Nat} (h : a < i) (v : α) :
   Memory.write (Memory.writeAll m i l) a v = Memory.writeAll (Memory.write m a v) i l := by
  induction l generalizing m i with
  | nil => rfl
  | cons x rest ih => simp only [Memory.writeAll]; rw [ih _ (by omega), Memory.write_comm _ h]

theorem Machine.Memory.writeAll_same {α : Type} (l : List α) (m : List (Nat × α)) (i : Nat) :
   Memory.writeAll (Memory.writeAll m i l) i l = Memory.writeAll m i l := by
  induction l generalizing m i with
  | nil => rfl
  | cons x rest ih =>
    simp only [Memory.writeAll]
    rw [Memory.writeAll_write_comm _ _ (by omega), Memory.write_write_same, ih]

/-- A host write repeated changes nothing more (R59). -/
theorem writeTarget_idem (s : State) (data : Word) (t : Target) (r1 r2 : Reply) :
    { writeTarget { writeTarget s data t with reply := r1 } data t with reply := r2 } =
      { writeTarget s data t with reply := r2 } := by
  cases t with
  | reg r => cases r <;> rfl
  | blkByte i => simp only [writeTarget, State.setBlkByte, Memory.write_write_same]
  | bitsByte j => simp only [writeTarget, setBits_eq, Memory.writeAll_same]
  | nodeWord n b => rfl

theorem writeTarget_params (s : State) (data : Word) (t : Target) :
    (writeTarget s data t).params = s.params ∧ (writeTarget s data t).busy = s.busy := by
  cases t with
  | reg r => cases r <;> exact ⟨rfl, rfl⟩
  | blkByte i => exact ⟨rfl, rfl⟩
  | bitsByte j => rw [writeTarget, setBits_eq]; exact ⟨rfl, rfl⟩
  | nodeWord n b => exact ⟨rfl, rfl⟩

/-- Only offset 0 is CMD (R21). -/
theorem locate_cmd_addr {p : Params} {width : Nat} {addr : Word} (h : locate p width addr = .ok (.reg .cmd)) : addr = 0 := by
  simp only [locate] at h
  cases ht : targetOf p addr.toNat with
  | none => rw [ht] at h; cases h
  | some t =>
    rw [ht] at h
    simp only at h
    split_ifs at h with h1 h2
    cases h
    have hw := target_width _ _ _ ht
    simp only [targetOf] at ht
    have hw32 : width = 32 := by simpa [Target.width] using h1
    split_ifs at ht with g1 g2 g3 g4
    · have hk : addr.toNat / 4 < regTable.length := by show _ < 24; omega
      rw [List.getElem?_eq_getElem hk] at ht
      simp only [Option.map_some, Option.some.injEq, Target.reg.injEq] at ht
      have hr : ∀ k (hk : k < 24), regTable[k]'hk = .cmd → k = 0 := by decide
      have := hr _ hk ht
      apply BitVec.eq_of_toNat_eq
      have h4 : addr.toNat % 4 = 0 := by
        by_contra hc
        exact h2 ⟨hw32, hc⟩
      simp; omega
    all_goals simp at ht

theorem statusWord_congr {s t : State} (hb : t.busy = s.busy) (hd : t.done = s.done) (he : t.err = s.err)
    (hs : t.stickyErr = s.stickyErr) (hc : t.nodeCnt = s.nodeCnt) (hr : t.root = s.root) (hp : t.params = s.params)
    (ht : t.tailBits = s.tailBits) (hn : ∀ n, t.node n = s.node n) : statusWord t = statusWord s := by
  simp only [statusWord, treePresent_congr hc, treeComplete_congr hc (findPending_congr hn hr hc hp),
    treeSingle_congr hc hr hn, tailPresent_congr ht, hb, hd, he, hs]

theorem pendWord_congr {s t : State} (hc : t.nodeCnt = s.nodeCnt) (hr : t.root = s.root) (hp : t.params = s.params)
    (hn : ∀ n, t.node n = s.node n) : pendWord t = pendWord s := by
  simp only [pendWord, findPending_congr hn hr hc hp]

/-- The registers read alike when STATUS, PEND and the registers that tree, codec and frame write do, and all the others. -/
theorem sameRegs_of_results {changed : List Reg} {s t : State} (h0 : Reg.cmd ∈ changed) (h1 : statusWord t = statusWord s)
    (h2 : t.errCode = s.errCode) (h3 : t.errInfo = s.errInfo) (h4 : pendWord t = pendWord s) (h5 : t.nodeCnt = s.nodeCnt)
    (h6 : t.root = s.root) (h7 : t.symCnt = s.symCnt) (h8 : Reg.bitsLen ∈ changed ∨ t.bitsLen = s.bitsLen)
    (h9 : Reg.hdrLen ∈ changed ∨ t.hdrLen = s.hdrLen)
    (h : ∀ r, r ∉ frameRegs ++ treeRegs ++ [.symCnt, .bitsLen, .hdrLen] → t.readReg r = s.readReg r) :
    SameRegs changed s t := by
  intro r hr
  cases r with
  | cmd => exact absurd h0 hr
  | status => exact h1
  | errCode => simp only [State.readReg, h2]
  | errInfo => exact h3
  | pend => exact h4
  | nodeCnt => exact h5
  | root => simp only [State.readReg, h6]
  | symCnt => exact h7
  | bitsLen => exact h8.resolve_left hr
  | hdrLen => exact h9.resolve_left hr
  | blkLen | cursor | tailBits | codeLen => exact h _ (by decide)
  | reserved b => rfl
  | codeBits k => exact h _ (by simp [frameRegs, treeRegs])

/-- ROOT is unchanged when a host read of it is. -/
theorem root_of_sameRegs {changed : List Reg} {s t : State} (h : SameRegs changed s t) (hr : Reg.root ∉ changed) :
    t.root = s.root := by
  simpa [State.readReg, BitVec.setWidth_setWidth_of_le] using congrArg (BitVec.setWidth 16) (h .root hr)

theorem toNat_addr {n : Nat} (h : n < 2 ^ 32) : (BitVec.ofNat 32 n).toNat = n := by
  rw [BitVec.toNat_ofNat, Nat.mod_eq_of_lt h]

/-- A byte's bits and its value, most significant bit first (R53). -/
theorem byteOfBits_bits : ∀ b0 b1 b2 b3 b4 b5 b6 b7 : Bool, 
    (∀ m (h : m < 8), (byteOfBits [b0,b1,b2,b3,b4,b5,b6,b7]).getLsbD (7 - m) = [b0,b1,b2,b3,b4,b5,b6,b7][m]) ∧
    (byteOfBits [b0,b1,b2,b3,b4,b5,b6,b7]).toNat =
        b0.toNat * 2 ^ 7 + (b1.toNat * 2 ^ 6 + (b2.toNat * 2 ^ 5 + (b3.toNat * 2 ^ 4 + (b4.toNat * 2 ^ 3 +
          (b5.toNat * 2 ^ 2 + (b6.toNat * 2 ^ 1 + (b7.toNat * 2 ^ 0 + 0))))))) := by
  decide

/-- Word 0 of a LEAF entry (R55). -/
theorem word0_leaf : ∀ v : Byte, ((0 : BitVec 16) ++ v ++ (2 : BitVec 8) : Word).extractLsb' 2 6 = 0 ∧
    ((0 : BitVec 16) ++ v ++ (2 : BitVec 8) : Word).extractLsb' 16 16 = 0 ∧
    ((0 : BitVec 16) ++ v ++ (2 : BitVec 8) : Word).extractLsb' 0 2 = 2 ∧
    ((0 : BitVec 16) ++ v ++ (2 : BitVec 8) : Word).extractLsb' 8 8 = v := by decide +kernel

/-- Word 1 of an INTERNAL entry (R55). -/
theorem word1_int (z o : NodeIdx) : (o ++ z : Word).extractLsb' 0 16 = z ∧ (o ++ z : Word).extractLsb' 16 16 = o := by
  constructor
  · ext i hi
    rw [BitVec.getElem_extractLsb', BitVec.getLsbD_append, if_pos (by omega), Nat.zero_add, BitVec.getLsbD_eq_getElem]
  · ext i hi
    rw [BitVec.getElem_extractLsb', BitVec.getLsbD_append, if_neg (by omega), show 16 + i - 16 = i by omega,
      BitVec.getLsbD_eq_getElem]

/-- How a completed body ends (R170). -/
theorem completed_end (w : Word) (s u : State)
    (h : (u.cmd, u.err, u.errCode, u.errInfo, u.stickyErr) = (w, false, 0, 0, s.stickyErr)) :
    Completed w s (endCommand u) := by
  simp only [Prod.mk.injEq] at h
  obtain ⟨h1, h2, h3, h4, h5⟩ := h
  exact ⟨h1, rfl, rfl, h2, h3, h4, h5⟩

end Sys2Proof
end

