-- ==== Sys2Proof/Laws/Pending.lean ====
section
/-! SUPPORT. The pending stack (R94) and what `make_leaf` and `expand` on the pending node do to the arena, the tree in it, the
pending node and the stack. -/

namespace Sys2Proof

open Sys2Proof.Machine

/-- On a complete tree nothing is pending. -/
theorem pendingUnder_complete {s : State} {T : CodeTree} {n : NodeIdx} {is : List Nat} (fuel : Nat) (h : Holds s T n is)
    (hc : T.complete = true) : pendingUnder s fuel n = [] := by
  induction T generalizing n is fuel with
  | unset => cases hc
  | leaf v => cases fuel <;> simp [pendingUnder, h.1]
  | node a b iha ihb =>
    obtain ⟨z, o, xs, ys, h1, ha, hb, rfl⟩ := h
    simp only [CodeTree.complete, Bool.and_eq_true] at hc
    cases fuel with
    | zero => rfl
    | succ fuel => simp only [pendingUnder, h1, iha fuel ha hc.1, ihb fuel hb hc.2, List.append_nil]

/-- The pending entries depend on the entries of the tree only, and not on how many levels are left over. -/
theorem pendingUnder_congr {s t : State} {T : CodeTree} {n : NodeIdx} {is : List Nat} {f g : Nat} (h : Holds s T n is)
    (hf : T.depth < f) (hg : T.depth < g) (hm : ∀ m ∈ is, t.node m = s.node m) : pendingUnder t g n = pendingUnder s f n := by
  induction T generalizing n is f g with
  | unset =>
    obtain ⟨f, rfl⟩ : ∃ k, f = k + 1 := ⟨f - 1, by omega⟩
    obtain ⟨g, rfl⟩ : ∃ k, g = k + 1 := ⟨g - 1, by omega⟩
    simp only [pendingUnder, hm _ (holds_mem h), h.1]
  | leaf v =>
    obtain ⟨f, rfl⟩ : ∃ k, f = k + 1 := ⟨f - 1, by omega⟩
    obtain ⟨g, rfl⟩ : ∃ k, g = k + 1 := ⟨g - 1, by omega⟩
    simp only [pendingUnder, hm _ (holds_mem h), h.1]
  | node a b iha ihb =>
    obtain ⟨f, rfl⟩ : ∃ k, f = k + 1 := ⟨f - 1, by omega⟩
    obtain ⟨g, rfl⟩ : ∃ k, g = k + 1 := ⟨g - 1, by omega⟩
    simp only [CodeTree.depth] at hf hg
    have hn := hm _ (holds_mem h)
    obtain ⟨z, o, xs, ys, h1, ha, hb, rfl⟩ := h
    simp only [pendingUnder, hn, h1]
    rw [iha ha (f := f) (g := g) (by omega) (by omega) (fun m hm' => hm m (by simp [hm'])),
      ihb hb (f := f) (g := g) (by omega) (by omega) (fun m hm' => hm m (by simp [hm']))]

/-- The pending entries are exactly the UNSET entries of the tree. -/
theorem mem_pendingUnder {s : State} {T : CodeTree} {n : NodeIdx} {is : List Nat} {fuel : Nat} (h : Holds s T n is)
    (hf : T.depth < fuel) (m : Nat) :
    (m ∈ is ∧ s.node m = .unset) ↔ ∃ p ∈ pendingUnder s fuel n, p.toNat = m := by
  induction T generalizing n is fuel with
  | unset =>
    obtain ⟨fuel, rfl⟩ : ∃ k, fuel = k + 1 := ⟨fuel - 1, by omega⟩
    obtain ⟨h1, rfl⟩ := h
    simp only [pendingUnder, h1, List.mem_singleton]
    constructor
    · rintro ⟨rfl, -⟩; exact ⟨n, rfl, rfl⟩
    · rintro ⟨p, rfl, rfl⟩; exact ⟨rfl, h1⟩
  | leaf v =>
    obtain ⟨fuel, rfl⟩ : ∃ k, fuel = k + 1 := ⟨fuel - 1, by omega⟩
    obtain ⟨h1, rfl⟩ := h
    simp only [pendingUnder, h1, List.mem_singleton]
    constructor
    · rintro ⟨rfl, h2⟩; rw [h1] at h2; cases h2
    · rintro ⟨p, h2, -⟩; cases h2
  | node a b iha ihb =>
    obtain ⟨fuel, rfl⟩ : ∃ k, fuel = k + 1 := ⟨fuel - 1, by omega⟩
    simp only [CodeTree.depth] at hf
    obtain ⟨z, o, xs, ys, h1, ha, hb, rfl⟩ := h
    have h2 := iha ha (fuel := fuel) (by omega)
    have h3 := ihb hb (fuel := fuel) (by omega)
    simp only [pendingUnder, h1, List.mem_append, List.mem_cons]
    constructor
    · rintro ⟨rfl | hm | hm, hu⟩
      · rw [h1] at hu; cases hu
      · obtain ⟨p, hp, rfl⟩ := h2.mp ⟨hm, hu⟩; exact ⟨p, .inl hp, rfl⟩
      · obtain ⟨p, hp, rfl⟩ := h3.mp ⟨hm, hu⟩; exact ⟨p, .inr hp, rfl⟩
    · rintro ⟨p, hp | hp, rfl⟩
      · obtain ⟨h4, h5⟩ := h2.mpr ⟨p, hp, rfl⟩; exact ⟨.inr (.inl h4), h5⟩
      · obtain ⟨h4, h5⟩ := h3.mpr ⟨p, hp, rfl⟩; exact ⟨.inr (.inr h4), h5⟩

/-- The pending node is the first of the pending entries (R93, R94). -/
theorem findPendingFrom_head (s : State) (fuel : Nat) (n : NodeIdx) :
    findPendingFrom s fuel n = (pendingUnder s fuel n).head? := by
  induction fuel generalizing n with
  | zero => rfl
  | succ fuel ih =>
    simp only [findPendingFrom, pendingUnder]
    cases s.node n.toNat with
    | free => rfl
    | unset => rfl
    | leaf v => rfl
    | internal z o =>
      simp only [ih, List.head?_append]
      cases (pendingUnder s fuel z).head? <;> rfl

theorem findPending_head (s : State) : findPending s = (pendingStack s).head? := by
  simp only [findPending, pendingStack]
  split
  · rfl
  · exact findPendingFrom_head _ _ _

/-- Growing a tree at its pending node replaces the first of the pending entries by those of what stands there now. -/
theorem pendingUnder_fill {s t : State} {T X : CodeTree} {n p : NodeIdx} {is js : List Nat} {qs : List NodeIdx} {f g : Nat}
    (h : Holds s T n is) (hf : T.depth < f) (hnd : is.Nodup) (hp : findPendingFrom s f n = some p) (hx : Holds t X p js)
    (hm : ∀ m ∈ is, m ≠ p.toNat → t.node m = s.node m) (hq : ∀ k, X.depth < k → pendingUnder t k p = qs)
    (hg : T.depth + X.depth < g) : pendingUnder t g n = qs ++ (pendingUnder s f n).tail := by
  induction T generalizing n is f g with
  | unset =>
    obtain ⟨f, rfl⟩ : ∃ k, f = k + 1 := ⟨f - 1, by omega⟩
    obtain ⟨h1, rfl⟩ := h
    obtain rfl : n = p := by simpa [findPendingFrom, h1] using hp
    simp only [CodeTree.depth] at hg
    simp [hq g (by omega), pendingUnder, h1]
  | leaf v =>
    obtain ⟨f, rfl⟩ : ∃ k, f = k + 1 := ⟨f - 1, by omega⟩
    obtain ⟨h1, rfl⟩ := h
    simp [findPendingFrom, h1] at hp
  | node a b iha ihb =>
    obtain ⟨f, rfl⟩ : ∃ k, f = k + 1 := ⟨f - 1, by omega⟩
    obtain ⟨g, rfl⟩ : ∃ k, g = k + 1 := ⟨g - 1, by omega⟩
    obtain ⟨z, o, xs, ys, h1, ha, hb, rfl⟩ := h
    simp only [CodeTree.depth] at hf hg
    obtain ⟨hn, hnd'⟩ := List.nodup_cons.mp hnd
    obtain ⟨hxs, hys, hdis⟩ := List.nodup_append.mp hnd'
    have hpu : s.node p.toNat = .unset ∧ p.toNat ∈ n.toNat :: (xs ++ ys) := by
      rcases findPendingFrom_holds (fuel := f + 1) (T := .node a b) ⟨z, o, xs, ys, h1, ha, hb, rfl⟩
        (by simp only [CodeTree.depth]; omega) with ⟨-, h2⟩ | ⟨-, q, h2, h3, h4⟩
      · rw [h2] at hp; cases hp
      · rw [h2] at hp; cases hp; exact ⟨h4, h3⟩
    have hnp : n.toNat ≠ p.toNat := fun e => by rw [← e, h1] at hpu; cases hpu.1
    have htn : t.node n.toNat = .internal z o := by rw [hm _ (by simp) hnp, h1]
    simp only [pendingUnder, htn, h1]
    rcases findPendingFrom_holds ha (fuel := f) (by omega) with ⟨hca, hfa⟩ | ⟨hca, q, hfa, hq', hu⟩
    · have hpb : findPendingFrom s f o = some p := by simpa [findPendingFrom, h1, hfa] using hp
      have hpm : p.toNat ∈ ys := by
        rcases findPendingFrom_holds hb (fuel := f) (by omega) with ⟨-, hfb⟩ | ⟨-, q, hfb, hq', -⟩
        · simp [hfb] at hpb
        · rw [hfb] at hpb
          simpa [← Option.some.inj hpb] using hq'
      have hta : Holds t a z xs := holds_congr ha (fun m hm' => hm m (by simp [hm']) (fun e => hdis _ hm' _ hpm e))
      rw [pendingUnder_complete _ hta hca, pendingUnder_complete _ ha hca, List.nil_append, List.nil_append]
      exact ihb hb (by omega) hys hpb (fun m hm' => hm m (by simp [hm'])) (by omega)
    · have hpa : p = q := by simpa [findPendingFrom, h1, hfa, eq_comm] using hp
      subst hpa
      have h2 : pendingUnder t g o = pendingUnder s f o :=
        pendingUnder_congr hb (by omega) (by omega) (fun m hm' => hm m (by simp [hm']) (fun e => hdis _ hq' _ hm' e.symm))
      rw [h2, iha ha (by omega) hxs hfa (fun m hm' => hm m (by simp [hm'])) (g := g) (by omega)]
      have h3 := findPendingFrom_head s f z
      rw [hfa] at h3
      cases h4 : pendingUnder s f z with
      | nil => rw [h4] at h3; cases h3
      | cons x l => simp

/-- The tree is complete exactly when no entry of the arena is UNSET (R41). -/
theorem holdsTree_complete_iff {s : State} {T : CodeTree} (h : HoldsTree s T) :
    T.complete = true ↔ ∀ n, s.node n ≠ .unset := by
  have hd := holdsTree_depth h
  obtain ⟨⟨is, hh, hperm⟩, hfree, -⟩ := h
  constructor
  · intro hc n hn
    have hlt : n < s.nodeCnt.toNat := by
      by_contra hge
      rw [hfree n (by omega)] at hn
      cases hn
    obtain ⟨p, hp, -⟩ := (mem_pendingUnder hh hd n).mp ⟨hperm.mem_iff.mpr (by simpa using hlt), hn⟩
    rw [pendingUnder_complete _ hh hc] at hp
    cases hp
  · intro hn
    rcases findPendingFrom_holds hh hd with ⟨hc, -⟩ | ⟨-, p, -, -, hu⟩
    · exact hc
    · exact absurd hu (hn _)

theorem mem_pendingStack {s : State} {T : CodeTree} (h : HoldsTree s T) (n : Nat) :
    s.node n = .unset ↔ ∃ p ∈ pendingStack s, p.toNat = n := by
  have hd := holdsTree_depth h
  have h0 := holdsTree_nodeCnt_ne h
  obtain ⟨⟨is, hh, hperm⟩, hfree, -⟩ := h
  simp only [pendingStack, if_neg h0, ← mem_pendingUnder hh hd n]
  refine ⟨fun hu => ⟨hperm.mem_iff.mpr ?_, hu⟩, fun hu => hu.2⟩
  by_contra hge
  rw [hfree n (by simpa using hge)] at hu
  cases hu

theorem pendingStack_congr {s t : State} {T : CodeTree} (h : HoldsTree s T) (hn : ∀ m, t.node m = s.node m)
    (hr : t.root = s.root) (hc : t.nodeCnt = s.nodeCnt) (hp : t.params = s.params) : pendingStack t = pendingStack s := by
  have hd := holdsTree_depth h
  obtain ⟨is, hh, -⟩ := h.1
  simp only [pendingStack, hc, hr, hp]
  split
  · rfl
  · exact pendingUnder_congr hh hd hd (fun m _ => hn m)

/-- What is pending stands in the arena, UNSET. -/
theorem findPending_unset {s : State} {T : CodeTree} (h : HoldsTree s T) {p : NodeIdx} (hp : findPending s = some p) :
    p.toNat < s.nodeCnt.toNat ∧ s.node p.toNat = .unset := by
  rcases findPending_holdsTree h with ⟨-, h2⟩ | ⟨-, q, h2, h3, h4⟩
  · rw [h2] at hp; cases hp
  · rw [h2] at hp; cases hp; exact ⟨h3, h4⟩

/-- The pending stack after the tree has grown at its pending node. -/
theorem pendingStack_fill {s t : State} {T X : CodeTree} {p : NodeIdx} {js : List Nat} {qs : List NodeIdx} {k : Nat}
    (h : HoldsTree s T) (hp : findPending s = some p) (hx : Holds t X p js)
    (hm : ∀ m, m < s.nodeCnt.toNat → m ≠ p.toNat → t.node m = s.node m)
    (hq : ∀ k, X.depth < k → pendingUnder t k p = qs) (hroot : t.root = s.root) (hpar : t.params = s.params)
    (hcnt : t.nodeCnt.toNat = s.nodeCnt.toNat + k) (hX : 2 * X.depth ≤ k) (hcap : t.nodeCnt.toNat ≤ t.params.nodeCap) :
    pendingStack t = qs ++ (pendingStack s).tail := by
  have hd := holdsTree_depth h
  have h0 := holdsTree_nodeCnt_ne h
  have hsz := holdsTree_size h
  have hdl := T.depth_le
  have hpos := T.size_pos
  have ht0 : t.nodeCnt ≠ 0 := by intro e; rw [e] at hcnt; simp at hcnt; omega
  obtain ⟨⟨is, hh, hperm⟩, -, -⟩ := h
  simp only [findPending, if_neg h0] at hp
  simp only [pendingStack, if_neg h0, if_neg ht0, hroot, hpar]
  refine pendingUnder_fill hh hd (hperm.nodup_iff.mpr List.nodup_range) hp hx
    (fun m hmem hne => hm m (by simpa using hperm.mem_iff.mp hmem) hne) hq ?_
  rw [hpar] at hcap
  omega

/-! ### `make_leaf` and `expand` on the pending node -/

theorem holdsTree_makeLeaf {s t : State} {T : CodeTree} {p : NodeIdx} {v : Byte} (h : HoldsTree s T)
    (hp : findPending s = some p) (ht : ∀ m, t.node m = if m = p.toNat then .leaf v else s.node m)
    (hr : t.root = s.root) (hc : t.nodeCnt = s.nodeCnt) (hpar : t.params = s.params) :
    HoldsTree t (CodeTree.fillFirst (.leaf v) T) ∧ pendingStack t = (pendingStack s).tail := by
  have hx : Holds t (.leaf v) p [p.toNat] := ⟨by rw [ht, if_pos rfl], rfl⟩
  have hm : ∀ m, m < s.nodeCnt.toNat → m ≠ p.toNat → t.node m = s.node m := fun m _ hne => by rw [ht, if_neg hne]
  have hcap : t.nodeCnt.toNat ≤ t.params.nodeCap := by rw [hc, hpar]; exact h.2.2
  have hlt := (findPending_unset h hp).1
  refine ⟨holdsTree_fillFirst h hp hx hm (k := 0) (by simp) (by rw [hc]; rfl) hr (fun m hge => ?_) hcap, ?_⟩
  · rw [ht, if_neg (by omega)]; exact h.2.1 m (by omega)
  · have := pendingStack_fill (qs := []) (k := 0) h hp hx hm (fun k hk => ?_) hr hpar (by rw [hc]; rfl)
      (by simp [CodeTree.depth]) hcap
    · simpa using this
    · exact pendingUnder_complete k hx rfl

theorem holdsTree_expand {s t : State} {T : CodeTree} {p z o : NodeIdx} (h : HoldsTree s T) (hp : findPending s = some p)
    (ht : ∀ m, t.node m =
      if m = p.toNat then .internal z o
      else if m = s.nodeCnt.toNat ∨ m = s.nodeCnt.toNat + 1 then .unset else s.node m)
    (hz : z.toNat = s.nodeCnt.toNat) (ho : o.toNat = s.nodeCnt.toNat + 1) (hr : t.root = s.root)
    (hc : t.nodeCnt.toNat = s.nodeCnt.toNat + 2) (hpar : t.params = s.params)
    (hcap : s.nodeCnt.toNat + 2 ≤ s.params.nodeCap) :
    HoldsTree t (CodeTree.fillFirst (.node .unset .unset) T) ∧ pendingStack t = z :: o :: (pendingStack s).tail := by
  have hlt := (findPending_unset h hp).1
  have htz : t.node z.toNat = .unset := by rw [ht, if_neg (by omega), if_pos (by omega)]
  have hto : t.node o.toNat = .unset := by rw [ht, if_neg (by omega), if_pos (by omega)]
  have htp : t.node p.toNat = .internal z o := by rw [ht, if_pos rfl]
  have hx : Holds t (.node .unset .unset) p [p.toNat, z.toNat, o.toNat] :=
    ⟨z, o, [z.toNat], [o.toNat], htp, ⟨htz, rfl⟩, ⟨hto, rfl⟩, rfl⟩
  have hm : ∀ m, m < s.nodeCnt.toNat → m ≠ p.toNat → t.node m = s.node m :=
    fun m hlt hne => by rw [ht, if_neg hne, if_neg (by omega)]
  have hcap' : t.nodeCnt.toNat ≤ t.params.nodeCap := by rw [hc, hpar]; exact hcap
  refine ⟨holdsTree_fillFirst h hp hx hm (k := 2) (by simp [hz, ho, List.range'_succ]) hc hr (fun m hge => ?_) hcap', ?_⟩
  · rw [ht, if_neg (by omega), if_neg (by omega)]; exact h.2.1 m (by omega)
  · refine pendingStack_fill (qs := [z, o]) (k := 2) h hp hx hm (fun k hk => ?_) hr hpar hc (by simp [CodeTree.depth]) hcap'
    simp only [CodeTree.depth] at hk
    obtain ⟨k, rfl⟩ : ∃ j, k = j + 1 + 1 := ⟨k - 2, by omega⟩
    simp [pendingUnder, htp, htz, hto]

/-- An arena that is empty has nothing pending. -/
theorem findPending_noTree {s : State} (h : s.nodeCnt = 0) : findPending s = none := by
  simp only [findPending, if_pos h]

/-- Where a node is pending the arena invariant gives the tree. -/
theorem arenaOk_pending {s : State} (h : ArenaOk s) {p : NodeIdx} (hp : findPending s = some p) : ∃ T, HoldsTree s T := by
  rcases h with h | h
  · rw [findPending_noTree h.1] at hp; cases hp
  · exact h

/-! ### Running header tokens (R73) -/

theorem runAll_append (l r : List Instr) (s : State) : runAll (l ++ r) s =
    match runAll l s with
    | .next s' => runAll r s'
    | .fault x => .fault x
    | .refused x => .refused x := by
  induction l generalizing s with
  | nil => rfl
  | cons i l ih =>
    simp only [List.cons_append, runAll]
    cases exec i s with
    | next s' => exact ih s'
    | fault x => rfl
    | refused x => rfl

theorem CodeTree.fillFirst_incomplete {T Y : CodeTree} (hT : T.complete = false) (hY : Y.complete = false) :
    (CodeTree.fillFirst Y T).complete = false := by
  have h1 := CodeTree.unsets_fillFirst hT Y
  have h2 := (CodeTree.unsets_eq_zero T).not
  have h3 := (CodeTree.unsets_eq_zero Y).not
  have h4 := (CodeTree.unsets_eq_zero (CodeTree.fillFirst Y T)).not
  simp only [Bool.not_eq_true] at h2 h3 h4
  have := h2.mpr hT
  have := h3.mpr hY
  exact h4.mp (by omega)

theorem CodeTree.fillFirst_fillFirst {T Y : CodeTree} (hT : T.complete = false) (hY : Y.complete = false) (x : CodeTree) :
    CodeTree.fillFirst x (CodeTree.fillFirst Y T) = CodeTree.fillFirst (CodeTree.fillFirst x Y) T := by
  induction T with
  | unset => rfl
  | leaf v => cases hT
  | node c d ihc ihd =>
    simp only [CodeTree.complete, Bool.and_eq_false_iff] at hT
    by_cases hc : c.complete = true
    · have hd : d.complete = false := by simpa [hc] using hT
      simp only [CodeTree.fillFirst, hc, if_true, ihd hd]
    · have hc' : c.complete = false := by simpa using hc
      have := CodeTree.fillFirst_incomplete hc' hY
      simp only [CodeTree.fillFirst, hc', this, Bool.false_eq_true, if_false, ihc hc']

/-- Running the tokens of a complete tree fills the pending node with it. -/
theorem tokens_fill (X : CodeTree) (hX : X.complete = true) : ∀ (s : State) (T : CodeTree), HoldsTree s T → T.complete = false →
    s.nodeCnt.toNat + (X.size - 1) ≤ s.params.nodeCap →
    ∃ t, runAll X.tokens s = .next t ∧ HoldsTree t (CodeTree.fillFirst X T) ∧
      t = { s with nodes := t.nodes, nodeCnt := t.nodeCnt } ∧ t.nodeCnt.toNat = s.nodeCnt.toNat + (X.size - 1) := by
  induction X with
  | unset => cases hX
  | leaf v =>
    intro s T h hc hcap
    rcases findPending_holdsTree h with ⟨h1, -⟩ | ⟨-, p, hp, -, -⟩
    · rw [h1] at hc; cases hc
    have h2 := holdsTree_makeLeaf (t := makeLeaf p v s) h hp (node_makeLeaf s p v) rfl rfl rfl
    exact ⟨makeLeaf p v s, by simp only [CodeTree.tokens, runAll, exec, execHLeaf, hp], h2.1, rfl, by simp [CodeTree.size]⟩
  | node a b iha ihb =>
    intro s T h hc hcap
    simp only [CodeTree.complete, Bool.and_eq_true] at hX
    have hsa := a.size_pos
    have hsb := b.size_pos
    simp only [CodeTree.size] at hcap ⊢
    rcases findPending_holdsTree h with ⟨h1, -⟩ | ⟨-, p, hp, -, -⟩
    · rw [h1] at hc; cases hc
    obtain ⟨s1, z, o, he, hz, ho, hs1, hc1, hn⟩ := expand_fits p s (by omega)
    have h1 := (holdsTree_expand h hp hn hz ho (by rw [hs1]) hc1 (by rw [hs1]) (by omega)).1
    have hpar1 : s1.params = s.params := by rw [hs1]
    have hinc : (CodeTree.fillFirst (.node .unset .unset) T).complete = false := by
      have := CodeTree.unsets_fillFirst hc (.node .unset .unset)
      by_contra hcon
      have h0 := (CodeTree.unsets_eq_zero _).mpr (by simpa using hcon)
      simp [CodeTree.unsets] at this
      omega
    obtain ⟨s2, hr2, h2, hs2, hc2⟩ := iha hX.1 s1 _ h1 hinc (by rw [hpar1]; omega)
    have hpar2 : s2.params = s1.params := by rw [hs2]
    have hnode : ∀ x : CodeTree, CodeTree.fillFirst x (.node .unset .unset) = .node x .unset := fun _ => rfl
    rw [CodeTree.fillFirst_fillFirst hc rfl, hnode] at h2
    have hinc2 : (CodeTree.node a .unset).complete = false := by simp [CodeTree.complete]
    obtain ⟨s3, hr3, h3, hs3, hc3⟩ := ihb hX.2 s2 _ h2 (CodeTree.fillFirst_incomplete hc hinc2) (by rw [hpar2, hpar1]; omega)
    rw [CodeTree.fillFirst_fillFirst hc hinc2] at h3
    have hnode2 : CodeTree.fillFirst b (.node a .unset) = .node a b := by simp [CodeTree.fillFirst, hX.1]
    rw [hnode2] at h3
    refine ⟨s3, ?_, h3, ?_, by omega⟩
    · simp only [CodeTree.tokens, runAll, exec, execHExpand, hp, he, runAll_append, hr2, hr3]
    · rw [hs3, hs2, hs1]

end Sys2Proof
end

