-- ==== Sys2Proof/Laws/Moves.lean ====
section
/-! SUPPORT. What a command can do between its frame's first and last lines, said once for all of them: it makes moves of a few
kinds on the stores and the registers, and it raises errors of the kinds of its row of R130. -/

namespace Sys2Proof.Machine

/-- One move of a command's body: `arena`, `bits` and `blk` say whether it may touch those stores. -/
inductive Move (arena bits blk : Bool) (s : State) : State → Prop
  | setBit (i : Nat) (b : Bool) (hb : bits = true) (hi : i < s.params.bitsMax) : Move arena bits blk s (s.setBit i b)
  | setBlk (i : Nat) (v : Byte) (hb : blk = true) (hi : i < s.params.blockMax) : Move arena bits blk s (s.setBlkByte i v)
  | setNode (n : Nat) (d : Node) (ha : arena = true) (hn : s.node n ≠ .free) (hd : d ≠ .free) :
      Move arena bits blk s (s.setNode n d)
  | alloc (d : Node) (ha : arena = true) (hd : d ≠ .free) (hc : s.nodeCnt.toNat < s.params.nodeCap) :
      Move arena bits blk s { s.setNode s.nodeCnt.toNat d with nodeCnt := s.nodeCnt + 1 }
  | clear (ha : arena = true) : Move arena bits blk s (arenaClear s)
  | root (n : NodeIdx) (ha : arena = true) : Move arena bits blk s { s with root := n }
  | regs (blkLen bitsLen cursor hdrLen symCnt tailBits codeLen : Word) (codeBits : Vector Word 8) :
      Move arena bits blk s { s with
        blkLen := blkLen, bitsLen := bitsLen, cursor := cursor, hdrLen := hdrLen, symCnt := symCnt, tailBits := tailBits
        codeLen := codeLen, codeBits := codeBits }

/-- Some moves, one after the other. -/
inductive Moves (arena bits blk : Bool) (s : State) : State → Prop
  | refl : Moves arena bits blk s s
  | step {t u : State} (h : Moves arena bits blk s t) (m : Move arena bits blk t u) : Moves arena bits blk s u

theorem Move.moves {a b c : Bool} {s t : State} (h : Move a b c s t) : Moves a b c s t := .step .refl h

theorem Moves.trans {a b c : Bool} {s t u : State} (h : Moves a b c s t) (h' : Moves a b c t u) : Moves a b c s u := by
  induction h' with
  | refl => exact h
  | step _ m ih => exact .step ih m

/-- Fewer stores touched is a special case. -/
theorem Moves.mono {a b c a' b' c' : Bool} {s t : State} (h : Moves a b c s t) (ha : a = true → a' = true)
    (hb : b = true → b' = true) (hc : c = true → c' = true) : Moves a' b' c' s t := by
  induction h with
  | refl => exact .refl
  | step _ m ih =>
    refine .step ih ?_
    cases m with
    | setBit i x h hi => exact .setBit i x (hb h) hi
    | setBlk i x h hi => exact .setBlk i x (hc h) hi
    | setNode n d h hn hd => exact .setNode n d (ha h) hn hd
    | alloc d h hd hn => exact .alloc d (ha h) hd hn
    | clear h => exact .clear (ha h)
    | root n h => exact .root n (ha h)
    | regs => exact .regs ..

/-- What every move keeps, moves keep. -/
theorem Moves.keep {a b c : Bool} {P : State → Prop} (hP : ∀ s t, Move a b c s t → P s → P t) {s t : State}
    (h : Moves a b c s t) (hs : P s) : P t := by
  induction h with
  | refl => exact hs
  | step _ m ih => exact hP _ _ m ih

/-- Moves never touch the control registers, the parameters or the model's own fields. -/
theorem Moves.control {a b c : Bool} {s t : State} (h : Moves a b c s t) :
    t.cmd = s.cmd ∧ t.busy = s.busy ∧ t.done = s.done ∧ t.err = s.err ∧ t.stickyErr = s.stickyErr ∧ t.errCode = s.errCode ∧
      t.errInfo = s.errInfo ∧ SameSurroundings s t := by
  refine h.keep (P := fun t => t.cmd = s.cmd ∧ t.busy = s.busy ∧ t.done = s.done ∧ t.err = s.err ∧
    t.stickyErr = s.stickyErr ∧ t.errCode = s.errCode ∧ t.errInfo = s.errInfo ∧ SameSurroundings s t) ?_
    ⟨rfl, rfl, rfl, rfl, rfl, rfl, rfl, rfl, rfl, rfl, rfl, rfl⟩
  intro t u m hp
  cases m <;> exact hp

/-- Moves that may not touch BITS leave it as it is. -/
theorem Moves.bits {a c : Bool} {s t : State} (h : Moves a false c s t) : t.bits = s.bits ∧ t.resets = s.resets := by
  refine h.keep (P := fun t => t.bits = s.bits ∧ t.resets = s.resets) ?_ ⟨rfl, rfl⟩
  intro t u m hp
  cases m <;> first | exact hp | contradiction

/-- Moves that may not touch BLK leave it as it is. -/
theorem Moves.blk {a b : Bool} {s t : State} (h : Moves a b false s t) : t.blk = s.blk ∧ t.resets = s.resets := by
  refine h.keep (P := fun t => t.blk = s.blk ∧ t.resets = s.resets) ?_ ⟨rfl, rfl⟩
  intro t u m hp
  cases m <;> first | exact hp | contradiction

/-- Moves that may not touch the arena leave it as it is. -/
theorem Moves.arena {b c : Bool} {s t : State} (h : Moves false b c s t) :
    t.nodes = s.nodes ∧ t.nodeCnt = s.nodeCnt ∧ t.root = s.root ∧ t.params = s.params := by
  refine h.keep (P := fun t => t.nodes = s.nodes ∧ t.nodeCnt = s.nodeCnt ∧ t.root = s.root ∧ t.params = s.params) ?_
    ⟨rfl, rfl, rfl, rfl⟩
  intro t u m hp
  cases m <;> first | exact hp | contradiction

theorem Moves.holdsTree {b c : Bool} {s t : State} {T : CodeTree} (h : Moves false b c s t) (hT : HoldsTree s T) :
    HoldsTree t T := by
  obtain ⟨h1, h2, h3, h4⟩ := h.arena
  exact holdsTree_congr hT (node_congr h1) h3 h2 h4

/-- Every move keeps the stores canonical and within their capacities. -/
theorem Move.storesOk {a b c : Bool} {s t : State} (m : Move a b c s t) (h : StoresOk s) : StoresOk t := by
  obtain ⟨⟨k1, k2⟩, ⟨b1, b2⟩, ⟨n1, n2⟩, n3⟩ := h
  cases m with
  | setBit i x hb hi =>
    refine ⟨⟨k1, k2⟩, ⟨Memory.wf_write b1 _ _, fun e he => ?_⟩, ⟨n1, n2⟩, n3⟩
    rcases Memory.mem_write he with rfl | h
    exacts [hi, b2 _ h]
  | setBlk i x hb hi =>
    refine ⟨⟨Memory.wf_write k1 _ _, fun e he => ?_⟩, ⟨b1, b2⟩, ⟨n1, n2⟩, n3⟩
    rcases Memory.mem_write he with rfl | h
    exacts [hi, k2 _ h]
  | setNode n d ha hn hd =>
    refine ⟨⟨k1, k2⟩, ⟨b1, b2⟩, ⟨setNode_wfNodes n1 _ _, fun e he => ?_⟩, n3⟩
    rw [setNode_nodes, if_neg hd] at he
    rcases Memory.mem_write he with rfl | h
    · show n < s.nodeCnt.toNat
      cases hr : Memory.read s.nodes n with
      | none => exact absurd (by simp [State.node, hr]) hn
      | some x => exact n2 _ (Memory.mem_of_read hr)
    · exact n2 _ h
  | alloc d ha hd hc =>
    have hlt := nodeCap_lt s
    have h1 : (s.nodeCnt + 1).toNat = s.nodeCnt.toNat + 1 := toNat_add_ofNat (k := 1) (by omega)
    refine ⟨⟨k1, k2⟩, ⟨b1, b2⟩, ⟨setNode_wfNodes n1 _ _, fun e he => ?_⟩, ?_⟩
    · have he' : e ∈ (s.setNode s.nodeCnt.toNat d).nodes := he
      rw [setNode_nodes, if_neg hd] at he'
      show e.1 < (s.nodeCnt + 1).toNat
      rw [h1]
      rcases Memory.mem_write he' with rfl | h
      · exact Nat.lt_succ_self _
      · exact Nat.lt_succ_of_lt (n2 _ h)
    · show (s.nodeCnt + 1).toNat ≤ s.params.nodeCap
      omega
  | clear ha =>
    exact ⟨⟨k1, k2⟩, ⟨b1, b2⟩, ⟨⟨List.Pairwise.nil, by simp [arenaClear]⟩, by simp [arenaClear]⟩, Nat.zero_le _⟩
  | root n ha => exact ⟨⟨k1, k2⟩, ⟨b1, b2⟩, ⟨n1, n2⟩, n3⟩
  | regs => exact ⟨⟨k1, k2⟩, ⟨b1, b2⟩, ⟨n1, n2⟩, n3⟩

/-! ### How a body can end -/

/-- A body's result, reached by moves, with an error from `errs` when it raises one. -/
def Ends (arena bits blk : Bool) (errs : List Err) (s : State) (r : BodyResult) : Prop :=
  Moves arena bits blk s r.state ∧ ∀ e info t, r = .raised e info t → e ∈ errs

theorem Ends.completed {a b c : Bool} {errs : List Err} {s t : State} (h : Moves a b c s t) :
    Ends a b c errs s (.completed t) := ⟨h, fun _ _ _ h => by cases h⟩

theorem Ends.raised {a b c : Bool} {errs : List Err} {s t : State} {e : Err} {info : Word} (h : Moves a b c s t)
    (he : e ∈ errs) : Ends a b c errs s (.raised e info t) := ⟨h, fun _ _ _ h => by cases h; exact he⟩

theorem Ends.mono {a b c : Bool} {errs errs' : List Err} {s : State} {r : BodyResult} (h : Ends a b c errs s r)
    (he : ∀ e ∈ errs, e ∈ errs') : Ends a b c errs' s r := ⟨h.1, fun e info t hr => he e (h.2 e info t hr)⟩

theorem Ends.after {a b c : Bool} {errs : List Err} {s t : State} {r : BodyResult} (h : Moves a b c s t)
    (hr : Ends a b c errs t r) : Ends a b c errs s r := ⟨h.trans hr.1, hr.2⟩

/-- Writing registers only, with the result at hand. -/
theorem Moves.ofRegs {a b c : Bool} {s t : State} (h : t = { s with
      blkLen := t.blkLen, bitsLen := t.bitsLen, cursor := t.cursor, hdrLen := t.hdrLen, symCnt := t.symCnt
      tailBits := t.tailBits, codeLen := t.codeLen, codeBits := t.codeBits }) : Moves a b c s t := by
  rw [h]
  exact (Move.regs ..).moves

theorem Moves.setRegs {a b c : Bool} (s : State) (blkLen bitsLen cursor hdrLen symCnt tailBits codeLen : Word)
    (codeBits : Vector Word 8) : Moves a b c s { s with
        blkLen := blkLen, bitsLen := bitsLen, cursor := cursor, hdrLen := hdrLen, symCnt := symCnt, tailBits := tailBits
        codeLen := codeLen, codeBits := codeBits } := (Move.regs ..).moves

/-! ### The bit sequence -/

theorem appendBit_ends {a c : Bool} (b : Bool) (s : State) : Ends a true c [.bitsOverflow] s (appendBit b s) := by
  unfold appendBit
  split
  · exact .raised .refl (by simp)
  · rename_i h
    exact .completed ((Move.setBit _ b rfl (by omega)).moves.trans (.setRegs _ _ (s.bitsLen + 1) _ _ _ _ _ _))

/-- Appending never brings BITS_LEN above BITS_MAX. -/
theorem appendBit_len (b : Bool) (s : State) (h : s.bitsLen.toNat ≤ s.params.bitsMax) :
    (appendBit b s).state.bitsLen.toNat ≤ s.params.bitsMax := by
  have hm := bitsMax_lt s
  unfold appendBit
  split
  · exact h
  · show (s.bitsLen + 1).toNat ≤ _
    rw [show (s.bitsLen + 1).toNat = s.bitsLen.toNat + 1 from toNat_add_ofNat (k := 1) (by omega)]
    omega

/-- A body that only appends: it ends as such, and BITS_LEN stays legal. -/
def Appends (s : State) (r : BodyResult) : Prop :=
  Ends false true false [.bitsOverflow] s r ∧
    (s.bitsLen.toNat ≤ s.params.bitsMax → r.state.bitsLen.toNat ≤ s.params.bitsMax)

theorem Appends.bind {s : State} {r : BodyResult} {f : State → BodyResult} (h : Appends s r)
    (hf : ∀ t, r = .completed t → Appends t (f t)) : Appends s (r.bind f) := by
  cases r with
  | raised e info t => exact h
  | completed t =>
    have ht := hf t rfl
    have hp : t.params = s.params := h.1.1.control.2.2.2.2.2.2.2.1
    refine ⟨.after h.1.1 ht.1, fun hs => ?_⟩
    have := ht.2 (by rw [hp]; exact h.2 hs)
    rwa [hp] at this

theorem appendBit_appends (b : Bool) (s : State) : Appends s (appendBit b s) := ⟨appendBit_ends b s, appendBit_len b s⟩

theorem appendBits_appends (l : List Bool) (s : State) : Appends s (appendBits l s) := by
  induction l generalizing s with
  | nil => exact ⟨.completed .refl, id⟩
  | cons b rest ih =>
    rw [appendBits_cons]
    exact (appendBit_appends b s).bind (fun t _ => ih t)

theorem ser_appends (a : State) (fuel : Nat) (n : NodeIdx) (s : State) : Appends s (ser a fuel n s) := by
  induction fuel generalizing n s with
  | zero => exact ⟨.completed .refl, id⟩
  | succ fuel ih =>
    have leaf : ∀ d : Node, Appends s ((appendBit false s).bind (appendByte d.value)) :=
      fun d => (appendBit_appends false s).bind (fun t _ => appendBits_appends _ t)
    have inner : ∀ z o, Appends s ((appendBit true s).bind (fun u => (ser a fuel z u).bind (ser a fuel o))) :=
      fun z o => (appendBit_appends true s).bind (fun t _ => (ih z t).bind (fun u _ => ih o u))
    unfold ser
    cases a.node n.toNat with
    | free =>
      have := leaf .free
      cases h : appendBit false s <;> simp only [h] at this ⊢ <;> exact this
    | unset =>
      have := leaf .unset
      cases h : appendBit false s <;> simp only [h] at this ⊢ <;> exact this
    | leaf v =>
      have := leaf (.leaf v)
      cases h : appendBit false s <;> simp only [h] at this ⊢ <;> exact this
    | internal z o =>
      have := inner z o
      cases h : appendBit true s with
      | raised e info t => simp only [h] at this ⊢; exact this
      | completed t =>
        simp only [h, BodyResult.completed_bind] at this ⊢
        cases h' : ser a fuel z t <;> simp only [h'] at this ⊢ <;> exact this

theorem encodeBytes_moves (block : List Byte) (i : Nat) (s : State) :
    Ends false true false [.noCode, .bitsOverflow] s (encodeBytes block i s) ∧
      (s.bitsLen.toNat ≤ s.params.bitsMax → (encodeBytes block i s).state.bitsLen.toNat ≤ s.params.bitsMax) := by
  induction block generalizing i s with
  | nil => exact ⟨.completed .refl, id⟩
  | cons v rest ih =>
    unfold encodeBytes
    cases lookupPath s v with
    | none => exact ⟨.raised .refl (by simp), id⟩
    | some q =>
      have h1 := appendBits_appends q s
      have hp : (appendBits q s).state.params = s.params := h1.1.1.control.2.2.2.2.2.2.2.1
      cases h : appendBits q s with
      | raised e info t =>
        rw [h] at h1
        dsimp only
        rw [h]
        exact ⟨h1.1.mono (by simp), h1.2⟩
      | completed t =>
        rw [h] at h1 hp
        dsimp only
        rw [h]
        obtain ⟨h2, h3⟩ := ih (i + 1) t
        refine ⟨.after h1.1.1 h2, fun hs => ?_⟩
        have hp' : t.params = s.params := hp
        have := h3 (by rw [hp']; exact h1.2 hs)
        rwa [hp'] at this

theorem zeroBits_moves (n i : Nat) (s : State) (h : i + n ≤ s.params.bitsMax) : Moves false true false s (zeroBits n i s) := by
  induction n generalizing i s with
  | zero => exact .refl
  | succ n ih =>
    exact (Move.setBit i false rfl (by omega)).moves.trans (ih (i + 1) (s.setBit i false) (by show i + 1 + n ≤ _; exact Nat.le_trans (by omega) h))

/-- The tail stays within BITS, whose capacity is a whole number of bytes (R5). -/
theorem zeroFillTail_moves (s : State) (h : s.bitsLen.toNat ≤ s.params.bitsMax) : Moves false true false s (zeroFillTail s) := by
  have := s.params.bitsMax_range.2.2
  exact zeroBits_moves _ _ _ (by omega)

theorem serializeRun_ends (s : State) (h : s.bitsLen.toNat ≤ s.params.bitsMax) :
    Ends false true false [.bitsOverflow] s (serializeRun s) := by
  have h1 := ser_appends s s.params.nodeCap s.root s
  unfold serializeRun serRoot
  cases hr : ser s s.params.nodeCap s.root s with
  | raised e info t => rw [hr] at h1; exact h1.1
  | completed t =>
    rw [hr] at h1
    have hp : t.params = s.params := h1.1.1.control.2.2.2.2.2.2.2.1
    refine .completed (h1.1.1.trans ((Moves.setRegs t t.blkLen t.bitsLen t.cursor (t.bitsLen - s.bitsLen) t.symCnt t.tailBits
      t.codeLen t.codeBits).trans (zeroFillTail_moves _ ?_)))
    show t.bitsLen.toNat ≤ t.params.bitsMax
    rw [hp]
    exact h1.2 h

theorem encodeAppend_ends (s : State) (h : s.bitsLen.toNat ≤ s.params.bitsMax) :
    Ends false true false [.noCode, .bitsOverflow] s (encodeAppend s) := by
  obtain ⟨h1, h2⟩ := encodeBytes_moves (blockBytes s) 0 s
  unfold encodeAppend encodeRun
  cases hr : encodeBytes (blockBytes s) 0 s with
  | raised e info t =>
    rw [hr] at h1
    exact ⟨h1.1.trans (.setRegs t _ s.bitsLen _ _ _ _ _ _), fun e' i' t' hx => by cases hx; exact h1.2 _ _ _ rfl⟩
  | completed t =>
    rw [hr] at h1 h2
    have hp : t.params = s.params := h1.1.control.2.2.2.2.2.2.2.1
    refine .completed (h1.1.trans (zeroFillTail_moves t ?_))
    rw [hp]
    exact h2 h

/-! ### The decoder -/

theorem readBit_moves {a b c : Bool} {s t : State} {x : Bool} (h : readBit s = some (x, t)) : Moves a b c s t := by
  simp only [readBit] at h
  split at h
  · cases h
  · cases h
    exact .setRegs s _ _ (s.cursor + 1) _ _ _ _ _

theorem decodeLoop_ends (fuel : Nat) (n : NodeIdx) (k : Nat) (s : State) :
    Ends false false true [.blkOverflow] s (decodeLoop fuel n k s) := by
  induction fuel generalizing n k s with
  | zero => exact .completed .refl
  | succ fuel ih =>
    have emit : ∀ d : Node, Ends false false true [.blkOverflow] s
        (if s.params.blockMax ≤ s.blkLen.toNat then BodyResult.raised .blkOverflow s.cursor { s with blkLen := 0 }
          else decodeLoop fuel s.root 0 { s.setBlkByte s.blkLen.toNat d.value with blkLen := s.blkLen + 1 }) := by
      intro d
      split
      · exact .raised (.setRegs s 0 _ _ _ _ _ _ _) (by simp)
      · rename_i hlt
        exact .after ((Move.setBlk _ d.value rfl (by omega)).moves.trans (.setRegs _ (s.blkLen + 1) _ _ _ _ _ _ _)) (ih _ _ _)
    unfold decodeLoop
    cases s.node n.toNat with
    | free => exact emit .free
    | unset => exact emit .unset
    | leaf v => exact emit (.leaf v)
    | internal z o =>
      cases hr : readBit s with
      | none => exact .completed (.setRegs s _ _ _ _ _ (BitVec.ofNat 32 k) _ _)
      | some x =>
        obtain ⟨x, t⟩ := x
        exact .after (readBit_moves hr) (ih _ _ t)

theorem decodeRun_ends (s : State) : Ends false false true [.blkOverflow] s (decodeRun s) := by
  have h0 : Moves false false true s { s with blkLen := 0, tailBits := 0 } := .setRegs s 0 _ _ _ _ 0 _ _
  unfold decodeRun
  dsimp only
  split
  · exact .completed h0
  · exact .after h0 (decodeLoop_ends _ _ _ _)

/-! ### The tree -/

theorem treeInit_moves {b c : Bool} (s : State) : Moves true b c s (treeInit s) := by
  have h1 : Moves true b c s (arenaClear s) := (Move.clear rfl).moves
  have hcap := s.params.nodeCap_range.1
  have h2 : Move true b c (arenaClear s) { (arenaClear s).setNode 0 .unset with nodeCnt := 1 } :=
    Move.alloc (s := arenaClear s) .unset rfl (by simp) (by show 0 < s.params.nodeCap; omega)
  exact (h1.step h2).trans (Move.root 0 rfl).moves

theorem findPendingFrom_unset (s : State) (fuel : Nat) (n p : NodeIdx) (h : findPendingFrom s fuel n = some p) :
    s.node p.toNat = .unset := by
  induction fuel generalizing n with
  | zero => cases h
  | succ fuel ih =>
    unfold findPendingFrom at h
    cases hn : s.node n.toNat with
    | unset => simp only [hn] at h; cases h; exact hn
    | leaf v => simp only [hn] at h; cases h
    | free => simp only [hn] at h; cases h
    | internal z o =>
      simp only [hn] at h
      cases hz : findPendingFrom s fuel z with
      | some q => simp only [hz] at h; cases h; exact ih z hz
      | none => simp only [hz] at h; exact ih o h

/-- The pending node is UNSET, on any arena at all. -/
theorem findPending_is_unset {s : State} {p : NodeIdx} (h : findPending s = some p) : s.node p.toNat = .unset := by
  unfold findPending at h
  split at h
  · cases h
  · exact findPendingFrom_unset s _ _ p h

theorem makeLeaf_moves {b c : Bool} {s : State} {p : NodeIdx} (v : Byte) (h : s.node p.toNat ≠ .free) :
    Moves true b c s (makeLeaf p v s) := (Move.setNode _ _ rfl h (by simp)).moves

theorem expand_moves {b c : Bool} {s t : State} {p z o : NodeIdx} (hp : s.node p.toNat ≠ .free)
    (h : expand p s = some (t, z, o)) : Moves true b c s t ∧ t.node z.toNat ≠ .free := by
  have hlt := nodeCap_lt s
  simp only [expand] at h
  split at h
  · cases h
  · rename_i hcap
    cases h
    have h1 : (s.nodeCnt + 1).toNat = s.nodeCnt.toNat + 1 := toNat_add_ofNat (k := 1) (by omega)
    have hz : (s.nodeCnt.setWidth 16).toNat = s.nodeCnt.toNat := nodeIdx_toNat (by omega)
    have ho : ((s.nodeCnt + 1).setWidth 16).toNat = (s.nodeCnt + 1).toNat := nodeIdx_toNat (by omega)
    have m1 : Move true b c s { s.setNode s.nodeCnt.toNat .unset with nodeCnt := s.nodeCnt + 1 } :=
      .alloc .unset rfl (by simp) (by omega)
    have m2 : Move true b c { s.setNode s.nodeCnt.toNat .unset with nodeCnt := s.nodeCnt + 1 }
        { (s.setNode s.nodeCnt.toNat .unset).setNode (s.nodeCnt + 1).toNat .unset with nodeCnt := s.nodeCnt + 1 + 1 } :=
      Move.alloc (s := { s.setNode s.nodeCnt.toNat .unset with nodeCnt := s.nodeCnt + 1 }) .unset rfl (by simp)
        (by show (s.nodeCnt + 1).toNat < s.params.nodeCap; omega)
    have e2 : s.nodeCnt + 1 + 1 = s.nodeCnt + 2 := by rw [BitVec.add_assoc]; rfl
    rw [e2] at m2
    have hnode : ∀ m, ({ (s.setNode s.nodeCnt.toNat .unset).setNode (s.nodeCnt + 1).toNat .unset with
        nodeCnt := s.nodeCnt + 2 } : State).node m =
          if m = (s.nodeCnt + 1).toNat then .unset else if m = s.nodeCnt.toNat then .unset else s.node m := by
      intro m
      exact (node_setNode (d := .unset) _ _ (by simp) m).trans (by rw [node_setNode (d := .unset) _ _ (by simp)])
    have m12 := m1.moves.step m2
    rw [hz, ho]
    generalize ({ (s.setNode s.nodeCnt.toNat .unset).setNode (s.nodeCnt + 1).toNat .unset with
        nodeCnt := s.nodeCnt + 2 } : State) = u at m12 hnode ⊢
    have hpu : u.node p.toNat ≠ .free := by
      rw [hnode]
      repeat' split
      exacts [by simp, by simp, hp]
    refine ⟨m12.step (.setNode _ _ rfl hpu (by simp)), ?_⟩
    rw [node_setNode _ _ (by simp), hnode]
    repeat' split
    all_goals first | (exfalso; omega) | simp

theorem expandSpine_moves {b c : Bool} (d : Nat) (p : NodeIdx) (s : State) (hp : s.node p.toNat ≠ .free) :
    Moves true b c s (expandSpine d p s).2 ∧ ∀ q, (expandSpine d p s).1 = some q → (expandSpine d p s).2.node q.toNat ≠ .free := by
  induction d generalizing p s with
  | zero => exact ⟨.refl, fun q hq => by cases hq; exact hp⟩
  | succ d ih =>
    unfold expandSpine
    cases he : expand p s with
    | none => exact ⟨.refl, fun q hq => by cases hq⟩
    | some x =>
      obtain ⟨t, z, o⟩ := x
      obtain ⟨h1, h2⟩ := expand_moves (b := b) (c := c) hp he
      obtain ⟨h3, h4⟩ := ih z t h2
      exact ⟨h1.trans h3, h4⟩

theorem readDistance_moves {a b c : Bool} (fuel d : Nat) (s : State) : Moves a b c s (readDistance fuel d s).2 := by
  induction fuel generalizing d s with
  | zero => exact .refl
  | succ fuel ih =>
    unfold readDistance
    cases h : readBit s with
    | none => exact .refl
    | some x =>
      obtain ⟨x, t⟩ := x
      cases x
      · exact readBit_moves h
      · exact (readBit_moves h).trans (ih _ t)

theorem readValue_moves {a b c : Bool} (n v : Nat) (s : State) : Moves a b c s (readValue n v s).2 := by
  induction n generalizing v s with
  | zero => exact .refl
  | succ n ih =>
    unfold readValue
    cases h : readBit s with
    | none => exact .refl
    | some x =>
      obtain ⟨x, t⟩ := x
      exact (readBit_moves h).trans (ih _ t)

theorem readRecord_moves {a b c : Bool} (s : State) : Moves a b c s (readRecord s).2 := by
  have h1 := readDistance_moves (a := a) (b := b) (c := c) (bitsLeft s + 1) 0 s
  unfold readRecord
  rcases hd : readDistance (bitsLeft s + 1) 0 s with ⟨_ | d, s1⟩
  · rw [hd] at h1; exact h1
  · rw [hd] at h1
    have h2 := readValue_moves (a := a) (b := b) (c := c) 8 0 s1
    dsimp only
    rcases hv : readValue 8 0 s1 with ⟨_ | v, s2⟩
    · rw [hv] at h2; exact h1.trans h2
    · rw [hv] at h2; exact h1.trans h2

/-- The cursor, the registers and the bits are no part of the arena. -/
theorem readRecord_node (s : State) (n : Nat) : (readRecord s).2.node n = s.node n :=
  node_congr (readRecord_moves (a := false) (b := false) (c := false) s).arena.1 n

theorem headerFail_ends {b c : Bool} {errs : List Err} {e : Err} {info : Word} {s t : State} (h : Moves true b c s t)
    (he : e ∈ errs) : Ends true b c errs s (headerFail e info t) :=
  .raised (h.trans ((Move.clear rfl).moves.trans (.setRegs _ _ _ _ 0 _ _ _ _))) he

theorem deserializeLoop_ends (fuel : Nat) (s : State) :
    Ends true false false [.truncatedHeader, .treeOverflow] s (deserializeLoop fuel s) := by
  induction fuel generalizing s with
  | zero => exact .completed .refl
  | succ fuel ih =>
    unfold deserializeLoop
    cases hf : findPending s with
    | none => exact .completed .refl
    | some p =>
      have h1 := readRecord_moves (a := true) (b := false) (c := false) s
      have h2 := readRecord_node s p.toNat
      rw [findPending_is_unset hf] at h2
      dsimp only
      rcases hr : readRecord s with ⟨_ | ⟨d, v⟩, s1⟩
      · rw [hr] at h1; exact headerFail_ends h1 (by simp)
      · rw [hr] at h1 h2
        obtain ⟨h3, h4⟩ := expandSpine_moves (b := false) (c := false) d p s1 (by rw [h2]; simp)
        dsimp only
        rcases he : expandSpine d p s1 with ⟨_ | q, s2⟩
        · rw [he] at h3; exact headerFail_ends (h1.trans h3) (by simp)
        · rw [he] at h3 h4
          exact .after ((h1.trans h3).trans (makeLeaf_moves v (h4 q rfl))) (ih _)

theorem deserializeRun_ends (s : State) :
    Ends true false false [.truncatedHeader, .treeOverflow] s (deserializeRun s) := by
  have h := Ends.after (treeInit_moves s) (deserializeLoop_ends (bitsLeft s + 1) (treeInit s))
  unfold deserializeRun
  cases hr : deserializeLoop (bitsLeft s + 1) (treeInit s) with
  | raised e info t => rw [hr] at h; exact h
  | completed t => rw [hr] at h; exact .completed (h.1.trans (.setRegs t _ _ _ (t.cursor - s.cursor) _ _ _ _))

/-! ### The builder -/

theorem formLeaves_moves {b c : Bool} (ord : List (Byte × Nat)) (wl : List WorkEntry) (s : State)
    (h : s.nodeCnt.toNat + ord.length ≤ s.params.nodeCap) :
    Moves true b c s (formLeaves ord wl s).1 ∧
      (formLeaves ord wl s).1.nodeCnt.toNat = s.nodeCnt.toNat + ord.length ∧
      (formLeaves ord wl s).2.length = wl.length + ord.length := by
  induction ord generalizing wl s with
  | nil => exact ⟨.refl, rfl, rfl⟩
  | cons x rest ih =>
    obtain ⟨v, k⟩ := x
    have hlt := nodeCap_lt s
    rw [List.length_cons] at h ⊢
    have h1 : (s.nodeCnt + 1).toNat = s.nodeCnt.toNat + 1 := toNat_add_ofNat (k := 1) (by omega)
    obtain ⟨i1, i2, i3⟩ := ih (wlInsert ⟨k, s.nodeCnt.setWidth 16⟩ wl)
      { s.setNode s.nodeCnt.toNat (.leaf v) with nodeCnt := s.nodeCnt + 1 }
      (by show (s.nodeCnt + 1).toNat + rest.length ≤ s.params.nodeCap; omega)
    have i2' : _ = (s.nodeCnt + 1).toNat + rest.length := i2
    refine ⟨(Move.alloc (.leaf v) rfl (by simp) (by omega)).moves.trans i1, ?_, ?_⟩
    · show (formLeaves rest _ _).1.nodeCnt.toNat = _
      rw [i2', h1]
      omega
    · show (formLeaves rest _ _).2.length = _
      rw [i3, wlInsert_length]
      omega

theorem mergeAll_moves {b c : Bool} (fuel : Nat) (wl : List WorkEntry) (s : State)
    (h : s.nodeCnt.toNat + wl.length ≤ s.params.nodeCap + 1) : Moves true b c s (mergeAll fuel wl s).1 := by
  induction fuel generalizing wl s with
  | zero => exact .refl
  | succ fuel ih =>
    match wl with
    | [] => exact .refl
    | [_] => exact .refl
    | e1 :: e2 :: rest =>
      have hlt := nodeCap_lt s
      simp only [List.length_cons] at h
      have h1 : (s.nodeCnt + 1).toNat = s.nodeCnt.toNat + 1 := toNat_add_ofNat (k := 1) (by omega)
      refine (Move.alloc (.internal e1.node e2.node) rfl (by simp) (by omega)).moves.trans (ih _ _ ?_)
      show (s.nodeCnt + 1).toNat + (wlInsert _ rest).length ≤ s.params.nodeCap + 1
      rw [wlInsert_length]
      omega

/-- BUILD always fits: a block has at most 256 distinct values, and NODE_CAP is at least 511 (R5, R116). -/
theorem buildRun_moves {b c : Bool} (s : State) : Moves true b c s (buildRun s) := by
  have hcap := s.params.nodeCap_range.1
  have hlen : (countBytes (blockBytes s)).length ≤ 256 := by
    rw [countBytes_eq, List.length_map]
    exact eraseDups_length_le _
  obtain ⟨h1, h2, h3⟩ := formLeaves_moves (b := b) (c := c) (countBytes (blockBytes s)) [] (arenaClear s)
    (by show 0 + _ ≤ s.params.nodeCap; omega)
  have h2' : _ = 0 + (countBytes (blockBytes s)).length := h2
  have hp : (formLeaves (countBytes (blockBytes s)) [] (arenaClear s)).1.params = s.params :=
    h1.control.2.2.2.2.2.2.2.1
  have h4 := mergeAll_moves (b := b) (c := c) (formLeaves (countBytes (blockBytes s)) [] (arenaClear s)).2.length
    (formLeaves (countBytes (blockBytes s)) [] (arenaClear s)).2
    (formLeaves (countBytes (blockBytes s)) [] (arenaClear s)).1
    (by rw [h2', h3, hp, List.length_nil]; omega)
  exact ((((Move.clear rfl).moves.trans h1).trans h4).step (Move.root (rootOf _ _) rfl)).trans (.ofRegs rfl)

theorem formLeaves_bitsLen (ord : List (Byte × Nat)) (wl : List WorkEntry) (s : State) :
    (formLeaves ord wl s).1.bitsLen = s.bitsLen := by
  induction ord generalizing wl s with
  | nil => rfl
  | cons x rest ih => exact ih _ _

theorem mergeAll_bitsLen (fuel : Nat) (wl : List WorkEntry) (s : State) : (mergeAll fuel wl s).1.bitsLen = s.bitsLen := by
  induction fuel generalizing wl s with
  | zero => rfl
  | succ fuel ih =>
    match wl with
    | [] => rfl
    | [_] => rfl
    | _ :: _ :: _ => exact ih _ _

/-- BUILD leaves BITS_LEN alone. -/
theorem buildRun_bitsLen (s : State) : (buildRun s).bitsLen = s.bitsLen :=
  (mergeAll_bitsLen _ _ _).trans (formLeaves_bitsLen _ _ _)

/-! ### The bodies -/

theorem compressRun_ends {b : Bool} (s : State) : Ends true true b [.bitsOverflow, .noCode] s (compressRun s) := by
  have h0 : Moves true true b s (buildRun { s with bitsLen := 0, hdrLen := 0 }) :=
    (Moves.setRegs s _ 0 _ 0 _ _ _ _).trans (buildRun_moves _)
  have hp := h0.control.2.2.2.2.2.2.2.1
  unfold compressRun compressOutput serRoot
  generalize hu : buildRun { s with bitsLen := 0, hdrLen := 0 } = u at *
  have hlen : u.bitsLen.toNat ≤ u.params.bitsMax := by
    have : u.bitsLen = 0 := by rw [← hu, buildRun_bitsLen]
    rw [this]
    exact Nat.zero_le _
  have h1 := ser_appends u u.params.nodeCap u.root u
  have lift : ∀ {x y : State}, Moves false true false x y → Moves true true b x y := fun h => h.mono (fun _ => rfl) (fun _ => rfl) (by simp)
  cases hr : ser u u.params.nodeCap u.root u with
  | raised e info t =>
    rw [hr] at h1
    dsimp only
    refine .raised (h0.trans ((lift h1.1.1).trans (.setRegs _ _ 0 _ 0 _ _ _ _))) ?_
    have := h1.1.2 e info t rfl
    simp at this
    simp [this]
  | completed t =>
    rw [hr] at h1
    have hpt : t.params = u.params := h1.1.1.control.2.2.2.2.2.2.2.1
    dsimp only
    unfold encodeRun
    generalize hv : ({ t with hdrLen := t.bitsLen } : State) = v
    have hm : Moves true true b t v := by rw [← hv]; exact .setRegs _ _ _ _ t.bitsLen _ _ _ _
    have hvl : v.bitsLen.toNat ≤ v.params.bitsMax := by
      rw [← hv]
      show t.bitsLen.toNat ≤ t.params.bitsMax
      rw [hpt]
      exact h1.2 hlen
    obtain ⟨h2, h3⟩ := encodeBytes_moves (blockBytes v) 0 v
    cases hr2 : encodeBytes (blockBytes v) 0 v with
    | raised e info x =>
      rw [hr2] at h2
      dsimp only
      refine .raised ((((h0.trans (lift h1.1.1)).trans hm).trans (lift h2.1)).trans (.setRegs _ _ 0 _ 0 _ _ _ _)) ?_
      have := h2.2 e info x rfl
      simp at this ⊢
      exact this.symm
    | completed x =>
      rw [hr2] at h2 h3
      have hpx : x.params = v.params := h2.1.control.2.2.2.2.2.2.2.1
      dsimp only
      exact .completed ((((h0.trans (lift h1.1.1)).trans hm).trans (lift h2.1)).trans
        (lift (zeroFillTail_moves x (by rw [hpx]; exact h3 hvl))))

theorem decompressRun_ends (s : State) :
    Ends true false true [.truncatedHeader, .treeOverflow, .blkOverflow] s (decompressRun s) := by
  have h0 : Moves true false true s { s with cursor := 0 } := .setRegs s _ _ 0 _ _ _ _ _
  have h1 := deserializeRun_ends { s with cursor := 0 }
  unfold decompressRun
  cases hr : deserializeRun { s with cursor := 0 } with
  | raised e info t =>
    rw [hr] at h1
    refine .raised (h0.trans ((h1.1.mono (by simp) (by simp) (by simp)).trans (.setRegs _ 0 _ _ _ _ 0 _ _))) ?_
    have := h1.2 e info t rfl
    simp at this ⊢
    tauto
  | completed t =>
    rw [hr] at h1
    have h2 := decodeRun_ends t
    exact .after (h0.trans (h1.1.mono (by simp) (by simp) (by simp)))
      ⟨h2.1.mono (by simp) (by simp) (by simp), fun e info u hu => by have := h2.2 e info u hu; simp at this ⊢; tauto⟩

theorem firstError_mem {l : List Check} {x : Err × Word} (h : firstError l = some x) : some x ∈ l := by
  induction l with
  | nil => cases h
  | cons c rest ih =>
    cases c with
    | none => exact List.mem_cons_of_mem _ (ih h)
    | some y => exact List.mem_cons.mpr (.inl h.symm)

theorem firstError_none {l : List Check} (h : firstError l = none) : ∀ c ∈ l, c = none := by
  induction l with
  | nil => simp
  | cons c rest ih =>
    cases c with
    | none => simpa [firstError] using ih h
    | some y => cases h

/-- A guarded body ends with an error of one of its checks, or as its body does behind passed checks. -/
theorem guarded_ends {a b c : Bool} {errs : List Err} {checks : List (State → Check)} {body : State → BodyResult} {s : State}
    (hchk : ∀ k ∈ checks, ∀ e info, k s = some (e, info) → e ∈ errs)
    (hbody : (∀ k ∈ checks, k s = none) → Ends a b c errs s (body s)) : Ends a b c errs s (guarded checks body s) := by
  rcases guarded_cases checks body s with ⟨e, info, h1, h2⟩ | ⟨h1, h2⟩
  · rw [h2]
    obtain ⟨k, hk, hk'⟩ := List.mem_map.mp (firstError_mem h1)
    exact .raised .refl (hchk k hk e info hk')
  · rw [h2]
    exact hbody (fun k hk => firstError_none h1 _ (List.mem_map_of_mem hk))

/-! The one error of each check. -/

theorem checkBlkLen_err {s : State} {e : Err} {info : Word} (h : checkBlkLen s = some (e, info)) : e = .badLength := by
  unfold checkBlkLen at h
  split at h <;> cases h
  rfl

theorem checkBitsLen_err {s : State} {e : Err} {info : Word} (h : checkBitsLen s = some (e, info)) : e = .badLength := by
  unfold checkBitsLen at h
  split at h <;> cases h
  rfl

theorem checkCursor_err {s : State} {e : Err} {info : Word} (h : checkCursor s = some (e, info)) : e = .badLength := by
  unfold checkCursor at h
  split at h <;> cases h
  rfl

theorem checkBlockNotEmpty_err {s : State} {e : Err} {info : Word} (h : checkBlockNotEmpty s = some (e, info)) :
    e = .emptyBlock := by
  unfold checkBlockNotEmpty at h
  split at h <;> cases h
  rfl

theorem checkTree_err {s : State} {e : Err} {info : Word} (h : checkTree s = some (e, info)) : e = .noTree := by
  unfold checkTree at h
  split at h <;> cases h
  rfl

theorem checkComplete_err {s : State} {e : Err} {info : Word} (h : checkComplete s = some (e, info)) :
    e = .treeIncomplete := by
  unfold checkComplete at h
  split at h <;> cases h
  rfl

theorem checkHeaderFits_err {s : State} {e : Err} {info : Word} (h : checkHeaderFits s = some (e, info)) :
    e = .bitsOverflow := by
  unfold checkHeaderFits at h
  split at h <;> cases h
  rfl

theorem checkBitsLen_le {s : State} (h : checkBitsLen s = none) : s.bitsLen.toNat ≤ s.params.bitsMax := by
  by_contra hc
  rw [checkBitsLen_some (by omega)] at h
  cases h

end Sys2Proof.Machine

namespace Sys2Proof

open Sys2Proof.Machine

/-- The errors a command can raise (R130, R145). COMPRESS lists NoCode too, since its body shares ENCODE's loop: that its own
tree holds every byte of its block, so that it never raises it, is no matter of moves. -/
def Instr.errors : Instr → List Err
  | .nop | .clear | .tinit | .hExpand | .hLeaf _ => []
  | .tleaf _ => [.noTree, .noPending]
  | .texpand => [.noTree, .noPending, .treeOverflow]
  | .serialize => [.badLength, .noTree, .treeIncomplete, .bitsOverflow]
  | .deserialize => [.badLength, .truncatedHeader, .treeOverflow]
  | .build => [.badLength, .emptyBlock]
  | .lookup _ => [.noTree, .treeIncomplete, .noCode]
  | .encode => [.badLength, .noTree, .treeIncomplete, .noCode, .bitsOverflow]
  | .decode => [.badLength, .noTree, .treeIncomplete, .blkOverflow]
  | .compress => [.badLength, .emptyBlock, .bitsOverflow, .noCode]
  | .decompress => [.badLength, .truncatedHeader, .treeOverflow, .blkOverflow]

/-- The commands that may write BITS (R63). -/
def Instr.writesBits : Instr → Bool
  | .serialize | .encode | .compress => true
  | .nop | .clear | .tinit | .tleaf _ | .texpand | .deserialize | .build | .lookup _ | .decode | .decompress
  | .hExpand | .hLeaf _ => false

/-- The commands that may write BLK (R63). -/
def Instr.writesBlk : Instr → Bool
  | .decode | .decompress => true
  | .nop | .clear | .tinit | .tleaf _ | .texpand | .serialize | .deserialize | .build | .lookup _ | .encode | .compress
  | .hExpand | .hLeaf _ => false

end Sys2Proof

namespace Sys2Proof.Machine

theorem Ends.weaken {a b c a' b' c' : Bool} {errs errs' : List Err} {s : State} {r : BodyResult} (h : Ends a b c errs s r)
    (ha : a = true → a' = true) (hb : b = true → b' = true) (hc : c = true → c' = true) (he : ∀ e ∈ errs, e ∈ errs') :
    Ends a' b' c' errs' s r := ⟨h.1.mono ha hb hc, fun e info t hr => he e (h.2 e info t hr)⟩

/-- What the body of any command but CLEAR can do: moves on the stores that the command may write, and its own errors. -/
theorem bodyOf_ends {i : Instr} (hi : i.isCommand = true) (hc : i ≠ .clear) (s : State) :
    Ends true i.writesBits i.writesBlk i.errors s (bodyOf i s) := by
  cases i with
  | nop => exact .completed .refl
  | clear => exact absurd rfl hc
  | tinit => exact .completed (treeInit_moves s)
  | tleaf v =>
    refine guarded_ends ?_ (fun _ => ?_)
    · simp only [List.mem_singleton, forall_eq]
      intro e info h
      simp [Instr.errors, checkTree_err h]
    · unfold onPending
      cases hf : findPending s with
      | none => exact .raised .refl (by simp [Instr.errors])
      | some p => exact .completed (makeLeaf_moves v (by rw [findPending_is_unset hf]; simp))
  | texpand =>
    refine guarded_ends ?_ (fun _ => ?_)
    · simp only [List.mem_singleton, forall_eq]
      intro e info h
      simp [Instr.errors, checkTree_err h]
    · unfold onPending
      cases hf : findPending s with
      | none => exact .raised .refl (by simp [Instr.errors])
      | some p =>
        simp only [expandOrRaise]
        cases he : expand p s with
        | none => exact .raised .refl (by simp [Instr.errors])
        | some x => exact .completed (expand_moves (by rw [findPending_is_unset hf]; simp) he).1
  | serialize =>
    refine guarded_ends ?_ (fun hk => ?_)
    · intro k hk e info h
      simp only [List.mem_cons, List.not_mem_nil, or_false] at hk
      rcases hk with rfl | rfl | rfl | rfl
      · simp [Instr.errors, checkBitsLen_err h]
      · simp [Instr.errors, checkTree_err h]
      · simp [Instr.errors, checkComplete_err h]
      · simp [Instr.errors, checkHeaderFits_err h]
    · exact (serializeRun_ends s (checkBitsLen_le (hk checkBitsLen (by simp)))).weaken (by simp) (by simp [Instr.writesBits])
        (by simp) (by simp [Instr.errors])
  | deserialize =>
    refine guarded_ends ?_ (fun hk => ?_)
    · intro k hk e info h
      simp only [List.mem_cons, List.not_mem_nil, or_false] at hk
      rcases hk with rfl | rfl
      · simp [Instr.errors, checkBitsLen_err h]
      · simp [Instr.errors, checkCursor_err h]
    · exact (deserializeRun_ends s).weaken (by simp) (by simp) (by simp) (by simp [Instr.errors])
  | build =>
    show Ends _ _ _ _ s (guarded [checkBlkLen, checkBlockNotEmpty] (fun s => .completed (buildRun s)) s)
    refine guarded_ends ?_ (fun _ => ?_)
    swap
    · exact .completed (buildRun_moves s)
    intro k hk e info h
    simp only [List.mem_cons, List.not_mem_nil, or_false] at hk
    rcases hk with rfl | rfl
    · simp [Instr.errors, checkBlkLen_err h]
    · simp [Instr.errors, checkBlockNotEmpty_err h]
  | lookup v =>
    refine guarded_ends ?_ (fun hk => ?_)
    · intro k hk e info h
      simp only [List.mem_cons, List.not_mem_nil, or_false] at hk
      rcases hk with rfl | rfl
      · simp [Instr.errors, checkTree_err h]
      · simp [Instr.errors, checkComplete_err h]
    · unfold lookupRun
      cases lookupPath s v with
      | none => exact .raised .refl (by simp [Instr.errors])
      | some q => exact .completed (.setRegs s _ _ _ _ _ _ (BitVec.ofNat 32 q.length) (codeBitsOf q))
  | encode =>
    refine guarded_ends ?_ (fun hk => ?_)
    · intro k hk e info h
      simp only [List.mem_cons, List.not_mem_nil, or_false] at hk
      rcases hk with rfl | rfl | rfl | rfl
      · simp [Instr.errors, checkBlkLen_err h]
      · simp [Instr.errors, checkBitsLen_err h]
      · simp [Instr.errors, checkTree_err h]
      · simp [Instr.errors, checkComplete_err h]
    · exact (encodeAppend_ends s (checkBitsLen_le (hk checkBitsLen (by simp)))).weaken (by simp) (by simp [Instr.writesBits])
        (by simp) (by simp [Instr.errors])
  | decode =>
    refine guarded_ends ?_ (fun hk => ?_)
    · intro k hk e info h
      simp only [List.mem_cons, List.not_mem_nil, or_false] at hk
      rcases hk with rfl | rfl | rfl | rfl
      · simp [Instr.errors, checkBitsLen_err h]
      · simp [Instr.errors, checkCursor_err h]
      · simp [Instr.errors, checkTree_err h]
      · simp [Instr.errors, checkComplete_err h]
    · exact (decodeRun_ends s).weaken (by simp) (by simp) (by simp [Instr.writesBlk]) (by simp [Instr.errors])
  | compress =>
    refine guarded_ends ?_ (fun hk => ?_)
    · intro k hk e info h
      simp only [List.mem_cons, List.not_mem_nil, or_false] at hk
      rcases hk with rfl | rfl
      · simp [Instr.errors, checkBlkLen_err h]
      · simp [Instr.errors, checkBlockNotEmpty_err h]
    · exact (compressRun_ends (b := false) s).weaken (by simp) (by simp [Instr.writesBits]) (by simp) (by simp [Instr.errors])
  | decompress =>
    refine guarded_ends ?_ (fun hk => ?_)
    · intro k hk e info h
      simp only [List.mem_cons, List.not_mem_nil, or_false] at hk
      subst hk
      simp [Instr.errors, checkBitsLen_err h]
    · exact (decompressRun_ends s).weaken (by simp) (by simp) (by simp [Instr.writesBlk]) (by simp [Instr.errors])
  | hExpand => cases hi
  | hLeaf v => cases hi

end Sys2Proof.Machine
end

