-- ==== Sys2Proof/Laws/Steps.lean ====
section
/-! SUPPORT. Everything a step can do, said once: what claims over all steps are proved from. -/

namespace Sys2Proof.Machine

/-- Nothing but the pending inputs, the last reply and the count of busy polls differs. -/
def HostOnly (s t : State) : Prop := t = { s with inputs := t.inputs, reply := t.reply, polls := t.polls }

/-- A target that an access names lies within its store (R51, R52, R53, R55). -/
theorem locate_bounds {p : Params} {width : Nat} {addr : Word} {t : Target} (h : locate p width addr = .ok t) :
    match t with
    | .reg _ => True
    | .blkByte i => i < p.blockMax
    | .bitsByte j => 8 * j + 8 ≤ p.bitsMax
    | .nodeWord n _ => n < p.nodeCap := by
  have ht : targetOf p addr.toNat = some t := by
    simp only [locate] at h
    cases hx : targetOf p addr.toNat with
    | none => simp [hx] at h
    | some u =>
      simp only [hx] at h
      split_ifs at h
      cases h
      rfl
  simp only [targetOf] at ht
  split_ifs at ht with h1 h2 h3 h4
  · obtain ⟨r, -, rfl⟩ := Option.map_eq_some_iff.mp ht
    trivial
  · cases ht
    show addr.toNat - 0x01000000 < p.blockMax
    omega
  · cases ht
    show 8 * (addr.toNat - 0x02000000) + 8 ≤ p.bitsMax
    omega
  · cases ht
    show (addr.toNat - 0x03000000) / 8 < p.nodeCap
    omega

theorem setBits_moves {a c : Bool} (l : List Bool) (i : Nat) (s : State) (h : i + l.length ≤ s.params.bitsMax) :
    Moves a true c s (setBits l i s) := by
  induction l generalizing i s with
  | nil => exact .refl
  | cons b rest ih =>
    rw [List.length_cons] at h
    exact (Move.setBit i b rfl (by omega)).moves.trans (ih (i + 1) (s.setBit i b) (by show _ ≤ s.params.bitsMax; omega))

/-- A host write outside CMD writes one register of three, one byte of BLK or eight bits of BITS, or nothing. -/
theorem writeTarget_moves {s : State} {width : Nat} {addr : Word} {t : Target} (data : Word)
    (h : locate s.params width addr = .ok t) : Moves false true true s (writeTarget s data t) := by
  have hb := locate_bounds h
  cases t with
  | reg r => cases r <;> first | exact .refl | exact .ofRegs rfl
  | blkByte i => exact (Move.setBlk i _ rfl hb).moves
  | bitsByte j => exact setBits_moves _ _ _ (by rw [bitsOfByte_length]; exact hb)
  | nodeWord n b => exact .refl

/-- What a step that gives a next state can have been: idle or a host read; an instruction; an illegal word in CMD; a host
write elsewhere; or hardware reset. -/
theorem step_cases {s t : State} (h : step s = .next t) :
    HostOnly s t ∨
      (∃ i u, HostOnly s u ∧ exec i u = .next t) ∨
      (∃ w u, HostOnly s u ∧ t = illegalCommand w u) ∨
      (∃ u v, HostOnly s u ∧ Moves false true true u v ∧ HostOnly v t) ∨
      ∃ u, HostOnly s u ∧ t = hardReset u := by
  unfold step at h
  cases hin : s.inputs with
  | nil => rw [hin] at h; cases h; exact .inl rfl
  | cons i rest =>
    rw [hin] at h
    cases i with
    | reset => cases h; exact .inr (.inr (.inr (.inr ⟨{ s with inputs := rest }, rfl, rfl⟩)))
    | token bits =>
      simp only [applyInput, feedToken] at h
      split at h
      · exact .inr (.inl ⟨_, { s with inputs := rest }, rfl, h⟩)
      · cases h
    | access a =>
      simp only [applyInput, access] at h
      split at h
      · simp only [accessBusy] at h
        split at h
        · cases h; exact .inl rfl
        · cases h
      · cases a with
        | read width addr =>
          simp only [accessIdle] at h
          split at h
          · cases h
          · cases h; exact .inl rfl
        | write width addr data =>
          simp only [accessIdle] at h
          split at h
          · cases h
          · simp only [writeCmd] at h
            split at h
            · exact .inr (.inl ⟨_, { s with inputs := rest, reply := .written }, rfl, h⟩)
            · cases h; exact .inr (.inr (.inl ⟨data, { s with inputs := rest, reply := .written }, rfl, rfl⟩))
          · rename_i tg _ hl
            cases h
            exact .inr (.inr (.inr (.inl ⟨{ s with inputs := rest }, writeTarget { s with inputs := rest } data tg, rfl,
              writeTarget_moves data hl, rfl⟩)))

/-- What an instruction that gives a next state can have done: its body in the command frame; or, for a token, moves on the
arena or the header failure of R105. -/
theorem exec_cases {i : Instr} {s t : State} (h : exec i s = .next t) :
    (i.isCommand = true ∧ t = runFrame (wordOf i) (bodyOf i) s) ∨
      (i.isCommand = false ∧ Moves true false false s t) ∨
      (i = .hExpand ∧ t = finish (headerFail .treeOverflow s.nodeCnt s)) := by
  cases i with
  | hExpand =>
    simp only [exec, execHExpand] at h
    cases hf : findPending s with
    | none => simp [hf] at h
    | some p =>
      simp only [hf] at h
      cases he : expand p s with
      | none => simp only [he] at h; cases h; exact .inr (.inr ⟨rfl, rfl⟩)
      | some x =>
        simp only [he] at h
        cases h
        exact .inr (.inl ⟨rfl, (expand_moves (by rw [findPending_is_unset hf]; simp) he).1⟩)
  | hLeaf v =>
    simp only [exec, execHLeaf] at h
    cases hf : findPending s with
    | none => simp [hf] at h
    | some p =>
      simp only [hf] at h
      cases h
      exact .inr (.inl ⟨rfl, makeLeaf_moves v (by rw [findPending_is_unset hf]; simp)⟩)
  | _ =>
    rw [exec_command rfl] at h
    cases h
    exact .inl ⟨rfl, rfl⟩

/-- A header token decodes to a token, never to a command (R73). -/
theorem isCommand_of_header {bits : List Bool} {i : Instr} (h : decode (.header bits) = .ok i) : i.isCommand = false := by
  simp only [decode] at h
  split at h
  · rename_i j hj
    cases h
    rcases bits with _ | ⟨_ | _, rest⟩
    · cases hj
    · simp only [decodeToken] at hj
      split at hj
      · cases hj
      · rw [← (Prod.mk.inj (Except.ok.inj hj)).1]
        rfl
    · rw [← (Prod.mk.inj (Except.ok.inj hj)).1]
      rfl
  · cases h
  · cases h

/-- The model's own way to place an instruction: the very next step runs it (log 10). -/
theorem step_withFetchWord {s : State} {nbits w : Nat} {i : Instr} (h : decodeTableWord nbits w = some i) :
    (i.isCommand = true → step (s.withFetchWord nbits w) = exec i { s with busy := false, reply := .written }) ∧
      (i.isCommand = false →
        step (s.withFetchWord nbits w) = exec i (if (findPending s).isSome then s else treeInit s)) := by
  simp only [decodeTableWord] at h
  cases hc : tableCode nbits w with
  | none => simp [hc] at h
  | some c =>
    rw [hc] at h
    cases hd : decode c with
    | error e => simp [hd] at h
    | ok j =>
      simp only [hd, Option.some.injEq] at h
      subst h
      simp only [State.withFetchWord, hc]
      cases c with
      | command w' =>
        have hd' : decodeWord w' = .ok j := hd
        refine ⟨fun _ => ?_, fun hi => ?_⟩
        · simp only [step, readyFor, inputOf, applyInput, access, accessIdle, locate_cmd, writeCmd, hd']
          rfl
        · rw [isCommand_of_decodeWord hd'] at hi
          cases hi
      | header bits =>
        refine ⟨fun hi => ?_, fun _ => ?_⟩
        · rw [isCommand_of_header hd] at hi
          cases hi
        · simp only [step, readyFor, inputOf, applyInput, feedToken, hd]
          split <;> rfl

end Sys2Proof.Machine
end

