-- ==== Sys2Proof/Laws/Tokens.lean ====
section
/-! SUPPORT. Header tokens one by one and DESERIALIZE's leaf records are the same work (R73, R98, R105): a record of distance
`d` is `d` tokens H.EXPAND and one H.LEAF. -/

namespace Sys2Proof

open Sys2Proof.Machine

/-- The leaf records of a tree as distances and values (R71). -/
def CodeTree.recordPairs : CodeTree → List (Nat × Byte)
  | .unset => []
  | .leaf v => [(0, v)]
  | .node a b =>
    match a.recordPairs with
    | [] => b.recordPairs
    | (d, v) :: rest => (d + 1, v) :: (rest ++ b.recordPairs)

/-- The tokens of a leaf record (R73). -/
def pairTokens (x : Nat × Byte) : List Instr := List.replicate x.1 .hExpand ++ [.hLeaf x.2]

/-- The bits of a leaf record (R71). -/
def pairBits (x : Nat × Byte) : List Bool := List.replicate x.1 true ++ (false :: bitsOfByte x.2)

theorem CodeTree.recordPairs_spec {t : CodeTree} (h : t.complete = true) :
    t.recordPairs ≠ [] ∧ (t.recordPairs.map pairTokens).flatten = t.tokens ∧
      (t.recordPairs.map pairBits).flatten = t.header := by
  induction t with
  | unset => cases h
  | leaf v => simp [recordPairs, pairTokens, pairBits, tokens, header]
  | node a b iha ihb =>
    simp only [complete, Bool.and_eq_true] at h
    obtain ⟨a1, a2, a3⟩ := iha h.1
    obtain ⟨-, b2, b3⟩ := ihb h.2
    simp only [recordPairs, tokens, header]
    cases ha : a.recordPairs with
    | nil => exact absurd ha a1
    | cons x rest =>
      obtain ⟨d, v⟩ := x
      rw [ha] at a2 a3
      simp only [List.map_cons, List.flatten_cons, pairTokens, pairBits] at a2 a3
      refine ⟨by simp, ?_, ?_⟩
      · rw [← a2, ← b2]
        simp [pairTokens, List.replicate_succ]
      · rw [← a3, ← b3]
        simp [pairBits, List.replicate_succ]

namespace Machine

/-! ### Tokens do not see the registers -/

/-- Two states with the same arena. -/
def SameArena (s t : State) : Prop := t.nodes = s.nodes ∧ t.nodeCnt = s.nodeCnt ∧ t.root = s.root ∧ t.params = s.params

theorem SameArena.findPending {s t : State} (h : SameArena s t) : findPending t = findPending s :=
  findPending_congr (node_congr h.1) h.2.2.1 h.2.1 h.2.2.2

theorem SameArena.makeLeaf {s t : State} (h : SameArena s t) (p : NodeIdx) (v : Byte) :
    SameArena (makeLeaf p v s) (makeLeaf p v t) := by
  obtain ⟨h1, h2, h3, h4⟩ := h
  exact ⟨by simp [Machine.makeLeaf, h1], h2, h3, h4⟩

theorem SameArena.expand {s t s' : State} (h : SameArena s t) {p z o : NodeIdx} (he : expand p s = some (s', z, o)) :
    ∃ t', expand p t = some (t', z, o) ∧ SameArena s' t' := by
  obtain ⟨h1, h2, h3, h4⟩ := h
  simp only [Machine.expand, h2, h4] at he ⊢
  split at he
  · cases he
  · rename_i hc
    cases he
    rw [if_neg hc]
    exact ⟨_, rfl, by simp [h1], rfl, h3, h4⟩

/-- Running tokens to completion (no header failure) gives the same arena from the same arena. -/
theorem SameArena.pairTokens {s t u : State} (h : SameArena s t) (d : Nat) (v : Byte)
    (hr : runAll (pairTokens (d, v)) s = .next u) : ∃ w, runAll (Sys2Proof.pairTokens (d, v)) t = .next w ∧ SameArena u w := by
  induction d generalizing s t with
  | zero =>
    simp only [Sys2Proof.pairTokens, List.replicate_zero, List.nil_append, runAll, exec, execHLeaf, h.findPending] at hr ⊢
    cases hp : Machine.findPending s with
    | none => simp [hp] at hr
    | some p =>
      simp only [hp] at hr ⊢
      cases hr
      exact ⟨_, rfl, h.makeLeaf p v⟩
  | succ d ih =>
    simp only [Sys2Proof.pairTokens, List.replicate_succ, List.cons_append, runAll, exec, execHExpand, h.findPending] at hr ⊢
    cases hp : Machine.findPending s with
    | none => simp [hp] at hr
    | some p =>
      simp only [hp] at hr ⊢
      cases he : Machine.expand p s with
      | none =>
        simp only [he] at hr
        have h0 : Machine.findPending (finish (headerFail .treeOverflow s.nodeCnt s)) = none := findPending_noTree rfl
        cases d with
        | zero => simp [runAll, exec, execHLeaf, h0] at hr
        | succ d => simp [runAll, List.replicate_succ, exec, execHExpand, h0] at hr
      | some x =>
        obtain ⟨s', z, o⟩ := x
        obtain ⟨t', he', h'⟩ := h.expand he
        simp only [he, he'] at hr ⊢
        exact ih h' hr

/-! ### A record is its tokens -/

/-- Tokens of one record, run to completion, are the record's expansions and its leaf (R98, R105). -/
theorem pairTokens_spine {s u : State} (h : ArenaOk s) (d : Nat) (v : Byte)
    (hr : runAll (Sys2Proof.pairTokens (d, v)) s = .next u) :
    ∃ p q s2, findPending s = some p ∧ expandSpine d p s = (some q, s2) ∧ u = makeLeaf q v s2 ∧ ArenaOk u := by
  induction d generalizing s with
  | zero =>
    simp only [Sys2Proof.pairTokens, List.replicate_zero, List.nil_append, runAll, exec, execHLeaf] at hr
    cases hp : findPending s with
    | none => simp [hp] at hr
    | some p =>
      simp only [hp] at hr
      cases hr
      obtain ⟨T, hT⟩ := arenaOk_pending h hp
      exact ⟨p, p, s, rfl, rfl, rfl, .inr ⟨_, (holdsTree_makeLeaf hT hp (fun m => node_makeLeaf s p v m) rfl rfl rfl).1⟩⟩
  | succ d ih =>
    simp only [Sys2Proof.pairTokens, List.replicate_succ, List.cons_append, runAll, exec, execHExpand] at hr
    cases hp : findPending s with
    | none => simp [hp] at hr
    | some p =>
      simp only [hp] at hr
      cases he : expand p s with
      | none =>
        simp only [he] at hr
        have h0 : findPending (finish (headerFail .treeOverflow s.nodeCnt s)) = none := findPending_noTree rfl
        cases d with
        | zero => simp [runAll, exec, execHLeaf, h0] at hr
        | succ d => simp [runAll, List.replicate_succ, exec, execHExpand, h0] at hr
      | some x =>
        obtain ⟨s', z, o⟩ := x
        simp only [he] at hr
        obtain ⟨T, hT⟩ := arenaOk_pending h hp
        have hcap : s.nodeCnt.toNat + 2 ≤ s.params.nodeCap := by
          by_contra hc
          rw [expand_full p s (by omega)] at he
          cases he
        obtain ⟨b', z', o', h1, h2, h3, h4, h5, h6⟩ := expand_fits p s hcap
        rw [he] at h1
        cases h1
        obtain ⟨k1, k2⟩ := holdsTree_expand hT hp h6 h2 h3 (by rw [h4]) h5 (by rw [h4]) hcap
        obtain ⟨p1, q, s2, i1, i2, i3, i4⟩ := ih (.inr ⟨_, k1⟩) hr
        have hz : findPending s' = some z := by rw [findPending_head, k2]; rfl
        rw [hz] at i1
        cases i1
        exact ⟨p, q, s2, rfl, by simp only [expandSpine, he]; exact i2, i3, i4⟩

theorem expandSpine_advance (k d : Nat) (p : NodeIdx) (s : State) :
    expandSpine d p (advance k s) = ((expandSpine d p s).1, advance k (expandSpine d p s).2) := by
  induction d generalizing p s with
  | zero => rfl
  | succ d ih =>
    have he : expand p (advance k s) = (expand p s).map (fun x => (advance k x.1, x.2)) := by
      simp only [expand]
      show (if s.params.nodeCap < s.nodeCnt.toNat + 2 then none else _) = _
      split <;> rfl
    simp only [expandSpine, he]
    cases expand p s with
    | none => rfl
    | some x => exact ih _ _

theorem pairBits_length (x : Nat × Byte) : (pairBits x).length = x.1 + 9 := by
  simp [pairBits, bitsOfByte_length]

theorem SameArena.tokens {s t u : State} (h : SameArena s t) (l : List (Nat × Byte))
    (hr : runAll (l.map Sys2Proof.pairTokens).flatten s = .next u) :
    ∃ w, runAll (l.map Sys2Proof.pairTokens).flatten t = .next w ∧ SameArena u w := by
  induction l generalizing s t with
  | nil => cases hr; exact ⟨t, rfl, h⟩
  | cons x l ih =>
    obtain ⟨d, v⟩ := x
    simp only [List.map_cons, List.flatten_cons, runAll_append] at hr ⊢
    cases h1 : runAll (Sys2Proof.pairTokens (d, v)) s with
    | fault r => rw [h1] at hr; cases hr
    | refused r => rw [h1] at hr; cases hr
    | next s1 =>
      rw [h1] at hr
      obtain ⟨t1, k1, k2⟩ := h.pairTokens d v h1
      rw [k1]
      exact ih k2 hr

/-- Tokens run to completion keep the arena a tree and change nothing else. -/
theorem tokens_frame {s u : State} (h : ArenaOk s) (l : List (Nat × Byte))
    (hr : runAll (l.map Sys2Proof.pairTokens).flatten s = .next u) :
    ArenaOk u ∧ u = { s with nodes := u.nodes, nodeCnt := u.nodeCnt } := by
  induction l generalizing s with
  | nil => cases hr; exact ⟨h, rfl⟩
  | cons x l ih =>
    obtain ⟨d, v⟩ := x
    simp only [List.map_cons, List.flatten_cons, runAll_append] at hr
    cases h1 : runAll (Sys2Proof.pairTokens (d, v)) s with
    | fault r => rw [h1] at hr; cases hr
    | refused r => rw [h1] at hr; cases hr
    | next s1 =>
      rw [h1] at hr
      obtain ⟨p, q, s2, k1, k2, k3, k4⟩ := pairTokens_spine h d v h1
      obtain ⟨j1, j2⟩ := ih k4 hr
      have hs2 := expandSpine_frame d p s
      rw [k2] at hs2
      refine ⟨j1, ?_⟩
      rw [k3, show s2 = _ from hs2] at j2
      exact j2

/-- DESERIALIZE's loop on records whose tokens run to completion does what the tokens do, and reads exactly the records. -/
theorem deserializeLoop_tokens (l : List (Nat × Byte)) (fuel : Nat) (s u : State) (rest : List Bool) (h : ArenaOk s)
    (hbits : bitsFrom s = (l.map pairBits).flatten ++ rest)
    (hr : runAll (l.map Sys2Proof.pairTokens).flatten s = .next u) :
    deserializeLoop (fuel + l.length) s = deserializeLoop fuel (advance (l.map pairBits).flatten.length u) := by
  induction l generalizing s u with
  | nil =>
    cases hr
    simp
  | cons x l ih =>
    obtain ⟨d, v⟩ := x
    simp only [List.map_cons, List.flatten_cons, runAll_append] at hr hbits ⊢
    cases h1 : runAll (Sys2Proof.pairTokens (d, v)) s with
    | fault r => rw [h1] at hr; cases hr
    | refused r => rw [h1] at hr; cases hr
    | next s1 =>
      rw [h1] at hr
      obtain ⟨p, q, s2, k1, k2, k3, k4⟩ := pairTokens_spine h d v h1
      have hrec : readRecord s = (some (d, v), advance (d + 9) s) := by
        rw [readRecord_eq, hbits]
        have : pairBits (d, v) ++ (l.map pairBits).flatten ++ rest =
            List.replicate d true ++ (false :: (bitsOfByte v ++ ((l.map pairBits).flatten ++ rest))) := by
          simp [pairBits]
        rw [this, recordOf_append]
      have hle : d + 9 ≤ bitsLeft s := by
        rw [← bitsFrom_length, hbits, List.length_append, List.length_append, pairBits_length]
        simp only
        omega
      have hs2 := expandSpine_frame d p s
      rw [k2] at hs2
      have hs1 : s1 = { s with nodes := s1.nodes, nodeCnt := s1.nodeCnt } := by
        rw [k3]
        exact (congrArg (makeLeaf q v) hs2).trans rfl
      have hfrom : bitsFrom (advance (d + 9) s1) = (l.map pairBits).flatten ++ rest := by
        have : bitsFrom (advance (d + 9) s1) = bitsFrom (advance (d + 9) s) :=
          bitsFrom_congr (by rw [hs1]; rfl) (by rw [hs1]; rfl) (by rw [hs1]; rfl) (by rw [hs1]; rfl)
        rw [this, bitsFrom_advance hle, hbits, List.append_assoc]
        exact List.drop_left' (pairBits_length _)
      have hok : ArenaOk (advance (d + 9) s1) := by
        rcases k4 with ⟨a1, a2, a3⟩ | ⟨T, hT⟩
        · exact .inl ⟨a1, a2, a3⟩
        · exact .inr ⟨T, holdsTree_advance hT _⟩
      obtain ⟨w, w1, w2⟩ := SameArena.tokens (s := s1) (t := advance (d + 9) s1) ⟨rfl, rfl, rfl, rfl⟩ l hr
      have hw : w = advance (d + 9) u := by
        have e1 := (tokens_frame hok l w1).2
        have e2 := (tokens_frame k4 l hr).2
        rw [e1, e2, w2.1, w2.2.1]
        rfl
      have := ih (advance (d + 9) s1) w hok hfrom w1
      rw [hw, advance_advance] at this
      simp only [List.length_cons, ← Nat.add_assoc, List.length_append, pairBits_length]
      rw [deserializeLoop, k1]
      simp only [hrec, expandSpine_advance, k2]
      rw [← this, k3]
      rfl

/-- DESERIALIZE of the header of a tree builds the arena that the tree's tokens build (R73, R98, R105). -/
theorem deserializeRun_tokens {s u : State} {T : CodeTree} {rest : List Bool} (hc : T.complete = true)
    (hbits : bitsFrom s = T.header ++ rest) (hr : runAll T.tokens (treeInit s) = .next u) (hu : findPending u = none) :
    ∃ t, deserializeRun s = .completed t ∧ t.nodes = u.nodes ∧ t.nodeCnt = u.nodeCnt ∧ t.root = u.root := by
  obtain ⟨p1, p2, p3⟩ := CodeTree.recordPairs_spec hc
  rw [← p3] at hbits
  rw [← p2] at hr
  have hlen : T.recordPairs.length ≤ bitsLeft s := by
    rw [← bitsFrom_length, hbits, List.length_append]
    have : ∀ l : List (Nat × Byte), l.length ≤ (l.map pairBits).flatten.length := by
      intro l
      induction l with
      | nil => simp
      | cons x l ih => simp [pairBits_length] at ih ⊢; omega
    have := this T.recordPairs
    omega
  have h := deserializeLoop_tokens T.recordPairs (bitsLeft s + 1 - T.recordPairs.length) (treeInit s) u rest
    (.inr ⟨_, holdsTree_treeInit s⟩) (by rw [bitsFrom_treeInit]; exact hbits) hr
  rw [Nat.sub_add_cancel (by omega)] at h
  obtain ⟨k, hk⟩ : ∃ k, bitsLeft s + 1 - T.recordPairs.length = k + 1 := ⟨bitsLeft s - T.recordPairs.length, by omega⟩
  have hnone : findPending (advance (T.recordPairs.map pairBits).flatten.length u) = none :=
    (SameArena.findPending (s := u) (t := advance (T.recordPairs.map pairBits).flatten.length u) ⟨rfl, rfl, rfl, rfl⟩).trans hu
  have hend : deserializeLoop (k + 1) (advance (T.recordPairs.map pairBits).flatten.length u) =
      .completed (advance (T.recordPairs.map pairBits).flatten.length u) := by
    simp only [deserializeLoop, hnone]
  rw [hk, hend] at h
  obtain ⟨x, hx⟩ : ∃ x, x = advance (T.recordPairs.map pairBits).flatten.length u := ⟨_, rfl⟩
  rw [← hx] at h
  exact ⟨{ x with hdrLen := x.cursor - s.cursor }, by rw [deserializeRun, h], by rw [hx]; rfl, by rw [hx]; rfl, by rw [hx]; rfl⟩

end Machine

end Sys2Proof
end

