-- ==== Sys2Proof/Laws/Commands.lean ====
section
/-! SUPPORT. The commands behind their checks, and what their bodies come to. -/

namespace Sys2Proof.Machine

/-- A complete tree with two leaves or more has an internal root. -/
theorem CodeTree.node_of_two {T : CodeTree} (hc : T.complete = true) (h : 2 ≤ T.values.length) : ∃ a b,
    T = .node a b := by
  cases T with
  | unset => cases hc
  | leaf v => simp [CodeTree.values] at h
  | node a b => exact ⟨a, b, rfl⟩

/-- A block of length other than 0 is not empty (R27). -/
theorem blockBytes_ne_nil {s : State} (h0 : s.blkLen ≠ 0) : blockBytes s ≠ [] := by
  intro h
  have := congrArg List.length h
  rw [blockBytes_length] at this
  exact h0 (BitVec.eq_of_toNat_eq (by simpa using this))

/-- The bits from CURSOR, given one by one. -/
theorem bitsFrom_eq {s : State} {l : List Bool} (hlen : bitsLeft s = l.length)
   (h : ∀ (j : Nat) (hj : j < l.length), s.bit (s.cursor.toNat + j) = l[j]) : bitsFrom s = l := by
  apply List.ext_getElem
  · simp; exact hlen
  · intro j h1 h2
    simp [bitsFrom, h j h2]

/-- The first bits from CURSOR, given one by one. -/
theorem bitsFrom_take {s : State} {l : List Bool} (hlen : l.length ≤ bitsLeft s)
   (h : ∀ (j : Nat) (hj : j < l.length), s.bit (s.cursor.toNat + j) = l[j]) : (bitsFrom s).take l.length = l := by
  apply List.ext_getElem
  · simp; exact hlen
  · intro j h1 h2
    simp [bitsFrom, h j h2]

/-- Appending twice is appending the joined bits (R13). -/
theorem appended_append (l r : List Bool) (s : State) (h : s.bitsLen.toNat + l.length < 2 ^ 32)
    : appended r (appended l s) = appended (l ++ r) s := by
  have hlen : (appended l s).bitsLen.toNat = s.bitsLen.toNat + l.length := toNat_add_ofNat (by omega)
  have h1 : (appended r (appended l s)).bits = (appended (l ++ r) s).bits := by
    show Memory.writeAll (appended l s).bits (appended l s).bitsLen.toNat r = _
    rw [hlen]
    simp only [appended, Memory.writeAll_append]
  have h2 : (appended r (appended l s)).bitsLen = (appended (l ++ r) s).bitsLen := by
    show s.bitsLen + BitVec.ofNat 32 l.length + BitVec.ofNat 32 r.length = s.bitsLen + BitVec.ofNat 32 (l ++ r).length
    rw [List.length_append, BitVec.ofNat_add, BitVec.add_assoc]
  have : appended r (appended l s) = { s with bits := (appended r (appended l s)).bits, bitsLen := (appended r (appended l s)).bitsLen } := rfl
  rw [this, h1, h2]; rfl

/-- Appending bits does not touch the tree. -/
theorem holdsTree_appended {s : State} {T} (h : HoldsTree s T) (l) : HoldsTree (appended l s)
    T := holdsTree_congr h (fun _ => rfl) rfl rfl rfl

/-- Bytes written from the front of BLK on. -/
theorem blkWritten_of {l : List Byte} {s t : State} (h : t.blk = Memory.writeAll s.blk 0 l) (hr : t.resets = s.resets)
    : BlkWritten l s t := by
  have key : ∀ j, t.blkByte j = if j < l.length then (l[j]?).getD 0 else s.blkByte j := by
    intro j
    simp only [State.blkByte, h, hr, Memory.read_writeAll]
    by_cases hj : j < l.length
    · simp [hj]
    · simp [hj]
  exact ⟨fun j hj => by rw [key, if_pos hj]; simp [hj], fun j hj => by rw [key, if_neg (by omega)]⟩

/-- The STATUS fields of the tree depend on the arena alone (R24). -/
theorem statusTree_of {s t : State} (hc : t.nodeCnt = s.nodeCnt) (hr : t.root = s.root) (hp : t.params = s.params)
    (hn : ∀ n, t.node n = s.node n) : (t.readReg .status).extractLsb' 4 3 = (s.readReg .status).extractLsb' 4 3 := by
  simp only [State.readReg, statusWord_tree, treePresent_congr hc,
    treeComplete_congr hc (findPending_congr hn hr hc hp), treeSingle_congr hc hr hn]

/-- BUILD behind its checks (R115). -/
theorem buildBody_run {s : State} {w : Word} (h0 : s.blkLen ≠ 0) (h1 : s.blkLen.toNat ≤ s.params.blockMax) :
   buildBody (beginCommand w s) = .completed (buildRun (beginCommand w s)) := by
  rw [buildBody, guarded_none (by simp [firstError, checkBlkLen_none h1, checkBlockNotEmpty_none h0])]

/-- DESERIALIZE behind its checks (R105). -/
theorem deserializeBody_run {s : State} (h1 : s.bitsLen.toNat ≤ s.params.bitsMax)
    (h2 : s.cursor.toNat ≤ s.bitsLen.toNat) :
   deserializeBody (beginCommand (wordOf .deserialize) s) = deserializeRun (beginCommand (wordOf .deserialize) s) := by
  rw [deserializeBody, guarded_none (by simp [firstError, checkBitsLen_none h1, checkCursor_none h2])]

/-- ENCODE behind its checks (R124). -/
theorem encodeBody_run {s : State} {T} (h1 : s.blkLen.toNat ≤ s.params.blockMax)
    (h2 : s.bitsLen.toNat ≤ s.params.bitsMax) (hT : HoldsTree s T) (hc : T.complete = true) (w : Word) :
   encodeBody (beginCommand w s) = encodeAppend (beginCommand w s) := by
  rw [encodeBody, guarded_none (by simp [firstError, checkBlkLen_none h1, checkBitsLen_none h2, checkTree_none (holdsTree_nodeCnt_ne hT), checkComplete_none (findPending_of_complete hT hc)])]

/-- DECODE behind its checks (R126). -/
theorem decodeBody_run {s : State} {T} (h2 : s.bitsLen.toNat ≤ s.params.bitsMax)
    (h3 : s.cursor.toNat ≤ s.bitsLen.toNat) (hT : HoldsTree s T) (hc : T.complete = true) (w : Word) :
   decodeBody (beginCommand w s) = decodeRun (beginCommand w s) := by
  rw [decodeBody, guarded_none (by simp [firstError, checkCursor_none h3, checkBitsLen_none h2, checkTree_none (holdsTree_nodeCnt_ne hT), checkComplete_none (findPending_of_complete hT hc)])]

/-- COMPRESS behind its checks (R127). -/
theorem compressBody_run {s : State} {w : Word} (h0 : s.blkLen ≠ 0) (h1 : s.blkLen.toNat ≤ s.params.blockMax) :
   compressBody (beginCommand w s) = compressRun (beginCommand w s) := by
  rw [compressBody, guarded_none (by simp [firstError, checkBlkLen_none h1, checkBlockNotEmpty_none h0])]

/-- DECOMPRESS behind its check (R128). -/
theorem decompressBody_run {s : State} {w : Word} (h : s.bitsLen.toNat ≤ s.params.bitsMax)
    : decompressBody (beginCommand w s) = decompressRun (beginCommand w s) := by
  rw [decompressBody, guarded_none (by simp [firstError, checkBitsLen_none h])]

/-- The encoder on a block whose payload fits (R123). -/
theorem encodeRun_payload {s : State} {T p} (hT : HoldsTree s T) (hp : T.payload (blockBytes s) = some p)
    (hfit : s.bitsLen.toNat + p.length ≤ s.params.bitsMax) :
   encodeRun s = .completed (appended p s) := by
  rw [encodeRun, encodeBytes_payload _ _ _ hT hp, appendBits_fits _ _ hfit]

/-- COMPRESS of a non-empty block behind its checks: header and payload after the build, or the overflow (R127). -/
theorem compressRun_spec {s : State} {B : List Byte} (hB : blockBytes s = B) (hne : B ≠ []) :
    ∃ p, (CodeTree.huffman B).payload B = some p ∧ 
     ((CodeTree.huffman B).header.length + p.length ≤ s.params.bitsMax →
       compressRun s = .completed { zeroFillTail (appended ((CodeTree.huffman B).header ++ p) (buildRun { s with bitsLen := 0, hdrLen := 0 })) with hdrLen := BitVec.ofNat 32 (CodeTree.huffman B).header.length }) ∧
     (s.params.bitsMax < (CodeTree.huffman B).header.length + p.length →
       compressRun s = .raised .bitsOverflow 0
           { appended (((CodeTree.huffman B).header ++ p).take s.params.bitsMax) (buildRun { s with bitsLen := 0, hdrLen := 0 }) with bitsLen := 0, hdrLen := 0 }) := by
  generalize hS0 : ({ s with bitsLen := 0, hdrLen := 0 } : State) = S0
  have hb0 : blockBytes S0 = B := by rw [← hS0, ← hB]; exact blockBytes_congr rfl rfl rfl
  obtain ⟨b1, b2, b3, b4, b5, b6, b7⟩ := buildRun_spec S0 (by rw [hb0]; exact hne)
  rw [hb0] at b1 b2 b3 b7
  generalize hS : buildRun S0 = S at *
  generalize CodeTree.huffman B = T at *
  have hpay : (T.payload B).isSome = true := by
    rw [CodeTree.payload_isSome]
    intro v hv
    exact b3.mem_iff.mpr (List.mem_eraseDups.mpr hv)
  obtain ⟨p, hp⟩ := Option.isSome_iff_exists.mp hpay
  have hbl : S.bitsLen = 0 := by rw [b7, ← hS0]
  have hpar : S.params = s.params := by rw [b7, ← hS0]
  have hbm := bitsMax_lt s
  have hser := serRoot_holdsTree b1 b2
  have hbS : blockBytes S = B := by rw [← hb0]; exact blockBytes_congr (by rw [b7]) (by rw [b7]) (by rw [b7])
  have henc : ∀ (u : State), u.nodes = S.nodes → u.root = S.root → u.nodeCnt = S.nodeCnt → u.params = S.params → u.blk = S.blk → u.blkLen = S.blkLen → u.resets = S.resets →
      encodeRun u = appendBits p u := by
    intro u h1 h2 h3 h4 h5 h6 h7
    rw [encodeRun]
    exact encodeBytes_payload _ _ _ (holdsTree_congr b1 (fun m => node_congr h1 m) h2 h3 h4) (by rw [blockBytes_congr (s := S) h5 h7 h6, hbS]; exact hp)
  have hz : (0 : Word).toNat = 0 := rfl
  refine ⟨p, hp, fun hfit => ?_, fun hover => ?_⟩
  · have h1 : serRoot S = .completed (appended T.header S) := by
      rw [hser, appendBits_fits _ _ (by rw [hbl, hpar, hz]; omega)]
    have hlen : (appended T.header S).bitsLen = BitVec.ofNat 32 T.header.length := by simp only [appended, hbl]; exact BitVec.zero_add _
    have hlen' : (appended T.header S).bitsLen.toNat = T.header.length := by rw [hlen]; exact ofNat_toNat_word (by omega)
    have h2 : compressOutput S = .completed { appended (T.header ++ p) S with hdrLen := BitVec.ofNat 32 T.header.length } := by
      rw [compressOutput, h1]
      simp only
      rw [henc { appended T.header S with hdrLen := (appended T.header S).bitsLen } rfl rfl rfl rfl rfl rfl rfl, appendBits_fits p { appended T.header S with hdrLen := (appended T.header S).bitsLen } (by show (appended T.header S).bitsLen.toNat + _ ≤ S.params.bitsMax; rw [hlen', hpar]; omega),
        ← appended_append _ _ _ (by rw [hbl, hz]; omega), hlen]
      rfl
    rw [compressRun, hS0, hS, h2]
    simp only [zeroFillTail_eq]
    rfl
  · by_cases hh : T.header.length ≤ s.params.bitsMax
    · have h1 : serRoot S = .completed (appended T.header S) := by
        rw [hser, appendBits_fits _ _ (by rw [hbl, hpar, hz]; omega)]
      have hlen : (appended T.header S).bitsLen = BitVec.ofNat 32 T.header.length := by simp only [appended, hbl]; exact BitVec.zero_add _
      have hlen' : (appended T.header S).bitsLen.toNat = T.header.length := by rw [hlen]; exact ofNat_toNat_word (by omega)
      have ht : (T.header ++ p).take s.params.bitsMax = T.header ++ p.take (s.params.bitsMax - T.header.length) := by
        rw [List.take_append, List.take_of_length_le hh]
      rw [compressRun, hS0, hS, compressOutput, h1]
      simp only
      rw [henc { appended T.header S with hdrLen := (appended T.header S).bitsLen } rfl rfl rfl rfl rfl rfl rfl, appendBits_overflows p { appended T.header S with hdrLen := (appended T.header S).bitsLen } (by show (appended T.header S).bitsLen.toNat ≤ S.params.bitsMax; rw [hlen', hpar]; omega) (by show S.params.bitsMax < (appended T.header S).bitsLen.toNat + _; rw [hlen', hpar]; omega)]
      show BodyResult.raised _ _ _ = _
      rw [ht, ← appended_append _ _ _ (by rw [hbl, hz]; omega)]
      have e : ({ appended T.header S with hdrLen := (appended T.header S).bitsLen } : State).params.bitsMax - ({ appended T.header S with hdrLen := (appended T.header S).bitsLen } : State).bitsLen.toNat = s.params.bitsMax - T.header.length := by
        show S.params.bitsMax - (appended T.header S).bitsLen.toNat = _
        rw [hlen', hpar]
      rw [e]
      rfl
    · have ht : (T.header ++ p).take s.params.bitsMax = T.header.take s.params.bitsMax := by
        rw [List.take_append_of_le_length (by omega)]
      rw [compressRun, hS0, hS, compressOutput, hser, appendBits_overflows _ _ (by rw [hbl, hz]; omega) (by rw [hbl, hpar, hz]; omega)]
      rw [ht, hbl, hpar, hz, Nat.sub_zero]

/-- A proper prefix of joined lists is some whole lists and a proper part of the next. -/
theorem prefix_of_flatten {α : Type} (L : List (List α)) (n : Nat) (h : n < L.flatten.length) :
    ∃ j r tail, L[j]? = some r ∧ tail <+: r ∧ tail.length < r.length ∧ L.flatten.take n = (L.take j).flatten ++ tail := by
  induction L generalizing n with
  | nil => simp at h
  | cons x L ih =>
    simp only [List.flatten_cons, List.length_append] at h
    by_cases hn : n < x.length
    · refine ⟨0, x, x.take n, rfl, List.take_prefix _ _, by rw [List.length_take]; omega, ?_⟩
      simp [List.take_append_of_le_length (Nat.le_of_lt hn)]
    · obtain ⟨j, r, tail, h1, h2, h3, h4⟩ := ih (n - x.length) (by omega)
      refine ⟨j + 1, r, tail, by simpa using h1, h2, h3, ?_⟩
      simp only [List.flatten_cons, List.take_succ_cons, List.append_assoc, ← h4]
      rw [List.take_append, List.take_of_length_le (by omega)]

theorem expansions_append (a b : List (List Bool)) : expansions (a ++ b) = expansions a + expansions b := by
  simp only [expansions, List.map_append, List.sum_append]

/-- A prefix of a payload decodes to a prefix of the block, with less than the next byte's code left over (R129). -/
theorem payload_prefix_decoding {a b : CodeTree} {block : List Byte} {p : List Bool} (h : (CodeTree.node a b).payload
    block = some p) (n : Nat) (hn : n ≤ p.length) :
   ∃ codes m rest q, (CodeTree.node a b).Decoding (p.take n) codes (block.take m) rest ∧
       (CodeTree.node a b).payload (block.take m) = some q ∧ n = q.length + rest.length ∧ m ≤ block.length ∧
       (∀ h : m < block.length, ∃ c, (CodeTree.node a b).path block[m] = some c ∧ rest.length < c.length) ∧
       (m = block.length → rest = []) ∧ (n = p.length → m = block.length) := by
  induction block generalizing p n with
  | nil =>
    cases h
    obtain rfl : n = 0 := by simpa using hn
    exact ⟨[], 0, [], [], ⟨rfl, rfl, a, b, rfl⟩, rfl, rfl, Nat.le_refl _, fun h => absurd h (by simp), fun _ => rfl, fun _ => rfl⟩
  | cons v block ih =>
    simp only [CodeTree.payload] at h
    split at h
    · rename_i q p' hq hp'
      cases h
      by_cases hlt : n < q.length
      · have hw := CodeTree.walk_path hq
        have hsplit : q = q.take n ++ q.drop n := (List.take_append_drop _ _).symm
        rw [hsplit, CodeTree.walk_append] at hw
        have htk : (q ++ p').take n = q.take n := List.take_append_of_le_length (Nat.le_of_lt hlt)
        refine ⟨[], 0, q.take n, [], ⟨by rw [htk]; rfl, rfl, ?_⟩, rfl, by rw [List.length_take]; simp; omega,
          Nat.zero_le _, fun _ => ⟨q, hq, by rw [List.length_take]; omega⟩, fun hm => by simp at hm,
          fun hm => by rw [List.length_append] at hm; omega⟩
        cases hwt : (CodeTree.node a b).walk (q.take n) with
        | none => rw [hwt] at hw; cases hw
        | some u =>
          rw [hwt] at hw
          cases u with
          | node x y => exact ⟨x, y, rfl⟩
          | leaf w =>
            have := (CodeTree.walk_leaf (show (CodeTree.leaf w).walk (q.drop n) = _ from hw)).1
            have := congrArg List.length this
            simp at this; omega
          | unset =>
            have hw' : CodeTree.unset.walk (q.drop n) = some (.leaf v) := hw
            cases hd : q.drop n with
            | nil => have := congrArg List.length hd; simp at this; omega
            | cons x y => rw [hd] at hw'; simp [CodeTree.walk] at hw'
      · obtain ⟨codes, m, rest, q', h1, h2, h3, h4, h5, h6, h7⟩ := ih hp' (n - q.length) (by simp at hn; omega)
        refine ⟨q :: codes, m + 1, rest, q ++ q', ⟨?_, ?_, h1.2.2⟩, ?_, ?_, Nat.succ_le_succ h4,
          fun h => h5 (Nat.lt_of_succ_lt_succ h), fun h => h6 (Nat.succ.inj h),
          fun h => congrArg (· + 1) (h7 (by rw [List.length_append] at h; omega))⟩
        · rw [List.take_append, List.take_of_length_le (by omega), h1.1]; simp
        · simp only [List.map_cons, List.take_succ_cons, h1.2.1, CodeTree.walk_path hq]
        · simp only [List.take_succ_cons, CodeTree.payload, hq, h2]
        · rw [List.length_append]; omega
    · cases h

/-- The leaves depend on the arena and the counts alone. -/
theorem formLeaves_congr (ord : List (Byte × Nat)) (wl : List WorkEntry) {s t : State} (hn : t.nodes = s.nodes)
    (hc : t.nodeCnt = s.nodeCnt) :
    (formLeaves ord wl t).2 = (formLeaves ord wl s).2 ∧ (formLeaves ord wl t).1.nodes = (formLeaves ord wl s).1.nodes ∧
    (formLeaves ord wl t).1.nodeCnt = (formLeaves ord wl s).1.nodeCnt := by
  induction ord generalizing wl s t with
  | nil => exact ⟨rfl, hn, hc⟩
  | cons e ord ih =>
    obtain ⟨v, c⟩ := e
    simp only [formLeaves, hc]
    exact ih _ (by simp only [setNode_nodes, hn]) (by simp only)

/-- The merges depend on the arena and the worklist alone. -/
theorem mergeAll_congr (fuel : Nat) (wl : List WorkEntry) {s t : State} (hn : t.nodes = s.nodes)
    (hc : t.nodeCnt = s.nodeCnt) :
    (mergeAll fuel wl t).2 = (mergeAll fuel wl s).2 ∧ (mergeAll fuel wl t).1.nodes = (mergeAll fuel wl s).1.nodes ∧
    (mergeAll fuel wl t).1.nodeCnt = (mergeAll fuel wl s).1.nodeCnt := by
  induction fuel generalizing wl s t with
  | zero => exact ⟨rfl, hn, hc⟩
  | succ fuel ih =>
    match wl with
    | [] => exact ⟨rfl, hn, hc⟩
    | [_] => exact ⟨rfl, hn, hc⟩
    | e1 :: e2 :: rest =>
      simp only [mergeAll, hc]
      exact ih _ (by simp only [setNode_nodes, hn]) (by simp only)

/-- BUILD depends on the block alone (R129(e), R160). -/
theorem buildRun_congr {s t : State} (hb : blockBytes t = blockBytes s) (hne : blockBytes s ≠ []) :
    (buildRun t).nodes = (buildRun s).nodes ∧ (buildRun t).nodeCnt = (buildRun s).nodeCnt ∧
        (buildRun t).root = (buildRun s).root := by
  obtain ⟨h1, h2, h3⟩ := formLeaves_congr (countBytes (blockBytes s)) [] (s := arenaClear s) (t := arenaClear t) rfl rfl
  have hr1 : (buildRun t).root = (buildRun s).root := by
    apply BitVec.eq_of_toNat_eq
    rw [(buildRun_spec t (by rw [hb]; exact hne)).2.2.2.2.1, (buildRun_spec s hne).2.2.2.2.1, hb]
  obtain ⟨m1, m2, m3⟩ := mergeAll_congr (formLeaves (countBytes (blockBytes s)) [] (arenaClear s)).2.length (formLeaves (countBytes (blockBytes s)) [] (arenaClear s)).2 h2 h3
  refine ⟨?_, ?_, hr1⟩
  · simp only [buildRun, hb, h1]; exact m2
  · simp only [buildRun, hb, h1]; exact m3

/-- A command ends as its body does. -/
theorem exec_body_cases {i : Instr} (hi : i.isCommand = true) (s : State) :
    (∃ u, bodyOf i (beginCommand (wordOf i) s) = .completed u ∧ exec i s = .next (endCommand u)) ∨
    (∃ e info u, bodyOf i (beginCommand (wordOf i) s) = .raised e info u ∧
        exec i s = .next (endCommand (errorEntry e info u))) := by
  rw [exec_command hi, runFrame]
  cases h : bodyOf i (beginCommand (wordOf i) s) with
  | completed u => exact .inl ⟨u, rfl, rfl⟩
  | raised e info u => exact .inr ⟨e, info, u, rfl, rfl⟩

/-- No error has the code 0 (R130). -/
theorem Err.code_ne_zero (e : Err) : e.code ≠ 0 := by cases e <;> decide

/-! ### DESERIALIZE and DECODE do not see CMD -/

/-- The same state with another word in CMD. -/
def withCmd (w : Word) (s : State) : State := { s with cmd := w }

/-- The same end with another word in CMD. -/
def BodyResult.withCmd (w : Word) : BodyResult → BodyResult
  | .completed s => .completed (Machine.withCmd w s)
  | .raised e info s => .raised e info (Machine.withCmd w s)

theorem findPending_withCmd (w : Word) (s : State) : findPending (withCmd w s)
    = findPending s := findPending_congr (fun _ => rfl) rfl rfl rfl

theorem readBit_withCmd (w : Word) (s : State) : readBit (withCmd w s) = (readBit s).map (fun x => (x.1,
    withCmd w x.2)) := by
  simp only [readBit]
  show (if s.bitsLen.toNat ≤ s.cursor.toNat then none else _) = _
  split <;> rfl

theorem readDistance_withCmd (w : Word) (fuel d : Nat) (s : State) : readDistance fuel d (withCmd w s)
    = ((readDistance fuel d s).1, withCmd w (readDistance fuel d s).2) := by
  induction fuel generalizing d s with
  | zero => rfl
  | succ fuel ih =>
    simp only [readDistance, readBit_withCmd]
    rcases readBit s with _ | ⟨_ | _, t⟩
    · rfl
    · rfl
    · exact ih _ _

theorem readValue_withCmd (w : Word) (n v : Nat) (s : State) : readValue n v (withCmd w s) = ((readValue n v s).1,
    withCmd w (readValue n v s).2) := by
  induction n generalizing v s with
  | zero => rfl
  | succ n ih =>
    simp only [readValue, readBit_withCmd]
    rcases readBit s with _ | ⟨b, t⟩
    · rfl
    · exact ih _ _

theorem readRecord_withCmd (w : Word) (s : State) : readRecord (withCmd w s) = ((readRecord s).1,
    withCmd w (readRecord s).2) := by
  simp only [readRecord, readDistance_withCmd]
  show (match ((readDistance (bitsLeft s + 1) 0 s).1, withCmd w (readDistance (bitsLeft s + 1) 0 s).2) with
    | (none, s1) => (none, s1)
    | (some d, s1) => _) = _
  rcases readDistance (bitsLeft s + 1) 0 s with ⟨_ | d, t⟩
  · rfl
  · simp only [readValue_withCmd]
    rcases readValue 8 0 t with ⟨_ | v, u⟩ <;> rfl

theorem expand_withCmd (w : Word) (p : NodeIdx) (s : State) : expand p (withCmd w s) = (expand p s).map (fun x =>
    (withCmd w x.1, x.2)) := by
  simp only [expand]
  show (if s.params.nodeCap < s.nodeCnt.toNat + 2 then none else _) = _
  split <;> rfl

theorem expandSpine_withCmd (w : Word) (d : Nat) (p : NodeIdx) (s : State) : expandSpine d p (withCmd w s)
    = ((expandSpine d p s).1, withCmd w (expandSpine d p s).2) := by
  induction d generalizing p s with
  | zero => rfl
  | succ d ih =>
    simp only [expandSpine, expand_withCmd]
    rcases expand p s with _ | ⟨t, z, o⟩
    · rfl
    · exact ih _ _

theorem deserializeLoop_withCmd (w : Word) (fuel : Nat) (s : State) : deserializeLoop fuel (withCmd w s)
    = BodyResult.withCmd w (deserializeLoop fuel s) := by
  induction fuel generalizing s with
  | zero => rfl
  | succ fuel ih =>
    simp only [deserializeLoop, findPending_withCmd]
    cases findPending s with
    | none => rfl
    | some p =>
      simp only [readRecord_withCmd]
      rcases readRecord s with ⟨_ | ⟨d, v⟩, s1⟩
      · rfl
      · simp only [expandSpine_withCmd]
        rcases expandSpine d p s1 with ⟨_ | q, s2⟩
        · rfl
        · exact ih (makeLeaf q v s2)

theorem deserializeRun_withCmd (w : Word) (s : State) : deserializeRun (withCmd w s)
    = BodyResult.withCmd w (deserializeRun s) := by
  simp only [deserializeRun]
  have : deserializeLoop (bitsLeft (withCmd w s) + 1) (treeInit (withCmd w s)) = BodyResult.withCmd w (deserializeLoop (bitsLeft s + 1) (treeInit s)) := deserializeLoop_withCmd w _ (treeInit s)
  rw [this]
  rcases deserializeLoop (bitsLeft s + 1) (treeInit s) with t | ⟨e, i, t⟩ <;> rfl

theorem decodeLoop_withCmd (w : Word) (fuel : Nat) (n : NodeIdx) (k : Nat) (s : State)
    : decodeLoop fuel n k (withCmd w s) = BodyResult.withCmd w (decodeLoop fuel n k s) := by
  induction fuel generalizing n k s with
  | zero => rfl
  | succ fuel ih =>
    simp only [decodeLoop]
    show (match s.node n.toNat with | .internal z o => _ | d => _) = _
    have leaf : ∀ d : Node, (if s.params.blockMax ≤ s.blkLen.toNat then BodyResult.raised .blkOverflow s.cursor { withCmd w s with blkLen := 0 }
      else decodeLoop fuel s.root 0 { (withCmd w s).setBlkByte s.blkLen.toNat d.value with blkLen := s.blkLen + 1 }) = BodyResult.withCmd w (if s.params.blockMax ≤ s.blkLen.toNat then BodyResult.raised .blkOverflow s.cursor { s with blkLen := 0 }
      else decodeLoop fuel s.root 0 { s.setBlkByte s.blkLen.toNat d.value with blkLen := s.blkLen + 1 }) := by
      intro d
      split
      · rfl
      · exact ih s.root 0 { s.setBlkByte s.blkLen.toNat d.value with blkLen := s.blkLen + 1 }
    cases s.node n.toNat with
    | free => exact leaf .free
    | unset => exact leaf .unset
    | leaf v => exact leaf (.leaf v)
    | internal z o =>
      simp only [readBit_withCmd]
      rcases readBit s with _ | ⟨b, t⟩
      · rfl
      · exact ih _ _ _

theorem decodeRun_withCmd (w : Word) (s : State) : decodeRun (withCmd w s) = BodyResult.withCmd w (decodeRun s) := by
  simp only [decodeRun]
  show (if (s.node s.root.toNat).isLeaf then _ else _) = BodyResult.withCmd w (if (s.node s.root.toNat).isLeaf then _ else _)
  split
  · rfl
  · exact decodeLoop_withCmd w _ _ _ { s with blkLen := 0, tailBits := 0 }

end Sys2Proof.Machine
end

