-- ==== Sys2Proof/Laws/PerInstr.lean ====
section
/-! SUPPORT. The family F of statements made per instruction: its encoding is legal and decodes to it. -/

namespace Sys2Proof.Laws.F

open Sys2Proof

/-- The encoding of `i` passes the checks of R81 and R73, and decodes to `i`. -/
def Statement (i : Instr) : Prop := (encode i).wellFormed = true ∧ decode (encode i) = .ok i

theorem nop : Statement .nop := by unfold Statement; decide
theorem clear : Statement .clear := by unfold Statement; decide
theorem tinit : Statement .tinit := by unfold Statement; decide
theorem tleaf (v : Byte) : Statement (.tleaf v) := by revert v; unfold Statement; decide +kernel
theorem texpand : Statement .texpand := by unfold Statement; decide
theorem serialize : Statement .serialize := by unfold Statement; decide
theorem deserialize : Statement .deserialize := by unfold Statement; decide
theorem build : Statement .build := by unfold Statement; decide
theorem lookup (v : Byte) : Statement (.lookup v) := by revert v; unfold Statement; decide +kernel
theorem encode : Statement .encode := by unfold Statement; decide
theorem decode : Statement .decode := by unfold Statement; decide
theorem compress : Statement .compress := by unfold Statement; decide
theorem decompress : Statement .decompress := by unfold Statement; decide
theorem hExpand : Statement .hExpand := by unfold Statement; decide
theorem hLeaf (v : Byte) : Statement (.hLeaf v) := by revert v; unfold Statement; decide +kernel

end Sys2Proof.Laws.F
end

