-- ==== Sys2Proof/Tests/Slice0.lean ====
section
/-! SUPPORT. Tests: the checks of WellFormed on ill-formed terms; words written out from R78 and R80, tokens from R73; one step
of each instruction against spec/95_test_vectors.md; and for every statement a state and operands that meet its hypotheses. -/

namespace Sys2Proof.Tests

open Sys2Proof Sys2Proof.Machine

/-! ## Ill-formed encodings (R81, R73) -/

theorem test_illformed_reserved : (Code.command 0x00010000).wellFormed = false := by decide
theorem test_illformed_opcode : (Code.command 0x00000002).wellFormed = false := by decide
theorem test_illformed_argument : (Code.command 0x00000150).wellFormed = false := by decide
theorem test_illformed_token_empty : (Code.header []).wellFormed = false := by decide
theorem test_illformed_token_short : (Code.header [false, true]).wellFormed = false := by decide
theorem test_illformed_token_long : (Code.header [true, true]).wellFormed = false := by decide

theorem test_refused_reserved : decode (.command 0x00010000) = .error .reservedNotZero := by decide
theorem test_refused_opcode : decode (.command 0x00000002) = .error .unknownOpcode := by decide
theorem test_refused_argument : decode (.command 0x00000150) = .error .argumentNotZero := by decide
theorem test_refused_token_short : decode (.header [false, true]) = .error .tokenTooShort := by decide
theorem test_refused_token_long : decode (.header [true, true]) = .error .tokenTooLong := by decide

/-! ## Words written out: RSV (16 bits), ARG (8 bits), OP (8 bits), from R78 and the opcode map R80 -/

theorem test_decode_nop : decode (.command 0b0000000000000000_00000000_00000000) = .ok .nop := by decide
theorem test_decode_clear : decode (.command 0b0000000000000000_00000000_00000001) = .ok .clear := by decide
theorem test_decode_tinit : decode (.command 0b0000000000000000_00000000_00010000) = .ok .tinit := by decide
theorem test_decode_tleaf : decode (.command 0b0000000000000000_10000001_00010001) = .ok (.tleaf 0x81) := by decide
theorem test_decode_texpand : decode (.command 0b0000000000000000_00000000_00010010) = .ok .texpand := by decide
theorem test_decode_serialize : decode (.command 0b0000000000000000_00000000_00100000) = .ok .serialize := by decide
theorem test_decode_deserialize : decode (.command 0b0000000000000000_00000000_00100001) = .ok .deserialize := by decide
theorem test_decode_build : decode (.command 0b0000000000000000_00000000_00110000) = .ok .build := by decide
theorem test_decode_lookup : decode (.command 0b0000000000000000_11111110_01000000) = .ok (.lookup 0xFE) := by decide
theorem test_decode_encode : decode (.command 0b0000000000000000_00000000_01000001) = .ok .encode := by decide
theorem test_decode_decode : decode (.command 0b0000000000000000_00000000_01000010) = .ok .decode := by decide
theorem test_decode_compress : decode (.command 0b0000000000000000_00000000_01010000) = .ok .compress := by decide
theorem test_decode_decompress : decode (.command 0b0000000000000000_00000000_01010001) = .ok .decompress := by decide
theorem test_decode_hExpand : decode (.header [true]) = .ok .hExpand := by decide
theorem test_decode_hLeaf :
    decode (.header [false, true, false, false, false, false, false, true, false]) = .ok (.hLeaf 0x82) := by decide

theorem test_table_word : decodeTableWord 32 0x00004111 = some (.tleaf 0x41) := by decide
theorem test_table_token_expand : decodeTableWord 8 1 = some .hExpand := by decide
theorem test_table_token_leaf : decodeTableWord 16 0x41 = some (.hLeaf 0x41) := by decide

/-! ## Small states -/

/-- The reset state with the block `bytes`. -/
def withBlock (bytes : List Byte) : State :=
  { State.reset with blk := bytes.zipIdx.map (fun e => (e.2, e.1)), blkLen := BitVec.ofNat 32 bytes.length }

/-- A state with the bit sequence `l`. -/
def loadBits (l : List Bool) (s : State) : State :=
  { s with bits := l.zipIdx.map (fun e => (e.2, e.1)), bitsLen := BitVec.ofNat 32 l.length }

/-- The reset state with an arena: entries 0, 1, 2, …, the root at 0. -/
def withArena (nodes : List Node) : State :=
  { State.reset with
    nodes := nodes.zipIdx.map (fun e => (e.2, e.1)), nodeCnt := BitVec.ofNat 32 nodes.length }

/-- The smallest parameters that R5 allows. -/
def smallParams : Params := ⟨1, 16, 511, by decide, by decide, by decide⟩

/-- The tree `(A, B)`. -/
def treeAB : CodeTree := .node (.leaf 0x41) (.leaf 0x42)

/-- An arena that holds `(A, B)`. -/
def arenaAB : State := withArena [.internal 1 2, .leaf 0x41, .leaf 0x42]

/-- An arena that holds `(A, ?)`. -/
def arenaA : State := withArena [.internal 1 2, .leaf 0x41, .unset]

/-- The field of the next state. -/
def after {α : Type} (o : Host.Outcome State Fault Refusal) (f : State → α) : Option α :=
  match o with
  | .next s => some (f s)
  | .fault _ => none
  | .refused _ => none

/-- One host write of a command word to CMD. -/
def run (w : Word) (s : State) : Host.Outcome State Fault Refusal := step { s with inputs := [.access (.write 32 0 w)] }

/-- A host read of a register word. -/
def readWord (addr : Word) (s : State) : Option Reply := after (access (.read 32 addr) s) State.reply

theorem free_of_unlisted {s : State} {c : Nat} (h : ∀ e ∈ s.nodes, e.1 < c) : ∀ n, c ≤ n → s.node n = .free := by
  intro n hn
  simp only [State.node]
  cases hr : Memory.read s.nodes n with
  | none => rfl
  | some d =>
    have := h _ (Memory.mem_of_read hr)
    omega

theorem arenaAB_holds : HoldsTree arenaAB treeAB :=
  ⟨⟨[0, 1, 2], ⟨1, 2, [1], [2], rfl, ⟨rfl, rfl⟩, ⟨rfl, rfl⟩, rfl⟩, by decide⟩, free_of_unlisted (by decide), by decide⟩

theorem arenaA_holds : HoldsTree arenaA (.node (.leaf 0x41) .unset) :=
  ⟨⟨[0, 1, 2], ⟨1, 2, [1], [2], rfl, ⟨rfl, rfl⟩, ⟨rfl, rfl⟩, rfl⟩, by decide⟩, free_of_unlisted (by decide), by decide⟩

theorem leafA_holds : HoldsTree (withArena [.leaf 0x41]) (.leaf 0x41) :=
  ⟨⟨[0], ⟨rfl, rfl⟩, by decide⟩, free_of_unlisted (by decide), by decide⟩

/-! ## One step of each instruction, against spec/95_test_vectors.md -/

/-- NOP clears the last outcome but STICKY_ERR (R171, R170). -/
theorem test_nop : after (run 0x00 { State.reset with err := true, stickyErr := true, errCode := 0x12, errInfo := 3 })
    (fun t => (t.readReg .status, t.errCode, t.errInfo)) = some (0x0A, 0, 0) := by decide

/-- CLEAR ends with STATUS = 2 and CMD = 0, and keeps BLK (R172). -/
theorem test_clear : after (run 0x01 { withBlock [0x41] with stickyErr := true, nodes := [(0, .unset)], nodeCnt := 1 })
    (fun t => (t.readReg .status, t.cmd, t.blkLen, t.nodes.length, t.blkByte 0)) = some (0x02, 0, 0, 0, 0x41) := by decide

/-- V10. -/
theorem test_tinit : after (run 0x10 State.reset) (fun t => (t.readReg .status, t.nodeCnt, t.readReg .pend, t.nodes)) =
    some (0x12, 1, 0, [(0, .unset)]) := by decide

/-- V11. -/
theorem test_tleaf : after (run 0x4111 (withArena [.unset])) (fun t => (t.readReg .status, t.readReg .pend, t.nodes)) =
    some (0x72, 0xFFFFFFFF, [(0, .leaf 0x41)]) := by decide

/-- V11: NoPending. -/
theorem test_tleaf_noPending : after (run 0x4211 (withArena [.leaf 0x41]))
    (fun t => (t.readReg .status, t.errCode, t.errInfo, t.nodes)) = some (0x7E, 0x12, 0, [(0, .leaf 0x41)]) := by decide

/-- V12. -/
theorem test_texpand : after (run 0x12 (withArena [.unset])) (fun t => (t.readReg .status, t.nodeCnt, t.readReg .pend, t.nodes)) =
    some (0x12, 3, 1, [(0, .internal 1 2), (1, .unset), (2, .unset)]) := by decide

/-- V17: SERIALIZE appends. -/
theorem test_serialize : after (run 0x20 (withArena [.leaf 0x41]))
    (fun t => (t.bitsLen, t.hdrLen, byteOfBits (bitsOfAperture t 0), byteOfBits (bitsOfAperture t 1))) =
    some (9, 9, 0x20, 0x80) := by decide

/-- V14: TreeIncomplete with the pending node. -/
theorem test_serialize_incomplete : after (run 0x20 arenaA) (fun t => (t.errCode, t.errInfo, t.bitsLen)) =
    some (0x13, 2, 0) := by decide

/-- V22, from CURSOR 3: the bits `111`, the header of `(A, B)`, `1111`. -/
theorem test_deserialize : after (run 0x21
      { loadBits ([true, true, true] ++ (treeAB.header ++ [true, true, true, true])) State.reset with cursor := 3 })
    (fun t => (t.cursor, t.hdrLen, t.nodes)) =
    some (22, 19, [(0, .internal 1 2), (1, .leaf 0x41), (2, .leaf 0x42)]) := by decide

/-- V20, third row: cut inside the first value. -/
theorem test_deserialize_truncated : after (run 0x21
      (loadBits [true, true, false, false, true, false, false] (withArena [.leaf 0x41])))
    (fun t => (t.readReg .status, t.errCode, t.errInfo, t.cursor, t.nodeCnt, t.hdrLen)) =
    some (0x0E, 0x02, 0, 7, 0, 0) := by decide

/-- V25: `ABA`. -/
theorem test_build : after (run 0x30 (withBlock [0x41, 0x42, 0x41])) (fun t => (t.root, t.symCnt, t.nodes)) =
    some (2, 2, [(0, .leaf 0x41), (1, .leaf 0x42), (2, .internal 1 0)]) := by decide

/-- V51: `AABBC`. -/
theorem test_build_tie : after (run 0x30 (withBlock [0x41, 0x41, 0x42, 0x42, 0x43]))
    (fun t => (t.root, t.node 3, t.node 4)) = some (4, .internal 2 0, .internal 1 3) := by decide

/-- V1's tree: `LOOKUP 0x44` gives the path `110`. -/
theorem test_lookup : after (run 0x4440 (withArena [.internal 1 2, .leaf 0x41, .internal 3 4, .leaf 0x42, .internal 5 6,
      .leaf 0x44, .leaf 0x43])) (fun t => (t.codeLen, t.codeBits[0], t.codeBits[1])) = some (3, 0xC0000000, 0) := by decide

/-- V32: NoCode. -/
theorem test_lookup_noCode : after (run 0x4540 { arenaAB with codeLen := 7 }) (fun t => (t.errCode, t.errInfo, t.codeLen)) =
    some (0x17, 0x45, 7) := by decide

/-- V32: ENCODE of `ABEA` without a leaf for `E`: BITS_LEN restored, the bits written stay. -/
theorem test_encode_noCode : after (run 0x41
      { withBlock [0x41, 0x42, 0x45, 0x41] with nodes := arenaAB.nodes, nodeCnt := arenaAB.nodeCnt })
    (fun t => (t.errCode, t.errInfo, t.bitsLen, t.bit 0, t.bit 1)) = some (0x17, 2, 0, false, true) := by decide

/-- ENCODE appends at BITS_LEN and zero-fills (R124, R16). -/
theorem test_encode : after (run 0x41 { loadBits [true]
      (withBlock [0x42, 0x41, 0x42]) with nodes := arenaAB.nodes, nodeCnt := arenaAB.nodeCnt })
    (fun t => (t.bitsLen, byteOfBits (bitsOfAperture t 0))) = some (4, 0xD0) := by decide

/-- V22: DECODE of `1111` from CURSOR 22. -/
theorem test_decode : after (run 0x42
      { loadBits (List.replicate 26 true) arenaAB with cursor := 22 })
    (fun t => (t.blkLen, blockBytes t, t.cursor, t.tailBits)) = some (4, [0x42, 0x42, 0x42, 0x42], 26, 0) := by decide

/-- A cut code: TAIL_BITS counts its bits (V33). -/
theorem test_decode_tail : after (run 0x42
      (loadBits [false, true, true] (withArena [.internal 1 2, .leaf 0x41, .internal 3 4, .leaf 0x42, .internal 5 6,
        .leaf 0x44, .leaf 0x43])))
    (fun t => (t.readReg .status, blockBytes t, t.cursor, t.tailBits)) = some (0xB2, [0x41], 3, 2) := by decide

/-- V1. -/
theorem test_compress : after (run 0x50 (withBlock [0x41, 0x41, 0x41, 0x41, 0x42, 0x42, 0x42, 0x43, 0x43, 0x44]))
    (fun t => (t.readReg .status, t.hdrLen, t.bitsLen, (List.range 8).map (fun j => byteOfBits (bitsOfAperture t j)))) =
    some (0x32, 39, 58, [0x90, 0x64, 0x29, 0x10, 0x86, 0x15, 0x7F, 0x80]) := by decide

/-- V5: EmptyBlock before any tree work. -/
theorem test_compress_empty : after (run 0x50 arenaAB) (fun t => (t.readReg .status, t.errCode, t.nodes)) =
    some (0x3E, 0x01, arenaAB.nodes) := by decide

/-- V25: the output of `ABA`, decompressed. -/
theorem test_decompress : after (run 0x51 (loadBits (treeAB.header ++ [false, true, false]) State.reset))
    (fun t => (t.readReg .status, blockBytes t, t.cursor, t.hdrLen)) = some (0x32, [0x41, 0x42, 0x41], 22, 19) := by decide

/-- V4, `L = 10`: a header cut before its second record. -/
theorem test_decompress_truncated : after (run 0x51 (loadBits (treeAB.header.take 10) (withBlock [0x41])))
    (fun t => (t.readReg .status, t.errCode, t.errInfo, t.cursor, t.blkLen)) = some (0x0E, 0x02, 10, 10, 0) := by decide

/-- The token `1` on a fresh root (R73, R92). -/
theorem test_hExpand : after (step { withArena [.unset] with inputs := [.token [true]] }) (fun t => (t.nodeCnt, t.nodes)) =
    some (3, [(0, .internal 1 2), (1, .unset), (2, .unset)]) := by decide

/-- The token `0 01000010` on the pending node (R73, R91). -/
theorem test_hLeaf : after (step { arenaA with
      inputs := [.token [false, false, true, false, false, false, false, true, false]] }) (fun t => (t.nodeCnt, t.nodes)) =
    some (3, arenaAB.nodes) := by decide

/-! ## The host's bus -/

theorem test_host_writes_byte : after (access (.write 8 0x0100FFFF 0x141) State.reset) (fun t => t.blk) =
    some [(65535, 0x41)] := by decide

theorem test_host_read_node : readWord 0x03000004 arenaAB = some (.word 0x00020001) := by decide

theorem test_host_unmapped : access (.read 32 0x60) State.reset = .refused .unmappedAddress := rfl
theorem test_host_width : access (.read 32 0x01000000) State.reset = .refused .wrongWidth := rfl
theorem test_host_misaligned : access (.read 32 0x02) State.reset = .refused .misalignedWord := rfl

/-! ## Witnesses: the hypotheses of each statement are met together -/

theorem not_ok_of_error {c : Code} {e : DecodeError} (h : decode c = .error e) : ∀ i, decode c ≠ .ok i := by
  intro i hi
  rw [h] at hi
  cases hi

theorem witness_IllegalWords :
    ({ State.reset with inputs := [.access (.write 32 0 0xFFFFFFFF)] } : State).busy = false ∧
      ∀ i, decode (.command 0xFFFFFFFF) ≠ .ok i := ⟨rfl, not_ok_of_error (e := .reservedNotZero) (by decide)⟩

theorem witness_StepRunsCommand :
    ({ State.reset with inputs := [.access (.write 32 0 0x10)] } : State).busy = false ∧
      decode (.command 0x10) = .ok .tinit := by decide

theorem witness_StepRunsToken :
    decode (.header [true]) = .ok .hExpand ∧ (∀ i, decode (.header [true, false]) ≠ .ok i) ∧
      findPending State.reset = none := ⟨by decide, not_ok_of_error (e := .tokenTooLong) (by decide), by decide⟩

/-- Placing a row of the opcode table: 32-bit command words, and header tokens of 1 and 9 bits counted in whole bytes. -/
theorem test_placed_rows :
    decodeTableWord 32 0x51 = some .decompress ∧ decodeTableWord 8 1 = some .hExpand ∧
      decodeTableWord 16 0xFF = some (.hLeaf 0xFF) ∧
      after (step (State.reset.withFetchWord 32 0x10)) State.nodeCnt = some 1 ∧
      after (step (State.reset.withFetchWord 16 0x41)) (fun t => t.node 0) = some (.leaf 0x41) := by decide

theorem witness_RefusedAccesses :
    State.reset.busy = false ∧ ({ State.reset with busy := true } : State).busy = true ∧
      Access.write 32 0 0x10 ≠ .read 32 4 := by decide

theorem witness_RegisterReads :
    State.reset.busy = false ∧ findPending State.reset = none ∧ arenaA.busy = false ∧ findPending arenaA = some 2 := by decide

theorem witness_StatusFields : arenaAB.busy = false := rfl

theorem witness_ReadOnlyRegisters :
    State.reset.busy = false ∧ (0x5C : Word).toNat < 0x60 ∧ (0x5C : Word).toNat % 4 = 0 ∧
      (0x5C : Word) ∉ ([0x00, 0x10, 0x14, 0x18] : List Word) := by decide

theorem witness_HostAccessEffects :
    State.reset.busy = false ∧ (∃ t, access (.read 32 0x5C) State.reset = .next t) ∧
      ∃ t, access (.write 8 0x02000000 0x41) State.reset = .next t := ⟨rfl, ⟨_, rfl⟩, ⟨_, rfl⟩⟩

theorem witness_BlkAperture : State.reset.busy = false ∧ 65535 < State.reset.params.blockMax := by decide
theorem witness_BitsAperture : State.reset.busy = false ∧ 131071 < State.reset.params.bitsMax / 8 := by decide
theorem witness_NodeAperture : State.reset.busy = false ∧ 510 < State.reset.params.nodeCap := by decide

theorem witness_HardwareReset :
    ({ arenaAB with busy := true, inputs := [.reset] } : State).inputs = .reset :: [] := rfl

theorem witness_TleafEffect :
    State.reset.nodeCnt = 0 ∧ (arenaAB.nodeCnt ≠ 0 ∧ findPending arenaAB = none) ∧
      (findPending arenaA = some 2 ∧ ArenaOk arenaA ∧ ∀ n, arenaA.node n = .unset → n = (2 : NodeIdx).toNat) ∧
      findPending (withArena [.unset]) = some (withArena [.unset]).root := by
  refine ⟨by decide, by decide, ⟨by decide, .inr ⟨_, arenaA_holds⟩, fun n hn => ?_⟩, by decide⟩
  by_contra hne
  have h3 : n < 3 := by
    by_contra hge
    rw [arenaA_holds.2.1 n (by show (3 : Nat) ≤ n; omega)] at hn
    cases hn
  have hne' : n ≠ 2 := hne
  have : n = 0 ∨ n = 1 := by omega
  rcases this with rfl | rfl <;> cases hn

/-- An arena with a pending root and no two free entries left. -/
def fullArena : State := { withArena [.unset] with nodeCnt := 511 }

theorem witness_TexpandEffect :
    State.reset.nodeCnt = 0 ∧ (arenaAB.nodeCnt ≠ 0 ∧ findPending arenaAB = none) ∧
      (findPending fullArena = some 0 ∧ fullArena.params.nodeCap < fullArena.nodeCnt.toNat + 2) ∧
      (findPending arenaA = some 2 ∧ arenaA.nodeCnt.toNat + 2 ≤ arenaA.params.nodeCap ∧ ArenaOk arenaA) ∧
      findPending ({ fullArena with nodeCnt := 509 } : State) = some 0 ∧
      ({ fullArena with nodeCnt := 509 } : State).nodeCnt.toNat + 2 ≤ fullArena.params.nodeCap :=
  ⟨by decide, by decide, by decide, ⟨by decide, by decide, .inr ⟨_, arenaA_holds⟩⟩, by decide, by decide⟩

theorem witness_TokenEffects :
    findPending arenaA = some 2 ∧ arenaA.nodeCnt.toNat + 2 ≤ arenaA.params.nodeCap ∧ ArenaOk arenaA ∧
      findPending fullArena = some 0 ∧ fullArena.params.nodeCap < fullArena.nodeCnt.toNat + 2 :=
  ⟨by decide, by decide, .inr ⟨_, arenaA_holds⟩, by decide, by decide⟩

/-- The header of `(A, B)` and two more bits. -/
def headerAB : State := loadBits (treeAB.header ++ [true, false]) State.reset

theorem witness_TokensBuildTheTree :
    treeAB.complete = true ∧ treeAB.size ≤ State.reset.params.nodeCap ∧ headerAB.bitsLen.toNat ≤ headerAB.params.bitsMax ∧
      headerAB.cursor.toNat ≤ headerAB.bitsLen.toNat ∧ bitsFrom headerAB = treeAB.header ++ [true, false] := by decide

theorem witness_PendingStack :
    HoldsTree arenaA (.node (.leaf 0x41) .unset) ∧ pendingStack arenaA = [2] ∧
      arenaA.nodeCnt.toNat + 2 ≤ arenaA.params.nodeCap ∧ (∃ t, exec (.tleaf 0x42) arenaA = .next t) ∧
      (∃ t, exec .texpand arenaA = .next t) ∧ ∃ t, exec .tinit arenaA = .next t :=
  ⟨arenaA_holds, by decide, by decide, ⟨_, rfl⟩, ⟨_, rfl⟩, ⟨_, rfl⟩⟩

theorem witness_SerializeEffect :
    State.reset.params.bitsMax < ({ State.reset with bitsLen := 0x00100001 } : State).bitsLen.toNat ∧
      (State.reset.bitsLen.toNat ≤ State.reset.params.bitsMax ∧ State.reset.nodeCnt = 0) ∧
      findPending arenaA = some 2 ∧
      (({ arenaAB with params := smallParams } : State).bitsLen.toNat ≤ smallParams.bitsMax ∧ arenaAB.nodeCnt ≠ 0 ∧
        findPending arenaAB = none ∧ smallParams.bitsMax < arenaAB.bitsLen.toNat + 5 * arenaAB.nodeCnt.toNat + 4) ∧
      HoldsTree arenaAB treeAB ∧ treeAB.complete = true ∧
      arenaAB.bitsLen.toNat + 5 * arenaAB.nodeCnt.toNat + 4 ≤ arenaAB.params.bitsMax :=
  ⟨by decide, by decide, by decide, by decide, arenaAB_holds, by decide, by decide⟩

theorem witness_DeserializeBuilds :
    headerAB.bitsLen.toNat ≤ headerAB.params.bitsMax ∧ headerAB.cursor.toNat ≤ headerAB.bitsLen.toNat ∧
      treeAB.complete = true ∧ treeAB.size ≤ headerAB.params.nodeCap ∧
      bitsFrom headerAB = treeAB.header ++ [true, false] := by decide

theorem witness_DeserializeAnyBits :
    headerAB.bitsLen.toNat ≤ headerAB.params.bitsMax ∧ headerAB.cursor.toNat ≤ headerAB.bitsLen.toNat := by decide

/-- The header of `(A, B)` without its last bit. -/
def headerCut : State := loadBits (treeAB.header.take 18) State.reset

theorem witness_DeserializeTruncated :
    headerCut.bitsLen.toNat ≤ headerCut.params.bitsMax ∧ headerCut.cursor.toNat ≤ headerCut.bitsLen.toNat ∧
      treeAB.complete = true ∧ treeAB.records[1]? = some (false :: bitsOfByte 0x42) ∧
      (false :: (bitsOfByte 0x42).take 7) <+: (false :: bitsOfByte 0x42) ∧
      (false :: (bitsOfByte 0x42).take 7).length < (false :: bitsOfByte 0x42).length ∧
      bitsFrom headerCut = (treeAB.records.take 1).flatten ++ (false :: (bitsOfByte 0x42).take 7) ∧
      1 + 2 * ((treeAB.records.take 1).map (fun x => x.length - 9)).sum ≤ headerCut.params.nodeCap := by
  refine ⟨by decide, by decide, by decide, by decide, ⟨[false], by decide⟩, by decide, by decide, by decide⟩

/-- A left chain of `n` internal nodes. -/
def chain : Nat → CodeTree
  | 0 => .leaf 0x41
  | n + 1 => .node (chain n) (.leaf 0x42)

/-- V45(a): 256 one-bits, `0`, `01000001`. -/
def deepHeader : State := loadBits (List.replicate 256 true ++ (false :: bitsOfByte 0x41)) State.reset

theorem witness_DeserializeOverflows :
    deepHeader.bitsLen.toNat ≤ deepHeader.params.bitsMax ∧ deepHeader.cursor.toNat ≤ deepHeader.bitsLen.toNat ∧
      (chain 256).complete = true ∧ 0 < (chain 256).records.length ∧
      bitsFrom deepHeader = ((chain 256).records.take 1).flatten ++ [] ∧
      1 + 2 * (((chain 256).records.take 0).map (fun x => x.length - 9)).sum ≤ deepHeader.params.nodeCap ∧
      deepHeader.params.nodeCap < 1 + 2 * (((chain 256).records.take 1).map (fun x => x.length - 9)).sum := by
  refine ⟨by decide +kernel, by decide +kernel, by decide +kernel, by decide +kernel, by decide +kernel, by decide +kernel,
    by decide +kernel⟩

theorem witness_HeaderInverse :
    (HoldsTree arenaAB treeAB ∧ treeAB.complete = true ∧ 5 * arenaAB.nodeCnt.toNat + 4 ≤ arenaAB.params.bitsMax) ∧
      ∃ t, exec .deserialize headerAB = .next t ∧ t.err = false :=
  ⟨⟨arenaAB_holds, by decide, by decide⟩, _, rfl, by decide⟩

theorem witness_HeaderShape : treeAB.complete = true ∧ 1 < treeAB.records.length ∧ 1 < treeAB.values.length := by decide

theorem witness_CountRule : ([0x41, 0x42, 0x41] : List Byte) ≠ [] := by decide

theorem witness_WorklistInsertion :
    ([⟨1, 3⟩, ⟨2, 2⟩, ⟨3, 1⟩, ⟨4, 0⟩] : List WorkEntry).Pairwise (fun x y => x.weight ≤ y.weight) := by decide

theorem witness_WorklistOrder : blockBytes (withBlock [0x41, 0x42, 0x41]) ≠ [] := by decide

theorem witness_BuildEffect :
    ({ State.reset with blkLen := 65536 } : State).blkLen ≠ 0 ∧
      ({ State.reset with blkLen := 65536 } : State).blkLen.toNat ≤ State.reset.params.blockMax := by decide

theorem witness_LookupEffect :
    HoldsTree arenaAB treeAB ∧ treeAB.complete = true ∧ treeAB.path 0x45 = none ∧ treeAB.path 0x42 = some [true] :=
  ⟨arenaAB_holds, by decide, by decide, by decide⟩

/-- A block with the arena of `(A, B)`. -/
def blockAB (bytes : List Byte) : State := { withBlock bytes with nodes := arenaAB.nodes, nodeCnt := arenaAB.nodeCnt }

theorem blockAB_holds (bytes : List Byte) : HoldsTree (blockAB bytes) treeAB :=
  holdsTree_congr arenaAB_holds (fun _ => rfl) rfl rfl rfl

theorem witness_EncodeEffect :
    (blockAB [0x42, 0x41]).blkLen.toNat ≤ (blockAB [0x42, 0x41]).params.blockMax ∧
      HoldsTree (blockAB [0x42, 0x41]) treeAB ∧ treeAB.complete = true ∧
      treeAB.payload (blockBytes (blockAB [0x42, 0x41])) = some [true, false] ∧
      (blockAB [0x42, 0x41]).bitsLen.toNat + 2 ≤ (blockAB [0x42, 0x41]).params.bitsMax :=
  ⟨by decide, blockAB_holds _, by decide, by decide, by decide⟩

/-- ENCODE with one free bit left. -/
def nearlyFull : State := { blockAB [0x42, 0x41] with bitsLen := 0x000FFFFF }

theorem witness_EncodeErrors :
    ((blockAB [0x42, 0x45]).blkLen.toNat ≤ (blockAB [0x42, 0x45]).params.blockMax ∧
        HoldsTree (blockAB [0x42, 0x45]) treeAB ∧ blockBytes (blockAB [0x42, 0x45]) = [0x42] ++ 0x45 :: [] ∧
        treeAB.payload [0x42] = some [true] ∧ treeAB.path 0x45 = none) ∧
      nearlyFull.bitsLen.toNat ≤ nearlyFull.params.bitsMax ∧ HoldsTree nearlyFull treeAB ∧
      blockBytes nearlyFull = [0x42] ++ 0x41 :: [] ∧ nearlyFull.bitsLen.toNat + 1 ≤ nearlyFull.params.bitsMax ∧
      treeAB.path 0x41 = some [false] ∧ nearlyFull.params.bitsMax < nearlyFull.bitsLen.toNat + 1 + 1 :=
  ⟨⟨by decide, blockAB_holds _, by decide, by decide, by decide⟩, by decide,
    holdsTree_congr arenaAB_holds (fun _ => rfl) rfl rfl rfl, by decide, by decide, by decide, by decide⟩

/-- Two codes to decode, and room for one byte. -/
def twoCodes : State := { loadBits [true, false] arenaAB with params := smallParams }

theorem twoCodes_holds : HoldsTree twoCodes treeAB :=
  ⟨⟨[0, 1, 2], ⟨1, 2, [1], [2], rfl, ⟨rfl, rfl⟩, ⟨rfl, rfl⟩, rfl⟩, by decide⟩, free_of_unlisted (by decide), by decide⟩

theorem witness_DecodeEffect :
    (twoCodes.bitsLen.toNat ≤ twoCodes.params.bitsMax ∧ twoCodes.cursor.toNat ≤ twoCodes.bitsLen.toNat ∧
        HoldsTree twoCodes treeAB ∧ treeAB.complete = true ∧
        treeAB.Decoding (bitsFrom twoCodes) [[true], [false]] [0x42, 0x41] [] ∧
        twoCodes.params.blockMax < ([0x42, 0x41] : List Byte).length) ∧
      (treeAB.Decoding [true] [[true]] [0x42] [] ∧ ([0x42] : List Byte).length ≤ twoCodes.params.blockMax) ∧
      HoldsTree (withArena [.leaf 0x41]) (.leaf 0x41) :=
  ⟨⟨by decide, by decide, twoCodes_holds, by decide, ⟨by decide, by decide, _, _, rfl⟩, by decide⟩,
    ⟨⟨by decide, by decide, _, _, rfl⟩, by decide⟩, leafA_holds⟩

theorem witness_DecodingIsUnique :
    treeAB.Decoding [true, false] [[true], [false]] [0x42, 0x41] [] ∧
      treeAB.payload [0x42, 0x41] = some [true, false] := ⟨⟨by decide, by decide, _, _, rfl⟩, by decide⟩

theorem witness_CompressEffect :
    (withBlock [0x41, 0x42]).blkLen ≠ 0 ∧ (withBlock [0x41, 0x42]).blkLen.toNat ≤ (withBlock [0x41, 0x42]).params.blockMax ∧
      treeAB = CodeTree.huffman (blockBytes (withBlock [0x41, 0x42])) := by decide

/-- An instance with room for 24 bits. -/
def params24 : Params := ⟨16, 24, 511, by decide, by decide, by decide⟩

/-- A block in that instance. -/
def block24 (bytes : List Byte) : State := { withBlock bytes with params := params24 }

/-- The overflow clause: `ABC` has a header of 29 bits. -/
theorem witness_CompressEffect_overflow :
    (block24 [0x41, 0x42, 0x43]).blkLen ≠ 0 ∧ (block24 [0x41, 0x42, 0x43]).blkLen.toNat ≤ params24.blockMax ∧
      params24.bitsMax < (CodeTree.huffman (blockBytes (block24 [0x41, 0x42, 0x43]))).header.length := by decide

/-- BUILD fails on an empty block; SERIALIZE does not fit the header of `ABC`; ENCODE does not fit the 6 bits of `ABAAAA` after
its header of 19; and all fits for `AB`. -/
theorem witness_CompressIsItsParts :
    after (exec .build { State.reset with bitsLen := 0 }) State.err = some true ∧
      after (exec .build { block24 [0x41, 0x42, 0x43] with bitsLen := 0 })
        (fun s₁ => (s₁.err, after (exec .serialize s₁) State.err)) = some (false, some true) ∧
      after (exec .build { block24 [0x41, 0x42, 0x41, 0x41, 0x41, 0x41] with bitsLen := 0 })
        (fun s₁ => (s₁.err, after (exec .serialize s₁) (fun s₂ => (s₂.err, after (exec .encode s₂) State.err)))) =
        some (false, some (false, some true)) ∧
      after (exec .build { block24 [0x41, 0x42] with bitsLen := 0 })
        (fun s₁ => (s₁.err, after (exec .serialize s₁) (fun s₂ => (s₂.err, after (exec .encode s₂) State.err)))) =
        some (false, some (false, some false)) := by decide

/-- An instance with room for one byte and 24 bits. -/
def tightParams : Params := ⟨1, 24, 511, by decide, by decide, by decide⟩

/-- The header of `(A, B)` and two codes, with room for one byte; the header and one code; and a one-node header. -/
theorem witness_DecompressEffect :
    (({ loadBits (treeAB.header ++ [true, false]) State.reset with params := tightParams } : State).bitsLen.toNat ≤
          tightParams.bitsMax ∧ treeAB.complete = true ∧ treeAB.size ≤ tightParams.nodeCap ∧
        bitsFrom { loadBits (treeAB.header ++ [true, false]) State.reset with params := tightParams, cursor := 0 } =
          treeAB.header ++ [true, false] ∧ tightParams.blockMax < ([0x42, 0x41] : List Byte).length) ∧
      bitsFrom { loadBits (treeAB.header ++ [true]) State.reset with cursor := 0 } = treeAB.header ++ [true] ∧
      bitsFrom { loadBits ((CodeTree.leaf 0x41).header ++ [true]) State.reset with cursor := 0 } =
        (CodeTree.leaf 0x41).header ++ [true] := by decide

theorem witness_DecompressIsItsParts :
    (∃ s₁ t, exec .deserialize { State.reset with cursor := 0, bitsLen := 0x00100001 } = .next s₁ ∧
        exec .decompress { State.reset with bitsLen := 0x00100001 } = .next t ∧
        State.reset.params.bitsMax < (0x00100001 : Word).toNat) ∧
      after (exec .deserialize { headerCut with cursor := 0 }) State.err = some true ∧
      after (exec .deserialize { headerAB with cursor := 0 }) State.err = some false :=
  ⟨⟨_, _, rfl, rfl, by decide⟩, by decide, by decide⟩

theorem witness_RoundTrip :
    2 ≤ (blockBytes (withBlock [0x41, 0x42])).eraseDups.length ∧
      after (exec .compress (withBlock [0x41, 0x42])) State.err = some false := by decide

theorem witness_SingleSymbolBlock :
    (withBlock [0x5A, 0x5A]).blkLen ≠ 0 ∧ (withBlock [0x5A, 0x5A]).blkLen.toNat ≤ State.reset.params.blockMax ∧
      ∀ b ∈ blockBytes (withBlock [0x5A, 0x5A]), b = 0x5A := by decide

/-- The output of `AB` is a header of 19 bits and two codes: cut just inside the header, just after it, after one code, and not
at all; and the output of `A`, one bit short. -/
theorem witness_TruncationHandling :
    2 ≤ (blockBytes (withBlock [0x41, 0x42])).eraseDups.length ∧
      after (exec .compress (withBlock [0x41, 0x42])) (fun t => (t.err, t.bitsLen.toNat, t.hdrLen.toNat)) =
        some (false, 21, 19) ∧
      ((18 : Word).toNat ≤ 21 ∧ (18 : Word).toNat < 19) ∧ ((19 : Word).toNat ≤ 21 ∧ 19 ≤ (19 : Word).toNat) ∧
      ((20 : Word).toNat ≤ 21 ∧ 19 ≤ (20 : Word).toNat) ∧ ((21 : Word).toNat ≤ 21 ∧ (21 : Word) = 21) ∧
      after (exec .compress (withBlock [0x41])) (fun t => (t.err, t.bitsLen.toNat, t.hdrLen.toNat)) = some (false, 9, 9) ∧
      ((8 : Word).toNat ≤ 9 ∧ (8 : Word).toNat < 9) := by decide

theorem witness_CompressDeterminism :
    (withBlock [0x41, 0x42]).params = (blockAB [0x41, 0x42]).params ∧ (withBlock [0x41, 0x42]).blkLen ≠ 0 ∧
      (withBlock [0x41, 0x42]).blkLen.toNat ≤ (withBlock [0x41, 0x42]).params.blockMax ∧
      blockBytes (withBlock [0x41, 0x42]) = blockBytes (blockAB [0x41, 0x42]) := by decide

theorem witness_PayloadLength : treeAB.payload [0x42, 0x42, 0x41] = some [true, true, false] := by decide

theorem witness_TreeShape :
    HoldsTree arenaAB treeAB ∧ treeAB.complete = true ∧ lookupPath arenaAB 0x41 = some [false] ∧ [false] <+: [false] :=
  ⟨arenaAB_holds, by decide, by decide, List.prefix_refl _⟩

theorem witness_BadLengthRule :
    badLength .build { State.reset with blkLen := 0x00010001 } = some 1 ∧
      badLength .decompress { State.reset with bitsLen := 0x00100001 } = some 2 ∧
      badLength .decode { State.reset with bitsLen := 8, cursor := 9 } = some 3 ∧
      badLength .encode { State.reset with blkLen := 65536, bitsLen := 0x00100000 } = none ∧
      Instr.isCommand .build = true := by decide

theorem witness_EmptyBlockRule :
    State.reset.blkLen = 0 ∧ State.reset.bitsLen = 0 ∧ Instr.isCommand .build = true ∧
      after (exec .build State.reset) State.errCode = some 0x01 := by decide

theorem witness_TreeConditionErrors :
    (badLength .encode State.reset = none ∧ State.reset.nodeCnt = 0) ∧
      (badLength .texpand arenaAB = none ∧ arenaAB.nodeCnt ≠ 0 ∧ findPending arenaAB = none) ∧
      badLength .decode arenaA = none ∧ findPending arenaA = some 2 := by decide

theorem witness_ErrorTable :
    after (exec .serialize arenaA) State.errCode = some 0x13 ∧ after (exec .decode State.reset) State.errCode = some 0x11 := by
  decide

theorem witness_EveryCommandEnds : Instr.isCommand .clear = true ∧ Instr.isCommand .decompress = true := by decide

theorem witness_BuffersWrittenByTheirOwners :
    (∃ t, exec .deserialize headerAB = .next t) ∧ ∃ t, exec .encode (blockAB [0x42]) = .next t := ⟨⟨_, rfl⟩, ⟨_, rfl⟩⟩

theorem witness_StoresStayOk :
    StoresOk { arenaA with inputs := [.access (.write 32 0 0x12)] } ∧
      ∃ t, step { arenaA with inputs := [.access (.write 32 0 0x12)] } = .next t :=
  ⟨by unfold StoresOk; decide, _, rfl⟩

theorem witness_ArenaStaysATree :
    ArenaOk { arenaA with inputs := [.access (.write 32 0 0x12)] } ∧
      ∃ t, step { arenaA with inputs := [.access (.write 32 0 0x12)] } = .next t :=
  ⟨.inr ⟨_, holdsTree_congr arenaA_holds (fun _ => rfl) rfl rfl rfl⟩, _, rfl⟩

theorem witness_StatusStaysOk :
    StatusOk { State.reset with inputs := [.access (.write 32 0 0x12)] } ∧
      ∃ t, step { State.reset with inputs := [.access (.write 32 0 0x12)] } = .next t :=
  ⟨by unfold StatusOk; decide, _, rfl⟩

end Sys2Proof.Tests
end

section
/-! Scope: the state after reset, how every command ends, and what SERIALIZE, DESERIALIZE and ENCODE do. -/

namespace Sys2Proof

open Sys2Proof.Machine

/-! ### The state after reset -/

/-- After hardware reset no node is pending, whatever the parameters (R46). -/
theorem findPending_resetOf (p : Params) (k : Nat) : findPending (State.resetOf p k) = none := findPending_noTree rfl

/-- Every register reads 0 after hardware reset but PEND, which says that no node is pending (R33, R46). -/
theorem readReg_resetOf (p : Params) (k : Nat) (r : Reg) :
    (State.resetOf p k).readReg r = if r = .pend then 0xFFFFFFFF else 0 := by
  cases r with
  | pend => simp [State.readReg, pendWord, findPending_resetOf]
  | codeBits j =>
    show (#v[0, 0, 0, 0, 0, 0, 0, 0] : Vector Word 8)[j] = 0
    revert j
    decide
  | _ => rfl

/-- The arena is empty after hardware reset (R46). -/
theorem noTree_resetOf (p : Params) (k : Nat) : NoTree (State.resetOf p k) := ⟨rfl, rfl, fun _ => rfl⟩

/-- Settles O16: the reset state of the default parameters. -/
theorem resetState : Obligations.ResetState :=
  ⟨readReg_resetOf _ _, noTree_resetOf _ _, rfl, rfl, rfl⟩

/-! ### How every command ends -/

/-- The control registers after a command other than CLEAR: as a completed one or as one that ended with an error leaves
them (R170). -/
theorem exec_control {i : Instr} (hi : i.isCommand = true) (hc : i ≠ .clear) (s : State) :
    ∃ t, exec i s = .next t ∧ SameSurroundings s t ∧
      (Completed (wordOf i) s t ∨ ∃ e info, Errored (wordOf i) e info t) := by
  have hends := (bodyOf_ends hi hc (beginCommand (wordOf i) s)).1
  rcases exec_body_cases hi s with ⟨u, hb, hx⟩ | ⟨e, info, u, hb, hx⟩
  · rw [hb] at hends
    obtain ⟨hcmd, -, -, herr, hsticky, hcode, hinfo, hsurr⟩ := hends.control
    exact ⟨_, hx, hsurr, .inl ⟨hcmd, rfl, rfl, herr, hcode, hinfo, hsticky⟩⟩
  · rw [hb] at hends
    obtain ⟨hcmd, -, -, -, -, -, -, hsurr⟩ := hends.control
    exact ⟨_, hx, hsurr, .inr ⟨e, info, hcmd, rfl, rfl, rfl, rfl, rfl, rfl⟩⟩

/-- Settles O55: CLEAR by its one body, every other command by how it leaves the control registers. -/
theorem everyCommandEnds : Obligations.EveryCommandEnds := by
  intro i s hi
  by_cases hc : i = .clear
  · subst hc
    exact ⟨_, rfl, rfl, rfl, ⟨fun h => absurd h Bool.false_ne_true, fun h => absurd rfl h⟩, fun _ => rfl,
      fun h => absurd rfl h, fun _ => ⟨rfl, rfl⟩, rfl, rfl, rfl, rfl, rfl⟩
  · obtain ⟨t, hx, hsurr, hend⟩ := exec_control hi hc s
    refine ⟨t, hx, ?_⟩
    rcases hend with ⟨hcmd, hbusy, hdone, herr, hcode, hinfo, hsticky⟩ |
      ⟨e, info, hcmd, hbusy, hdone, herr, hsticky, hcode, hinfo⟩
    · exact ⟨hdone, hbusy, by simp [herr, hcode], fun _ => hinfo, fun _ => ⟨hcmd, by simp [hsticky, herr]⟩,
        fun h => absurd h hc, hsurr⟩
    · exact ⟨hdone, hbusy, ⟨fun _ => hcode ▸ Err.code_ne_zero e, fun _ => herr⟩, fun h => by simp [herr] at h,
        fun _ => ⟨hcmd, by simp [hsticky, herr]⟩, fun h => absurd h hc, hsurr⟩

/-! ### Output: SERIALIZE and ENCODE -/

/-- The state after a command with word `w` that appended the bits of `l`, zero-filled the tail and left HDR_LEN at `n`. -/
def afterOutput (w : Word) (l : List Bool) (n : Word) (s : State) : State :=
  endCommand { zeroFillTail (appended l (beginCommand w s)) with hdrLen := n }

/-- What such a command does is append the bits (R13, R16, R170): the control registers, BITS, BITS_LEN and HDR_LEN change,
and nothing else. -/
theorem afterOutput_effect {w : Word} {l : List Bool} {n : Word} {s : State} {changed : List Reg}
    (hfit : s.bitsLen.toNat + l.length ≤ s.params.bitsMax) (hframe : frameRegs ++ [.bitsLen] ⊆ changed)
    (hhdr : Reg.hdrLen ∈ changed ∨ n = s.hdrLen) :
    Completed w s (afterOutput w l n s) ∧ BitsAppended l s (afterOutput w l n s) ∧
      SameDerivedFlags s (afterOutput w l n s) ∧ SameRegs changed s (afterOutput w l n s) ∧
      SameBlk s (afterOutput w l n s) ∧ SameNodes s (afterOutput w l n s) ∧ SameSurroundings s (afterOutput w l n s) := by
  have hbits : BitsAppended l s (afterOutput w l n s) :=
    bitsAppended_zeroFill hfit (by simp only [afterOutput, zeroFillTail_eq]; rfl)
      (by simp only [afterOutput, zeroFillTail_eq]; rfl) (by simp only [afterOutput, zeroFillTail_eq]; rfl)
  refine ⟨?_, hbits, ?_⟩ <;> simp only [afterOutput, zeroFillTail_eq]
  · exact ⟨rfl, rfl, rfl, rfl, rfl, rfl, rfl⟩
  · refine ⟨sameDerivedFlags_of rfl rfl rfl rfl (fun _ => rfl), ?_, fun _ => rfl, fun _ => rfl, rfl, rfl, rfl, rfl, rfl⟩
    exact sameRegs_intro (.inl (hframe (by decide))) (hframe (by decide)) (.inl (hframe (by decide)))
      (.inl (hframe (by decide))) (.inr rfl) (.inl (hframe (by decide))) (.inr rfl) hhdr (.inr rfl) (.inr rfl)
      (.inr (findPending_congr (fun _ => rfl) rfl rfl rfl)) (.inr rfl) (.inr rfl) (.inr rfl) rfl

/-- The header of a complete tree in the arena has `5 * NODE_CNT + 4` bits (R103). -/
theorem header_length_holdsTree {s : State} {T : CodeTree} (h : HoldsTree s T) (hc : T.complete = true) :
    T.header.length = 5 * s.nodeCnt.toNat + 4 := by
  rw [CodeTree.header_length hc, holdsTree_size h]

/-- SERIALIZE of a complete tree whose header fits (R101). -/
theorem exec_serialize_fits {s : State} {T : CodeTree} (h : HoldsTree s T) (hc : T.complete = true)
    (hfit : s.bitsLen.toNat + T.header.length ≤ s.params.bitsMax) :
    exec .serialize s = .next (afterOutput 0x00000020 T.header (BitVec.ofNat 32 T.header.length) s) := by
  have hchecks : serializeBody (beginCommand (wordOf .serialize) s) = serializeRun (beginCommand (wordOf .serialize) s) := by
    have hlen := header_length_holdsTree h hc
    exact guarded_none (by
      simp [firstError, checkBitsLen_none (s := s) (by omega), checkTree_none (holdsTree_nodeCnt_ne h),
        checkComplete_none (findPending_of_complete h hc), checkHeaderFits_none (s := s) (by omega)])
  exact exec_completed (body := serializeBody) rfl
    (hchecks.trans (serializeRun_fits (holdsTree_beginCommand h) hc hfit))

/-- SERIALIZE ends errored at the first of its checks that finds an error (R101, R145). -/
theorem serialize_endsErrored {s : State} {e : Err} {info : Word}
    (h : firstError [checkBitsLen s, checkTree s, checkComplete s, checkHeaderFits s] = some (e, info)) :
    EndsErrored .serialize s e info :=
  endsErrored_of_body (body := serializeBody) rfl (guarded_some (by simpa using h))

/-- Settles O25: each error by the checks before it, and otherwise the header as output. -/
theorem serializeEffect : Obligations.SerializeEffect := by
  intro s
  refine ⟨fun h => ?_, fun h1 h2 => ?_, fun p h1 h2 => ?_, fun h1 h2 h3 h4 => ?_, fun T hT hc hfit => ?_⟩
  · exact serialize_endsErrored (by simp [firstError, checkBitsLen_some h])
  · exact serialize_endsErrored (by simp [firstError, checkBitsLen_none h1, checkTree_some h2])
  · have htree : s.nodeCnt ≠ 0 := fun h0 => by simp [findPending_noTree h0] at h2
    exact serialize_endsErrored (by
      simp [firstError, checkBitsLen_none h1, checkTree_none htree, checkComplete_some h2])
  · exact serialize_endsErrored (by
      simp [firstError, checkBitsLen_none h1, checkTree_none h2, checkComplete_none h3, checkHeaderFits_some h4])
  · have hlen := header_length_holdsTree hT hc
    have hmax := bitsMax_lt s
    obtain ⟨hend, hbits, hflags, hregs, hframe⟩ := afterOutput_effect (w := 0x00000020) (l := T.header)
      (n := BitVec.ofNat 32 T.header.length) (s := s) (changed := frameRegs ++ [.bitsLen, .hdrLen]) (by omega)
      (by decide) (.inl (by decide))
    refine ⟨_, exec_serialize_fits hT hc (by omega), hend, hbits, ?_, hflags, hregs, hframe⟩
    show (BitVec.ofNat 32 T.header.length).toNat = _
    rw [ofNat_toNat_word (by omega), hlen]

/-- ENCODE of a block whose payload exists and fits (R123, R124). -/
theorem exec_encode_fits {s : State} {T : CodeTree} {p : List Bool} (hlen : s.blkLen.toNat ≤ s.params.blockMax)
    (h : HoldsTree s T) (hc : T.complete = true) (hp : T.payload (blockBytes s) = some p)
    (hfit : s.bitsLen.toNat + p.length ≤ s.params.bitsMax) :
    exec .encode s = .next (afterOutput 0x00000041 p s.hdrLen s) := by
  have hrun : encodeRun (beginCommand 0x00000041 s) = .completed (appended p (beginCommand 0x00000041 s)) :=
    encodeRun_payload (holdsTree_beginCommand h) (by rwa [blockBytes_beginCommand]) hfit
  have hbody : encodeBody (beginCommand 0x00000041 s) =
      .completed { zeroFillTail (appended p (beginCommand 0x00000041 s)) with hdrLen := s.hdrLen } := by
    rw [encodeBody_run hlen (by omega) h hc]
    simp only [encodeAppend, hrun, zeroFillTail_eq]
    rfl
  exact exec_completed (body := encodeBody) rfl hbody

/-- Settles O37: the payload as output. -/
theorem encodeEffect : Obligations.EncodeEffect := fun _s _T _p hlen hT hc hp hfit =>
  ⟨_, exec_encode_fits hlen hT hc hp hfit, afterOutput_effect hfit (List.Subset.refl _) (.inr rfl)⟩

/-! ### DESERIALIZE on any bits -/

/-- What a command leaves alone that writes the control registers, the arena, CURSOR and HDR_LEN only (R105). -/
theorem headerRead_frame {s t : State} (h : t = { s with
      cmd := t.cmd, busy := t.busy, done := t.done, err := t.err, stickyErr := t.stickyErr, errCode := t.errCode
      errInfo := t.errInfo, cursor := t.cursor, hdrLen := t.hdrLen, nodes := t.nodes, nodeCnt := t.nodeCnt
      root := t.root }) :
    SameRegs (frameRegs ++ treeRegs ++ [.cursor, .hdrLen]) s t ∧ SameBlk s t ∧ SameBits s t ∧ SameSurroundings s t := by
  rw [h]
  refine ⟨?_, fun _ => rfl, fun _ => rfl, rfl, rfl, rfl, rfl, rfl⟩
  exact sameRegs_intro (.inl (by decide)) (by decide) (.inl (by decide)) (.inl (by decide)) (.inr rfl) (.inr rfl)
    (.inl (by decide)) (.inl (by decide)) (.inl (by decide)) (.inl (by decide)) (.inl (by decide)) (.inr rfl) (.inr rfl)
    (.inr rfl) rfl

/-- The bits left to read are fewer than BITS_LEN can count (R15, R28). -/
theorem bitsLeft_lt (s : State) : bitsLeft s < 2 ^ 32 :=
  Nat.lt_of_le_of_lt (Nat.sub_le _ _) s.bitsLen.isLt

/-- How DESERIALIZE ends when its body read `n` bits and completed (R105): root 0, CURSOR after the bits read, HDR_LEN their
number. -/
theorem headerRead_effect {w : Word} {n : Nat} {s u : State} (hn : n ≤ bitsLeft s)
    (hu : u = { advance n (beginCommand w s) with
      nodes := u.nodes, nodeCnt := u.nodeCnt, root := 0, hdrLen := BitVec.ofNat 32 n }) :
    (SameRegs (frameRegs ++ treeRegs ++ [.cursor, .hdrLen]) s (endCommand u) ∧ SameBlk s (endCommand u) ∧
      SameBits s (endCommand u) ∧ SameSurroundings s (endCommand u)) ∧
    Completed w s (endCommand u) ∧ (endCommand u).root = 0 ∧ (endCommand u).hdrLen.toNat = n ∧
      (endCommand u).cursor.toNat = s.cursor.toNat + n := by
  refine ⟨headerRead_frame (by rw [hu]; rfl), completed_end _ _ _ (by rw [hu]; rfl), by rw [hu]; rfl, ?_, ?_⟩ <;> rw [hu]
  · exact ofNat_toNat_word (Nat.lt_of_le_of_lt hn (bitsLeft_lt s))
  · exact cursor_advance hn

/-- The state after a command with word `w` whose header failed with error `e` after `k` bits read (R105): no tree, HDR_LEN
0, error entry. -/
def afterHeaderFail (w : Word) (e : Err) (info : Word) (k : Nat) (s : State) : State :=
  endCommand (errorEntry e info
    { advance k (beginCommand w s) with nodes := [], nodeCnt := 0, root := 0, hdrLen := 0 })

/-- What a failed header leaves (R105, R107, R149). -/
theorem afterHeaderFail_effect (w : Word) (e : Err) (info : Word) (k : Nat) (s : State) :
    (SameRegs (frameRegs ++ treeRegs ++ [.cursor, .hdrLen]) s (afterHeaderFail w e info k s) ∧
      SameBlk s (afterHeaderFail w e info k s) ∧ SameBits s (afterHeaderFail w e info k s) ∧
      SameSurroundings s (afterHeaderFail w e info k s)) ∧
    NoTree (afterHeaderFail w e info k s) ∧ (afterHeaderFail w e info k s).hdrLen = 0 ∧
      (afterHeaderFail w e info k s).cursor = (advance k s).cursor ∧ Errored w e info (afterHeaderFail w e info k s) :=
  ⟨headerRead_frame rfl, ⟨rfl, rfl, fun _ => rfl⟩, rfl, rfl, rfl, rfl, rfl, rfl, rfl, rfl, rfl⟩

/-- DESERIALIZE behind its checks, when its body raises as a failed header does (R105). -/
theorem exec_deserialize_fails {s : State} {e : Err} {info : Word} {k : Nat} (h1 : s.bitsLen.toNat ≤ s.params.bitsMax)
    (h2 : s.cursor.toNat ≤ s.bitsLen.toNat)
    (h : deserializeRun (beginCommand (wordOf .deserialize) s) = .raised e info
      { advance k (beginCommand (wordOf .deserialize) s) with nodes := [], nodeCnt := 0, root := 0, hdrLen := 0 }) :
    exec .deserialize s = .next (afterHeaderFail 0x00000021 e info k s) :=
  exec_raised (body := deserializeBody) rfl ((deserializeBody_run h1 h2).trans h)

/-- Settles O27: the three ends of `deserialize_body` on any bits, inside the frame. -/
theorem deserializeAnyBits : Obligations.DeserializeAnyBits := by
  intro s hbits hcur
  rcases deserializeRun_any (beginCommand (wordOf .deserialize) s) with
    ⟨u, T, hrun, hc, hT, hle, htake, hu⟩ | ⟨info, hrun⟩ | ⟨k, hk, hrun⟩
  · have hx := exec_completed (body := deserializeBody) rfl ((deserializeBody_run hbits hcur).trans hrun)
    rw [bitsFrom_beginCommand] at htake
    obtain ⟨⟨hregs, hblk, hbit, hsurr⟩, hend, hroot, hhdr, hcursor⟩ := headerRead_effect (s := s) hle hu
    exact ⟨_, hx, hregs, hblk, hbit, hsurr,
      .inl ⟨T, hend, hc, holdsTree_endCommand hT, hroot, hhdr, hcursor, hle, htake⟩⟩
  · obtain ⟨⟨hregs, hblk, hbit, hsurr⟩, hnone, hhdr, hcursor, herr⟩ :=
      afterHeaderFail_effect 0x00000021 .truncatedHeader info (bitsLeft s) s
    exact ⟨_, exec_deserialize_fails hbits hcur hrun, hregs, hblk, hbit, hsurr,
      .inr (.inl ⟨hnone, hhdr, hcursor.trans (advance_end hcur), info, herr⟩)⟩
  · obtain ⟨⟨hregs, hblk, hbit, hsurr⟩, hnone, hhdr, hcursor, herr⟩ :=
      afterHeaderFail_effect 0x00000021 .treeOverflow (BitVec.ofNat 32 s.params.nodeCap) k s
    rw [bitsLeft_beginCommand] at hk
    rw [beginCommand_params] at hrun
    have hleft : bitsLeft s = s.bitsLen.toNat - s.cursor.toNat := rfl
    have hadv := cursor_advance hk
    exact ⟨_, exec_deserialize_fails hbits hcur hrun, hregs, hblk, hbit, hsurr,
      .inr (.inr ⟨hnone, hhdr, by rw [hcursor]; omega, by rw [hcursor]; omega, herr⟩)⟩

end Sys2Proof
end

section
/-! Scope: the invariants every step keeps and reset has; what the host reads and writes in the register file; hardware
reset; LOOKUP; the shape of the tree in the arena. -/

namespace Sys2Proof

open Sys2Proof.Machine

/-! ### Claims about the stores, and what keeps them -/

/-- A claim about the three stores, NODE_CNT, ROOT and the capacities: no other field has a part in it. -/
def StoreClaim (P : State → Prop) : Prop :=
  ∀ s t : State, t.params = s.params → t.blk = s.blk → t.bits = s.bits → t.nodes = s.nodes → t.nodeCnt = s.nodeCnt →
    t.root = s.root → P s → P t

/-- The inputs, the reply and the count of polls have no part in it. -/
theorem StoreClaim.hostOnly {P : State → Prop} (hP : StoreClaim P) {s t : State} (h : HostOnly s t) (hs : P s) : P t :=
  hP s t (by rw [h]) (by rw [h]) (by rw [h]) (by rw [h]) (by rw [h]) (by rw [h]) hs

/-- The last lines of the frame have no part in it. -/
theorem StoreClaim.finish {P : State → Prop} (hP : StoreClaim P) {r : BodyResult} (hr : P r.state) : P (finish r) := by
  cases r with
  | completed u => exact hP u _ rfl rfl rfl rfl rfl rfl hr
  | raised e info u => exact hP u _ rfl rfl rfl rfl rfl rfl hr

/-- A command keeps what its body keeps (R170). -/
theorem StoreClaim.runFrame {P : State → Prop} (hP : StoreClaim P) {w : Word} {body : State → BodyResult} {s : State}
    (hbody : ∀ u, P u → P (body u).state) (hs : P s) : P (runFrame w body s) :=
  hP.finish (hbody _ (hP s _ rfl rfl rfl rfl rfl rfl hs))

/-- A step keeps a claim about the stores that the host's writes, hardware reset, the bodies of the commands and the header
tokens keep. -/
theorem StoreClaim.step {P : State → Prop} (hP : StoreClaim P) (hwrite : ∀ s t, Moves false true true s t → P s → P t)
    (hreset : ∀ s, P (hardReset s)) (hbody : ∀ i s, i.isCommand = true → P s → P (bodyOf i s).state)
    (htoken : ∀ i s t, i.isCommand = false → exec i s = .next t → P s → P t) {s t : State} (hs : P s)
    (h : step s = .next t) : P t := by
  rcases step_cases h with hidle | ⟨i, u, hu, hx⟩ | ⟨w, u, hu, rfl⟩ | ⟨u, v, hu, hm, hv⟩ | ⟨u, -, rfl⟩
  · exact hP.hostOnly hidle hs
  · have hPu := hP.hostOnly hu hs
    cases hi : i.isCommand with
    | false => exact htoken i u t hi hx hPu
    | true =>
      rw [exec_command hi] at hx
      cases hx
      exact hP.runFrame (fun v => hbody i v hi) hPu
  · exact hP.runFrame (fun _ hv => hv) (hP.hostOnly hu hs)
  · exact hP.hostOnly hv (hwrite u v hm (hP.hostOnly hu hs))
  · exact hreset u

/-- A guarded body keeps what the body behind its passed checks keeps. -/
theorem guarded_keeps {P : State → Prop} {checks : List (State → Check)} {body : State → BodyResult} {s : State} (hs : P s)
    (hbody : (∀ k ∈ checks, k s = none) → P (body s).state) : P (guarded checks body s).state := by
  rcases guarded_cases checks body s with ⟨e, info, -, hg⟩ | ⟨hnone, hg⟩
  · rw [hg]
    exact hs
  · rw [hg]
    exact hbody (fun k hk => firstError_none hnone _ (List.mem_map_of_mem hk))

/-! ### The stores stay canonical -/

theorem storesOk_storeClaim : StoreClaim StoresOk := by
  intro s t hp hk hb hn hc _ h
  rw [StoresOk, hp, hk, hb, hn, hc]
  exact h

theorem Machine.Moves.storesOk {a b c : Bool} {s t : State} (h : Moves a b c s t) (hs : StoresOk s) : StoresOk t :=
  h.keep (fun _ _ m => m.storesOk) hs

theorem arenaClear_storesOk {s : State} (h : StoresOk s) : StoresOk (arenaClear s) :=
  (Move.clear (bits := false) (blk := false) rfl).storesOk h

/-- Unwritten stores are canonical (R46). -/
theorem resetOf_storesOk (p : Params) (k : Nat) : StoresOk (State.resetOf p k) := by
  obtain ⟨hblk, hbits, hnodes⟩ := resetOf_stores_wf p k
  exact ⟨⟨hblk, List.forall_mem_nil _⟩, ⟨hbits, List.forall_mem_nil _⟩, ⟨hnodes, List.forall_mem_nil _⟩, Nat.zero_le _⟩

theorem hardReset_storesOk (s : State) : StoresOk (hardReset s) :=
  storesOk_storeClaim _ _ rfl rfl rfl rfl rfl rfl (resetOf_storesOk s.params (s.resets + 1))

theorem bodyOf_storesOk {i : Instr} (hi : i.isCommand = true) {s : State} (h : StoresOk s) :
    StoresOk (bodyOf i s).state := by
  by_cases hc : i = .clear
  · subst hc
    exact storesOk_storeClaim (arenaClear s) _ rfl rfl rfl rfl rfl rfl (arenaClear_storesOk h)
  · exact (bodyOf_ends hi hc s).1.storesOk h

theorem token_storesOk {i : Instr} {s t : State} (hi : i.isCommand = false) (hx : exec i s = .next t) (h : StoresOk s) :
    StoresOk t := by
  rcases exec_cases hx with ⟨hcmd, -⟩ | ⟨-, hm⟩ | ⟨-, rfl⟩
  · exact absurd hcmd (by simp [hi])
  · exact hm.storesOk h
  · exact storesOk_storeClaim.finish (storesOk_storeClaim (arenaClear s) _ rfl rfl rfl rfl rfl rfl (arenaClear_storesOk h))

/-- Settles O57: a command's body, a header token and a host write are moves, and every move keeps the stores. -/
theorem storesStayOk : Obligations.StoresStayOk := fun _ _ hs h =>
  storesOk_storeClaim.step (fun _ _ hm => hm.storesOk) hardReset_storesOk (fun _ _ hi => bodyOf_storesOk hi)
    (fun _ _ _ hi hx => token_storesOk hi hx) hs h

/-! ### The arena stays a tree -/

theorem arenaOk_congr {s t : State} (h : ArenaOk s) (hn : t.nodes = s.nodes) (hr : t.root = s.root)
    (hc : t.nodeCnt = s.nodeCnt) (hp : t.params = s.params) : ArenaOk t := by
  rcases h with ⟨hcnt, hroot, hfree⟩ | ⟨T, hT⟩
  · exact .inl ⟨hc.trans hcnt, hr.trans hroot, fun n => (node_congr hn n).trans (hfree n)⟩
  · exact .inr ⟨T, holdsTree_congr hT (node_congr hn) hr hc hp⟩

theorem arenaOk_storeClaim : StoreClaim ArenaOk := fun _ _ hp _ _ hn hc hr h => arenaOk_congr h hn hr hc hp

/-- What leaves the arena alone keeps it a tree. -/
theorem Machine.Moves.arenaOk {b c : Bool} {s t : State} (hm : Moves false b c s t) (h : ArenaOk s) : ArenaOk t := by
  obtain ⟨hn, hc, hr, hp⟩ := hm.arena
  exact arenaOk_congr h hn hr hc hp

/-- A cleared arena is empty (R90). -/
theorem arenaOk_cleared {t : State} (hn : t.nodes = []) (hc : t.nodeCnt = 0) (hr : t.root = 0) : ArenaOk t :=
  .inl ⟨hc, hr, fun n => by simp only [State.node, hn]; rfl⟩

/-- A leaf on the pending node (R91, R93). -/
theorem makeLeaf_arenaOk {s : State} {p : NodeIdx} (v : Byte) (h : ArenaOk s) (hp : findPending s = some p) :
    ArenaOk (makeLeaf p v s) := by
  obtain ⟨T, hT⟩ := arenaOk_pending h hp
  exact .inr ⟨_, (holdsTree_makeLeaf hT hp (node_makeLeaf s p v) rfl rfl rfl).1⟩

/-- Two UNSET children under the pending node (R92, R93). -/
theorem expand_arenaOk {s t : State} {p z o : NodeIdx} (h : ArenaOk s) (hp : findPending s = some p)
    (he : expand p s = some (t, z, o)) : ArenaOk t := by
  have hcap : s.nodeCnt.toNat + 2 ≤ s.params.nodeCap := by
    by_contra hfull
    rw [expand_full p s (by omega)] at he
    cases he
  obtain ⟨T, hT⟩ := arenaOk_pending h hp
  obtain ⟨u, z', o', hu, hz, ho, hframe, hcnt, hnode⟩ := expand_fits p s hcap
  rw [hu] at he
  cases he
  exact .inr ⟨_, (holdsTree_expand hT hp hnode hz ho (by rw [hframe]) hcnt (by rw [hframe]) hcap).1⟩

theorem onPending_arenaOk {act : NodeIdx → State → BodyResult} {s : State} (h : ArenaOk s)
    (hact : ∀ p, findPending s = some p → ArenaOk (act p s).state) : ArenaOk (onPending act s).state := by
  unfold onPending
  cases hp : findPending s with
  | none => exact h
  | some p => exact hact p hp

theorem expandOrRaise_arenaOk {s : State} {p : NodeIdx} (h : ArenaOk s) (hp : findPending s = some p) :
    ArenaOk (expandOrRaise p s).state := by
  unfold expandOrRaise
  cases he : expand p s with
  | none => exact h
  | some x => exact expand_arenaOk h hp he

/-- The deserializer leaves a complete tree, or none (R105, R107). -/
theorem deserializeRun_arenaOk (s : State) : ArenaOk (deserializeRun s).state := by
  rcases deserializeRun_any s with ⟨t, T, hrun, -, hT, -⟩ | ⟨info, hrun⟩ | ⟨k, -, hrun⟩
  · rw [hrun]
    exact .inr ⟨T, hT⟩
  · rw [hrun]
    exact arenaOk_cleared rfl rfl rfl
  · rw [hrun]
    exact arenaOk_cleared rfl rfl rfl

theorem checkBlockNotEmpty_ne {s : State} (h : checkBlockNotEmpty s = none) : s.blkLen ≠ 0 := by
  intro h0
  rw [checkBlockNotEmpty_some h0] at h
  cases h

/-- The builder leaves the Huffman tree of a block that is not empty (R114, R131). -/
theorem buildRun_arenaOk {s : State} (h : checkBlockNotEmpty s = none) : ArenaOk (buildRun s) :=
  .inr ⟨_, (buildRun_spec s (blockBytes_ne_nil (checkBlockNotEmpty_ne h))).1⟩

/-- COMPRESS leaves the tree its builder made, whether or not the output fits (R127). -/
theorem compressRun_arenaOk {s : State} (h : checkBlockNotEmpty s = none) : ArenaOk (compressRun s).state := by
  have hbuilt : ArenaOk (buildRun { s with bitsLen := 0, hdrLen := 0 }) := buildRun_arenaOk h
  obtain ⟨p, -, hfits, hover⟩ := compressRun_spec (s := s) rfl (blockBytes_ne_nil (checkBlockNotEmpty_ne h))
  generalize buildRun { s with bitsLen := 0, hdrLen := 0 } = u at hbuilt hfits hover
  rcases Nat.lt_or_ge s.params.bitsMax ((CodeTree.huffman (blockBytes s)).header.length + p.length) with hlt | hle
  · rw [hover hlt]
    exact arenaOk_congr hbuilt rfl rfl rfl rfl
  · rw [hfits hle, zeroFillTail_eq]
    exact arenaOk_congr hbuilt rfl rfl rfl rfl

/-- DECOMPRESS leaves the tree of its header, or none (R128). -/
theorem decompressRun_arenaOk (s : State) : ArenaOk (decompressRun s).state := by
  have h := deserializeRun_arenaOk { s with cursor := 0 }
  unfold decompressRun
  cases hrun : deserializeRun { s with cursor := 0 } with
  | raised e info t =>
    rw [hrun] at h
    exact arenaOk_congr h rfl rfl rfl rfl
  | completed t =>
    rw [hrun] at h
    exact (decodeRun_ends t).1.arenaOk h

theorem lookupRun_arenaOk {s : State} (v : Byte) (h : ArenaOk s) : ArenaOk (lookupRun v s).state := by
  unfold lookupRun
  cases lookupPath s v with
  | none => exact h
  | some q => exact arenaOk_congr h rfl rfl rfl rfl

theorem bodyOf_arenaOk {i : Instr} (hi : i.isCommand = true) {s : State} (h : ArenaOk s) :
    ArenaOk (bodyOf i s).state := by
  cases i with
  | nop => exact h
  | clear => exact arenaOk_cleared rfl rfl rfl
  | tinit => exact .inr ⟨_, holdsTree_treeInit s⟩
  | tleaf v => exact guarded_keeps h fun _ => onPending_arenaOk h fun p hp => makeLeaf_arenaOk v h hp
  | texpand => exact guarded_keeps h fun _ => onPending_arenaOk h fun p hp => expandOrRaise_arenaOk h hp
  | serialize =>
    exact guarded_keeps h fun hk => (serializeRun_ends s (checkBitsLen_le (hk checkBitsLen (by simp)))).1.arenaOk h
  | deserialize => exact guarded_keeps h fun _ => deserializeRun_arenaOk s
  | build =>
    show ArenaOk (guarded [checkBlkLen, checkBlockNotEmpty] (fun s => .completed (buildRun s)) s).state
    exact guarded_keeps h fun hk => buildRun_arenaOk (hk checkBlockNotEmpty (by simp))
  | lookup v => exact guarded_keeps h fun _ => lookupRun_arenaOk v h
  | encode =>
    exact guarded_keeps h fun hk => (encodeAppend_ends s (checkBitsLen_le (hk checkBitsLen (by simp)))).1.arenaOk h
  | decode => exact guarded_keeps h fun _ => (decodeRun_ends s).1.arenaOk h
  | compress => exact guarded_keeps h fun hk => compressRun_arenaOk (hk checkBlockNotEmpty (by simp))
  | decompress => exact guarded_keeps h fun _ => decompressRun_arenaOk s
  | hExpand => cases hi
  | hLeaf v => cases hi

/-- A token puts a leaf or two children at the pending node, or fails the header and clears the arena (R73, R105). -/
theorem token_arenaOk {i : Instr} {s t : State} (hi : i.isCommand = false) (hx : exec i s = .next t) (h : ArenaOk s) :
    ArenaOk t := by
  cases i with
  | hExpand =>
    simp only [exec, execHExpand] at hx
    cases hp : findPending s with
    | none => simp [hp] at hx
    | some p =>
      simp only [hp] at hx
      cases he : expand p s with
      | none =>
        simp only [he] at hx
        cases hx
        exact arenaOk_cleared rfl rfl rfl
      | some x =>
        simp only [he] at hx
        cases hx
        exact expand_arenaOk h hp he
  | hLeaf v =>
    simp only [exec, execHLeaf] at hx
    cases hp : findPending s with
    | none => simp [hp] at hx
    | some p =>
      simp only [hp] at hx
      cases hx
      exact makeLeaf_arenaOk v h hp
  | _ => cases hi

/-- Settles O58: instruction by instruction what is left in the arena is empty or a tree. -/
theorem arenaStaysATree : Obligations.ArenaStaysATree := fun _ _ hs h =>
  arenaOk_storeClaim.step (fun _ _ hm => hm.arenaOk) (fun _ => arenaOk_cleared rfl rfl rfl) (fun _ _ hi => bodyOf_arenaOk hi)
    (fun _ _ _ hi hx => token_arenaOk hi hx) hs h

/-! ### STATUS stays in agreement with ERRCODE -/

theorem statusOk_of_completed {w : Word} {s t : State} (h : Completed w s t) : StatusOk t := by
  obtain ⟨-, hbusy, -, herr, hcode, hinfo, -⟩ := h
  exact ⟨hbusy, by simp [herr, hcode], by simp [herr], fun _ => hinfo⟩

theorem statusOk_of_errored {w : Word} {e : Err} {info : Word} {t : State} (h : Errored w e info t) : StatusOk t := by
  obtain ⟨-, hbusy, hdone, herr, hsticky, hcode, -⟩ := h
  exact ⟨hbusy, ⟨fun _ => hcode ▸ Err.code_ne_zero e, fun _ => herr⟩, fun _ => ⟨hsticky, hdone⟩, by simp [herr]⟩

/-- The fields that the claim speaks of. -/
theorem statusOk_congr {s t : State} (h : StatusOk s) (hbusy : t.busy = s.busy) (hdone : t.done = s.done)
    (herr : t.err = s.err) (hsticky : t.stickyErr = s.stickyErr) (hcode : t.errCode = s.errCode)
    (hinfo : t.errInfo = s.errInfo) : StatusOk t := by
  rw [StatusOk, hbusy, hdone, herr, hsticky, hcode, hinfo]
  exact h

theorem Machine.Moves.statusOk {a b c : Bool} {s t : State} (hm : Moves a b c s t) (h : StatusOk s) : StatusOk t := by
  obtain ⟨-, hbusy, hdone, herr, hsticky, hcode, hinfo, -⟩ := hm.control
  exact statusOk_congr h hbusy hdone herr hsticky hcode hinfo

theorem Machine.HostOnly.statusOk {s t : State} (ht : HostOnly s t) (h : StatusOk s) : StatusOk t :=
  statusOk_congr h (by rw [ht]) (by rw [ht]) (by rw [ht]) (by rw [ht]) (by rw [ht]) (by rw [ht])

/-- Every command ends completed or errored, whatever stood in STATUS (R170); a token that fits leaves STATUS alone. -/
theorem exec_statusOk {i : Instr} {s t : State} (hx : exec i s = .next t) (h : StatusOk s) : StatusOk t := by
  rcases exec_cases hx with ⟨hi, -⟩ | ⟨-, hm⟩ | ⟨-, rfl⟩
  · by_cases hc : i = .clear
    · subst hc
      cases hx
      exact statusOk_of_completed (w := 0) (s := { s with stickyErr := false }) ⟨rfl, rfl, rfl, rfl, rfl, rfl, rfl⟩
    · obtain ⟨u, hu, -, hend⟩ := exec_control hi hc s
      rw [hx] at hu
      cases hu
      rcases hend with hcompleted | ⟨e, info, herrored⟩
      · exact statusOk_of_completed hcompleted
      · exact statusOk_of_errored herrored
  · exact hm.statusOk h
  · exact statusOk_of_errored (w := s.cmd) (e := .treeOverflow) ⟨rfl, rfl, rfl, rfl, rfl, rfl, rfl⟩

/-- Hardware reset leaves STATUS 0 with no error (R46, R150). -/
theorem resetOf_statusOk (p : Params) (k : Nat) : StatusOk (State.resetOf p k) :=
  ⟨rfl, by simp [State.resetOf], by simp [State.resetOf], fun _ => rfl⟩

/-- Settles O59: what a step does, case by case. -/
theorem statusStaysOk : Obligations.StatusStaysOk := by
  intro s t hs h
  rcases step_cases h with hidle | ⟨i, u, hu, hx⟩ | ⟨w, u, -, rfl⟩ | ⟨u, v, hu, hm, hv⟩ | ⟨u, -, rfl⟩
  · exact hidle.statusOk hs
  · exact exec_statusOk hx (hu.statusOk hs)
  · exact statusOk_of_errored (errored_untouched w .illegalCmd w u).1
  · exact hv.statusOk (hm.statusOk (hu.statusOk hs))
  · exact statusOk_congr (resetOf_statusOk u.params 0) rfl rfl rfl rfl rfl rfl

/-- Settles O60: nothing is stored, listed or reported after reset. -/
theorem resetKeepsInvariants : Obligations.ResetKeepsInvariants :=
  ⟨resetOf_storesOk _ _, .inl (noTree_resetOf _ _), resetOf_statusOk _ _⟩

/-! ### What the host reads in the register file -/

/-- Where CODE_BITS`k` stands in the register file (R21). -/
theorem regTable_codeBits : ∀ k : Fin 8,
    (0x40 + 4 * BitVec.ofNat 32 k.val : Word).toNat < 0x60 ∧ (0x40 + 4 * BitVec.ofNat 32 k.val : Word).toNat % 4 = 0 ∧
      regTable[(0x40 + 4 * BitVec.ofNat 32 k.val : Word).toNat / 4]? = some (.codeBits k) := by
  decide

/-- A host read of the register that stands at an offset (R21). -/
theorem readsReg_at {s : State} (hb : s.busy = false) {addr : Word} {r : Reg} (h : addr.toNat < 0x60)
    (h4 : addr.toNat % 4 = 0) (hr : regTable[addr.toNat / 4]? = some r) : ReadsWord s addr (s.readReg r) := by
  have hread := readsReg hb addr h h4
  rwa [(List.getElem?_eq_some_iff.mp hr).2] at hread

theorem readsWord_codeBits {s : State} (hb : s.busy = false) (k : Fin 8) :
    ReadsWord s (0x40 + 4 * BitVec.ofNat 32 k.val) s.codeBits[k] := by
  obtain ⟨h, h4, hr⟩ := regTable_codeBits k
  exact readsReg_at hb h h4 hr

theorem readsWord_status {s : State} (hb : s.busy = false) : ReadsWord s 0x04 (statusWord s) :=
  readsReg_at (r := .status) hb (by decide) (by decide) rfl

theorem readsWord_errCode {s : State} (hb : s.busy = false) : ReadsWord s 0x08 (s.errCode.setWidth 32) :=
  readsReg_at (r := .errCode) hb (by decide) (by decide) rfl

theorem readsWord_root {s : State} (hb : s.busy = false) : ReadsWord s 0x24 (s.root.setWidth 32) :=
  readsReg_at (r := .root) hb (by decide) (by decide) rfl

theorem readsWord_pend {s : State} (hb : s.busy = false) : ReadsWord s 0x28 (pendWord s) :=
  readsReg_at (r := .pend) hb (by decide) (by decide) rfl

/-- The two reserved words (R45). -/
theorem readsWord_reserved {s : State} (hb : s.busy = false) : ReadsWord s 0x38 0 ∧ ReadsWord s 0x3C 0 :=
  ⟨readsReg_at (r := .reserved false) hb (by decide) (by decide) rfl,
    readsReg_at (r := .reserved true) hb (by decide) (by decide) rfl⟩

theorem pendWord_some {s : State} {p : NodeIdx} (h : findPending s = some p) : pendWord s = p.setWidth 32 := by
  simp only [pendWord, h]

theorem pendWord_none {s : State} (h : findPending s = none) : pendWord s = 0xFFFFFFFF := by
  simp only [pendWord, h]

/-- Settles O8: each offset by the register that stands there. -/
theorem registerReads : Obligations.RegisterReads := by
  intro s hb
  have hread : ∀ (addr : Word) (r : Reg), addr.toNat < 0x60 → addr.toNat % 4 = 0 → regTable[addr.toNat / 4]? = some r →
      ReadsWord s addr (s.readReg r) := fun _ _ => readsReg_at hb
  obtain ⟨hres0, hres1⟩ := readsWord_reserved hb
  exact ⟨hread 0x00 .cmd (by decide) (by decide) rfl, readsWord_errCode hb,
    hread 0x0C .errInfo (by decide) (by decide) rfl, hread 0x10 .blkLen (by decide) (by decide) rfl,
    hread 0x14 .bitsLen (by decide) (by decide) rfl, hread 0x18 .cursor (by decide) (by decide) rfl,
    hread 0x1C .hdrLen (by decide) (by decide) rfl, hread 0x20 .nodeCnt (by decide) (by decide) rfl, readsWord_root hb,
    fun _ hp => pendWord_some hp ▸ readsWord_pend hb, fun hp => pendWord_none hp ▸ readsWord_pend hb,
    hread 0x2C .symCnt (by decide) (by decide) rfl, hread 0x30 .tailBits (by decide) (by decide) rfl,
    hread 0x34 .codeLen (by decide) (by decide) rfl, hres0, hres1, readsWord_codeBits hb⟩

/-- Bits 31:8 of STATUS are reserved (R24, R45). -/
theorem statusWord_reserved (s : State) : (statusWord s).extractLsb' 8 24 = 0 := setWidth_hi _ _ rfl

/-- Settles O9: the place of each bit, and what each derived field says. -/
theorem statusFields : Obligations.StatusFields := by
  intro s hb
  obtain ⟨h0, h1, h2, h3, h4, h5, h6, h7⟩ := statusWord_bits (tailPresent s) (treeSingle s) (treeComplete s)
    (treePresent s) s.stickyErr s.err s.done s.busy
  refine ⟨statusWord s, readsWord_status hb, h0.trans hb, h1, h2, h3, ?_, ?_, ?_, ?_, fun k hk => ?_⟩
  · rw [statusWord, h4, treePresent_iff]
  · rw [statusWord, h5, treeComplete_iff]
  · rw [statusWord, h6, treeSingle_iff]
  · rw [statusWord, h7, tailPresent_iff]
  · rw [statusWord, BitVec.getLsbD_setWidth, BitVec.getLsbD_of_ge _ _ hk, Bool.and_false]

/-! ### Writes to read-only registers -/

/-- A host write to the register file outside CMD (R45). -/
theorem access_writeReg {s : State} (hb : s.busy = false) {addr : Word} {r : Reg} (data : Word) (hr : r ≠ .cmd)
    (hl : locate s.params 32 addr = .ok (.reg r)) :
    access (.write 32 addr data) s = .next { s.writeReg data r with reply := .written } := by
  rw [access_idle hb]
  cases r with
  | cmd => exact absurd rfl hr
  | _ => simp only [accessIdle, hl, writeTarget]

/-- The words of the register file that a host write reaches are four: CMD, BLK_LEN, BITS_LEN and CURSOR (R21). -/
theorem regTable_readOnly : ∀ (k : Nat) (hk : k < 24), k ∉ [0, 4, 5, 6] →
    (regTable[k]'hk) ∉ [Reg.cmd, .blkLen, .bitsLen, .cursor] := by
  decide

/-- An aligned offset in the register file other than those four is the offset of a read-only word. -/
theorem wordIndex_readOnly {addr : Word} (h4 : addr.toNat % 4 = 0)
    (hro : addr ∉ ([0x00, 0x10, 0x14, 0x18] : List Word)) : addr.toNat / 4 ∉ [0, 4, 5, 6] := by
  simp only [List.mem_cons, List.not_mem_nil, or_false, not_or] at hro ⊢
  bv_omega

/-- Settles O10: a write outside the four writable words changes nothing; the reserved bits by the width of each field. -/
theorem readOnlyRegisters : Obligations.ReadOnlyRegisters := by
  intro s hb
  obtain ⟨hres0, hres1⟩ := readsWord_reserved hb
  refine ⟨fun addr data h h4 hro => ?_, hres0, hres1, fun w hw => ?_, fun w hw => ?_, fun w hw => ?_⟩
  · have hnot := regTable_readOnly (addr.toNat / 4) (by omega) (wordIndex_readOnly h4 hro)
    simp only [List.mem_cons, List.not_mem_nil, or_false, not_or] at hnot
    obtain ⟨hcmd, hlengths⟩ := hnot
    rw [access_writeReg hb data hcmd (locate_reg _ addr h h4), writeReg_ro hlengths]
  · rw [readsWord_inj hw (readsWord_status hb), statusWord_reserved]
  · rw [readsWord_inj hw (readsWord_errCode hb), setWidth_hi _ _ rfl]
  · rw [readsWord_inj hw (readsWord_root hb), setWidth_hi _ _ rfl]

/-! ### Commands and hardware reset as steps -/

/-- A host write of a legal word to CMD while no command runs (R23, R170). -/
theorem access_writeCmd {s : State} {w : Word} {i : Instr} (hb : s.busy = false) (hd : decode (.command w) = .ok i) :
    access (.write 32 0 w) s = exec i { s with reply := .written } := by
  have hd' : decodeWord w = .ok i := hd
  rw [access_idle hb]
  simp only [accessIdle, locate_cmd, writeCmd, hd']

/-- Settles O5: the write to CMD is the input the step takes. -/
theorem stepRunsCommand : Obligations.StepRunsCommand := by
  refine ⟨fun s w i rest hb hin hd => ?_, fun s hin => ?_⟩
  · simp only [step, hin, applyInput]
    exact access_writeCmd hb hd
  · simp only [step, hin]

/-- Hardware reset reads as the reset state does in every register. -/
theorem readReg_hardReset (s : State) (r : Reg) :
    (hardReset s).readReg r = if r = .pend then 0xFFFFFFFF else 0 :=
  readReg_resetOf s.params (s.resets + 1) r

/-- Settles O15: the step is hardware reset, whatever ran before. -/
theorem hardwareReset : Obligations.HardwareReset := fun s rest hin =>
  ⟨hardReset { s with inputs := rest }, by simp only [step, hin, applyInput], readReg_hardReset _,
    ⟨rfl, rfl, fun _ => rfl⟩, rfl, rfl, fun _ => rfl, fun _ => rfl⟩

/-! ### LOOKUP -/

/-- CODE_BITS`k` holds bits `32k` to `32k+31` of the code path, the earlier bit in the more significant position; what the
path does not reach is 0 (R37). -/
theorem codeBitsWord_bit (q : List Bool) (k : Nat) {b : Nat} (h : b < 32) :
    (codeBitsWord q k).getLsbD (31 - b) = (q[32 * k + b]?).getD false := by
  have hbit := packBits_testBit 32 (q.drop (32 * k)) b h
  rw [List.getElem?_drop] at hbit
  rw [codeBitsWord, BitVec.getLsbD_ofNat, decide_eq_true (by omega), Bool.true_and]
  exact hbit

theorem codeBitsOf_getElem (q : List Bool) : ∀ k : Fin 8, (codeBitsOf q)[k] = codeBitsWord q k
  | 0 | 1 | 2 | 3 | 4 | 5 | 6 | 7 => rfl

/-- The state that a completed LOOKUP of a value with code path `q` leaves (R122). -/
def afterLookup (w : Word) (q : List Bool) (s : State) : State :=
  endCommand { beginCommand w s with codeLen := BitVec.ofNat 32 q.length, codeBits := codeBitsOf q }

/-- LOOKUP on a complete tree goes past its checks (R122). -/
theorem lookupBody_run {s : State} {T : CodeTree} (v : Byte) (hT : HoldsTree s T) (hc : T.complete = true) (w : Word) :
    lookupBody v (beginCommand w s) = lookupRun v (beginCommand w s) :=
  guarded_none (by
    simp [firstError, checkTree_none (holdsTree_nodeCnt_ne hT), checkComplete_none (findPending_of_complete hT hc)])

theorem lookupPath_beginCommand {s : State} {T : CodeTree} (hT : HoldsTree s T) (w : Word) (v : Byte) :
    lookupPath (beginCommand w s) v = T.path v := lookupPath_holdsTree (holdsTree_beginCommand hT) v

theorem exec_lookup_found {v : Byte} {s : State} {T : CodeTree} {q : List Bool} (hT : HoldsTree s T)
    (hc : T.complete = true) (hq : T.path v = some q) : exec (.lookup v) s = .next (afterLookup (commandWord 0x40 v) q s) := by
  refine exec_completed (i := .lookup v) (body := lookupBody v) rfl ((lookupBody_run v hT hc _).trans ?_)
  simp only [lookupRun, lookupPath_beginCommand hT, hq]
  rfl

theorem exec_lookup_noCode {v : Byte} {s : State} {T : CodeTree} (hT : HoldsTree s T) (hc : T.complete = true)
    (hq : T.path v = none) : EndsErrored (.lookup v) s .noCode (v.setWidth 32) := by
  refine endsErrored_of_body (body := lookupBody v) rfl ((lookupBody_run v hT hc _).trans ?_)
  simp only [lookupRun, lookupPath_beginCommand hT, hq]

/-- A code path is shorter than the arena is large, so CODE_LEN holds its length (R40(e)). -/
theorem path_length_lt {s : State} {T : CodeTree} {v : Byte} {q : List Bool} (hT : HoldsTree s T)
    (hq : T.path v = some q) : q.length < 2 ^ 16 := by
  have hlen := CodeTree.path_length hq
  have hdepth := holdsTree_depth hT
  have hcap := nodeCap_lt s
  omega

/-- LOOKUP leaves every register alone but CODE_LEN, CODE_BITS and those of the frame (R122). -/
theorem readReg_afterLookup {w : Word} {q : List Bool} {s : State} {r : Reg} (hframe : r ∉ frameRegs)
    (hlen : r ≠ .codeLen) (hbits : ∀ k, r ≠ .codeBits k) : (afterLookup w q s).readReg r = s.readReg r := by
  cases r with
  | cmd | status | errCode | errInfo => exact absurd (by decide) hframe
  | codeLen => exact absurd rfl hlen
  | codeBits k => exact absurd rfl (hbits k)
  | pend => exact pendWord_congr rfl rfl rfl (fun _ => rfl)
  | _ => rfl

/-- Settles O36: NoCode when no leaf holds the value, otherwise its path in the code registers. -/
theorem lookupEffect : Obligations.LookupEffect := by
  intro v s T hT hc
  refine ⟨exec_lookup_noCode hT hc, fun q hq => ⟨_, exec_lookup_found hT hc hq, completed_end _ _ _ rfl, ?_,
    fun k b hb => ?_, sameDerivedFlags_of rfl rfl rfl rfl (fun _ => rfl), fun r => readReg_afterLookup, fun _ => rfl,
    fun _ => rfl, fun _ => rfl, rfl, rfl, rfl, rfl, rfl⟩⟩
  · have hlt := path_length_lt hT hq
    exact ofNat_toNat_word (by omega)
  · show (codeBitsOf q)[k].getLsbD (31 - b) = _
    rw [codeBitsOf_getElem, codeBitsWord_bit q k hb]

/-! ### The shape of the tree -/

/-- `find_pending` finds nothing exactly when the tree is complete (R41, R93). -/
theorem findPending_none_iff {s : State} {T : CodeTree} (h : HoldsTree s T) :
    findPending s = none ↔ T.complete = true := by
  rcases findPending_holdsTree h with ⟨hc, hp⟩ | ⟨hc, p, hp, -⟩
  · simp [hc, hp]
  · simp [hc, hp]

/-- Settles O50: the facts of the abstract tree, whose size is NODE_CNT and whose paths are those of `lookup`. -/
theorem treeShape : Obligations.TreeShape := by
  intro s T h
  rw [← holdsTree_size h]
  refine ⟨T.size_odd, T.depth_le, CodeTree.size_eq_values, findPending_none_iff h, holdsTree_complete_iff h,
    lookupPath_holdsTree h, fun u v p q hp hq hpre => ?_⟩
  rw [lookupPath_holdsTree h] at hp hq
  exact CodeTree.path_not_prefix hp hq hpre

end Sys2Proof
end

section
/-! Scope: the host's accesses: where an address goes, which accesses are refused, what a read and a write do in the register
file and in the three apertures; and which commands write BLK and BITS. -/

namespace Sys2Proof

open Sys2Proof.Machine

/-! ### What a host access does -/

/-- An access that goes nowhere is refused (R58). -/
theorem access_nowhere {s : State} (hb : s.busy = false) {a : Access} {r : Refusal}
    (hl : locate s.params a.width a.addr = .error r) : access a s = .refused r := by
  rw [access_idle hb]
  cases a with
  | read width addr | write width addr data =>
    simp only [Access.width, Access.addr] at hl
    simp only [accessIdle, hl]

/-- A host read of a place in the map changes nothing but the reply (R51, R59). -/
theorem access_read {s : State} (hb : s.busy = false) {width : Nat} {addr : Word} {tg : Target}
    (hl : locate s.params width addr = .ok tg) :
    access (.read width addr) s = .next { s with reply := readTarget s tg } := by
  rw [access_idle hb]
  simp only [accessIdle, hl]

/-- A host write outside CMD does what its target does with the data (R45, R52, R53, R55). -/
theorem access_write {s : State} (hb : s.busy = false) {width : Nat} {addr : Word} {tg : Target} (data : Word)
    (hcmd : tg ≠ .reg .cmd) (hl : locate s.params width addr = .ok tg) :
    access (.write width addr data) s = .next { writeTarget s data tg with reply := .written } := by
  rw [access_idle hb]
  simp only [accessIdle, hl]

/-- A host read that is not refused changes nothing but the reply. -/
theorem access_read_next {s t : State} (hb : s.busy = false) {width : Nat} {addr : Word}
    (h : access (.read width addr) s = .next t) : ∃ tg, t = { s with reply := readTarget s tg } := by
  cases hl : locate s.params width addr with
  | error r =>
    rw [access_nowhere (a := .read width addr) hb hl] at h
    cases h
  | ok tg =>
    rw [access_read hb hl] at h
    exact ⟨tg, (Host.Outcome.next.inj h).symm⟩

/-- A host write outside CMD that is not refused went to a place in the map, and did what that place does. -/
theorem access_write_next {s t : State} (hb : s.busy = false) {width : Nat} {addr data : Word} (h0 : addr ≠ 0)
    (h : access (.write width addr data) s = .next t) :
    ∃ tg, tg ≠ .reg .cmd ∧ locate s.params width addr = .ok tg ∧
      t = { writeTarget s data tg with reply := .written } := by
  cases hl : locate s.params width addr with
  | error r =>
    rw [access_nowhere (a := .write width addr data) hb hl] at h
    cases h
  | ok tg =>
    have hcmd : tg ≠ .reg .cmd := fun he => h0 (locate_cmd_addr (he ▸ hl))
    rw [access_write hb data hcmd hl] at h
    exact ⟨tg, hcmd, rfl, (Host.Outcome.next.inj h).symm⟩

/-! ### Refused accesses -/

/-- While no command runs, exactly the accesses that R51 and R56 do not allow are refused (R58). -/
theorem access_refused_iff {s : State} (hb : s.busy = false) (a : Access) :
    (∃ r, access a s = .refused r) ↔ ¬ AccessAllowed s.params a.width a.addr.toNat := by
  rw [← locate_iff]
  cases hl : locate s.params a.width a.addr with
  | error r => simp [access_nowhere hb hl]
  | ok tg => simp [access_idle hb, accessIdle_ok a s tg hl]

/-- While a command runs an access is answered by `accessBusy` (R58, R155). -/
theorem access_busy {s : State} (hb : s.busy = true) (a : Access) : access a s = accessBusy a s := if_pos hb

/-- The reply to a read of STATUS while a command runs: BUSY = 1, and the free bits above it (R155). -/
theorem busyReply_bits (v : BitVec 31) :
    (v ++ (1 : BitVec 1) : Word).getLsbD 0 = true ∧ (v ++ (1 : BitVec 1) : Word).extractLsb' 1 31 = v := by
  constructor
  · rw [BitVec.getLsbD_append]
    rfl
  · ext i hi
    rw [BitVec.getElem_extractLsb', BitVec.getLsbD_append, if_neg (by omega), Nat.add_sub_cancel_left,
      BitVec.getLsbD_eq_getElem]

/-- Settles O7: idle accesses by where they go, busy ones by `accessBusy`. -/
theorem refusedAccesses : Obligations.RefusedAccesses := by
  intro s a
  refine ⟨fun hb => access_refused_iff hb a, fun hb ha => ⟨.accessWhileBusy, ?_⟩, fun hb => ?_⟩
  · rw [access_busy hb, accessBusy, if_neg ha]
  · obtain ⟨hbusy, hfree⟩ := busyReply_bits (Config.busyStatusBits s.polls)
    exact ⟨_, _, by rw [access_busy hb, accessBusy, if_pos rfl], rfl, hbusy, hfree, rfl⟩

/-- Settles O11: each access by the place it reaches; a repeated write reaches the same place again. -/
theorem hostAccessEffects : Obligations.HostAccessEffects := by
  intro s hb
  refine ⟨fun width addr t h => ?_, fun w => ⟨?_, ?_, ?_⟩, fun width addr data t h0 h => ?_⟩
  · obtain ⟨tg, rfl⟩ := access_read_next hb h
    rfl
  · exact access_writeReg hb (r := .blkLen) w (by decide) (locate_reg _ _ (by decide) (by decide))
  · exact access_writeReg hb (r := .bitsLen) w (by decide) (locate_reg _ _ (by decide) (by decide))
  · exact access_writeReg hb (r := .cursor) w (by decide) (locate_reg _ _ (by decide) (by decide))
  · obtain ⟨tg, hcmd, hl, rfl⟩ := access_write_next hb h0 h
    obtain ⟨hp, hbusy⟩ := writeTarget_params s data tg
    have hl' : locate (writeTarget s data tg).params width addr = .ok tg := by rw [hp, hl]
    refine (access_write (s := { writeTarget s data tg with reply := .written }) (hbusy.trans hb) data hcmd hl').trans ?_
    rw [writeTarget_idem]

/-! ### Where an address in an aperture goes (R51) -/

/-- An access of the target's own width, aligned where that is a word, reaches the target (R56). -/
theorem locate_of_target {p : Params} {addr : Word} {t : Target} (ht : targetOf p addr.toNat = some t)
    (h4 : t.width = 32 → addr.toNat % 4 = 0) : locate p t.width addr = .ok t := by
  simp only [locate, ht]
  rw [if_neg (by simp), if_neg (fun h => h.2 (h4 h.1))]

theorem locate_blkByte (p : Params) {i : Nat} (h : i < p.blockMax) :
    locate p 8 (BitVec.ofNat 32 (0x01000000 + i)) = .ok (.blkByte i) := by
  have hmax := p.blockMax_range.2
  refine locate_of_target (t := .blkByte i) ?_ (by simp [Target.width])
  rw [toNat_addr (by omega), targetOf, if_neg (by omega), if_pos (by omega), Nat.add_sub_cancel_left]

theorem locate_bitsByte (p : Params) {j : Nat} (h : j < p.bitsMax / 8) :
    locate p 8 (BitVec.ofNat 32 (0x02000000 + j)) = .ok (.bitsByte j) := by
  have hblk := p.blockMax_range.2
  have hmax := p.bitsMax_range.2.1
  refine locate_of_target (t := .bitsByte j) ?_ (by simp [Target.width])
  rw [toNat_addr (by omega), targetOf, if_neg (by omega), if_neg (by omega), if_pos (by omega), Nat.add_sub_cancel_left]

/-- The two words of an arena entry stand 4 bytes apart (R55). -/
theorem locate_nodeWord (p : Params) {n : Nat} (h : n < p.nodeCap) (second : Bool) :
    locate p 32 (BitVec.ofNat 32 (0x03000000 + 8 * n + 4 * second.toNat)) = .ok (.nodeWord n second) := by
  have hblk := p.blockMax_range.2
  have hbits := p.bitsMax_range.2.1
  have hmax := p.nodeCap_range.2.1
  have hsecond := second.toNat_le
  have haddr : (BitVec.ofNat 32 (0x03000000 + 8 * n + 4 * second.toNat)).toNat = 0x03000000 + (8 * n + 4 * second.toNat) := by
    rw [toNat_addr (by omega), Nat.add_assoc]
  refine locate_of_target (t := .nodeWord n second) ?_ (fun _ => by omega)
  rw [haddr, targetOf, if_neg (by omega), if_neg (by omega), if_neg (by omega), if_pos (by omega), Nat.add_sub_cancel_left,
    show (8 * n + 4 * second.toNat) / 8 = n by omega]
  cases second <;> simp

/-! ### The apertures -/

/-- BLK, BITS and the reply are no part of any register. -/
theorem sameRegs_of_buffers (s : State) (blk : List Host.Cell) (bits : List (Nat × Bool)) (reply : Reply) :
    SameRegs [] s { s with blk := blk, bits := bits, reply := reply } := by
  intro r _
  cases r with
  | status => exact statusWord_congr rfl rfl rfl rfl rfl rfl rfl rfl (fun _ => rfl)
  | pend => exact pendWord_congr rfl rfl rfl (fun _ => rfl)
  | _ => rfl

/-- Settles O12: the address names the byte, and the write is one write into BLK. -/
theorem blkAperture : Obligations.BlkAperture := by
  intro s i data hb hi
  have hl := locate_blkByte s.params hi
  refine ⟨access_read hb hl, _, access_write hb data (by simp) hl, ?_, fun j hj => ?_, sameRegs_of_buffers s _ s.bits _,
    fun _ => rfl, fun _ => rfl, rfl, rfl, rfl, rfl, rfl⟩
  · exact (blkByte_setBlkByte s i _ i).trans (if_pos rfl)
  · exact (blkByte_setBlkByte s i _ j).trans (if_neg hj)

/-- Bit `m` of a byte, counted from the most significant (R14). -/
theorem bitsOfByte_getElem? (v : Byte) : ∀ {m : Nat}, m < 8 → (bitsOfByte v)[m]? = some (v.getLsbD (7 - m))
  | 0, _ | 1, _ | 2, _ | 3, _ | 4, _ | 5, _ | 6, _ | 7, _ => rfl

/-- A host write of one byte of the BITS aperture is a run of eight bits (R53). -/
theorem writeTarget_bitsByte (s : State) (data : Word) (j : Nat) : writeTarget s data (.bitsByte j) =
    { s with bits := Memory.writeAll s.bits (8 * j) (bitsOfByte (data.setWidth 8)) } :=
  setBits_eq _ _ _

/-- A bit of BITS after a host write of one byte of the aperture (R53). -/
theorem bit_writeTarget_bitsByte (s : State) (data : Word) (j i : Nat) :
    (writeTarget s data (.bitsByte j)).bit i =
      if 8 * j ≤ i ∧ i < 8 * j + 8 then data.getLsbD (7 - (i - 8 * j)) else s.bit i := by
  have hwrite := writeTarget_bitsByte s data j
  have hresets : (writeTarget s data (.bitsByte j)).resets = s.resets := by rw [hwrite]
  rw [bit_of_writeAll (congrArg State.bits hwrite) hresets, bitsOfByte_length]
  split
  case isTrue hi =>
    rw [bitsOfByte_getElem? _ (by omega), Option.getD_some, BitVec.getLsbD_setWidth, decide_eq_true (by omega), Bool.true_and]
  case isFalse => rfl

/-- The byte that the BITS aperture shows: its bits, and its value (R53). -/
theorem apertureByte_bits (s : State) (j : Nat) :
    (∀ m, m < 8 → (byteOfBits (bitsOfAperture s j)).getLsbD (7 - m) = s.bit (8 * j + m)) ∧
      (byteOfBits (bitsOfAperture s j)).toNat =
        ((List.range 8).map (fun m => (s.bit (8 * j + m)).toNat * 2 ^ (7 - m))).sum := by
  obtain ⟨hbits, hvalue⟩ := byteOfBits_bits (s.bit (8 * j)) (s.bit (8 * j + 1)) (s.bit (8 * j + 2)) (s.bit (8 * j + 3))
    (s.bit (8 * j + 4)) (s.bit (8 * j + 5)) (s.bit (8 * j + 6)) (s.bit (8 * j + 7))
  refine ⟨fun m hm => (hbits m hm).trans ?_, hvalue⟩
  show (bitsOfAperture s j)[m]'hm = _
  simp [bitsOfAperture]

/-- Settles O13: the address names the byte, and the write is a run of eight bits of BITS from bit `8j` on. -/
theorem bitsAperture : Obligations.BitsAperture := by
  intro s j data hb hj
  have hl := locate_bitsByte s.params hj
  have hbit := bit_writeTarget_bitsByte s data j
  refine ⟨⟨_, access_read hb hl, apertureByte_bits s j⟩, _, access_write hb data (by simp) hl, fun m hm => ?_,
    fun i hi => ?_, ?_⟩
  · refine (hbit (8 * j + m)).trans ?_
    rw [if_pos (by omega), Nat.add_sub_cancel_left]
  · exact (hbit i).trans (if_neg (by omega))
  · rw [writeTarget_bitsByte]
    exact ⟨sameRegs_of_buffers s s.blk _ _, fun _ => rfl, fun _ => rfl, rfl, rfl, rfl, rfl, rfl⟩

/-- Settles O14: the two addresses name the two words, whose fields follow from the kind of the entry. -/
theorem nodeAperture : Obligations.NodeAperture := by
  intro s n hb hn
  have hl0 := locate_nodeWord s.params hn false
  have hl1 := locate_nodeWord s.params hn true
  refine ⟨⟨(s.node n).word0, access_read hb hl0, ?_⟩, ⟨(s.node n).word1, access_read hb hl1, ?_⟩, fun data => ⟨?_, ?_⟩⟩
  · generalize s.node n = d
    cases d with
    | leaf v => exact word0_leaf v
    | free | unset | internal z o =>
      simp only [Node.word0]
      decide
  · generalize s.node n = d
    cases d with
    | internal z o => exact word1_int z o
    | free | unset | leaf v => rfl
  · exact access_write hb data (by simp) hl0
  · exact access_write hb data (by simp) hl1

/-! ### Which commands write BLK and BITS (R50, R63) -/

/-- `t` is `s` with no buffer written that `i` may not write. -/
def KeepsForeignBuffers (i : Instr) (s t : State) : Prop :=
  t.resets = s.resets ∧ (i.writesBits = false → t.bits = s.bits) ∧ (i.writesBlk = false → t.blk = s.blk)

/-- The last lines of the frame touch no buffer (R170). -/
theorem KeepsForeignBuffers.finish {i : Instr} {s : State} {r : BodyResult} (h : KeepsForeignBuffers i s r.state) :
    KeepsForeignBuffers i s (finish r) := by
  cases r <;> exact h

/-- Moves touch no buffer but those they may. -/
theorem Machine.Moves.keepsForeignBuffers {i : Instr} {a : Bool} {s t : State}
    (h : Moves a i.writesBits i.writesBlk s t) : KeepsForeignBuffers i s t := by
  obtain ⟨-, -, -, -, -, -, -, -, -, -, hresets, -⟩ := h.control
  refine ⟨hresets, fun hw => ?_, fun hw => ?_⟩
  · rw [hw] at h
    exact h.bits.1
  · rw [hw] at h
    exact h.blk.1

/-- No instruction writes a buffer that is not its own, however it ends. -/
theorem exec_keepsForeignBuffers {i : Instr} {s t : State} (hx : exec i s = .next t) : KeepsForeignBuffers i s t := by
  rcases exec_cases hx with ⟨hi, rfl⟩ | ⟨hi, hm⟩ | ⟨-, rfl⟩
  · refine KeepsForeignBuffers.finish ?_
    by_cases hc : i = .clear
    · subst hc
      exact ⟨rfl, fun _ => rfl, fun _ => rfl⟩
    · exact (bodyOf_ends hi hc (beginCommand (wordOf i) s)).1.keepsForeignBuffers
  · exact (hm.mono id (by simp) (by simp)).keepsForeignBuffers
  · exact ⟨rfl, fun _ => rfl, fun _ => rfl⟩

theorem writesBits_eq_false {i : Instr} (h1 : i ≠ .serialize) (h2 : i ≠ .encode) (h3 : i ≠ .compress) :
    i.writesBits = false := by
  cases i with
  | serialize => exact absurd rfl h1
  | encode => exact absurd rfl h2
  | compress => exact absurd rfl h3
  | _ => rfl

theorem writesBlk_eq_false {i : Instr} (h1 : i ≠ .decode) (h2 : i ≠ .decompress) : i.writesBlk = false := by
  cases i with
  | decode => exact absurd rfl h1
  | decompress => exact absurd rfl h2
  | _ => rfl

/-- Settles O56: the body of a command, and a header token, move only on the stores the instruction may write. -/
theorem buffersWrittenByTheirOwners : Obligations.BuffersWrittenByTheirOwners := by
  intro i s t hx
  obtain ⟨hresets, hbits, hblk⟩ := exec_keepsForeignBuffers hx
  exact ⟨fun h1 h2 h3 => bit_congr (hbits (writesBits_eq_false h1 h2 h3)) hresets,
    fun h1 h2 => blkByte_congr (hblk (writesBlk_eq_false h1 h2)) hresets⟩

end Sys2Proof
end

section
/-! Scope: the encodings of instructions, which words are legal and what an illegal one does; and the header tokens: what each
does, and that they and DESERIALIZE build the tree of a header. -/

namespace Sys2Proof

open Sys2Proof.Machine

/-! ### The command word (R78) -/

/-- The bits of a command word: OP, then ARG, then RSV = 0. -/
theorem getLsbD_commandWord (op arg : Byte) (i : Nat) : (commandWord op arg).getLsbD i =
    if i < 8 then op.getLsbD i else if i < 16 then arg.getLsbD (i - 8) else false := by
  simp only [commandWord, BitVec.getLsbD_append]
  split_ifs with h8 h16 hlt hlt
  · rfl
  · rfl
  · omega
  · omega
  · simp

theorem commandWord_op (op arg : Byte) : (commandWord op arg).extractLsb' 0 8 = op := by
  apply BitVec.eq_of_getLsbD_eq
  intro i hi
  simp [getLsbD_commandWord, hi]

theorem commandWord_arg (op arg : Byte) : (commandWord op arg).extractLsb' 8 8 = arg := by
  apply BitVec.eq_of_getLsbD_eq
  intro i hi
  simp [getLsbD_commandWord, hi, show 8 + i < 16 by omega]

theorem commandWord_rsv (op arg : Byte) : (commandWord op arg).extractLsb' 16 16 = 0 := by
  apply BitVec.eq_of_getLsbD_eq
  intro i hi
  simp [getLsbD_commandWord, show ¬ 16 + i < 8 by omega]

/-- A word whose RSV is 0 is made of its OP and its ARG. -/
theorem eq_commandWord {w : Word} (h : w.extractLsb' 16 16 = 0) :
    w = commandWord (w.extractLsb' 0 8) (w.extractLsb' 8 8) := by
  apply BitVec.eq_of_getLsbD_eq
  intro i hi
  have hrsv := congrArg (·.getLsbD (i - 16)) h
  simp only [BitVec.getLsbD_extractLsb', BitVec.ofNat_eq_ofNat, BitVec.getLsbD_zero, show i - 16 < 16 by omega,
    decide_true, Bool.true_and] at hrsv
  rw [getLsbD_commandWord]
  split_ifs with h8 h16
  · simp [h8]
  · simp [show i - 8 < 8 by omega, show 8 + (i - 8) = i by omega]
  · rwa [show 16 + (i - 16) = i by omega] at hrsv

/-- Under the mask of the two commands with an argument only OP is left (R80). -/
theorem commandWord_and_mask (op arg : Byte) : commandWord op arg &&& 0xFFFF00FF#32 = op.setWidth 32 := by
  apply BitVec.eq_of_getLsbD_eq
  intro i hi
  have hmask : (0xFFFF00FF#32 : Word).getLsbD i = decide (i < 8 ∨ 16 ≤ i) := by
    revert i
    decide
  rw [BitVec.getLsbD_and, getLsbD_commandWord, hmask, BitVec.getLsbD_setWidth]
  split_ifs with h8 h16
  · simp [h8, hi]
  · simp [h8, BitVec.getLsbD_of_ge _ _ (Nat.not_lt.mp h8), show ¬ 16 ≤ i by omega]
  · simp [h8, BitVec.getLsbD_of_ge _ _ (Nat.not_lt.mp h8)]

/-- A row without an argument is matched by one word (R80). -/
theorem plainRow_iff {op : Byte} {w : Word} : commandWord op 0 = w ↔ w &&& 0xFFFFFFFF#32 = commandWord op 0 := by
  rw [and_ones, eq_comm]

/-- A row with an argument is matched by the words of its opcode, one for each argument (R80). -/
theorem argumentRow_iff {op v : Byte} {w : Word} :
    commandWord op v = w ↔ w &&& 0xFFFF00FF#32 = op.setWidth 32 ∧ w.extractLsb' 8 8 = v := by
  constructor
  · rintro rfl
    exact ⟨commandWord_and_mask op v, commandWord_arg op v⟩
  · rintro ⟨hmatch, rfl⟩
    exact (and_mask hmatch).symm

/-! ### Decode and encode (R73, R80) -/

/-- The encoding of every instruction is legal and decodes to it. -/
theorem encode_legal_decodes (i : Instr) : Laws.F.Statement i := by
  cases i with
  | nop => exact Laws.F.nop
  | clear => exact Laws.F.clear
  | tinit => exact Laws.F.tinit
  | tleaf v => exact Laws.F.tleaf v
  | texpand => exact Laws.F.texpand
  | serialize => exact Laws.F.serialize
  | deserialize => exact Laws.F.deserialize
  | build => exact Laws.F.build
  | lookup v => exact Laws.F.lookup v
  | encode => exact Laws.F.encode
  | decode => exact Laws.F.decode
  | compress => exact Laws.F.compress
  | decompress => exact Laws.F.decompress
  | hExpand => exact Laws.F.hExpand
  | hLeaf v => exact Laws.F.hLeaf v

theorem decode_encode (i : Instr) : decode (encode i) = .ok i := (encode_legal_decodes i).2

/-- A word that matches a row of the opcode map is the encoding of what the row makes of it (R80). -/
theorem encode_of_row {w : Word} :
    ∀ r ∈ opcodeTable, w &&& r.mask = r.value → encode (r.make (w.extractLsb' 8 8)) = .command w := by
  have plain : ∀ op : Byte, w &&& 0xFFFFFFFF#32 = commandWord op 0 → Code.command (commandWord op 0) = .command w :=
    fun op h => congrArg Code.command (plainRow_iff.mpr h)
  have argument : ∀ op : Byte, w &&& 0xFFFF00FF#32 = op.setWidth 32 →
      Code.command (commandWord op (w.extractLsb' 8 8)) = .command w :=
    fun op h => congrArg Code.command (argumentRow_iff.mpr ⟨h, rfl⟩)
  simp only [opcodeTable, List.forall_mem_cons]
  exact ⟨plain 0x00, plain 0x01, plain 0x10, argument 0x11, plain 0x12, plain 0x20, plain 0x21, plain 0x30, argument 0x40,
    plain 0x41, plain 0x42, plain 0x50, plain 0x51, by simp⟩

theorem encode_of_decodeWord {w : Word} {i : Instr} (h : decodeWord w = .ok i) : encode i = .command w := by
  simp only [decodeWord] at h
  split at h
  · rename_i r hr
    cases h
    exact encode_of_row r (List.mem_of_find?_eq_some hr) (by simpa using List.find?_some hr)
  · cases h

theorem encode_of_decodeHeader {bits : List Bool} {i : Instr} (h : decode (.header bits) = .ok i) :
    encode i = .header bits := by
  simp only [decode] at h
  split at h
  · rename_i j hj
    cases h
    obtain ⟨code, hcode, rfl⟩ := decodeToken_spec hj
    rw [hcode, List.append_nil]
  · cases h
  · cases h

/-- What an encoding decodes to is the instruction it encodes. -/
theorem decode_ok_iff (c : Code) (i : Instr) : decode c = .ok i ↔ encode i = c := by
  refine ⟨fun h => ?_, fun h => h ▸ decode_encode i⟩
  cases c with
  | command w => exact encode_of_decodeWord h
  | header bits => exact encode_of_decodeHeader h

/-- Settles O3: the encoding of every instruction, and that nothing else decodes to it. -/
theorem decodeEncodeAgree : Obligations.DecodeEncodeAgree :=
  ⟨encode_legal_decodes, fun c i h => ((decode_ok_iff c i).mp h).symm⟩

/-- Settles O1: each word and token is an instruction's encoding. -/
theorem opcodeWords : Obligations.OpcodeWords :=
  ⟨decode_encode .nop, decode_encode .clear, decode_encode .tinit, decode_encode (.tleaf 0x41), decode_encode .texpand,
    decode_encode .serialize, decode_encode .deserialize, decode_encode .build, decode_encode (.lookup 0x44),
    decode_encode .encode, decode_encode .decode, decode_encode .compress, decode_encode .decompress,
    decode_encode .hExpand, decode_encode (.hLeaf 0x41)⟩

theorem selects_plain (i : Instr) (op : Byte) (hi : encode i = .command (commandWord op 0)) (w : Word) :
    decode (.command w) = .ok i ↔ w &&& 0xFFFFFFFF#32 = commandWord op 0 := by
  rw [decode_ok_iff, hi, Code.command.injEq, plainRow_iff]

theorem selects_argument (i : Byte → Instr) (op : Byte) (hi : ∀ v, encode (i v) = .command (commandWord op v)) (w : Word)
    (v : Byte) :
    decode (.command w) = .ok (i v) ↔ w &&& 0xFFFF00FF#32 = op.setWidth 32 ∧ w.extractLsb' 8 8 = v := by
  rw [decode_ok_iff, hi, Code.command.injEq, argumentRow_iff]

/-- Settles O2: row by row, the words that match are the encodings of the row's instruction. -/
theorem opcodeMap : Obligations.OpcodeMap := fun w =>
  ⟨selects_plain .nop 0x00 rfl w, selects_plain .clear 0x01 rfl w, selects_plain .tinit 0x10 rfl w,
    selects_argument .tleaf 0x11 (fun _ => rfl) w, selects_plain .texpand 0x12 rfl w, selects_plain .serialize 0x20 rfl w,
    selects_plain .deserialize 0x21 rfl w, selects_plain .build 0x30 rfl w,
    selects_argument .lookup 0x40 (fun _ => rfl) w, selects_plain .encode 0x41 rfl w, selects_plain .decode 0x42 rfl w,
    selects_plain .compress 0x50 rfl w, selects_plain .decompress 0x51 rfl w⟩

/-! ### Legal and illegal words (R81, R134) -/

/-- Every byte value, in order. -/
def allBytes : List Byte := (List.range 256).map (BitVec.ofNat 8)

theorem mem_allBytes (v : Byte) : v ∈ allBytes :=
  List.mem_map.mpr ⟨v.toNat, List.mem_range.mpr v.isLt, by simp⟩

theorem nodup_allBytes : allBytes.Nodup := by
  refine List.nodup_range.map_on (fun a ha b hb h => ?_)
  have := congrArg BitVec.toNat h
  simp only [List.mem_range] at ha hb
  simpa [Nat.mod_eq_of_lt ha, Nat.mod_eq_of_lt hb] using this

/-- The values ARG may have in a legal word with opcode `op` (R78, R81). -/
def legalArguments (op : Byte) : List Byte := if op ∈ argumentOpcodes then allBytes else [0]

theorem mem_legalArguments {op arg : Byte} : arg ∈ legalArguments op ↔ op ∈ argumentOpcodes ∨ arg = 0 := by
  unfold legalArguments
  split
  · simp [*, mem_allBytes]
  · simp [*]

theorem nodup_legalArguments (op : Byte) : (legalArguments op).Nodup := by
  unfold legalArguments
  split
  · exact nodup_allBytes
  · exact List.nodup_singleton 0

/-- The legal words: every opcode of the map with every argument it may have (R81). -/
def legalWords : List Word := opcodes.flatMap (fun op => (legalArguments op).map (commandWord op))

theorem mem_legalWords {w : Word} : w ∈ legalWords ↔
    w.extractLsb' 16 16 = 0 ∧ w.extractLsb' 0 8 ∈ opcodes ∧
      (w.extractLsb' 0 8 ∈ argumentOpcodes ∨ w.extractLsb' 8 8 = 0) := by
  simp only [legalWords, List.mem_flatMap, List.mem_map, mem_legalArguments]
  constructor
  · rintro ⟨op, hop, arg, harg, rfl⟩
    rw [commandWord_op, commandWord_arg]
    exact ⟨commandWord_rsv op arg, hop, harg⟩
  · rintro ⟨hrsv, hop, harg⟩
    exact ⟨_, hop, _, harg, (eq_commandWord hrsv).symm⟩

theorem nodup_legalWords : legalWords.Nodup := by
  refine List.nodup_flatMap.mpr ⟨fun op _ => (nodup_legalArguments op).map (fun a b h => ?_), ?_⟩
  · rw [← commandWord_arg op a, h, commandWord_arg]
  · refine List.Nodup.pairwise_of_forall_ne (by decide) (fun op _ op' _ hne => ?_)
    intro w hw hw'
    obtain ⟨a, -, rfl⟩ := List.mem_map.mp hw
    obtain ⟨b, -, h⟩ := List.mem_map.mp hw'
    exact hne (by rw [← commandWord_op op a, ← h, commandWord_op])

/-- Two opcodes with 256 arguments each and eleven with one (R81). -/
theorem length_legalWords : legalWords.length = 523 := by
  simp only [legalWords, List.length_flatMap, List.length_map]
  decide +kernel

/-- Every opcode of the map, with any argument it may have, is an instruction's (R80). -/
theorem exists_encode : ∀ op ∈ opcodes, ∀ arg, op ∈ argumentOpcodes ∨ arg = 0 →
    ∃ i, encode i = .command (commandWord op arg) := by
  have plain : ∀ (i : Instr) (op : Byte), op ∉ argumentOpcodes → encode i = .command (commandWord op 0) →
      ∀ arg, op ∈ argumentOpcodes ∨ arg = 0 → ∃ i, encode i = .command (commandWord op arg) :=
    fun i op hop hi arg harg => ⟨i, by rw [hi, harg.resolve_left hop]⟩
  simp only [opcodes, List.forall_mem_cons]
  exact ⟨plain .nop _ (by decide) rfl, plain .clear _ (by decide) rfl, plain .tinit _ (by decide) rfl,
    fun arg _ => ⟨.tleaf arg, rfl⟩, plain .texpand _ (by decide) rfl, plain .serialize _ (by decide) rfl,
    plain .deserialize _ (by decide) rfl, plain .build _ (by decide) rfl, fun arg _ => ⟨.lookup arg, rfl⟩,
    plain .encode _ (by decide) rfl, plain .decode _ (by decide) rfl, plain .compress _ (by decide) rfl,
    plain .decompress _ (by decide) rfl, by simp⟩

/-- A word decodes exactly when it passes the three checks of R81. -/
theorem decodes_iff (w : Word) : (∃ i, decode (.command w) = .ok i) ↔
    w.extractLsb' 16 16 = 0 ∧ w.extractLsb' 0 8 ∈ opcodes ∧
      (w.extractLsb' 0 8 ∈ argumentOpcodes ∨ w.extractLsb' 8 8 = 0) := by
  simp only [decode_ok_iff]
  constructor
  · rintro ⟨i, hi⟩
    have hlegal := (encode_legal_decodes i).1
    rw [hi] at hlegal
    simpa [Code.wellFormed, CommandFields.wellFormed, CommandFields.ofWord, CommandFields.reservedIsZero,
      CommandFields.opcodeIsKnown, CommandFields.argumentIsAllowed, and_assoc] using hlegal
  · rintro ⟨hrsv, hop, harg⟩
    rw [eq_commandWord hrsv]
    exact exists_encode _ hop _ harg

/-- A host write of an illegal word to CMD while no command runs (R81, R134). -/
theorem access_writeCmd_illegal {s : State} {w : Word} (hb : s.busy = false) (hw : ∀ i, decode (.command w) ≠ .ok i) :
    access (.write 32 0 w) s = .next (illegalCommand w { s with reply := .written }) := by
  rw [access_idle hb]
  simp only [accessIdle, locate_cmd, writeCmd]
  cases hd : decodeWord w with
  | ok i => exact absurd hd (hw i)
  | error e => rfl

/-- Settles O4: the checks of R81 by the encodings, the legal words counted, and error entry with nothing else changed. -/
theorem illegalWords : Obligations.IllegalWords := by
  refine ⟨decodes_iff, ⟨legalWords, nodup_legalWords, length_legalWords, fun w => mem_legalWords.trans (decodes_iff w).symm⟩,
    fun s w rest hb hin hw => ⟨illegalCommand w { s with inputs := rest, reply := .written }, ?_,
      errored_untouched w .illegalCmd w _⟩⟩
  simp only [step, hin, applyInput]
  exact access_writeCmd_illegal hb hw

/-! ### Header tokens as inputs (R73) -/

/-- Settles O6: the step decodes the token; without a pending node its meaning refuses it. -/
theorem stepRunsToken : Obligations.StepRunsToken := by
  intro s bits rest hin
  have hstep : step s = feedToken bits { s with inputs := rest } := by simp only [step, hin, applyInput]
  refine ⟨fun i hi => ?_, fun hnone => ?_, fun hp v => ?_⟩
  · simp only [hstep, feedToken, hi]
  · rw [hstep, feedToken]
    cases hd : decode (.header bits) with
    | ok i => exact absurd hd (hnone i)
    | error e => rfl
  · simp only [exec, execHExpand, execHLeaf, hp, and_self]

/-- H.LEAF makes the pending node a leaf (R73, R91). -/
theorem exec_hLeaf {s : State} {p : NodeIdx} (v : Byte) (hp : findPending s = some p) :
    exec (.hLeaf v) s = .next (makeLeaf p v s) := by
  simp only [exec, execHLeaf, hp]

/-- H.EXPAND makes the pending node internal when two entries are free (R73, R92). -/
theorem exec_hExpand_fits {s t : State} {p z o : NodeIdx} (hp : findPending s = some p)
    (he : expand p s = some (t, z, o)) : exec .hExpand s = .next t := by
  simp only [exec, execHExpand, hp, he]

/-- H.EXPAND fails the header when fewer than two entries are free (R92, R105). -/
theorem exec_hExpand_full {s : State} {p : NodeIdx} (hp : findPending s = some p)
    (hfull : s.params.nodeCap < s.nodeCnt.toNat + 2) :
    exec .hExpand s = .next (finish (headerFail .treeOverflow s.nodeCnt s)) := by
  simp only [exec, execHExpand, hp, expand_full p s hfull]

/-- What a header token leaves alone: all but the arena and NODE_CNT, and what is derived from them. -/
theorem arenaOnly_frame {s t : State} {changed : List Reg} (h : t = { s with nodes := t.nodes, nodeCnt := t.nodeCnt })
    (hstatus : Reg.status ∈ changed) (hpend : Reg.pend ∈ changed) (hcnt : Reg.nodeCnt ∈ changed ∨ t.nodeCnt = s.nodeCnt) :
    t.busy = s.busy ∧ t.done = s.done ∧ t.err = s.err ∧ t.stickyErr = s.stickyErr ∧
      SameRegs changed s t ∧ SameBlk s t ∧ SameBits s t ∧ SameSurroundings s t := by
  have hregs : SameRegs changed s t := by
    refine sameRegs_intro ?_ hstatus ?_ ?_ ?_ ?_ ?_ ?_ hcnt ?_ (.inl hpend) ?_ ?_ ?_ ?_ <;> rw [h] <;> simp
  rw [h] at hregs ⊢
  exact ⟨rfl, rfl, rfl, rfl, hregs, fun _ => rfl, fun _ => rfl, rfl, rfl, rfl, rfl, rfl⟩

/-- What a header that fails on its own leaves (R105, log 3). -/
theorem headerFail_effect (e : Err) (info : Word) (s : State) :
    Errored s.cmd e info (finish (headerFail e info s)) ∧ NoTree (finish (headerFail e info s)) ∧
      (finish (headerFail e info s)).hdrLen = 0 ∧
      SameRegs (frameRegs ++ treeRegs ++ [.hdrLen]) s (finish (headerFail e info s)) ∧
      SameBlk s (finish (headerFail e info s)) ∧ SameBits s (finish (headerFail e info s)) ∧
      SameSurroundings s (finish (headerFail e info s)) := by
  refine ⟨⟨rfl, rfl, rfl, rfl, rfl, rfl, rfl⟩, ⟨rfl, rfl, fun _ => rfl⟩, rfl, ?_, fun _ => rfl, fun _ => rfl, rfl, rfl, rfl,
    rfl, rfl⟩
  exact sameRegs_intro (.inr rfl) (by decide) (.inl (by decide)) (.inl (by decide)) (.inr rfl) (.inr rfl) (.inr rfl)
    (.inl (by decide)) (.inl (by decide)) (.inl (by decide)) (.inl (by decide)) (.inr rfl) (.inr rfl) (.inr rfl) rfl

/-- Settles O22: `make_leaf`, `expand` and the failing header on the pending node. -/
theorem tokenEffects : Obligations.TokenEffects := by
  intro s p hp
  refine ⟨fun v => ?_, fun hcap => ?_, fun hfull => ?_⟩
  · exact ⟨_, exec_hLeaf v hp, node_makeLeaf s p v, arenaOnly_frame rfl (by simp) (by simp) (.inr rfl)⟩
  · obtain ⟨t, z, o, he, hz, ho, ht, hcnt, hnode⟩ := expand_fits p s hcap
    have hpending : ArenaOk s → findPending t = some z := by
      intro hok
      obtain ⟨T, hT⟩ := arenaOk_pending hok hp
      have hstack := (holdsTree_expand hT hp hnode hz ho (by rw [ht]) hcnt (by rw [ht]) hcap).2
      rw [findPending_head, hstack, List.head?_cons]
    exact ⟨t, z, o, exec_hExpand_fits hp he, hz, ho, hcnt, fun n => by rw [hnode, hz, ho], hpending,
      arenaOnly_frame (by rw [ht]) (by simp) (by simp) (.inl (by simp))⟩
  · exact ⟨_, exec_hExpand_full hp hfull, headerFail_effect .treeOverflow s.nodeCnt s⟩

/-- The tokens of a complete tree that fits build it from one UNSET root (R73, R98). -/
theorem tokens_build {s : State} {T : CodeTree} (hc : T.complete = true) (hcap : T.size ≤ s.params.nodeCap) :
    ∃ t, runAll T.tokens (treeInit s) = .next t ∧ HoldsTree t T ∧
      t = { s with nodes := t.nodes, nodeCnt := t.nodeCnt, root := 0 } := by
  have hpos := T.size_pos
  have hcnt : (treeInit s).nodeCnt.toNat = 1 := rfl
  obtain ⟨t, hrun, hT, ht, -⟩ := tokens_fill T hc (treeInit s) .unset (holdsTree_treeInit s) rfl
    (by rw [hcnt, treeInit_params]; omega)
  exact ⟨t, hrun, hT, ht⟩

/-- The tokens of a tree make the same arena from the same arena, whatever the registers hold. -/
theorem Machine.SameArena.treeTokens {s s' t : State} {T : CodeTree} (h : SameArena s s') (hc : T.complete = true)
    (hrun : runAll T.tokens s = .next t) : ∃ t', runAll T.tokens s' = .next t' ∧ SameArena t t' := by
  obtain ⟨-, htokens, -⟩ := CodeTree.recordPairs_spec hc
  rw [← htokens] at hrun ⊢
  exact h.tokens _ hrun

/-- DESERIALIZE of the header of a tree that fits completes with the arena that the tree's tokens make (R73, R98, R105). -/
theorem exec_deserialize_tokens {s t : State} {T : CodeTree} {rest : List Bool} (hc : T.complete = true)
    (hcap : T.size ≤ s.params.nodeCap) (hbits : s.bitsLen.toNat ≤ s.params.bitsMax)
    (hcur : s.cursor.toNat ≤ s.bitsLen.toNat) (hfrom : bitsFrom s = T.header ++ rest)
    (hrun : runAll T.tokens (treeInit s) = .next t) (hT : HoldsTree t T) :
    ∃ u, exec .deserialize s = .next u ∧ u.err = false ∧ SameNodes t u ∧ u.nodeCnt = t.nodeCnt ∧ u.root = t.root := by
  have hfrom' : bitsFrom (beginCommand (wordOf .deserialize) s) = T.header ++ rest := by rw [bitsFrom_beginCommand, hfrom]
  obtain ⟨t', hrun', hsame⟩ := SameArena.treeTokens (s := treeInit s)
    (s' := treeInit (beginCommand (wordOf .deserialize) s)) ⟨rfl, rfl, rfl, rfl⟩ hc hrun
  have hpending : findPending t' = none := hsame.findPending.trans (findPending_of_complete hT hc)
  obtain ⟨u, hu, hnodes, hcnt, hroot⟩ := deserializeRun_tokens hc hfrom' hrun' hpending
  obtain ⟨u', hu', hframe, -⟩ := deserializeRun_header (s := beginCommand (wordOf .deserialize) s) hc hcap hfrom'
  obtain rfl : u' = u := by simpa [hu'] using hu
  exact ⟨_, exec_completed (body := deserializeBody) rfl ((deserializeBody_run hbits hcur).trans hu'), by rw [hframe]; rfl,
    node_congr (hnodes.trans hsame.1), hcnt.trans hsame.2.1, hroot.trans hsame.2.2.1⟩

/-- Settles O23: the tokens fill the root, and DESERIALIZE's records are those tokens. -/
theorem tokensBuildTheTree : Obligations.TokensBuildTheTree := by
  intro s T hc hcap
  obtain ⟨t, hrun, hT, ht⟩ := tokens_build hc hcap
  have hregs : SameRegs ([.status] ++ treeRegs) s t := by
    refine sameRegs_intro ?_ (by simp) ?_ ?_ ?_ ?_ ?_ ?_ (.inl (by decide)) (.inl (by decide)) (.inl (by decide)) ?_ ?_ ?_ ?_ <;>
      rw [ht] <;> simp
  refine ⟨t, hrun, hT, by rw [ht], hregs, ?_, ?_, ?_, fun rest hbits hcur hfrom =>
    exec_deserialize_tokens hc hcap hbits hcur hfrom hrun hT⟩ <;> rw [ht]
  · exact fun _ => rfl
  · exact fun _ => rfl
  · exact ⟨rfl, rfl, rfl, rfl, rfl⟩

end Sys2Proof
end

section
/-! Scope: the shape of a header and headers that are cut off; code paths, the payload and its decoding; and COMPRESS's output
given to DECOMPRESS: blocks of one byte value, and output cut short. -/

namespace Sys2Proof

open Sys2Proof.Machine

/-! ### The header (R71, R102, R103) -/

/-- A leaf record of value `v`: a distance, a zero and the bits of `v` (R71). -/
def IsRecordOf (r : List Bool) (v : Byte) : Prop := ∃ d, r = List.replicate d true ++ (false :: bitsOfByte v)

/-- One expansion more in front of a leaf record. -/
theorem IsRecordOf.cons_true {r : List Bool} {v : Byte} (h : IsRecordOf r v) : IsRecordOf (true :: r) v := by
  obtain ⟨d, rfl⟩ := h
  exact ⟨d + 1, rfl⟩

theorem IsRecordOf.nine_le_length {r : List Bool} {v : Byte} (h : IsRecordOf r v) : 9 ≤ r.length := by
  obtain ⟨d, rfl⟩ := h
  simp [bitsOfByte_length]

/-- The leaf records of a tree are those of its values, in order (R72). -/
theorem CodeTree.records_values (T : CodeTree) : List.Forall₂ IsRecordOf T.records T.values := by
  induction T with
  | unset => exact .nil
  | leaf v => exact .cons ⟨0, rfl⟩ .nil
  | node a b iha ihb =>
    simp only [CodeTree.records, CodeTree.values]
    generalize a.records = rs, a.values = vs at iha
    cases iha with
    | nil => exact ihb
    | cons hr hrest => exact .cons hr.cons_true (List.rel_append hrest ihb)

theorem CodeTree.records_length (T : CodeTree) : T.records.length = T.values.length := T.records_values.length_eq

/-- Settles O31: the lengths by the number of leaves, the records one by one. -/
theorem headerShape : Obligations.HeaderShape := by
  intro T hc
  have hsize := CodeTree.size_eq_values hc
  have hlen := CodeTree.header_length hc
  refine ⟨by omega, hlen, CodeTree.flatten_records hc, T.records_length, fun j h h' => ?_⟩
  exact T.records_values.get h h'

/-- Records of at least nine bits are nine bits each and their expansions. -/
theorem length_flatten_records {rs : List (List Bool)} (h : ∀ r ∈ rs, 9 ≤ r.length) :
    rs.flatten.length = expansions rs + 9 * rs.length := by
  induction rs with
  | nil => rfl
  | cons r rs ih =>
    obtain ⟨hr, hrest⟩ := List.forall_mem_cons.mp h
    have hrs := ih hrest
    simp only [expansions] at hrs
    simp only [expansions, List.flatten_cons, List.length_append, List.map_cons, List.sum_cons, List.length_cons]
    omega

/-- The records of a complete tree ask for two nodes each time they expand, beyond the root (R92, R103). -/
theorem CodeTree.expansions_records {T : CodeTree} (hc : T.complete = true) : 1 + 2 * expansions T.records = T.size := by
  have hnine : ∀ r ∈ T.records, 9 ≤ r.length := by
    intro r hr
    obtain ⟨j, hj, rfl⟩ := List.getElem_of_mem hr
    exact IsRecordOf.nine_le_length (T.records_values.get hj (T.records_length ▸ hj))
  have hflat := length_flatten_records hnine
  have hsize := CodeTree.size_eq_values hc
  have hlen := CodeTree.header_length hc
  rw [CodeTree.flatten_records hc, CodeTree.records_length] at hflat
  omega

/-- The first records of a tree that fits fit. -/
theorem CodeTree.expansions_take {T : CodeTree} (hc : T.complete = true) (j : Nat) :
    1 + 2 * expansions (T.records.take j) ≤ T.size := by
  have hall := CodeTree.expansions_records hc
  have hsplit := expansions_append (T.records.take j) (T.records.drop j)
  rw [List.take_append_drop] at hsplit
  omega

/-- Settles O28: `deserialize_body` on the cut header, behind its checks. -/
theorem deserializeTruncated : Obligations.DeserializeTruncated := by
  intro s T j r tail hbits hcur hc hj htail hlt hfrom hcap
  have hrun := deserializeRun_cut (s := beginCommand (wordOf .deserialize) s) hc hcap
    (by rw [bitsFrom_beginCommand, hfrom]) hj htail hlt
  obtain ⟨⟨hregs, hblk, hbit, hsurr⟩, hnone, hhdr, hcursor, herr⟩ := afterHeaderFail_effect 0x00000021 .truncatedHeader
    (s.cursor + BitVec.ofNat 32 (T.records.take j).flatten.length) (bitsLeft s) s
  exact ⟨_, exec_deserialize_fails hbits hcur hrun, herr, hnone, hhdr, hcursor.trans (advance_end hcur), hregs, hblk, hbit,
    hsurr⟩

/-! ### The payload (R75, R76) -/

/-- Settles O40: a walk ends at the first leaf, so the cut is the only one; the payload is a cut with no rest. -/
theorem decodingIsUnique : Obligations.DecodingIsUnique := by
  intro a b bits c₁ c₂ v₁ v₂ r₁ r₂ h
  refine ⟨CodeTree.decoding_unique h, fun block hp => ?_⟩
  obtain ⟨codes, hd⟩ := CodeTree.payload_decoding hp
  exact (CodeTree.decoding_unique h hd).2

/-- The payload is as long as the codes of the bytes together (R75). -/
theorem CodeTree.payload_length {T : CodeTree} {B : List Byte} {p : List Bool} (h : T.payload B = some p) :
    p.length = (B.map (fun v => ((T.path v).getD []).length)).sum := by
  induction B generalizing p with
  | nil =>
    cases h
    rfl
  | cons v rest ih =>
    simp only [CodeTree.payload] at h
    split at h
    · rename_i q p' hq hp'
      cases h
      simp [hq, ih hp']
    · cases h

/-- A sum over a block, gathered by its distinct values. -/
theorem sum_map_eraseDups (B : List Byte) (f : Byte → Nat) :
    (B.map f).sum = (B.eraseDups.map (fun v => B.count v * f v)).sum := by
  have hset : B.eraseDups.toFinset = B.toFinset := by
    ext v
    simp [List.mem_eraseDups]
  rw [Finset.sum_list_map_count, ← hset, List.sum_toFinset _ (nodup_eraseDups B)]
  rfl

/-- Settles O49: the lengths of the codes of the block's bytes, gathered by value. -/
theorem payloadLength : Obligations.PayloadLength := fun T B _ hp =>
  (CodeTree.payload_length hp).trans (sum_map_eraseDups B (fun v => ((T.path v).getD []).length))

/-- With a one-node tree the payload is empty (R74). -/
theorem CodeTree.payload_leaf {v : Byte} {B : List Byte} {p : List Bool} (h : (CodeTree.leaf v).payload B = some p) :
    p = [] := by
  have hlen : ∀ u, (((CodeTree.leaf v).path u).getD []).length = 0 := by
    intro u
    simp only [CodeTree.path]
    split <;> rfl
  have := CodeTree.payload_length h
  simp only [hlen] at this
  exact List.eq_nil_of_length_eq_zero (by simpa using this)

/-! ### What COMPRESS puts out (R127) -/

/-- The state that a completed COMPRESS leaves whose header and payload are `l` and whose header has `n` bits. -/
def afterCompress (l : List Bool) (n : Nat) (s : State) : State :=
  endCommand { zeroFillTail (appended l (buildRun { beginCommand 0x00000050 s with bitsLen := 0, hdrLen := 0 })) with
    hdrLen := BitVec.ofNat 32 n }

/-- COMPRESS of a legal block: header and payload when they fit, an error when they do not (R127). -/
theorem exec_compress_spec {s : State} (h0 : s.blkLen ≠ 0) (h1 : s.blkLen.toNat ≤ s.params.blockMax) :
    ∃ p, (CodeTree.huffman (blockBytes s)).payload (blockBytes s) = some p ∧
      ((CodeTree.huffman (blockBytes s)).header.length + p.length ≤ s.params.bitsMax →
        exec .compress s = .next (afterCompress ((CodeTree.huffman (blockBytes s)).header ++ p)
          (CodeTree.huffman (blockBytes s)).header.length s)) ∧
      (s.params.bitsMax < (CodeTree.huffman (blockBytes s)).header.length + p.length →
        ∃ t, exec .compress s = .next t ∧ t.err = true) := by
  obtain ⟨p, hp, hfit, hover⟩ := compressRun_spec (s := beginCommand (wordOf .compress) s)
    (blockBytes_beginCommand _ s) (blockBytes_ne_nil h0)
  refine ⟨p, hp, fun h => ?_, fun h => ?_⟩
  · exact exec_completed (body := compressBody) rfl ((compressBody_run h0 h1).trans (hfit h))
  · exact ⟨_, exec_raised (body := compressBody) rfl ((compressBody_run h0 h1).trans (hover h)), rfl⟩

/-- A completed COMPRESS appends its output at bit 0, for a tree of the block's distinct values (R127). -/
theorem afterCompress_effect {s : State} {l : List Bool} (n : Nat) (h0 : s.blkLen ≠ 0)
    (hfit : l.length ≤ s.params.bitsMax) :
    BitsAppended l { s with bitsLen := 0 } (afterCompress l n s) ∧ (afterCompress l n s).params = s.params ∧
      (afterCompress l n s).symCnt = BitVec.ofNat 32 (blockBytes s).eraseDups.length ∧
      (afterCompress l n s).err = false := by
  have hblock : blockBytes { beginCommand 0x00000050 s with bitsLen := 0, hdrLen := 0 } = blockBytes s :=
    blockBytes_congr rfl rfl rfl
  obtain ⟨-, -, -, -, -, -, hframe⟩ := buildRun_spec { beginCommand 0x00000050 s with bitsLen := 0, hdrLen := 0 }
    (hblock ▸ blockBytes_ne_nil h0)
  rw [hblock] at hframe
  simp only [afterCompress, zeroFillTail_eq]
  generalize buildRun { beginCommand 0x00000050 s with bitsLen := 0, hdrLen := 0 } = u at hframe ⊢
  refine ⟨bitsAppended_zeroFill (by simpa using hfit) ?_ ?_ ?_, ?_, ?_, ?_⟩
  · rw [zeroFillTail_eq, hframe]
    rfl
  all_goals
    rw [hframe]
    rfl

/-- The Huffman tree of a block is complete, its leaves are the distinct values, and it fits every arena (R5, R114). -/
theorem CodeTree.huffman_spec (s : State) (h0 : s.blkLen ≠ 0) :
    (CodeTree.huffman (blockBytes s)).complete = true ∧
      (CodeTree.huffman (blockBytes s)).values.Perm (blockBytes s).eraseDups ∧
      (CodeTree.huffman (blockBytes s)).size ≤ 511 := by
  obtain ⟨-, hc, hvalues, -⟩ := buildRun_spec s (blockBytes_ne_nil h0)
  have hsize := CodeTree.size_eq_values hc
  have hdistinct := eraseDups_length_le (blockBytes s)
  rw [hvalues.length_eq] at hsize
  exact ⟨hc, hvalues, by omega⟩

/-- A COMPRESS that ends without an error put out the header and the payload of a legal block (R127). -/
theorem compress_output {s t : State} (hx : exec .compress s = .next t) (herr : t.err = false) :
    s.blkLen ≠ 0 ∧ s.blkLen.toNat ≤ s.params.blockMax ∧
      ∃ p, (CodeTree.huffman (blockBytes s)).payload (blockBytes s) = some p ∧
        (CodeTree.huffman (blockBytes s)).header.length + p.length ≤ s.params.bitsMax ∧
        t = afterCompress ((CodeTree.huffman (blockBytes s)).header ++ p)
          (CodeTree.huffman (blockBytes s)).header.length s := by
  have hlegal : ∀ e info, ¬ EndsErrored .compress s e info := by
    rintro e info ⟨u, hu, ⟨-, -, -, hut, -⟩, -⟩
    rw [hx] at hu
    cases hu
    rw [herr] at hut
    cases hut
  have hlen : s.blkLen.toNat ≤ s.params.blockMax := by
    by_contra hcon
    exact hlegal .badLength 1 (endsErrored_of_body (body := compressBody) rfl (guarded_some (by
      simp [firstError, checkBlkLen_some (s := s) (by omega)])))
  have hne : s.blkLen ≠ 0 := fun h0 =>
    hlegal .emptyBlock 0 (endsErrored_of_body (body := compressBody) rfl (guarded_some (by
      simp [firstError, checkBlkLen_none hlen, checkBlockNotEmpty_some h0])))
  obtain ⟨p, hp, hfit, hover⟩ := exec_compress_spec hne hlen
  have hle : (CodeTree.huffman (blockBytes s)).header.length + p.length ≤ s.params.bitsMax := by
    by_contra hcon
    obtain ⟨u, hu, hut⟩ := hover (by omega)
    rw [hx] at hu
    cases hu
    rw [herr] at hut
    cases hut
  rw [hfit hle] at hx
  cases hx
  exact ⟨hne, hlen, p, hp, hle, rfl⟩

/-! ### DECOMPRESS by its parts (R128) -/

/-- Where the body of DECOMPRESS begins to read: inside the frame, CURSOR at 0 (R128). -/
def decompressStart (s : State) : State := { beginCommand (wordOf .decompress) s with cursor := 0 }

theorem bitsFrom_decompressStart (s : State) : bitsFrom (decompressStart s) = bitsFrom { s with cursor := 0 } :=
  bitsFrom_congr rfl rfl rfl rfl

theorem decompressRun_fails {s t : State} {e : Err} {info : Word}
    (h : deserializeRun { s with cursor := 0 } = .raised e info t) :
    decompressRun s = .raised e info { t with blkLen := 0, tailBits := 0 } := by
  simp only [decompressRun, h]

theorem decompressRun_decodes {s t : State} (h : deserializeRun { s with cursor := 0 } = .completed t) :
    decompressRun s = decodeRun t := by
  simp only [decompressRun, h]

/-- DECOMPRESS of bits whose header fails (R128). -/
theorem exec_decompress_fails {s t : State} {e : Err} {info : Word} (hbits : s.bitsLen.toNat ≤ s.params.bitsMax)
    (hrun : deserializeRun (decompressStart s) = .raised e info t) :
    exec .decompress s = .next (endCommand (errorEntry e info { t with blkLen := 0, tailBits := 0 })) :=
  exec_raised (body := decompressBody) rfl ((decompressBody_run hbits).trans (decompressRun_fails hrun))

/-- DECOMPRESS of bits that start with the header of a tree that fits: the decoder runs on that tree, from the header's end
(R128). -/
theorem exec_decompress_header {s : State} {T : CodeTree} {pay : List Bool} (hbits : s.bitsLen.toNat ≤ s.params.bitsMax)
    (hc : T.complete = true) (hcap : T.size ≤ s.params.nodeCap)
    (hfrom : bitsFrom { s with cursor := 0 } = T.header ++ pay) :
    ∃ t, HoldsTree t T ∧ bitsFrom t = pay ∧
      t = { advance T.header.length (decompressStart s) with
        nodes := t.nodes, nodeCnt := t.nodeCnt, root := 0, hdrLen := BitVec.ofNat 32 T.header.length } ∧
      ∀ u, decodeRun t = .completed u → exec .decompress s = .next (endCommand u) := by
  have hfrom' : bitsFrom (decompressStart s) = T.header ++ pay := (bitsFrom_decompressStart s).trans hfrom
  obtain ⟨t, hrun, ht, hT⟩ := deserializeRun_header (s := decompressStart s) hc hcap hfrom'
  have hle : T.header.length ≤ bitsLeft (decompressStart s) := by
    rw [← bitsFrom_length, hfrom', List.length_append]
    omega
  have hpay : bitsFrom t = pay := by
    have hadvance : bitsFrom t = bitsFrom (advance T.header.length (decompressStart s)) :=
      bitsFrom_congr (by rw [ht]) (by rw [ht]) (by rw [ht]) (by rw [ht])
    rw [hadvance, bitsFrom_advance hle, hfrom', List.drop_left]
  exact ⟨t, hT, hpay, ht, fun u hu =>
    exec_completed (body := decompressBody) rfl ((decompressBody_run hbits).trans ((decompressRun_decodes hrun).trans hu))⟩

/-! ### A block of one byte value (R74, R129(b)) -/

theorem eraseDups_of_constant {B : List Byte} {v : Byte} (hne : B ≠ []) (h : ∀ b ∈ B, b = v) : B.eraseDups = [v] := by
  cases B with
  | nil => exact absurd rfl hne
  | cons u rest =>
    obtain ⟨rfl, hrest⟩ := List.forall_mem_cons.mp h
    have hnone : rest.filter (fun b => !b == u) = [] := List.filter_eq_nil_iff.mpr (fun b hb => by simp [hrest b hb])
    rw [List.eraseDups_cons, hnone, List.eraseDups_nil]

/-- A complete tree with one value is its leaf (R41, R74). -/
theorem CodeTree.eq_leaf_of_values {T : CodeTree} {v : Byte} (hc : T.complete = true) (h : T.values = [v]) :
    T = .leaf v := by
  cases T with
  | unset => cases hc
  | leaf u => simpa [CodeTree.values] using h
  | node a b =>
    have hsize := CodeTree.size_eq_values hc
    have ha := a.size_pos
    have hb := b.size_pos
    rw [h, CodeTree.size, List.length_singleton] at hsize
    omega

theorem CodeTree.huffman_of_constant {s : State} {v : Byte} (h0 : s.blkLen ≠ 0) (h : ∀ b ∈ blockBytes s, b = v) :
    CodeTree.huffman (blockBytes s) = .leaf v := by
  obtain ⟨hc, hvalues, -⟩ := CodeTree.huffman_spec s h0
  rw [eraseDups_of_constant (blockBytes_ne_nil h0) h] at hvalues
  exact CodeTree.eq_leaf_of_values hc (List.perm_singleton.mp hvalues)

/-- The bits of an output that begins at bit 0, read from the front (R15, R127). -/
theorem bitsFrom_of_bitsAppended {l : List Bool} {s t : State} (h : BitsAppended l { s with bitsLen := 0 } t) {n : Word}
    (hn : n.toNat ≤ l.length) : bitsFrom { t with bitsLen := n, cursor := 0 } = l.take n.toNat := by
  obtain ⟨-, hbits, -⟩ := h
  refine bitsFrom_eq ?_ (fun j hj => ?_)
  · have hleft : bitsLeft { t with bitsLen := n, cursor := 0 } = n.toNat := Nat.sub_zero _
    rw [hleft, List.length_take_of_le hn]
  · rw [List.length_take_of_le hn] at hj
    have hbit := hbits j (by omega)
    rw [List.getElem_take, ← hbit]
    rfl

/-- The whole output, read from the front. -/
theorem bitsFrom_of_output {l : List Bool} {s t : State} (h : BitsAppended l { s with bitsLen := 0 } t) :
    bitsFrom { t with cursor := 0 } = l := by
  have hlen : t.bitsLen.toNat = l.length := h.1.trans (Nat.zero_add _)
  exact (bitsFrom_of_bitsAppended h (Nat.le_of_eq hlen)).trans (List.take_of_length_le (Nat.le_of_eq hlen.symm))

/-- DECOMPRESS of the header of a one-node tree emits nothing (R125, R128). -/
theorem exec_decompress_leaf {s : State} {v : Byte} (hbits : s.bitsLen.toNat ≤ s.params.bitsMax) {pay : List Bool}
    (hfrom : bitsFrom { s with cursor := 0 } = (CodeTree.leaf v).header ++ pay) :
    ∃ u, exec .decompress s = .next u ∧ u.err = false ∧ HoldsTree u (.leaf v) ∧ u.root = 0 ∧ u.blkLen = 0 ∧
      u.tailBits = 0 ∧ u.cursor = 9 := by
  have hcap := s.params.nodeCap_range.1
  obtain ⟨t, hT, -, ht, hexec⟩ := exec_decompress_header hbits rfl (by simp only [CodeTree.size]; omega) hfrom
  refine ⟨_, hexec _ (decodeRun_leaf hT), by rw [ht]; rfl,
    holdsTree_congr hT (fun _ => rfl) rfl rfl rfl, by rw [ht]; rfl, rfl, rfl, by rw [ht]; rfl⟩

/-- Settles O46: the tree is one leaf, so the payload is empty and the output is the leaf's nine bits. -/
theorem singleSymbolBlock : Obligations.SingleSymbolBlock := by
  intro s v h0 h1 hall
  have hmax := s.params.bitsMax_range.1
  obtain ⟨p, hp, hfit, -⟩ := exec_compress_spec h0 h1
  rw [CodeTree.huffman_of_constant h0 hall] at hp hfit
  obtain rfl := CodeTree.payload_leaf hp
  rw [List.append_nil] at hfit
  obtain ⟨hout, hparams, hsym, herrC⟩ := afterCompress_effect (l := (CodeTree.leaf v).header) 9 h0 hmax
  rw [eraseDups_of_constant (blockBytes_ne_nil h0) hall] at hsym
  have hfrom := bitsFrom_of_output hout
  obtain ⟨hlen, hbits, -⟩ := hout
  obtain ⟨u, hu, herr, hT, hroot, hblk, htail, hcur⟩ := exec_decompress_leaf (v := v) (pay := [])
    (by rw [hlen, hparams]; exact hmax) (by rw [hfrom, List.append_nil])
  have hnode : u.node 0 = .leaf v := by
    obtain ⟨is, ⟨hn, -⟩, -⟩ := hT.1
    rwa [hroot] at hn
  refine ⟨afterCompress (CodeTree.leaf v).header 9 s, u, hfit hmax, herrC, rfl, BitVec.eq_of_toNat_eq hlen, hsym,
    fun j hj => ?_, hu, herr, hT, (treeSingle_holdsTree hT).mpr ⟨v, rfl⟩, hroot, hnode, hblk, htail, hcur⟩
  exact (congrArg _ (Nat.zero_add j).symm).trans (hbits j hj)

/-! ### Output cut short (R129(f)) -/

/-- DECOMPRESS of a header that is cut off ends errored with no output (R107, R128). -/
theorem exec_decompress_cut {s : State} {T : CodeTree} {n : Nat} (hbits : s.bitsLen.toNat ≤ s.params.bitsMax)
    (hc : T.complete = true) (hcap : T.size ≤ s.params.nodeCap) (hn : n < T.header.length)
    (hfrom : bitsFrom { s with cursor := 0 } = T.header.take n) :
    ∃ u, exec .decompress s = .next u ∧ (∃ r, Errored 0x00000051 .truncatedHeader r u) ∧ u.blkLen = 0 := by
  rw [← CodeTree.flatten_records hc] at hn hfrom
  obtain ⟨j, r, tail, hj, htail, hlt, hcut⟩ := prefix_of_flatten T.records n hn
  have hrun := deserializeRun_cut (s := decompressStart s) hc (Nat.le_trans (CodeTree.expansions_take hc j) hcap)
    ((bitsFrom_decompressStart s).trans (hfrom.trans hcut)) hj htail hlt
  exact ⟨_, exec_decompress_fails hbits hrun, ⟨_, rfl, rfl, rfl, rfl, rfl, rfl, rfl⟩, rfl⟩

/-- A block whose bytes stand at the front of BLK. -/
theorem blockBytes_of_blkWritten {l : List Byte} {s t : State} (h : BlkWritten l s t) (hlen : t.blkLen.toNat = l.length) :
    blockBytes t = l := by
  apply List.ext_getElem
  · rw [blockBytes_length, hlen]
  · intro j _ hj
    simpa [blockBytes] using h.1 j hj

/-- DECOMPRESS of a header with at least two leaves and bits that decode to bytes that fit BLK (R125, R128). -/
theorem exec_decompress_node {s : State} {a b : CodeTree} {pay rest : List Bool} {codes : List (List Bool)}
    {bytes : List Byte} (hbits : s.bitsLen.toNat ≤ s.params.bitsMax) (hc : (CodeTree.node a b).complete = true)
    (hcap : (CodeTree.node a b).size ≤ s.params.nodeCap)
    (hfrom : bitsFrom { s with cursor := 0 } = (CodeTree.node a b).header ++ pay)
    (hd : (CodeTree.node a b).Decoding pay codes bytes rest) (hfit : bytes.length ≤ s.params.blockMax) :
    ∃ u, exec .decompress s = .next u ∧ u.err = false ∧ blockBytes u = bytes ∧ u.tailBits.toNat = rest.length := by
  obtain ⟨t, hT, hpay, ht, hexec⟩ := exec_decompress_header hbits hc hcap hfrom
  have hparams : t.params = s.params := by rw [ht]; rfl
  have hblk := blockMax_lt s
  obtain ⟨codes', bytes', rest', hd', hrun, -⟩ := decodeRun_node hT hc
  rw [hpay] at hd'
  obtain ⟨-, rfl, rfl⟩ := CodeTree.decoding_unique hd hd'
  have hrest : rest.length < 2 ^ 32 := by
    have hleft := bitsLeft_lt t
    rw [← bitsFrom_length, hpay, hd.1, List.length_append] at hleft
    omega
  refine ⟨_, hexec _ (hrun (hparams ▸ hfit)), by rw [ht]; rfl, ?_, ofNat_toNat_word hrest⟩
  exact blockBytes_of_blkWritten (s := t) (blkWritten_of rfl rfl) (ofNat_toNat_word (by omega))

/-- Settles O47: below the header the deserializer is cut off; from there on only whole codes of the payload are decoded. -/
theorem truncationHandling : Obligations.TruncationHandling := by
  rintro s t n B T rfl rfl hx herr hn
  obtain ⟨h0, h1, p, hp, hfit, rfl⟩ := compress_output hx herr
  obtain ⟨hc, hvalues, hsize⟩ := CodeTree.huffman_spec s h0
  generalize CodeTree.huffman (blockBytes s) = T at *
  have hlen : (T.header ++ p).length ≤ s.params.bitsMax := by simpa using hfit
  obtain ⟨hout, hparams, -⟩ := afterCompress_effect T.header.length h0 hlen
  have hbitsLen : (afterCompress (T.header ++ p) T.header.length s).bitsLen.toNat = T.header.length + p.length := by
    simpa using hout.1
  have hhdr : (afterCompress (T.header ++ p) T.header.length s).hdrLen.toNat = T.header.length :=
    ofNat_toNat_word (by have := bitsMax_lt s; omega)
  have hfrom := bitsFrom_of_bitsAppended hout (n := n) (by simpa using hbitsLen ▸ hn)
  rw [hhdr]
  generalize afterCompress (T.header ++ p) T.header.length s = t at *
  have hmax : n.toNat ≤ t.params.bitsMax := by rw [hparams]; omega
  have hcap : T.size ≤ t.params.nodeCap := Nat.le_trans hsize t.params.nodeCap_range.1
  by_cases hcut : n.toNat < T.header.length
  · rw [List.take_append_of_le_length (Nat.le_of_lt hcut)] at hfrom
    obtain ⟨u, hu, herr, hblk⟩ := exec_decompress_cut (s := { t with bitsLen := n }) hmax hc hcap hcut hfrom
    exact ⟨u, hu, fun _ => ⟨herr, hblk⟩, fun h => absurd hcut (Nat.not_lt.mpr h)⟩
  · have hle := Nat.not_lt.mp hcut
    rw [List.take_append, List.take_of_length_le hle] at hfrom
    cases T with
    | unset => cases hc
    | leaf v =>
      obtain ⟨u, hu, -⟩ := exec_decompress_leaf (s := { t with bitsLen := n }) hmax hfrom
      refine ⟨u, hu, fun h => absurd h hcut, fun _ h2 => ?_⟩
      rw [← hvalues.length_eq] at h2
      exact absurd h2 (by simp [CodeTree.values])
    | node a b =>
      obtain ⟨codes, m, rest, q, hd, hq, hsplit, hm, hnext, hwhole, huncut⟩ := payload_prefix_decoding hp
        (n.toNat - (CodeTree.node a b).header.length) (by omega)
      obtain ⟨u, hu, hok, hblock, htail⟩ := exec_decompress_node (s := { t with bitsLen := n }) hmax hc hcap hfrom hd (by
        show _ ≤ t.params.blockMax
        rw [hparams, List.length_take, blockBytes_length]
        omega)
      refine ⟨u, hu, fun h => absurd h hcut, fun _ _ => ⟨hok, m, q, hm, hblock, hq, by omega, fun h => ?_, fun h => ?_,
        fun h => huncut ?_⟩⟩
      · rw [htail]
        exact hnext h
      · rw [hwhole h] at htail
        exact BitVec.eq_of_toNat_eq htail
      · rw [h, hbitsLen]
        omega

end Sys2Proof
end

section
/-! Scope: the tree commands TINIT, TLEAF and TEXPAND, and how they move the pending stack. -/

namespace Sys2Proof

open Sys2Proof.Machine

/-! ### What the tree commands share -/

/-- What a tree command leaves alone (R95, R96, R97): it writes the control registers, the arena, NODE_CNT and ROOT only. -/
theorem treeCommand_frame {s t : State} {changed : List Reg} (h : t = { s with
      cmd := t.cmd, busy := t.busy, done := t.done, err := t.err, stickyErr := t.stickyErr, errCode := t.errCode
      errInfo := t.errInfo, nodes := t.nodes, nodeCnt := t.nodeCnt, root := t.root })
    (hframe : frameRegs ++ [.pend] ⊆ changed) (hcnt : Reg.nodeCnt ∈ changed ∨ t.nodeCnt = s.nodeCnt)
    (hroot : Reg.root ∈ changed ∨ t.root = s.root) :
    SameRegs changed s t ∧ SameBlk s t ∧ SameBits s t ∧ SameSurroundings s t := by
  have hregs : SameRegs changed s t := by
    refine sameRegs_intro (.inl (hframe (by decide))) (hframe (by decide)) (.inl (hframe (by decide)))
      (.inl (hframe (by decide))) ?_ ?_ ?_ ?_ hcnt hroot (.inl (hframe (by decide))) ?_ ?_ ?_ ?_ <;> rw [h] <;> simp
  rw [h] at hregs ⊢
  exact ⟨hregs, fun _ => rfl, fun _ => rfl, rfl, rfl, rfl, rfl, rfl⟩

/-- Where a node is pending there is a tree. -/
theorem nodeCnt_ne_of_pending {s : State} {p : NodeIdx} (hp : findPending s = some p) : s.nodeCnt ≠ 0 := fun h0 => by
  simp [findPending_noTree h0] at hp

/-- A command that acts on the pending node raises NoTree without a tree, and NoPending when no node is pending (R135,
R136). -/
theorem onPending_errors {i : Instr} {act : NodeIdx → State → BodyResult} {s : State}
    (hx : exec i s = .next (runFrame (wordOf i) (guarded [checkTree] (onPending act)) s)) :
    (s.nodeCnt = 0 → EndsErrored i s .noTree 0) ∧
      (s.nodeCnt ≠ 0 → findPending s = none → EndsErrored i s .noPending 0) := by
  refine ⟨fun h0 => ?_, fun h0 hnone => ?_⟩
  · exact endsErrored_of_body hx (guarded_some (by simp [firstError, checkTree_some h0]))
  · refine endsErrored_of_body hx ((guarded_none (by simp [firstError, checkTree_none h0])).trans ?_)
    simp only [onPending, findPending_beginCommand, hnone]

/-- Such a command with a pending node does its action on that node (R96, R97). -/
theorem guarded_onPending {act : NodeIdx → State → BodyResult} {s : State} {p : NodeIdx} (w : Word)
    (hp : findPending s = some p) :
    guarded [checkTree] (onPending act) (beginCommand w s) = act p (beginCommand w s) := by
  rw [guarded_none (by simp [firstError, checkTree_none (nodeCnt_ne_of_pending hp)])]
  simp only [onPending, findPending_beginCommand, hp]

/-! ### TINIT (R95) -/

/-- The state after TINIT. -/
def afterTinit (s : State) : State := endCommand (treeInit (beginCommand 0x00000010 s))

theorem exec_tinit (s : State) : exec .tinit s = .next (afterTinit s) := rfl

theorem node_afterTinit (s : State) (n : Nat) : (afterTinit s).node n = if n = 0 then .unset else .free :=
  node_treeInit s n

theorem holdsTree_afterTinit (s : State) : HoldsTree (afterTinit s) .unset := holdsTree_endCommand (holdsTree_treeInit _)

/-- TINIT makes the pending stack `[0]` (R94). -/
theorem pendingStack_afterTinit (s : State) : pendingStack (afterTinit s) = [0] := by
  obtain ⟨fuel, hfuel⟩ : ∃ k, (afterTinit s).params.nodeCap = k + 1 :=
    ⟨(afterTinit s).params.nodeCap - 1, by have := (afterTinit s).params.nodeCap_range.1; omega⟩
  have hcnt : (afterTinit s).nodeCnt ≠ 0 := holdsTree_nodeCnt_ne (holdsTree_afterTinit s)
  have hroot : (afterTinit s).node (0 : NodeIdx).toNat = .unset := node_afterTinit s 0
  rw [pendingStack, if_neg hcnt, hfuel]
  show pendingUnder (afterTinit s) (fuel + 1) 0 = [0]
  simp only [pendingUnder, hroot]

/-- After TINIT the root is pending. -/
theorem findPending_afterTinit (s : State) : findPending (afterTinit s) = some 0 := by
  rw [findPending_head, pendingStack_afterTinit, List.head?_cons]

/-- Settles O19: the derived flags are those of the tree of one UNSET node, whose root is pending. -/
theorem tinitEffect : Obligations.TinitEffect := by
  intro s
  have hT := holdsTree_afterTinit s
  refine ⟨_, exec_tinit s, completed_end _ _ _ rfl, rfl, rfl, node_afterTinit s, ?_, ?_, ?_, ?_, rfl,
    treeCommand_frame rfl (by decide) (.inl (by decide)) (.inl (by decide))⟩
  · simp [State.readReg, pendWord, findPending_afterTinit]
  · exact (treePresent_iff _).mpr (holdsTree_nodeCnt_ne hT)
  · exact Bool.eq_false_iff.mpr fun h => absurd ((treeComplete_holdsTree hT).mp h) (by decide)
  · exact Bool.eq_false_iff.mpr fun h => by obtain ⟨v, hv⟩ := (treeSingle_holdsTree hT).mp h; cases hv

/-! ### TLEAF (R96) -/

/-- The state after TLEAF `v` with pending node `p`. -/
def afterTleaf (v : Byte) (p : NodeIdx) (s : State) : State :=
  endCommand (makeLeaf p v (beginCommand (commandWord 0x11 v) s))

theorem exec_tleaf {s : State} {p : NodeIdx} (v : Byte) (hp : findPending s = some p) :
    exec (.tleaf v) s = .next (afterTleaf v p s) :=
  exec_completed (body := tleafBody v) rfl (guarded_onPending _ hp)

theorem node_afterTleaf (v : Byte) (p : NodeIdx) (s : State) (n : Nat) :
    (afterTleaf v p s).node n = if n = p.toNat then .leaf v else s.node n :=
  node_makeLeaf (beginCommand (commandWord 0x11 v) s) p v n

/-- TLEAF fills the tree's pending node with a leaf and pops the pending stack (R94, R96). -/
theorem holdsTree_afterTleaf {s : State} {T : CodeTree} {p : NodeIdx} (v : Byte) (h : HoldsTree s T)
    (hp : findPending s = some p) :
    HoldsTree (afterTleaf v p s) (CodeTree.fillFirst (.leaf v) T) ∧
      pendingStack (afterTleaf v p s) = (pendingStack s).tail :=
  holdsTree_makeLeaf h hp (node_afterTleaf v p s) rfl rfl rfl

/-- TLEAF on the last UNSET node completes the tree (R41). -/
theorem treeComplete_afterTleaf {s : State} {p : NodeIdx} (v : Byte) (hok : ArenaOk s) (hp : findPending s = some p)
    (hlast : ∀ n, s.node n = .unset → n = p.toNat) : treeComplete (afterTleaf v p s) = true := by
  obtain ⟨T, hT⟩ := arenaOk_pending hok hp
  have hT' := (holdsTree_afterTleaf v hT hp).1
  refine (treeComplete_holdsTree hT').mpr ((holdsTree_complete_iff hT').mpr fun n hn => ?_)
  rw [node_afterTleaf] at hn
  split at hn
  · cases hn
  · exact absurd (hlast n hn) ‹_›

/-- Settles O20: the errors of acting on the pending node, and otherwise `make_leaf` on it. -/
theorem tleafEffect : Obligations.TleafEffect := by
  intro v s
  obtain ⟨hnoTree, hnoPending⟩ := onPending_errors (i := .tleaf v) (s := s) rfl
  refine ⟨hnoTree, hnoPending, fun p hp => ⟨_, exec_tleaf v hp, completed_end _ _ _ rfl, node_afterTleaf v p s,
    fun hok => treeComplete_afterTleaf v hok hp, fun hroot => ?_,
    treeCommand_frame rfl (by decide) (.inr rfl) (.inr rfl)⟩⟩
  have hcnt : (afterTleaf v p s).nodeCnt ≠ 0 := nodeCnt_ne_of_pending (s := s) hp
  exact (treeSingle_iff _).mpr ⟨hcnt, v, (node_afterTleaf v p s _).trans (if_pos (by rw [hroot]; rfl))⟩

/-! ### TEXPAND (R97) -/

/-- TEXPAND when two entries are free: the pending node becomes internal, and its children are the next two entries, which
take its place on the pending stack (R92, R94). -/
theorem exec_texpand_fits {s : State} {p : NodeIdx} (hp : findPending s = some p)
    (hcap : s.nodeCnt.toNat + 2 ≤ s.params.nodeCap) :
    ∃ t z o, exec .texpand s = .next t ∧ z.toNat = s.nodeCnt.toNat ∧ o.toNat = s.nodeCnt.toNat + 1 ∧
      t = { endCommand (beginCommand 0x00000012 s) with nodes := t.nodes, nodeCnt := t.nodeCnt } ∧
      t.nodeCnt.toNat = s.nodeCnt.toNat + 2 ∧
      (∀ m, t.node m =
        if m = p.toNat then .internal z o
        else if m = s.nodeCnt.toNat ∨ m = s.nodeCnt.toNat + 1 then .unset else s.node m) ∧
      ∀ T, HoldsTree s T → pendingStack t = z :: o :: (pendingStack s).tail := by
  obtain ⟨u, z, o, he, hz, ho, hu, hcnt, hnode⟩ := expand_fits p (beginCommand (wordOf .texpand) s) hcap
  have hbody : texpandBody (beginCommand (wordOf .texpand) s) = .completed u := by
    rw [texpandBody, guarded_onPending _ hp]
    simp only [expandOrRaise, he]
  exact ⟨endCommand u, z, o, exec_completed (body := texpandBody) rfl hbody, hz, ho, by rw [hu]; rfl, hcnt, hnode,
    fun T hT => (holdsTree_expand (t := endCommand u) hT hp hnode hz ho (by rw [hu]; rfl) hcnt (by rw [hu]; rfl) hcap).2⟩

/-- TEXPAND when fewer than two entries are free (R97, R144). -/
theorem texpand_endsErrored {s : State} {p : NodeIdx} (hp : findPending s = some p)
    (hfull : s.params.nodeCap < s.nodeCnt.toNat + 2) : EndsErrored .texpand s .treeOverflow s.nodeCnt := by
  refine endsErrored_of_body (body := texpandBody) rfl ((guarded_onPending _ hp).trans ?_)
  simp only [expandOrRaise, expand_full p (beginCommand (wordOf .texpand) s) hfull, beginCommand_nodeCnt]

/-- Settles O21: the errors of acting on the pending node, TreeOverflow, and otherwise `expand` on it. -/
theorem texpandEffect : Obligations.TexpandEffect := by
  intro s
  obtain ⟨hnoTree, hnoPending⟩ := onPending_errors (i := .texpand) (s := s) rfl
  refine ⟨hnoTree, hnoPending, fun p hp hfull => texpand_endsErrored hp hfull, fun p hp hcap => ?_⟩
  obtain ⟨t, z, o, hx, hz, ho, ht, hcnt, hnode, hstack⟩ := exec_texpand_fits hp hcap
  have hpending : ArenaOk s → findPending t = some z := by
    intro hok
    obtain ⟨T, hT⟩ := arenaOk_pending hok hp
    rw [findPending_head, hstack T hT, List.head?_cons]
  refine ⟨t, z, o, hx, ?_, hz, ho, hcnt, fun n => by rw [hnode, hz, ho], hpending,
    treeCommand_frame (by rw [ht]; rfl) (by decide) (.inl (by decide)) (.inr (by rw [ht]; rfl))⟩
  rw [ht]
  exact ⟨rfl, rfl, rfl, rfl, rfl, rfl, rfl⟩

/-! ### The pending stack (R94) -/

/-- A pending stack that is not empty has the pending node on top. -/
theorem findPending_of_stack {s : State} {p : NodeIdx} {rest : List NodeIdx} (h : pendingStack s = p :: rest) :
    findPending s = some p := by
  rw [findPending_head, h, List.head?_cons]

/-- Settles O24: the head and the members of the stack, then each tree command's own move. -/
theorem pendingStack_spec : Obligations.PendingStack := by
  intro s T hT
  refine ⟨findPending_head s, mem_pendingStack hT, fun t hx => ?_, fun v t p rest hstack hx => ?_,
    fun t p rest hstack hcap hx => ?_⟩
  · rw [exec_tinit] at hx
    cases hx
    exact pendingStack_afterTinit s
  · have hp := findPending_of_stack hstack
    rw [exec_tleaf v hp] at hx
    cases hx
    rw [(holdsTree_afterTleaf v hT hp).2, hstack, List.tail_cons]
  · obtain ⟨u, z, o, hu, hz, ho, -, -, -, hmove⟩ := exec_texpand_fits (findPending_of_stack hstack) hcap
    rw [hu] at hx
    cases hx
    rw [hmove T hT, hstack, List.tail_cons, ← ho, ← hz]
    simp only [BitVec.ofNat_toNat, BitVec.setWidth_eq]

end Sys2Proof
end

section
/-! Scope: DESERIALIZE of the header of a tree that fits, and of one whose records do not; and that SERIALIZE and DESERIALIZE
are each other's inverse. -/

namespace Sys2Proof

open Sys2Proof.Machine

/-! ### DESERIALIZE of a header (R105) -/

/-- DESERIALIZE of bits that start with the header of a tree that fits: its body reads exactly the header and leaves the tree
(R105). -/
theorem exec_deserialize_header {s : State} {T : CodeTree} {rest : List Bool} (hbits : s.bitsLen.toNat ≤ s.params.bitsMax)
    (hcur : s.cursor.toNat ≤ s.bitsLen.toNat) (hc : T.complete = true) (hcap : T.size ≤ s.params.nodeCap)
    (hfrom : bitsFrom s = T.header ++ rest) :
    ∃ u, exec .deserialize s = .next (endCommand u) ∧ HoldsTree u T ∧
      u = { advance T.header.length (beginCommand 0x00000021 s) with
        nodes := u.nodes, nodeCnt := u.nodeCnt, root := 0, hdrLen := BitVec.ofNat 32 T.header.length } := by
  obtain ⟨u, hrun, hu, hT⟩ := deserializeRun_header (s := beginCommand (wordOf .deserialize) s) hc hcap
    ((bitsFrom_beginCommand _ s).trans hfrom)
  exact ⟨u, exec_completed (body := deserializeBody) rfl ((deserializeBody_run hbits hcur).trans hrun), hT, hu⟩

/-- Settles O26: `deserialize_body` on the header, inside the frame; the derived flags are those of the tree it leaves. -/
theorem deserializeBuilds : Obligations.DeserializeBuilds := by
  intro s T rest hbits hcur hc hcap hfrom
  obtain ⟨u, hx, hu, hform⟩ := exec_deserialize_header hbits hcur hc hcap hfrom
  have hT := holdsTree_endCommand hu
  have hle : T.header.length ≤ bitsLeft s := by
    rw [← bitsFrom_length, hfrom, List.length_append]
    exact Nat.le_add_right _ _
  obtain ⟨hframe, hend, hroot, hhdr, hcursor⟩ := headerRead_effect (s := s) hle hform
  exact ⟨_, hx, hend, hT, hroot, hcursor, hhdr, (treePresent_iff _).mpr (holdsTree_nodeCnt_ne hT),
    (treeComplete_holdsTree hT).mpr hc, tailPresent_congr (by rw [hform]; rfl), hframe⟩

/-- Settles O29: `deserialize_body` on the record that does not fit, behind its checks. -/
theorem deserializeOverflows : Obligations.DeserializeOverflows := by
  intro s T j rest hbits hcur hc hj hfrom hcap hover
  have hrun := deserializeRun_overflow (s := beginCommand (wordOf .deserialize) s) hc hj
    ((bitsFrom_beginCommand _ s).trans hfrom) hcap hover
  obtain ⟨hframe, hnone, hhdr, hcursor, herr⟩ := afterHeaderFail_effect 0x00000021 .treeOverflow
    (BitVec.ofNat 32 s.params.nodeCap) (T.records.take (j + 1)).flatten.length s
  exact ⟨_, exec_deserialize_fails hbits hcur hrun, herr, hnone, hhdr, hcursor, hframe⟩

/-! ### Header and tree, there and back (R109) -/

/-- SERIALIZE into an empty bit sequence puts out the header of the tree and counts its bits (R101). -/
theorem exec_serialize_empty {s : State} {T : CodeTree} (hT : HoldsTree s T) (hc : T.complete = true)
    (hfit : T.header.length ≤ s.params.bitsMax) :
    ∃ t, exec .serialize { s with bitsLen := 0 } = .next t ∧ t.err = false ∧
      BitsAppended T.header { s with bitsLen := 0 } t ∧ t.bitsLen.toNat = T.header.length ∧
      t.hdrLen.toNat = T.header.length ∧ t.params = s.params := by
  have hlen := header_length_holdsTree hT hc
  obtain ⟨-, -, -, -, hfits⟩ := serializeEffect { s with bitsLen := 0 }
  obtain ⟨t, hx, ⟨-, -, -, herr, -⟩, hout, hhdr, -, -, -, -, hparams, -⟩ :=
    hfits T (holdsTree_congr hT (fun _ => rfl) rfl rfl rfl) hc (by
      show 0 + 5 * s.nodeCnt.toNat + 4 ≤ s.params.bitsMax
      omega)
  exact ⟨t, hx, herr, hout, hout.1.trans (Nat.zero_add _), hhdr.trans hlen.symm, hparams⟩

/-- R109(a): the header of a tree, deserialized, gives the tree again. -/
theorem deserialize_serialize {s : State} {T : CodeTree} (hT : HoldsTree s T) (hc : T.complete = true)
    (hfit : T.header.length ≤ s.params.bitsMax) :
    ∃ t u, exec .serialize { s with bitsLen := 0 } = .next t ∧ t.err = false ∧
      exec .deserialize { t with cursor := 0 } = .next u ∧ u.err = false ∧ HoldsTree u T ∧
      u.cursor.toNat = T.header.length ∧ u.hdrLen = u.cursor ∧ u.bitsLen = u.cursor := by
  obtain ⟨t, hxt, herrt, hout, hbitsLen, -, hparams⟩ := exec_serialize_empty hT hc hfit
  have hcap : T.size ≤ t.params.nodeCap := by
    rw [holdsTree_size hT, hparams]
    exact hT.2.2
  obtain ⟨u, hxu, ⟨-, -, -, herru, -⟩, hTu, -, hcursor, hhdr, -, -, -, hregs, -⟩ :=
    deserializeBuilds { t with cursor := 0 } T [] (by rw [hbitsLen, hparams]; exact hfit) (Nat.zero_le _) hc hcap
      ((bitsFrom_of_output hout).trans (List.append_nil _).symm)
  have hcur : u.cursor.toNat = T.header.length := hcursor.trans (Nat.zero_add _)
  have hsame : u.bitsLen = t.bitsLen := hregs .bitsLen (by decide)
  exact ⟨t, u, hxt, herrt, hxu, herru, hTu, hcur, BitVec.eq_of_toNat_eq (hhdr.trans hcur.symm),
    BitVec.eq_of_toNat_eq (by rw [hsame, hbitsLen, hcur])⟩

/-- A command that ended without an error did not end errored. -/
theorem not_endsErrored {i : Instr} {s t : State} {e : Err} {info : Word} (hx : exec i s = .next t) (herr : t.err = false) :
    ¬ EndsErrored i s e info := by
  rintro ⟨u, hu, ⟨-, -, -, hut, -⟩, -⟩
  rw [hx] at hu
  cases hu
  rw [herr] at hut
  cases hut

/-- DESERIALIZE ends errored at the first of its checks that finds an error (R105, R145). -/
theorem deserialize_endsErrored {s : State} {e : Err} {info : Word}
    (h : firstError [checkBitsLen s, checkCursor s] = some (e, info)) : EndsErrored .deserialize s e info :=
  endsErrored_of_body (body := deserializeBody) rfl (guarded_some (by simpa using h))

/-- A DESERIALIZE that ended without an error had its lengths in order (R143). -/
theorem deserialize_lengths {s t : State} (hx : exec .deserialize s = .next t) (herr : t.err = false) :
    s.bitsLen.toNat ≤ s.params.bitsMax ∧ s.cursor.toNat ≤ s.bitsLen.toNat := by
  have hpass : ∀ info, firstError [checkBitsLen s, checkCursor s] ≠ some (.badLength, info) := fun info h =>
    not_endsErrored hx herr (deserialize_endsErrored h)
  have hbits : s.bitsLen.toNat ≤ s.params.bitsMax := by
    by_contra hcon
    exact hpass 2 (by simp [firstError, checkBitsLen_some (Nat.not_le.mp hcon)])
  refine ⟨hbits, ?_⟩
  by_contra hcon
  exact hpass 3 (by simp [firstError, checkBitsLen_none hbits, checkCursor_some (Nat.not_le.mp hcon)])

/-- A DESERIALIZE that ended without an error left a complete tree, and what it read is the header of that tree (R105,
R109). -/
theorem deserialize_output {s t : State} (hx : exec .deserialize s = .next t) (herr : t.err = false) :
    ∃ T, T.complete = true ∧ HoldsTree t T ∧ t.hdrLen.toNat = T.header.length ∧ T.header.length ≤ t.params.bitsMax ∧
      (bitsFrom s).take T.header.length = T.header := by
  obtain ⟨hbits, hcur⟩ := deserialize_lengths hx herr
  obtain ⟨u, hu, -, -, -, ⟨hparams, -⟩, hend⟩ := deserializeAnyBits s hbits hcur
  rw [hx] at hu
  cases hu
  rcases hend with ⟨T, -, hc, hT, -, hhdr, -, hle, htake⟩ | ⟨-, -, -, info, -, -, -, herr', -⟩ |
    ⟨-, -, -, -, -, -, -, herr', -⟩
  · refine ⟨T, hc, hT, hhdr, ?_, htake⟩
    rw [hparams]
    exact hle.trans ((Nat.sub_le _ _).trans hbits)
  all_goals
    rw [herr] at herr'
    cases herr'

/-- The bits of a list that stands at the front of those still to be read. -/
theorem bit_of_bitsFrom_take {s : State} {l : List Bool} (h : (bitsFrom s).take l.length = l) (k : Nat) (hk : k < l.length) :
    s.bit (s.cursor.toNat + k) = l[k] := by
  have hget : (bitsFrom s)[k]? = l[k]? := by
    rw [← List.getElem?_take_of_lt hk, h]
  obtain ⟨hlt, heq⟩ := List.getElem?_eq_some_iff.mp (hget.trans (List.getElem?_eq_getElem hk))
  simpa [bitsFrom] using heq

/-- R109(b): the tree that was read, serialized, gives the bits that were read. -/
theorem serialize_deserialize {s t : State} (hx : exec .deserialize s = .next t) (herr : t.err = false) :
    ∃ u, exec .serialize { t with bitsLen := 0 } = .next u ∧ u.err = false ∧ u.bitsLen = t.hdrLen ∧
      u.hdrLen = t.hdrLen ∧ ∀ k, k < t.hdrLen.toNat → u.bit k = s.bit (s.cursor.toNat + k) := by
  obtain ⟨T, hc, hT, hhdr, hfit, htake⟩ := deserialize_output hx herr
  obtain ⟨u, hxu, herru, ⟨-, hout, -⟩, hbitsLen, hhdru, -⟩ := exec_serialize_empty hT hc hfit
  refine ⟨u, hxu, herru, BitVec.eq_of_toNat_eq (hbitsLen.trans hhdr.symm), BitVec.eq_of_toNat_eq (hhdru.trans hhdr.symm),
    fun k hk => ?_⟩
  rw [hhdr] at hk
  calc
    u.bit k = T.header[k] := (congrArg u.bit (Nat.zero_add k).symm).trans (hout k hk)
    _ = s.bit (s.cursor.toNat + k) := (bit_of_bitsFrom_take htake k hk).symm

/-- Settles O30: the two directions of R109. -/
theorem headerInverse : Obligations.HeaderInverse := by
  refine ⟨fun s T hT hc hfit => ?_, fun s t hx herr => serialize_deserialize hx herr⟩
  rw [← header_length_holdsTree hT hc] at hfit ⊢
  exact deserialize_serialize hT hc hfit

end Sys2Proof
end

section
/-! Scope: the builder's count and its worklist; BUILD of a block, and COMPRESS with its tree, its output and its overflow. -/

namespace Sys2Proof

open Sys2Proof.Machine

/-! ### The count and the worklist (R110, R112, R116) -/

/-- There is one count for each distinct value (R110). -/
theorem countBytes_length (block : List Byte) : (countBytes block).length = block.eraseDups.length := by
  rw [countBytes_eq, List.length_map]

/-- Settles O32: the count in closed form, whose length and sum are those of the distinct values. -/
theorem countRule : Obligations.CountRule := by
  intro block
  refine ⟨countBytes_eq block, fun hne => ?_, ?_, ?_⟩
  · rw [countBytes_length]
    exact eraseDups_length_pos hne
  · rw [countBytes_length]
    exact eraseDups_length_le block
  · rw [countBytes_eq, List.map_map]
    exact sum_count_eraseDups block

/-- An insertion keeps a worklist sorted by weight (R112). -/
theorem wlInsert_weight_sorted (e : WorkEntry) {wl : List WorkEntry} (h : wl.Pairwise (fun x y => x.weight ≤ y.weight)) :
    (wlInsert e wl).Pairwise (fun x y => x.weight ≤ y.weight) := by
  induction wl with
  | nil => exact List.pairwise_singleton _ e
  | cons x rest ih =>
    obtain ⟨hx, hrest⟩ := List.pairwise_cons.mp h
    simp only [wlInsert]
    split
    case isTrue hle =>
      refine List.pairwise_cons.mpr ⟨fun y hy => ?_, ih hrest⟩
      rcases List.mem_cons.mp ((wlInsert_perm e rest).mem_iff.mp hy) with rfl | hy
      · exact hle
      · exact hx y hy
    case isFalse hgt =>
      refine List.pairwise_cons.mpr ⟨List.forall_mem_cons.mpr ⟨by omega, fun y hy => ?_⟩, h⟩
      have := hx y hy
      omega

/-- In a worklist sorted by weight an entry goes after all of weight at most its own, and before all others (R112). -/
theorem wlInsert_eq_filter (e : WorkEntry) {wl : List WorkEntry} (h : wl.Pairwise (fun x y => x.weight ≤ y.weight)) :
    wlInsert e wl =
      wl.filter (fun x => x.weight ≤ e.weight) ++ e :: wl.filter (fun x => e.weight < x.weight) := by
  induction wl with
  | nil => rfl
  | cons x rest ih =>
    obtain ⟨hx, hrest⟩ := List.pairwise_cons.mp h
    by_cases hle : x.weight ≤ e.weight
    · simp [wlInsert, hle, Nat.not_lt.mpr hle, ih hrest]
    · have hgt : ∀ y ∈ x :: rest, e.weight < y.weight :=
        List.forall_mem_cons.mpr ⟨Nat.not_le.mp hle, fun y hy => Nat.lt_of_lt_of_le (Nat.not_le.mp hle) (hx y hy)⟩
      have hnone : (x :: rest).filter (fun y => decide (y.weight ≤ e.weight)) = [] :=
        List.filter_eq_nil_iff.mpr (fun y hy => by simpa using hgt y hy)
      have hall : (x :: rest).filter (fun y => decide (e.weight < y.weight)) = x :: rest :=
        List.filter_eq_self.mpr (fun y hy => decide_eq_true (hgt y hy))
      rw [hnone, hall, wlInsert, if_neg hle, List.nil_append]

/-- Settles O33: the entry's place, and that the order is kept. -/
theorem worklistInsertion : Obligations.WorklistInsertion := fun e _ h =>
  ⟨wlInsert_eq_filter e h, wlInsert_weight_sorted e h⟩

/-- Settles O34: the leaves and any number of merges keep the worklist in order. -/
theorem worklistOrder : Obligations.WorklistOrder := by
  rintro s n hne formed merged rfl rfl
  exact worklist_spec s n hne

/-! ### The tree of a block in the arena (R114) -/

/-- The arena holds the Huffman tree of the block as `build_body` lays it out: leaves first in first-encounter order, the root
last, and SYM_CNT counts the leaves (R114). -/
structure HoldsBlockTree (t : State) (B : List Byte) : Prop where
  tree : HoldsTree t (CodeTree.huffman B)
  symCnt : t.symCnt.toNat = B.eraseDups.length
  nodeCnt : t.nodeCnt.toNat = 2 * B.eraseDups.length - 1
  root : t.root.toNat = 2 * B.eraseDups.length - 2
  leaves : ∀ (j : Nat) (h : j < B.eraseDups.length), t.node j = .leaf B.eraseDups[j]

/-- `build_body` puts the tree of the block into the arena. -/
theorem buildRun_holdsBlockTree {s : State} (hne : blockBytes s ≠ []) : HoldsBlockTree (buildRun s) (blockBytes s) := by
  obtain ⟨htree, -, -, hcnt, hroot, hleaves, hframe⟩ := buildRun_spec s hne
  refine ⟨htree, ?_, hcnt, hroot, hleaves⟩
  have hle := eraseDups_length_le (blockBytes s)
  rw [hframe]
  exact ofNat_toNat_word (by omega)

/-- What else a state holds has no part in it. -/
theorem HoldsBlockTree.congr {s t : State} {B : List Byte} (h : HoldsBlockTree s B) (hnodes : t.nodes = s.nodes)
    (hcnt : t.nodeCnt = s.nodeCnt) (hroot : t.root = s.root) (hsym : t.symCnt = s.symCnt) (hparams : t.params = s.params) :
    HoldsBlockTree t B where
  tree := holdsTree_congr h.tree (node_congr hnodes) hroot hcnt hparams
  symCnt := hsym ▸ h.symCnt
  nodeCnt := hcnt ▸ h.nodeCnt
  root := hroot ▸ h.root
  leaves j hj := (node_congr hnodes j).trans (h.leaves j hj)

/-- What a command leaves alone that writes the control registers, the arena, SYM_CNT, BITS_LEN, HDR_LEN and BITS only
(R115, R127). -/
theorem builder_frame {s t : State} {changed : List Reg} (h : t = { s with
      cmd := t.cmd, busy := t.busy, done := t.done, err := t.err, stickyErr := t.stickyErr, errCode := t.errCode
      errInfo := t.errInfo, nodes := t.nodes, nodeCnt := t.nodeCnt, root := t.root, symCnt := t.symCnt
      bitsLen := t.bitsLen, hdrLen := t.hdrLen, bits := t.bits })
    (hframe : frameRegs ++ treeRegs ++ [.symCnt] ⊆ changed) (hbits : Reg.bitsLen ∈ changed ∨ t.bitsLen = s.bitsLen)
    (hhdr : Reg.hdrLen ∈ changed ∨ t.hdrLen = s.hdrLen) :
    tailPresent t = tailPresent s ∧ SameRegs changed s t ∧ SameBlk s t ∧ SameSurroundings s t := by
  have hregs : SameRegs changed s t := by
    refine sameRegs_intro (.inl (hframe (by decide))) (hframe (by decide)) (.inl (hframe (by decide)))
      (.inl (hframe (by decide))) ?_ hbits ?_ hhdr (.inl (hframe (by decide))) (.inl (hframe (by decide)))
      (.inl (hframe (by decide))) (.inl (hframe (by decide))) ?_ ?_ ?_ <;> rw [h] <;> simp
  rw [h] at hregs ⊢
  exact ⟨rfl, hregs, fun _ => rfl, rfl, rfl, rfl, rfl, rfl⟩

/-! ### BUILD (R115) -/

/-- The state after BUILD of a legal non-empty block. -/
def afterBuild (s : State) : State := endCommand (buildRun (beginCommand 0x00000030 s))

theorem exec_build {s : State} (h0 : s.blkLen ≠ 0) (h1 : s.blkLen.toNat ≤ s.params.blockMax) :
    exec .build s = .next (afterBuild s) :=
  exec_completed (body := buildBody) rfl (buildBody_run h0 h1)

/-- BUILD ends completed with the tree of the block, and writes the control registers, the arena and SYM_CNT only (R115). -/
theorem afterBuild_effect {s : State} (h0 : s.blkLen ≠ 0) :
    HoldsBlockTree (afterBuild s) (blockBytes s) ∧ Completed 0x00000030 s (afterBuild s) ∧ SameBits s (afterBuild s) ∧
      tailPresent (afterBuild s) = tailPresent s ∧ SameRegs (frameRegs ++ treeRegs ++ [.symCnt]) s (afterBuild s) ∧
      SameBlk s (afterBuild s) ∧ SameSurroundings s (afterBuild s) := by
  have hne : blockBytes (beginCommand 0x00000030 s) ≠ [] := blockBytes_ne_nil h0
  have htree := buildRun_holdsBlockTree hne
  obtain ⟨-, -, -, -, -, -, hframe⟩ := buildRun_spec _ hne
  rw [blockBytes_beginCommand] at htree
  rw [afterBuild]
  generalize buildRun (beginCommand 0x00000030 s) = u at htree hframe
  refine ⟨htree.congr rfl rfl rfl rfl rfl, completed_end _ _ _ ?_, ?_,
    builder_frame ?_ (List.Subset.refl _) (.inr ?_) (.inr ?_)⟩ <;> rw [hframe]
  case refine_2 => exact fun _ => rfl
  all_goals rfl

/-- The tree of a block is one leaf exactly when the block has one byte value (R24, R74). -/
theorem CodeTree.huffman_leaf_iff {s : State} (h0 : s.blkLen ≠ 0) :
    (∃ v, CodeTree.huffman (blockBytes s) = .leaf v) ↔ (blockBytes s).eraseDups.length = 1 := by
  obtain ⟨hc, hvalues, -⟩ := CodeTree.huffman_spec s h0
  rw [← hvalues.length_eq]
  constructor
  · rintro ⟨v, hv⟩
    rw [hv]
    rfl
  · intro hone
    obtain ⟨v, hv⟩ := List.length_eq_one_iff.mp hone
    exact ⟨v, CodeTree.eq_leaf_of_values hc hv⟩

/-- Settles O35: `build_body` inside the frame; the derived flags are those of the tree it leaves. -/
theorem buildEffect : Obligations.BuildEffect := by
  rintro s h0 h1 _ rfl
  obtain ⟨hc, hvalues, -⟩ := CodeTree.huffman_spec s h0
  obtain ⟨⟨hT, hsym, hcnt, hroot, hleaves⟩, hend, hbits, htail, hregs, hblk, hsurr⟩ := afterBuild_effect h0
  exact ⟨_, exec_build h0 h1, hend, hT, hc, hvalues, hsym, hcnt, hroot, hleaves, (treeComplete_holdsTree hT).mpr hc,
    (treeSingle_holdsTree hT).trans (CodeTree.huffman_leaf_iff h0), htail, hregs, hblk, hbits, hsurr⟩

/-! ### COMPRESS (R127) -/

/-- Where the body of COMPRESS begins to build: inside the frame, BITS_LEN and HDR_LEN at 0 (R127). -/
def compressStart (s : State) : State := { beginCommand 0x00000050 s with bitsLen := 0, hdrLen := 0 }

theorem blockBytes_compressStart (s : State) : blockBytes (compressStart s) = blockBytes s := blockBytes_congr rfl rfl rfl

/-- The state that COMPRESS leaves when its output does not fit, `l` being the bits of it that were written (R127, R149). -/
def afterCompressOverflow (l : List Bool) (s : State) : State :=
  endCommand (errorEntry .bitsOverflow 0 { appended l (buildRun (compressStart s)) with bitsLen := 0, hdrLen := 0 })

/-- COMPRESS of a legal block whose header and payload do not fit (R127, R138). -/
theorem exec_compress_overflows {s : State} {p : List Bool} (h0 : s.blkLen ≠ 0) (h1 : s.blkLen.toNat ≤ s.params.blockMax)
    (hp : (CodeTree.huffman (blockBytes s)).payload (blockBytes s) = some p)
    (hover : s.params.bitsMax < (CodeTree.huffman (blockBytes s)).header.length + p.length) :
    exec .compress s =
      .next (afterCompressOverflow (((CodeTree.huffman (blockBytes s)).header ++ p).take s.params.bitsMax) s) := by
  obtain ⟨q, hq, -, hrun⟩ := compressRun_spec (s := beginCommand (wordOf .compress) s) (blockBytes_beginCommand _ s)
    (blockBytes_ne_nil h0)
  obtain rfl : p = q := Option.some.inj (hp.symm.trans hq)
  exact exec_raised (body := compressBody) rfl ((compressBody_run h0 h1).trans (hrun hover))

/-- COMPRESS builds on its start state, of which the arena and SYM_CNT change (R114). -/
theorem buildRun_compressStart {s : State} (h0 : s.blkLen ≠ 0) :
    HoldsBlockTree (buildRun (compressStart s)) (blockBytes s) ∧
      buildRun (compressStart s) = { compressStart s with
        nodes := (buildRun (compressStart s)).nodes, nodeCnt := (buildRun (compressStart s)).nodeCnt
        root := (buildRun (compressStart s)).root, symCnt := (buildRun (compressStart s)).symCnt } := by
  have hne : blockBytes (compressStart s) ≠ [] := blockBytes_compressStart s ▸ blockBytes_ne_nil h0
  have htree := buildRun_holdsBlockTree hne
  obtain ⟨-, -, -, -, -, -, hframe⟩ := buildRun_spec _ hne
  rw [blockBytes_compressStart] at htree
  refine ⟨htree, ?_⟩
  generalize buildRun (compressStart s) = u at hframe ⊢
  rw [hframe]

/-- `t` is `u` but for what the output of COMPRESS and its end write: BITS, BITS_LEN, HDR_LEN and the control registers (R127,
R170). -/
def OutputOf (u t : State) : Prop := t = { u with
  busy := t.busy, done := t.done, err := t.err, stickyErr := t.stickyErr, errCode := t.errCode, errInfo := t.errInfo
  bitsLen := t.bitsLen, hdrLen := t.hdrLen, bits := t.bits }

theorem afterCompress_outputOf (l : List Bool) (n : Nat) (s : State) :
    OutputOf (buildRun (compressStart s)) (afterCompress l n s) := by
  have hform : ∀ u : State, OutputOf u (endCommand { zeroFillTail (appended l u) with hdrLen := BitVec.ofNat 32 n }) := by
    intro u
    rw [zeroFillTail_eq]
    rfl
  rw [afterCompress]
  exact hform (buildRun (compressStart s))

theorem afterCompressOverflow_outputOf (l : List Bool) (s : State) :
    OutputOf (buildRun (compressStart s)) (afterCompressOverflow l s) := by
  rw [afterCompressOverflow]
  generalize buildRun (compressStart s) = u
  rfl

/-- What COMPRESS leaves however its output ends: the tree of the block, and everything but the control registers, the arena,
SYM_CNT, BITS_LEN, HDR_LEN and BITS as before (R127). -/
theorem compress_builds {s t : State} (h0 : s.blkLen ≠ 0) (ht : OutputOf (buildRun (compressStart s)) t) :
    HoldsBlockTree t (blockBytes s) ∧ tailPresent t = tailPresent s ∧
      SameRegs (frameRegs ++ treeRegs ++ [.symCnt, .bitsLen, .hdrLen]) s t ∧ SameBlk s t ∧ SameSurroundings s t := by
  obtain ⟨htree, hframe⟩ := buildRun_compressStart h0
  generalize buildRun (compressStart s) = u at ht htree hframe
  refine ⟨htree.congr (by rw [ht]) (by rw [ht]) (by rw [ht]) (by rw [ht]) (by rw [ht]), ?_⟩
  refine builder_frame ?_ (by decide) (.inl (by decide)) (.inl (by decide))
  rw [hframe] at ht
  rw [ht]
  rfl

/-- A COMPRESS that fits ends completed, with its output from bit 0 on and the length of the header in HDR_LEN (R127). -/
theorem afterCompress_completes {s : State} {l : List Bool} {n : Nat} (h0 : s.blkLen ≠ 0)
    (hfit : l.length ≤ s.params.bitsMax) (hn : n ≤ l.length) :
    Completed 0x00000050 s (afterCompress l n s) ∧ BitsAppended l { s with bitsLen := 0 } (afterCompress l n s) ∧
      (afterCompress l n s).hdrLen.toNat = n := by
  have hmax := bitsMax_lt s
  have hbuilt : ({ beginCommand 0x00000050 s with bitsLen := 0, hdrLen := 0 } : State) = compressStart s := rfl
  refine ⟨completed_end _ _ _ ?_, (afterCompress_effect n h0 hfit).1, ofNat_toNat_word (by omega)⟩
  rw [zeroFillTail_eq, hbuilt, (buildRun_compressStart h0).2]
  rfl

/-- A COMPRESS that does not fit ends with BitsOverflow and no output length, and the bits that did fit stand from bit 0 on
(R127, R138, R149). -/
theorem afterCompressOverflow_effect {s : State} {l : List Bool} (h0 : s.blkLen ≠ 0) (hover : s.params.bitsMax < l.length) :
    Errored 0x00000050 .bitsOverflow 0 (afterCompressOverflow (l.take s.params.bitsMax) s) ∧
      ∀ j, (afterCompressOverflow (l.take s.params.bitsMax) s).bit j =
        if j < s.params.bitsMax then (l[j]?).getD false else s.bit j := by
  obtain ⟨-, hframe⟩ := buildRun_compressStart h0
  simp only [afterCompressOverflow]
  generalize buildRun (compressStart s) = u at hframe ⊢
  refine ⟨⟨by rw [hframe]; rfl, rfl, rfl, rfl, rfl, rfl, rfl⟩, fun j => ?_⟩
  rw [bit_of_writeAll (s := s) (i := 0) (l := l.take s.params.bitsMax) (by rw [hframe]; rfl) (by rw [hframe]; rfl),
    List.length_take_of_le (Nat.le_of_lt hover)]
  simp only [Nat.zero_le, true_and, Nat.zero_add, Nat.sub_zero]
  split
  case isTrue hj => rw [List.getElem?_take_of_lt hj]
  case isFalse => rfl

/-- The header of a block's tree has ten bits for each distinct value, less one (R71, R103). -/
theorem CodeTree.huffman_header_length {s : State} (h0 : s.blkLen ≠ 0) :
    (CodeTree.huffman (blockBytes s)).header.length + 1 = 10 * (blockBytes s).eraseDups.length := by
  obtain ⟨hc, hvalues, -⟩ := CodeTree.huffman_spec s h0
  rw [← hvalues.length_eq]
  exact (headerShape _ hc).1

/-- Settles O41: what both ends share, and what each does with the output. -/
theorem compressEffect : Obligations.CompressEffect := by
  rintro s h0 h1 _ _ rfl rfl
  obtain ⟨hc, -⟩ := CodeTree.huffman_spec s h0
  have hlen := CodeTree.huffman_header_length h0
  obtain ⟨p, hp, hfits, -⟩ := exec_compress_spec h0 h1
  rw [← List.length_append] at hfits
  simp only [← List.length_append]
  rcases Nat.lt_or_ge s.params.bitsMax ((CodeTree.huffman (blockBytes s)).header ++ p).length with hover | hfit
  · obtain ⟨⟨hT, hsym, hcnt, hroot, -⟩, htail, hregs, hblk, hsurr⟩ :=
      compress_builds h0 (afterCompressOverflow_outputOf _ s)
    obtain ⟨herr, hbits⟩ := afterCompressOverflow_effect h0 hover
    exact ⟨_, p, exec_compress_overflows h0 h1 hp (List.length_append ▸ hover), hp, hT, hc, hsym, hcnt, hroot, htail, hregs,
      hblk, hsurr, hlen, fun h => absurd hover (Nat.not_lt.mpr h), fun _ => ⟨herr, rfl, rfl, hbits⟩⟩
  · obtain ⟨⟨hT, hsym, hcnt, hroot, -⟩, htail, hregs, hblk, hsurr⟩ :=
      compress_builds h0 (afterCompress_outputOf _ _ s)
    exact ⟨_, p, hfits hfit, hp, hT, hc, hsym, hcnt, hroot, htail, hregs, hblk, hsurr, hlen,
      fun _ => afterCompress_completes h0 hfit (by simp), fun h => absurd h (Nat.not_lt.mpr hfit)⟩

end Sys2Proof
end

section
/-! Scope: DECODE and DECOMPRESS: what the decoder makes of any bits after a header; DECOMPRESS by its parts; and the round trip
of a block through COMPRESS and DECOMPRESS. -/

namespace Sys2Proof

open Sys2Proof.Machine

/-- A command ends as its body does (R170). -/
theorem exec_ends {i : Instr} {s : State} {body : State → BodyResult} {r : BodyResult}
    (hx : exec i s = .next (runFrame (wordOf i) body s)) (hb : body (beginCommand (wordOf i) s) = r) :
    exec i s = .next (finish r) := by
  rw [hx, runFrame, hb]

/-! ### How the decoder ends (R125) -/

/-- `t` stands inside the frame of the command with word `w` that began in `s`, and nothing but the arena, CURSOR and HDR_LEN
has changed since: what DESERIALIZE's part of DECOMPRESS leaves, and what DECODE begins with (R126, R128). -/
def ReadyToDecode (w : Word) (s t : State) : Prop := t = { beginCommand w s with
  cursor := t.cursor, hdrLen := t.hdrLen, nodes := t.nodes, nodeCnt := t.nodeCnt, root := t.root }

/-- `u` is `t` but for what the decoder and the end of its command write: BLK, BLK_LEN, CURSOR, TAIL_BITS and the control
registers but CMD (R125, R170). -/
def DecodedFrom (t u : State) : Prop := u = { t with
  busy := u.busy, done := u.done, err := u.err, stickyErr := u.stickyErr, errCode := u.errCode, errInfo := u.errInfo
  blk := u.blk, blkLen := u.blkLen, cursor := u.cursor, tailBits := u.tailBits }

/-- How a command with word `w` from `s` ends in `u` when the decoder ran on the tree `T` over `bits`, the first of them at
index `c` (R125, R139). -/
structure DecodeEnds (w : Word) (T : CodeTree) (bits : List Bool) (c : Word) (s u : State) : Prop where
  leaf : ∀ v, T = .leaf v → Completed w s u ∧ u.blkLen = 0 ∧ u.tailBits = 0 ∧ u.cursor = c ∧ SameBlk s u
  node : ∀ a b, T = .node a b → ∃ codes bytes rest, T.Decoding bits codes bytes rest ∧
    (bytes.length ≤ s.params.blockMax →
      Completed w s u ∧ u.blkLen.toNat = bytes.length ∧ BlkWritten bytes s u ∧ u.tailBits.toNat = rest.length ∧
        u.cursor = s.bitsLen) ∧
    (s.params.blockMax < bytes.length →
      Errored w .blkOverflow u.cursor u ∧ u.blkLen = 0 ∧ u.tailBits = 0 ∧ BlkWritten (bytes.take s.params.blockMax) s u ∧
        u.cursor = c + BitVec.ofNat 32 (codes.take (s.params.blockMax + 1)).flatten.length)

/-- With a one-node tree the decoder reads and emits nothing (R125). -/
theorem decodeRun_leaf_outcome {w : Word} {s t : State} {v : Byte} (ht : ReadyToDecode w s t) (hT : HoldsTree t (.leaf v)) :
    DecodedFrom t (finish (decodeRun t)) ∧ DecodeEnds w (.leaf v) (bitsFrom t) t.cursor s (finish (decodeRun t)) := by
  rw [decodeRun_leaf hT]
  have hend : Completed w s (endCommand { t with blkLen := 0, tailBits := 0 }) :=
    completed_end _ _ _ (by rw [ht]; rfl)
  exact ⟨rfl, fun _ _ => ⟨hend, rfl, rfl, rfl, fun _ => by rw [ht]; rfl⟩, fun _ _ h => by cases h⟩

/-- With two leaves or more the decoder emits the bytes of the codes, or stops after the first code too many (R125, R139). -/
theorem decodeRun_node_outcome {w : Word} {s t : State} {a b : CodeTree} (ht : ReadyToDecode w s t)
    (hT : HoldsTree t (.node a b)) (hc : (CodeTree.node a b).complete = true) (hcur : t.cursor.toNat ≤ t.bitsLen.toNat) :
    DecodedFrom t (finish (decodeRun t)) ∧
      DecodeEnds w (.node a b) (bitsFrom t) t.cursor s (finish (decodeRun t)) := by
  obtain ⟨codes, bytes, rest, hd, hfits, hover⟩ := decodeRun_node hT hc
  have hparams : t.params = s.params := by rw [ht]; rfl
  have hlen : t.bitsLen = s.bitsLen := by rw [ht]; rfl
  have hblk : t.blk = s.blk := by rw [ht]; rfl
  have hresets : t.resets = s.resets := by rw [ht]; rfl
  have hmax := blockMax_lt s
  rw [hparams] at hfits hover
  rcases Nat.lt_or_ge s.params.blockMax bytes.length with hmany | hfew
  · rw [hover hmany _ rfl]
    refine ⟨rfl, ⟨nofun, ?_⟩⟩
    rintro _ _ ⟨rfl, rfl⟩
    exact ⟨codes, bytes, rest, hd, fun h => absurd hmany (Nat.not_lt.mpr h), fun _ =>
      ⟨⟨by rw [ht]; rfl, rfl, rfl, rfl, rfl, rfl, rfl⟩, rfl, rfl, blkWritten_of (hblk ▸ rfl) hresets, rfl⟩⟩
  · have hrest : rest.length < 2 ^ 32 := by
      have hleft := bitsLeft_lt t
      rw [← bitsFrom_length, hd.1, List.length_append] at hleft
      omega
    rw [hfits hfew]
    refine ⟨rfl, ⟨nofun, ?_⟩⟩
    rintro _ _ ⟨rfl, rfl⟩
    exact ⟨codes, bytes, rest, hd, fun _ => ⟨completed_end _ _ _ (by rw [ht]; rfl), ofNat_toNat_word (by omega),
      blkWritten_of (hblk ▸ rfl) hresets, ofNat_toNat_word hrest, (advance_end hcur).trans hlen⟩,
      fun h => absurd h (Nat.not_lt.mpr hfew)⟩

/-- The decoder on a complete tree (R125). -/
theorem decodeRun_outcome {w : Word} {s t : State} {T : CodeTree} (ht : ReadyToDecode w s t) (hT : HoldsTree t T)
    (hc : T.complete = true) (hcur : t.cursor.toNat ≤ t.bitsLen.toNat) :
    DecodedFrom t (finish (decodeRun t)) ∧ DecodeEnds w T (bitsFrom t) t.cursor s (finish (decodeRun t)) := by
  cases T with
  | unset => cases hc
  | leaf v => exact decodeRun_leaf_outcome ht hT
  | node a b => exact decodeRun_node_outcome ht hT hc hcur

/-- The decoder does not touch the tree. -/
theorem DecodedFrom.holdsTree {t u : State} {T : CodeTree} (h : DecodedFrom t u) (hT : HoldsTree t T) : HoldsTree u T :=
  holdsTree_congr hT (node_congr (by rw [h])) (by rw [h]) (by rw [h]) (by rw [h])

/-- What DECODE and DECOMPRESS leave alone: all but the control registers, BLK and its length, CURSOR, TAIL_BITS, and the
arena and HDR_LEN where the header was read too (R126, R128). -/
theorem DecodedFrom.frame {w : Word} {s t u : State} {changed : List Reg} (hu : DecodedFrom t u) (ht : ReadyToDecode w s t)
    (hframe : frameRegs ++ [.blkLen, .cursor, .tailBits] ⊆ changed) (hhdr : Reg.hdrLen ∈ changed ∨ t.hdrLen = s.hdrLen)
    (htree : treeRegs ⊆ changed ∨ (t.nodes = s.nodes ∧ t.nodeCnt = s.nodeCnt ∧ t.root = s.root)) :
    SameRegs changed s u ∧ SameBits s u ∧ SameSurroundings s u := by
  rw [ReadyToDecode] at ht
  rw [DecodedFrom, ht] at hu
  have hregs : SameRegs changed s u := sameRegs_intro (.inl (hframe (by decide))) (hframe (by decide))
    (.inl (hframe (by decide))) (.inl (hframe (by decide))) (.inl (hframe (by decide))) (.inr (by rw [hu]; rfl))
    (.inl (hframe (by decide))) (hhdr.imp_right (by rw [hu]; exact id))
    (htree.imp (fun h => h (by decide)) (fun ⟨_, hcnt, _⟩ => by rw [hu]; exact hcnt))
    (htree.imp (fun h => h (by decide)) (fun ⟨_, _, hroot⟩ => by rw [hu]; exact hroot))
    (htree.imp (fun h => h (by decide)) (fun ⟨hnodes, hcnt, hroot⟩ => by
      rw [hu]
      exact findPending_congr (node_congr hnodes) hroot hcnt rfl))
    (.inr (by rw [hu]; rfl)) (.inl (hframe (by decide))) (.inr (by rw [hu]; rfl)) (by rw [hu]; rfl)
  rw [hu] at hregs ⊢
  exact ⟨hregs, fun _ => rfl, rfl, rfl, rfl, rfl, rfl⟩

/-! ### DECODE (R126) -/

/-- DECODE with a complete tree and legal lengths runs the decoder inside its frame (R126). -/
theorem exec_decode_runs {s : State} {T : CodeTree} (hbits : s.bitsLen.toNat ≤ s.params.bitsMax)
    (hcur : s.cursor.toNat ≤ s.bitsLen.toNat) (hT : HoldsTree s T) (hc : T.complete = true) :
    exec .decode s = .next (finish (decodeRun (beginCommand 0x00000042 s))) :=
  exec_ends (body := decodeBody) rfl (decodeBody_run hbits hcur hT hc 0x00000042)

/-- Settles O39: the decoder inside the frame of DECODE. -/
theorem decodeEffect : Obligations.DecodeEffect := by
  intro s T hbits hcur hT hc
  have hready : ReadyToDecode 0x00000042 s (beginCommand 0x00000042 s) := rfl
  obtain ⟨hfrom, hleaf, hnode⟩ := decodeRun_outcome hready (holdsTree_beginCommand hT) hc hcur
  obtain ⟨hregs, hbit, hsurr⟩ := hfrom.frame (changed := frameRegs ++ [.blkLen, .cursor, .tailBits]) hready
    (List.Subset.refl _) (.inr rfl) (.inr ⟨rfl, rfl, rfl⟩)
  have hexec := exec_decode_runs hbits hcur hT hc
  generalize finish (decodeRun (beginCommand 0x00000042 s)) = u at *
  rw [bitsFrom_beginCommand] at hnode
  have hnodes : SameNodes s u := node_congr (by rw [hfrom]; rfl)
  exact ⟨u, hexec, hregs, statusTree_of (by rw [hfrom]; rfl) (by rw [hfrom]; rfl) (by rw [hfrom]; rfl) hnodes,
    tailPresent_iff u, hbit, hnodes, hsurr, hleaf, hnode⟩

/-! ### DECOMPRESS of a header and what follows it (R128) -/

/-- DECOMPRESS whose header is whole runs the decoder on the tree it built (R128). -/
theorem exec_decompress_decodes {s t : State} (hbits : s.bitsLen.toNat ≤ s.params.bitsMax)
    (hrun : deserializeRun (decompressStart s) = .completed t) :
    exec .decompress s = .next (finish (decodeRun t)) :=
  exec_ends (body := decompressBody) rfl ((decompressBody_run hbits).trans (decompressRun_decodes hrun))

/-- Bits read from the start of the sequence leave CURSOR within BITS_LEN (R15, R128). -/
theorem cursor_advance_decompressStart {s : State} {k : Nat} (h : k ≤ bitsLeft (decompressStart s)) :
    (advance k (decompressStart s)).cursor.toNat ≤ s.bitsLen.toNat := by
  have hleft : bitsLeft (decompressStart s) = s.bitsLen.toNat := rfl
  have hstart : (decompressStart s).cursor.toNat = 0 := rfl
  rw [cursor_advance h, hstart]
  omega

/-- DECOMPRESS of the header of a tree that fits: the decoder runs on that tree, over what follows the header (R128). -/
theorem decompress_header_ready {s : State} {T : CodeTree} {pay : List Bool} (hbits : s.bitsLen.toNat ≤ s.params.bitsMax)
    (hc : T.complete = true) (hcap : T.size ≤ s.params.nodeCap)
    (hfrom : bitsFrom { s with cursor := 0 } = T.header ++ pay) :
    ∃ t, exec .decompress s = .next (finish (decodeRun t)) ∧ HoldsTree t T ∧ bitsFrom t = pay ∧
      t.cursor.toNat ≤ t.bitsLen.toNat ∧ ReadyToDecode 0x00000051 s t ∧ t.root = 0 ∧
      t.cursor = BitVec.ofNat 32 T.header.length ∧ t.hdrLen.toNat = T.header.length := by
  have hfrom' : bitsFrom (decompressStart s) = T.header ++ pay := (bitsFrom_decompressStart s).trans hfrom
  obtain ⟨t, hrun, ht, hT⟩ := deserializeRun_header (s := decompressStart s) hc hcap hfrom'
  have hle : T.header.length ≤ bitsLeft (decompressStart s) := by
    rw [← bitsFrom_length, hfrom', List.length_append]
    omega
  have hcursor : t.cursor = (advance T.header.length (decompressStart s)).cursor := by rw [ht]
  have hlen : t.bitsLen = s.bitsLen := by rw [ht]; rfl
  have hpay : bitsFrom t = pay := by
    rw [bitsFrom_congr (s := advance T.header.length (decompressStart s)) (by rw [ht]) (by rw [ht]) (by rw [ht]) hcursor,
      bitsFrom_advance hle, hfrom', List.drop_left]
  refine ⟨t, exec_decompress_decodes hbits hrun, hT, hpay, ?_, by rw [ht]; rfl, by rw [ht], ?_, ?_⟩
  · rw [hcursor, hlen]
    exact cursor_advance_decompressStart hle
  · rw [hcursor]
    exact BitVec.zero_add _
  · rw [ht]
    exact ofNat_toNat_word (Nat.lt_of_le_of_lt hle (bitsLeft_lt _))

/-- Settles O43: the header's tree, and the decoder over the bits after it, inside the frame of DECOMPRESS. -/
theorem decompressEffect : Obligations.DecompressEffect := by
  intro s T pay hbits hc hcap hfrom
  obtain ⟨t, hexec, hT, rfl, hcur, hready, hroot, hcursor, hhdr⟩ := decompress_header_ready hbits hc hcap hfrom
  obtain ⟨hu, hleaf, hnode⟩ := decodeRun_outcome hready hT hc hcur
  obtain ⟨hregs, hbit, hsurr⟩ := hu.frame
    (changed := frameRegs ++ treeRegs ++ [.blkLen, .cursor, .hdrLen, .tailBits]) hready (by decide) (.inl (by decide))
    (.inl (by decide))
  rw [hcursor] at hleaf hnode
  generalize finish (decodeRun t) = u at *
  have hTu := hu.holdsTree hT
  refine ⟨u, hexec, hTu, by rw [hu]; exact hroot, by rw [hu]; exact hhdr, (treePresent_iff u).mpr (holdsTree_nodeCnt_ne hTu),
    (treeComplete_holdsTree hTu).mpr hc, tailPresent_iff u, hregs, hbit, hsurr, ?_, ?_⟩
  · rintro v rfl
    obtain ⟨hend, hblkLen, htail, hc9, hblk⟩ := hleaf v rfl
    exact ⟨hend, (treeSingle_holdsTree hTu).mpr ⟨v, rfl⟩, hblkLen, htail, hc9, hblk⟩
  · intro a b h
    obtain ⟨codes, bytes, rest, hd, hfew, hmany⟩ := hnode a b h
    refine ⟨codes, bytes, rest, hd, hfew, fun hover => ?_⟩
    rw [BitVec.ofNat_add]
    exact hmany hover

/-! ### DECOMPRESS is its parts (R128) -/

/-- The end of a command keeps the word in CMD (R170). -/
theorem finish_withCmd (w : Word) (r : BodyResult) : finish (BodyResult.withCmd w r) = withCmd w (finish r) := by
  cases r <;> rfl

/-- DESERIALIZE from CURSOR 0 does what the header part of DECOMPRESS does, but for CMD (R128). -/
theorem exec_deserialize_decompressStart {s : State} (hbits : s.bitsLen.toNat ≤ s.params.bitsMax) :
    exec .deserialize { s with cursor := 0 } =
      .next (withCmd 0x00000021 (finish (deserializeRun (decompressStart s)))) := by
  rw [← finish_withCmd, ← deserializeRun_withCmd]
  exact exec_ends (body := deserializeBody) rfl (deserializeBody_run (s := { s with cursor := 0 }) hbits (Nat.zero_le _))

/-- A header that fails ends DECOMPRESS as it ends DESERIALIZE, with no block (R128). -/
theorem decompress_parts_of_raised {s s₁ t u : State} {e : Err} {info : Word} (hbits : s.bitsLen.toNat ≤ s.params.bitsMax)
    (hrun : deserializeRun (decompressStart s) = .raised e info u) (hcmd : u.cmd = 0x00000051)
    (hs₁ : exec .deserialize { s with cursor := 0 } = .next s₁) (ht : exec .decompress s = .next t) :
    s₁.err = true ∧ t = { s₁ with cmd := 0x00000051, blkLen := 0, tailBits := 0 } := by
  rw [exec_deserialize_decompressStart hbits, hrun] at hs₁
  rw [exec_decompress_fails hbits hrun] at ht
  cases hs₁
  cases ht
  exact ⟨rfl, by rw [← hcmd]; rfl⟩

/-- After a whole header DECOMPRESS goes on as DECODE does from where DESERIALIZE ended (R128). -/
theorem decompress_parts_of_completed {s s₁ t u : State} {T : CodeTree} (hbits : s.bitsLen.toNat ≤ s.params.bitsMax)
    (hrun : deserializeRun (decompressStart s) = .completed u) (hready : ReadyToDecode 0x00000051 s u)
    (hT : HoldsTree u T) (hc : T.complete = true) (hcur : u.cursor.toNat ≤ u.bitsLen.toNat)
    (hs₁ : exec .deserialize { s with cursor := 0 } = .next s₁) (ht : exec .decompress s = .next t) :
    s₁.err = false ∧ ∀ s₂, exec .decode s₁ = .next s₂ → t = { s₂ with cmd := 0x00000051 } := by
  rw [exec_deserialize_decompressStart hbits, hrun] at hs₁
  rw [exec_decompress_decodes hbits hrun] at ht
  obtain rfl : withCmd 0x00000021 (endCommand u) = s₁ := by cases hs₁; rfl
  cases ht
  have hbits' : u.bitsLen.toNat ≤ u.params.bitsMax := by rw [hready]; exact hbits
  have hbegin : beginCommand 0x00000042 (withCmd 0x00000021 (endCommand u)) = withCmd 0x00000042 u := by rw [hready]; rfl
  have hself : withCmd 0x00000051 u = u := by rw [hready]; rfl
  refine ⟨by rw [hready]; rfl, fun s₂ hs₂ => ?_⟩
  rw [exec_decode_runs (s := withCmd 0x00000021 (endCommand u)) hbits' hcur
    (holdsTree_congr hT (fun _ => rfl) rfl rfl rfl) hc, hbegin, decodeRun_withCmd, finish_withCmd] at hs₂
  cases hs₂
  calc
    finish (decodeRun u) = finish (decodeRun (withCmd 0x00000051 u)) := by rw [hself]
    _ = withCmd 0x00000051 (finish (decodeRun u)) := by rw [decodeRun_withCmd, finish_withCmd]

/-- DECOMPRESS of an illegal BITS_LEN ends as DESERIALIZE does (R143). -/
theorem decompress_badLength {s s₁ t : State} (hbits : s.params.bitsMax < s.bitsLen.toNat)
    (hs₁ : exec .deserialize { s with cursor := 0 } = .next s₁) (ht : exec .decompress s = .next t) :
    EndsErrored .decompress s .badLength 2 ∧ s₁.errCode = t.errCode := by
  have hend : EndsErrored .decompress s .badLength 2 := endsErrored_of_body (body := decompressBody) rfl (guarded_some (by
    simp [firstError, checkBitsLen_some hbits]))
  obtain ⟨u, hu, ⟨-, -, -, -, -, hcode, -⟩, -⟩ := id hend
  obtain ⟨u₁, hu₁, ⟨-, -, -, -, -, hcode₁, -⟩, -⟩ := deserialize_endsErrored (s := { s with cursor := 0 }) (e := .badLength)
    (info := 2) (by rw [checkBitsLen_some (s := { s with cursor := 0 }) hbits]; rfl)
  rw [ht] at hu
  rw [hs₁] at hu₁
  cases hu
  cases hu₁
  exact ⟨hend, hcode₁.trans hcode.symm⟩

/-- Settles O44: what the header part leaves, case by case, and the decoder after it. -/
theorem decompressIsItsParts : Obligations.DecompressIsItsParts := by
  intro s s₁ t hs₁ ht
  refine ⟨fun hbits => decompress_badLength hbits hs₁ ht, imp_and.mp fun hbits => ?_⟩
  rcases deserializeRun_any (decompressStart s) with ⟨u, T, hrun, hc, hT, hle, -, hu⟩ | ⟨info, hrun⟩ | ⟨k, -, hrun⟩
  · have hcursor : u.cursor.toNat ≤ u.bitsLen.toNat := by
      rw [hu]
      exact cursor_advance_decompressStart hle
    obtain ⟨herr, hdecode⟩ := decompress_parts_of_completed hbits hrun (by rw [hu]; rfl) hT hc hcursor hs₁ ht
    exact ⟨fun h => absurd h (by simp [herr]), fun _ => hdecode⟩
  all_goals
    obtain ⟨herr, heq⟩ := decompress_parts_of_raised hbits hrun rfl hs₁ ht
    exact ⟨fun _ => heq, fun h => absurd h (by simp [herr])⟩

/-! ### The round trip (R129) -/

/-- Settles O45: COMPRESS puts out the header and the payload; the payload decodes to the block and to nothing else. -/
theorem roundTrip : Obligations.RoundTrip := by
  intro s t htwo hx herr
  obtain ⟨h0, h1, p, hp, hfit, -⟩ := compress_output hx herr
  obtain ⟨-, hvalues, hsize⟩ := CodeTree.huffman_spec s h0
  obtain ⟨t', p', hx', hp', -, hc, -, -, -, -, -, -, ⟨hparams, -⟩, -, hfits, -⟩ := compressEffect s h0 h1 _ _ rfl rfl
  obtain rfl : t = t' := Host.Outcome.next.inj (hx.symm.trans hx')
  obtain rfl : p = p' := Option.some.inj (hp.symm.trans hp')
  obtain ⟨-, hout, hhdr⟩ := hfits hfit
  rw [← hvalues.length_eq] at htwo ⊢
  have hnodes := CodeTree.size_eq_values hc
  obtain ⟨a, b, hT⟩ := CodeTree.node_of_two hc htwo
  obtain ⟨u, hu, huT, -, huHdr, -, -, -, hregs, -, -, -, hnode⟩ := decompressEffect t _ p
    (by rw [hout.1, hparams]; simpa using hfit) hc (Nat.le_trans hsize t.params.nodeCap_range.1) (bitsFrom_of_output hout)
  obtain ⟨codes, bytes, rest, hd, hfew, -⟩ := hnode a b hT
  obtain ⟨rfl, rfl⟩ := (decodingIsUnique a b p codes codes bytes bytes rest rest (hT ▸ hd)).2 (blockBytes s) (hT ▸ hp)
  obtain ⟨⟨-, -, -, huErr, -⟩, huLen, huBlk, huTail, huCur⟩ := hfew (by rw [hparams, blockBytes_length]; exact h1)
  have huBits : u.bitsLen = t.bitsLen := hregs .bitsLen (by decide)
  refine ⟨u, hu, huErr, blockBytes_of_blkWritten huBlk huLen, BitVec.eq_of_toNat_eq huTail, huCur.trans huBits.symm, huBits,
    BitVec.eq_of_toNat_eq (huHdr.trans hhdr.symm), ?_⟩
  rw [← holdsTree_size huT]
  omega

end Sys2Proof
end

section
/-! Scope: ENCODE that stops at a byte; and COMPRESS: that it is BUILD, SERIALIZE and ENCODE one after the other, and that it
depends on the block and the parameters alone. -/

namespace Sys2Proof

open Sys2Proof.Machine

/-! ### ENCODE that stops (R123, R124) -/

/-- The encoder stops at the first byte that has no leaf, the codes of those before it appended (R123). -/
theorem encodeRun_noCode {s : State} {T : CodeTree} {pre post : List Byte} {v : Byte} {p : List Bool} (hT : HoldsTree s T)
    (hblock : blockBytes s = pre ++ v :: post) (hp : T.payload pre = some p)
    (hfit : s.bitsLen.toNat + p.length ≤ s.params.bitsMax) (hv : T.path v = none) :
    encodeRun s = .raised .noCode (BitVec.ofNat 32 pre.length) (appended p s) := by
  rw [encodeRun, hblock, encodeBytes_append pre _ 0 s hT hp, appendBits_fits p s hfit, BodyResult.completed_bind]
  simp only [encodeBytes, lookupPath_holdsTree (holdsTree_appended hT p), hv, Nat.zero_add]

/-- The encoder stops at the first byte whose code does not fit, with the bits written that do (R123, R138). -/
theorem encodeRun_overflows {s : State} {T : CodeTree} {pre post : List Byte} {v : Byte} {p q : List Bool}
    (hT : HoldsTree s T) (hblock : blockBytes s = pre ++ v :: post) (hp : T.payload pre = some p)
    (hfit : s.bitsLen.toNat + p.length ≤ s.params.bitsMax) (hq : T.path v = some q)
    (hover : s.params.bitsMax < s.bitsLen.toNat + (p ++ q).length) :
    encodeRun s = .raised .bitsOverflow 0 (appended ((p ++ q).take (s.params.bitsMax - s.bitsLen.toNat)) s) := by
  have hcode : appendBits q (appended p s) =
      .raised .bitsOverflow 0 (appended ((p ++ q).take (s.params.bitsMax - s.bitsLen.toNat)) s) := by
    rw [← appendBits_overflows (p ++ q) s (by omega) hover, appendBits_append, appendBits_fits p s hfit,
      BodyResult.completed_bind]
  rw [encodeRun, hblock, encodeBytes_append pre _ 0 s hT hp, appendBits_fits p s hfit, BodyResult.completed_bind]
  simp only [encodeBytes, lookupPath_holdsTree (holdsTree_appended hT p), hq, hcode]

/-- The state after an ENCODE that ended with an error, `l` being the bits that were written (R124, R149). -/
def afterEncodeFail (e : Err) (info : Word) (l : List Bool) (s : State) : State :=
  endCommand (errorEntry e info { appended l (beginCommand 0x00000041 s) with bitsLen := s.bitsLen })

/-- ENCODE whose loop stops with an error (R124). -/
theorem exec_encode_fails {s : State} {T : CodeTree} {e : Err} {info : Word} {l : List Bool}
    (hlen : s.blkLen.toNat ≤ s.params.blockMax) (hbits : s.bitsLen.toNat ≤ s.params.bitsMax) (hT : HoldsTree s T)
    (hc : T.complete = true)
    (hrun : encodeRun (beginCommand 0x00000041 s) = .raised e info (appended l (beginCommand 0x00000041 s))) :
    exec .encode s = .next (afterEncodeFail e info l s) := by
  have happend : encodeAppend (beginCommand 0x00000041 s) =
      .raised e info { appended l (beginCommand 0x00000041 s) with bitsLen := s.bitsLen } := by
    simp only [encodeAppend, hrun, beginCommand_bitsLen]
  exact exec_raised (body := encodeBody) rfl ((encodeBody_run hlen hbits hT hc _).trans happend)

/-- What an ENCODE that ended with an error leaves: the bits it wrote, BITS_LEN as at entry, the control registers, and all else
as before (R124, R149). -/
theorem afterEncodeFail_effect (e : Err) (info : Word) (l : List Bool) (s : State) :
    Errored 0x00000041 e info (afterEncodeFail e info l s) ∧
      (∀ j, (afterEncodeFail e info l s).bit j =
        if s.bitsLen.toNat ≤ j ∧ j < s.bitsLen.toNat + l.length then (l[j - s.bitsLen.toNat]?).getD false else s.bit j) ∧
      SameDerivedFlags s (afterEncodeFail e info l s) ∧ SameRegs frameRegs s (afterEncodeFail e info l s) ∧
      SameBlk s (afterEncodeFail e info l s) ∧ SameNodes s (afterEncodeFail e info l s) ∧
      SameSurroundings s (afterEncodeFail e info l s) := by
  refine ⟨⟨rfl, rfl, rfl, rfl, rfl, rfl, rfl⟩, bit_of_writeAll rfl rfl, sameDerivedFlags_of rfl rfl rfl rfl (fun _ => rfl), ?_,
    fun _ => rfl, fun _ => rfl, rfl, rfl, rfl, rfl, rfl⟩
  exact sameRegs_intro (.inl (by decide)) (by decide) (.inl (by decide)) (.inl (by decide)) (.inr rfl) (.inr rfl) (.inr rfl)
    (.inr rfl) (.inr rfl) (.inr rfl) (.inr (findPending_congr (fun _ => rfl) rfl rfl rfl)) (.inr rfl) (.inr rfl) (.inr rfl) rfl

/-- The bits of an ENCODE that was cut off at the end of BITS (R138, R149). -/
theorem afterEncodeFail_cut_bit (e : Err) (info : Word) {l : List Bool} {s : State}
    (hbits : s.bitsLen.toNat ≤ s.params.bitsMax) (hover : s.params.bitsMax < s.bitsLen.toNat + l.length) (j : Nat) :
    (afterEncodeFail e info (l.take (s.params.bitsMax - s.bitsLen.toNat)) s).bit j =
      if s.bitsLen.toNat ≤ j ∧ j < s.params.bitsMax then (l[j - s.bitsLen.toNat]?).getD false else s.bit j := by
  obtain ⟨-, hbit, -⟩ := afterEncodeFail_effect e info (l.take (s.params.bitsMax - s.bitsLen.toNat)) s
  rw [hbit j, List.length_take_of_le (by omega), Nat.add_sub_cancel' hbits]
  split
  case isTrue hj => rw [List.getElem?_take_of_lt (by omega)]
  case isFalse => rfl

/-- Settles O38: the two ways the encoder's loop stops, inside the frame of ENCODE. -/
theorem encodeErrors : Obligations.EncodeErrors := by
  intro s T pre v post p hlen hbits hT hc hblock hp hfit
  have hT' : HoldsTree (beginCommand 0x00000041 s) T := holdsTree_beginCommand hT
  have hblock' : blockBytes (beginCommand 0x00000041 s) = pre ++ v :: post := (blockBytes_beginCommand _ s).trans hblock
  refine ⟨fun hv => ?_, fun q hq hover => ?_⟩
  · exact ⟨_, exec_encode_fails hlen hbits hT hc (encodeRun_noCode hT' hblock' hp hfit hv), afterEncodeFail_effect _ _ p s⟩
  · have hover' : s.params.bitsMax < s.bitsLen.toNat + (p ++ q).length := by
      rw [List.length_append]
      omega
    obtain ⟨herr, -, hrest⟩ := afterEncodeFail_effect .bitsOverflow 0
      ((p ++ q).take (s.params.bitsMax - s.bitsLen.toNat)) s
    exact ⟨_, exec_encode_fails hlen hbits hT hc (encodeRun_overflows hT' hblock' hp hfit hq hover'), herr,
      afterEncodeFail_cut_bit _ _ hbits hover', hrest⟩

/-! ### The build depends on the block alone (R129(e), R160) -/

/-- Two builds of one block leave the same arena, root and count of values; each leaves the rest of its own state (R114). -/
theorem buildRun_of_block {s t : State} (hblock : blockBytes t = blockBytes s) (hne : blockBytes s ≠ []) :
    buildRun t = { t with nodes := (buildRun s).nodes, nodeCnt := (buildRun s).nodeCnt, root := (buildRun s).root
                          symCnt := (buildRun s).symCnt } := by
  obtain ⟨hnodes, hcnt, hroot⟩ := buildRun_congr hblock hne
  obtain ⟨-, -, -, -, -, -, hs⟩ := buildRun_spec s hne
  obtain ⟨-, -, -, -, -, -, ht⟩ := buildRun_spec t (hblock ▸ hne)
  have hsym : (buildRun s).symCnt = BitVec.ofNat 32 (blockBytes s).eraseDups.length := by rw [hs]
  rw [ht, hnodes, hcnt, hroot, hsym, hblock]

/-- A COMPRESS of a legal block leaves what its build left, but for its output and its end (R127). -/
theorem exec_compress_outputOf {s t : State} (h0 : s.blkLen ≠ 0) (h1 : s.blkLen.toNat ≤ s.params.blockMax)
    (hx : exec .compress s = .next t) : OutputOf (buildRun (compressStart s)) t := by
  obtain ⟨p, hp, hfits, -⟩ := exec_compress_spec h0 h1
  rcases Nat.lt_or_ge s.params.bitsMax ((CodeTree.huffman (blockBytes s)).header.length + p.length) with hover | hfit
  · rw [exec_compress_overflows h0 h1 hp hover] at hx
    cases hx
    exact afterCompressOverflow_outputOf _ s
  · rw [hfits hfit] at hx
    cases hx
    exact afterCompress_outputOf _ _ s

/-- Blocks that are equal have equal lengths (R27). -/
theorem blkLen_of_blockBytes {s t : State} (h : blockBytes s = blockBytes t) : s.blkLen = t.blkLen := by
  have hlen := congrArg List.length h
  rw [blockBytes_length, blockBytes_length] at hlen
  exact BitVec.eq_of_toNat_eq hlen

/-- Bits appended at BITS_LEN 0 are the bits from 0 on (R127). -/
theorem BitsAppended.bit_zero {l : List Bool} {s t : State} (h : BitsAppended l { s with bitsLen := 0 } t) (j : Nat)
    (hj : j < l.length) : t.bit j = l[j] :=
  (congrArg t.bit (Nat.zero_add j).symm).trans (h.2.1 j hj)

/-- `t` and `u` were left by a command that ended in the same way with the same bits from bit 0 on. -/
structure SameOutcome (t u : State) : Prop where
  cmd : t.cmd = u.cmd
  errCode : t.errCode = u.errCode
  errInfo : t.errInfo = u.errInfo
  bitsLen : t.bitsLen = u.bitsLen
  hdrLen : t.hdrLen = u.hdrLen
  err : t.err = u.err
  bits : ∀ j, j < t.bitsLen.toNat → t.bit j = u.bit j

/-- Two completed commands that put out the same bits from bit 0 on (R127). -/
theorem SameOutcome.of_completed {w : Word} {l : List Bool} {s s' t u : State} (ht : Completed w s t) (hu : Completed w s' u)
    (houtT : BitsAppended l { s with bitsLen := 0 } t) (houtU : BitsAppended l { s' with bitsLen := 0 } u)
    (hhdr : t.hdrLen.toNat = u.hdrLen.toNat) : SameOutcome t u := by
  obtain ⟨hcmd, -, -, herr, hcode, hinfo, -⟩ := ht
  obtain ⟨hcmd', -, -, herr', hcode', hinfo', -⟩ := hu
  have hlen : t.bitsLen.toNat = l.length := houtT.1.trans (Nat.zero_add _)
  refine ⟨hcmd.trans hcmd'.symm, hcode.trans hcode'.symm, hinfo.trans hinfo'.symm,
    BitVec.eq_of_toNat_eq (houtT.1.trans houtU.1.symm), BitVec.eq_of_toNat_eq hhdr, herr.trans herr'.symm, fun j hj => ?_⟩
  rw [hlen] at hj
  exact (houtT.bit_zero j hj).trans (houtU.bit_zero j hj).symm

/-- Two commands that ended with the same error and no output (R138). -/
theorem SameOutcome.of_errored {w info : Word} {e : Err} {t u : State} (ht : Errored w e info t) (hu : Errored w e info u)
    (hlenT : t.bitsLen = 0) (hlenU : u.bitsLen = 0) (hhdr : t.hdrLen = u.hdrLen) : SameOutcome t u := by
  obtain ⟨hcmd, -, -, herr, -, hcode, hinfo⟩ := ht
  obtain ⟨hcmd', -, -, herr', -, hcode', hinfo'⟩ := hu
  refine ⟨hcmd.trans hcmd'.symm, hcode.trans hcode'.symm, hinfo.trans hinfo'.symm, hlenT.trans hlenU.symm, hhdr,
    herr.trans herr'.symm, fun j hj => ?_⟩
  rw [hlenT] at hj
  exact absurd hj (Nat.not_lt_zero j)

/-- Settles O48: the tree, the payload and the ends of COMPRESS are those of the block; the arena is that of its build. -/
theorem compressDeterminism : Obligations.CompressDeterminism := by
  intro s₁ s₂ hparams h0 h1 hblock
  have hblk := blkLen_of_blockBytes hblock
  have h0' : s₂.blkLen ≠ 0 := hblk ▸ h0
  have h1' : s₂.blkLen.toNat ≤ s₂.params.blockMax := hblk ▸ hparams ▸ h1
  obtain ⟨t₁, p, hx₁, hp, hT₁, hc, hsym₁, hcnt₁, hroot₁, -, -, -, -, -, hfit₁, hover₁⟩ := compressEffect s₁ h0 h1 _ _ rfl rfl
  obtain ⟨t₂, p', hx₂, hp', hT₂, -, hsym₂, hcnt₂, hroot₂, -, -, -, -, -, hfit₂, hover₂⟩ :=
    compressEffect s₂ h0' h1' _ _ rfl rfl
  have hnodes : t₁.nodes = t₂.nodes := by
    have hbuild := buildRun_of_block (s := compressStart s₁) (t := compressStart s₂)
      (by rw [blockBytes_compressStart, blockBytes_compressStart, hblock])
      (by rw [blockBytes_compressStart]; exact blockBytes_ne_nil h0)
    rw [exec_compress_outputOf h0 h1 hx₁, exec_compress_outputOf h0' h1' hx₂, hbuild]
  rw [← hblock] at hp' hT₂ hsym₂ hcnt₂ hroot₂ hfit₂ hover₂
  rw [← hparams] at hfit₂ hover₂
  obtain rfl : p = p' := Option.some.inj (hp.symm.trans hp')
  have hcnt : t₁.nodeCnt = t₂.nodeCnt := BitVec.eq_of_toNat_eq (hcnt₁.trans hcnt₂.symm)
  have hroot : t₁.root = t₂.root := BitVec.eq_of_toNat_eq (hroot₁.trans hroot₂.symm)
  have hpend : pendWord t₁ = pendWord t₂ := by
    simp only [pendWord, findPending_of_complete hT₁ hc, findPending_of_complete hT₂ hc]
  have hsym : t₁.symCnt = t₂.symCnt := BitVec.eq_of_toNat_eq (hsym₁.trans hsym₂.symm)
  have hend : SameOutcome t₁ t₂ := by
    rcases Nat.lt_or_ge s₁.params.bitsMax ((CodeTree.huffman (blockBytes s₁)).header.length + p.length) with hover | hfit
    · obtain ⟨herr₁, hlen₁, hhdr₁, -⟩ := hover₁ hover
      obtain ⟨herr₂, hlen₂, hhdr₂, -⟩ := hover₂ hover
      exact .of_errored herr₁ herr₂ hlen₁ hlen₂ (hhdr₁.trans hhdr₂.symm)
    · obtain ⟨hend₁, hout₁, hhdr₁⟩ := hfit₁ hfit
      obtain ⟨hend₂, hout₂, hhdr₂⟩ := hfit₂ hfit
      exact .of_completed hend₁ hend₂ hout₁ hout₂ (hhdr₁.trans hhdr₂.symm)
  obtain ⟨hcmd, hcode, hinfo, hlen, hhdr, herr, hbits⟩ := hend
  refine ⟨t₁, t₂, hx₁, hx₂, ?_, herr, node_congr hnodes, hbits⟩
  simp only [List.forall_mem_cons, State.readReg, hcmd, hcode, hinfo, hlen, hhdr, hcnt, hroot, hpend, hsym, true_and]
  exact fun _ h => absurd h List.not_mem_nil

/-! ### Appended bits, one run after another (R13, R16) -/

/-- Appending twice, the tail zero-filled each time, is appending the joined bits. -/
theorem BitsAppended.trans {l r : List Bool} {s t u : State} (h : BitsAppended l s t) (h' : BitsAppended r t u) :
    BitsAppended (l ++ r) s u := by
  obtain ⟨hlen, hbits, -, hrest⟩ := h
  obtain ⟨hlen', hbits', hzero', hrest'⟩ := h'
  rw [hlen] at hlen' hbits' hzero' hrest'
  have hjoin : s.bitsLen.toNat + (l ++ r).length = s.bitsLen.toNat + l.length + r.length := by
    rw [List.length_append, Nat.add_assoc]
  rw [← hjoin] at hlen' hzero' hrest'
  refine ⟨hlen', fun j hj => ?_, hzero', fun j hj => ?_⟩
  · rcases Nat.lt_or_ge j l.length with hl | hl
    · rw [List.getElem_append_left hl, ← hbits j hl]
      exact hrest' _ (.inl (by omega))
    · rw [List.getElem_append_right hl, ← hbits' (j - l.length) (by omega)]
      congr 1
      omega
  · exact (hrest' j (by omega)).trans (hrest j (by omega))

/-- What bits are appended to is seen in BITS and BITS_LEN alone. -/
theorem BitsAppended.congr_left {l : List Bool} {s s' t : State} (h : BitsAppended l s t) (hlen : s.bitsLen = s'.bitsLen)
    (hsame : SameBits s' s) : BitsAppended l s' t := by
  obtain ⟨hlen', hbits, hzero, hrest⟩ := h
  rw [hlen] at hlen' hbits hzero hrest
  exact ⟨hlen', hbits, hzero, fun j hj => (hrest j hj).trans (hsame j)⟩

/-- There is one way to append bits. -/
theorem BitsAppended.sameBits {l : List Bool} {s t u : State} (h : BitsAppended l s t) (h' : BitsAppended l s u) :
    SameBits t u := by
  obtain ⟨-, hbits, hzero, hrest⟩ := h
  obtain ⟨-, hbits', hzero', hrest'⟩ := h'
  intro j
  by_cases hout : j < s.bitsLen.toNat ∨ (s.bitsLen.toNat + l.length + 7) / 8 * 8 ≤ j
  · rw [hrest j hout, hrest' j hout]
  · rcases Nat.lt_or_ge j (s.bitsLen.toNat + l.length) with hin | hgap
    · obtain ⟨k, rfl⟩ := Nat.exists_eq_add_of_le (show s.bitsLen.toNat ≤ j by omega)
      rw [hbits k (by omega), hbits' k (by omega)]
    · rw [hzero j hgap (by omega), hzero' j hgap (by omega)]

/-! ### COMPRESS is its parts (R127) -/

/-- `t` is `s` but for CMD and for what the output of a command is written to: BITS, BITS_LEN and HDR_LEN (R127). -/
def SameButOutput (s t : State) : Prop :=
  t = { s with cmd := t.cmd, bitsLen := t.bitsLen, hdrLen := t.hdrLen, bits := t.bits }

theorem SameButOutput.frame {s t : State} {changed : List Reg} (h : SameButOutput s t) (hcmd : Reg.cmd ∈ changed)
    (hbits : Reg.bitsLen ∈ changed ∨ t.bitsLen = s.bitsLen) (hhdr : Reg.hdrLen ∈ changed ∨ t.hdrLen = s.hdrLen) :
    SameRegs changed s t ∧ SameBlk s t ∧ SameNodes s t ∧ SameSurroundings s t := by
  have hregs : ∀ r, r ≠ .cmd → r ≠ .bitsLen → r ≠ .hdrLen → t.readReg r = s.readReg r := by
    intro r h1 h2 h3
    have hpend : findPending t = findPending s := by
      rw [h]
      exact findPending_congr (fun _ => rfl) rfl rfl rfl
    cases r with
    | cmd => exact absurd rfl h1
    | bitsLen => exact absurd rfl h2
    | hdrLen => exact absurd rfl h3
    | pend => simp only [State.readReg, pendWord, hpend]
    | status =>
      simp only [State.readReg, statusWord, treeComplete, hpend]
      rw [h]
      rfl
    | _ =>
      rw [h]
      rfl
  refine ⟨fun r hr => ?_, ?_⟩
  · by_cases hb : r = .bitsLen
    · subst hb
      exact hbits.resolve_left hr
    by_cases hh : r = .hdrLen
    · subst hh
      exact hhdr.resolve_left hr
    exact hregs r (fun hc => hr (hc ▸ hcmd)) hb hh
  · rw [h]
    exact ⟨fun _ => rfl, fun _ => rfl, rfl, rfl, rfl, rfl, rfl⟩

/-- The state after the first part of COMPRESS, BUILD with BITS_LEN at 0 (R127). -/
def afterBuildPart (s : State) : State := afterBuild { s with bitsLen := 0 }

/-- COMPRESS builds as its first part does (R114). -/
theorem buildRun_compressStart_eq {s : State} (h0 : s.blkLen ≠ 0) :
    buildRun (compressStart s) =
      { buildRun (beginCommand 0x00000030 { s with bitsLen := 0 }) with cmd := 0x00000050, hdrLen := 0 } := by
  have hblock : blockBytes (beginCommand 0x00000030 { s with bitsLen := 0 }) = blockBytes s := blockBytes_congr rfl rfl rfl
  have hne := blockBytes_ne_nil h0
  obtain ⟨-, -, -, -, -, -, hbuild⟩ := buildRun_spec (beginCommand 0x00000030 { s with bitsLen := 0 }) (hblock ▸ hne)
  rw [buildRun_of_block (s := beginCommand 0x00000030 { s with bitsLen := 0 })
    ((blockBytes_compressStart s).trans hblock.symm) (hblock ▸ hne)]
  generalize buildRun (beginCommand 0x00000030 { s with bitsLen := 0 }) = b at hbuild ⊢
  rw [hbuild]
  rfl

/-- What the build part leaves: the tree of the block, the bits as they were, no bits of output yet (R114, R115). -/
theorem afterBuildPart_effect {s : State} (h0 : s.blkLen ≠ 0) :
    HoldsTree (afterBuildPart s) (CodeTree.huffman (blockBytes s)) ∧ (afterBuildPart s).bitsLen = 0 ∧
      (afterBuildPart s).blkLen = s.blkLen ∧ (afterBuildPart s).params = s.params ∧
      blockBytes (afterBuildPart s) = blockBytes s ∧ SameBits { s with bitsLen := 0 } (afterBuildPart s) ∧
      (afterBuildPart s).err = false := by
  obtain ⟨htree, ⟨-, -, -, herr, -⟩, hbits, -, hregs, hblk, hparams, -⟩ := afterBuild_effect (s := { s with bitsLen := 0 }) h0
  have hlen : (afterBuildPart s).blkLen = s.blkLen := hregs .blkLen (by decide)
  have hblock : blockBytes (afterBuildPart s) = blockBytes s := by
    simp only [blockBytes, hlen]
    exact List.map_congr_left (fun i _ => hblk i)
  exact ⟨htree.tree, hregs .bitsLen (by decide), hlen, hparams, hblock, hbits, herr⟩

/-- SERIALIZE of a complete tree whose header does not fit (R101, R138). -/
theorem exec_serialize_overflows {s : State} {T : CodeTree} (hT : HoldsTree s T) (hc : T.complete = true)
    (hbits : s.bitsLen.toNat ≤ s.params.bitsMax) (hover : s.params.bitsMax < s.bitsLen.toNat + T.header.length) :
    exec .serialize s = .next (endCommand (errorEntry .bitsOverflow 0 (beginCommand 0x00000020 s))) := by
  have hlen := header_length_holdsTree hT hc
  exact exec_raised (body := serializeBody) rfl (guarded_some (by
    simp [firstError, checkBitsLen_none hbits, checkTree_none (holdsTree_nodeCnt_ne hT),
      checkComplete_none (findPending_of_complete hT hc), checkHeaderFits_some (s := s) (by omega)]))

/-- A command that puts out bits writes the control registers, BITS, BITS_LEN and HDR_LEN only (R13, R170). -/
theorem afterOutput_frame (w : Word) (l : List Bool) (n : Word) (s : State) :
    afterOutput w l n s = { s with
      cmd := w, busy := false, done := true, err := false, errCode := 0, errInfo := 0, hdrLen := n
      bitsLen := s.bitsLen + BitVec.ofNat 32 l.length, bits := (afterOutput w l n s).bits } := by
  rw [afterOutput, zeroFillTail_eq]
  rfl

/-- ENCODE of a block whose payload does not fit (R123, R138). -/
theorem exec_encode_overflows {s : State} {T : CodeTree} {p : List Bool} (hlen : s.blkLen.toNat ≤ s.params.blockMax)
    (hbits : s.bitsLen.toNat ≤ s.params.bitsMax) (hT : HoldsTree s T) (hc : T.complete = true)
    (hp : T.payload (blockBytes s) = some p) (hover : s.params.bitsMax < s.bitsLen.toNat + p.length) :
    exec .encode s = .next (afterEncodeFail .bitsOverflow 0 (p.take (s.params.bitsMax - s.bitsLen.toNat)) s) := by
  refine exec_encode_fails hlen hbits hT hc ?_
  rw [encodeRun, encodeBytes_payload _ 0 _ (holdsTree_beginCommand hT) (by rwa [blockBytes_beginCommand])]
  exact appendBits_overflows p (beginCommand 0x00000041 s) hbits hover

/-- The state after the first two parts of COMPRESS, when the header fits (R127). -/
def afterSerializePart (s : State) : State :=
  afterOutput 0x00000020 (CodeTree.huffman (blockBytes s)).header
    (BitVec.ofNat 32 (CodeTree.huffman (blockBytes s)).header.length) (afterBuildPart s)

/-- What the header part leaves: the header from bit 0 on, and all that ENCODE reads as the build left it (R101). -/
theorem afterSerializePart_effect {s : State} (h0 : s.blkLen ≠ 0)
    (hfit : (CodeTree.huffman (blockBytes s)).header.length ≤ s.params.bitsMax) :
    BitsAppended (CodeTree.huffman (blockBytes s)).header { s with bitsLen := 0 } (afterSerializePart s) ∧
      HoldsTree (afterSerializePart s) (CodeTree.huffman (blockBytes s)) ∧
      (afterSerializePart s).bitsLen.toNat = (CodeTree.huffman (blockBytes s)).header.length ∧
      (afterSerializePart s).hdrLen = BitVec.ofNat 32 (CodeTree.huffman (blockBytes s)).header.length ∧
      (afterSerializePart s).blkLen = s.blkLen ∧ (afterSerializePart s).params = s.params ∧
      blockBytes (afterSerializePart s) = blockBytes s ∧ (afterSerializePart s).err = false := by
  obtain ⟨hT, hbits, hlen, hparams, hblock, hsame, -⟩ := afterBuildPart_effect h0
  rw [afterSerializePart]
  generalize CodeTree.huffman (blockBytes s) = T at *
  generalize afterBuildPart s = b at *
  obtain ⟨⟨-, -, -, herr, -⟩, hout, -, -, -, hnodes, -⟩ := afterOutput_effect (w := 0x00000020) (l := T.header)
    (n := BitVec.ofNat 32 T.header.length) (s := b) (changed := frameRegs ++ [.bitsLen, .hdrLen])
    (by rw [hbits, hparams]; simpa using hfit) (by decide) (.inl (by decide))
  have hbitsLen := hout.1
  rw [hbits] at hbitsLen
  have hframe := afterOutput_frame 0x00000020 T.header (BitVec.ofNat 32 T.header.length) b
  generalize afterOutput 0x00000020 T.header (BitVec.ofNat 32 T.header.length) b = u at *
  refine ⟨hout.congr_left hbits hsame, holdsTree_congr hT hnodes ?_ ?_ ?_, hbitsLen.trans (Nat.zero_add _), ?_, ?_, ?_,
    (blockBytes_congr ?_ ?_ ?_).trans hblock, herr⟩ <;> rw [hframe]
  case refine_5 => exact hlen
  case refine_6 => exact hparams

/-- An overflow of COMPRESS leaves what an overflow of its SERIALIZE part leaves (R127, R149). -/
theorem afterCompressOverflow_after_serialize {s : State} (h0 : s.blkLen ≠ 0) (l : List Bool) :
    SameButOutput (endCommand (errorEntry .bitsOverflow 0 (beginCommand 0x00000020 (afterBuildPart s))))
      (afterCompressOverflow l s) := by
  rw [afterCompressOverflow, buildRun_compressStart_eq h0, afterBuildPart, afterBuild]
  generalize buildRun (beginCommand 0x00000030 { s with bitsLen := 0 }) = b
  rfl

/-- An overflow of COMPRESS leaves what an overflow of its ENCODE part leaves (R127, R149). -/
theorem afterCompressOverflow_after_encode {s : State} (h0 : s.blkLen ≠ 0) (l r : List Bool) :
    SameButOutput (afterEncodeFail .bitsOverflow 0 r (afterSerializePart s)) (afterCompressOverflow l s) := by
  rw [afterCompressOverflow, buildRun_compressStart_eq h0, afterEncodeFail, afterSerializePart, afterOutput_frame,
    afterBuildPart, afterBuild]
  generalize buildRun (beginCommand 0x00000030 { s with bitsLen := 0 }) = b
  rfl

/-- A completed COMPRESS leaves what its completed ENCODE part leaves (R127). -/
theorem afterCompress_after_encode {s : State} (h0 : s.blkLen ≠ 0) (l r : List Bool) (m : Word) (n : Nat) :
    SameButOutput (afterOutput 0x00000041 r m (afterSerializePart s)) (afterCompress l n s) := by
  have hfresh : buildRun (beginCommand 0x00000030 { s with bitsLen := 0 }) =
      { buildRun (beginCommand 0x00000030 { s with bitsLen := 0 }) with err := false, errCode := 0, errInfo := 0 } := by
    have hblock : blockBytes (beginCommand 0x00000030 { s with bitsLen := 0 }) = blockBytes s := blockBytes_congr rfl rfl rfl
    obtain ⟨-, -, -, -, -, -, hbuild⟩ := buildRun_spec (beginCommand 0x00000030 { s with bitsLen := 0 })
      (hblock ▸ blockBytes_ne_nil h0)
    rw [hbuild]
    rfl
  have hstart : ({ beginCommand 0x00000050 s with bitsLen := 0, hdrLen := 0 } : State) = compressStart s := rfl
  rw [afterCompress, hstart, buildRun_compressStart_eq h0, afterOutput_frame, afterSerializePart, afterOutput_frame,
    zeroFillTail_eq, afterBuildPart, afterBuild]
  generalize buildRun (beginCommand 0x00000030 { s with bitsLen := 0 }) = b at hfresh ⊢
  rw [hfresh]
  rfl

/-- A block that BUILD refuses is refused by COMPRESS in the same way, before any work (R127, R131, R143). -/
theorem compress_parts_of_refused {s s₁ t : State} {e : Err} {info : Word}
    (h : firstError [checkBlkLen s, checkBlockNotEmpty s] = some (e, info))
    (hs₁ : exec .build { s with bitsLen := 0 } = .next s₁) (ht : exec .compress s = .next t) :
    s₁.err = true ∧ t.err = true ∧ t.errCode = s₁.errCode ∧ t.errInfo = s₁.errInfo ∧ OnlyFrameChanged s t := by
  obtain ⟨u₁, hu₁, ⟨-, -, -, herr₁, -, hcode₁, hinfo₁⟩, -⟩ : EndsErrored .build { s with bitsLen := 0 } e info :=
    endsErrored_of_body (body := buildBody) rfl (guarded_some h)
  obtain ⟨u, hu, ⟨-, -, -, herr, -, hcode, hinfo⟩, hframe⟩ : EndsErrored .compress s e info :=
    endsErrored_of_body (body := compressBody) rfl (guarded_some h)
  rw [hs₁] at hu₁
  rw [ht] at hu
  cases hu₁
  cases hu
  exact ⟨herr₁, herr, hcode.trans hcode₁.symm, hinfo.trans hinfo₁.symm, hframe⟩

/-- A COMPRESS whose output does not fit withdraws it (R127, R149). -/
theorem afterCompressOverflow_lengths (l : List Bool) (s : State) :
    (afterCompressOverflow l s).bitsLen = 0 ∧ (afterCompressOverflow l s).hdrLen = 0 := ⟨rfl, rfl⟩

/-- A header that does not fit: the SERIALIZE part and COMPRESS end with BitsOverflow, and differ in CMD, HDR_LEN and BITS only
(R127, R138, R149). -/
theorem compress_parts_of_header_overflow {s s₂ t : State} (h0 : s.blkLen ≠ 0) (h1 : s.blkLen.toNat ≤ s.params.blockMax)
    (hover : s.params.bitsMax < (CodeTree.huffman (blockBytes s)).header.length)
    (hs₂ : exec .serialize (afterBuildPart s) = .next s₂) (ht : exec .compress s = .next t) :
    s₂.err = true ∧ Errored 0x00000050 .bitsOverflow 0 t ∧ s₂.errCode = Err.bitsOverflow.code ∧ t.bitsLen = 0 ∧
      t.hdrLen = 0 ∧ SameRegs [.cmd, .hdrLen] s₂ t ∧ SameBlk s₂ t ∧ SameNodes s₂ t ∧ SameSurroundings s₂ t := by
  obtain ⟨hT, hbits, -, hparams, -⟩ := afterBuildPart_effect h0
  obtain ⟨hc, -⟩ := CodeTree.huffman_spec s h0
  have hzero : (afterBuildPart s).bitsLen.toNat = 0 := by rw [hbits]; rfl
  obtain ⟨p, hp, -⟩ := exec_compress_spec h0 h1
  rw [exec_serialize_overflows hT hc (by omega) (by rw [hzero, hparams]; omega)] at hs₂
  rw [exec_compress_overflows h0 h1 hp (by omega)] at ht
  obtain rfl := Host.Outcome.next.inj hs₂
  obtain rfl := Host.Outcome.next.inj ht
  obtain ⟨herr, -⟩ := afterCompressOverflow_effect (l := (CodeTree.huffman (blockBytes s)).header ++ p) h0
    (by rw [List.length_append]; omega)
  obtain ⟨hlen, hhdr⟩ := afterCompressOverflow_lengths (((CodeTree.huffman (blockBytes s)).header ++ p).take
    s.params.bitsMax) s
  refine ⟨rfl, herr, rfl, hlen, hhdr, (afterCompressOverflow_after_serialize h0 _).frame (by decide) (.inr ?_)
    (.inl (by decide))⟩
  rw [hlen, endCommand_bitsLen, errorEntry_bitsLen, beginCommand_bitsLen, hbits]

/-- The bits of an output cut off at the end of BITS are the same whether its two parts were appended one after the other or
together (R138, R149). -/
theorem sameBits_of_cut {l p : List Bool} {s u v t : State} (hparams : u.params = s.params)
    (hl : l.length ≤ s.params.bitsMax) (hu : BitsAppended l { s with bitsLen := 0 } u)
    (hv : ∀ j, v.bit j =
      if u.bitsLen.toNat ≤ j ∧ j < u.params.bitsMax then (p[j - u.bitsLen.toNat]?).getD false else u.bit j)
    (ht : ∀ j, t.bit j = if j < s.params.bitsMax then ((l ++ p)[j]?).getD false else s.bit j) : SameBits v t := by
  intro j
  have hlen : u.bitsLen.toNat = l.length := hu.1.trans (Nat.zero_add _)
  rw [ht, hv, hlen, hparams]
  rcases Nat.lt_or_ge j l.length with hin | hout
  · rw [if_pos (by omega), if_neg (by omega), hu.bit_zero j hin, List.getElem?_append_left hin]
    simp [hin]
  rcases Nat.lt_or_ge j s.params.bitsMax with hcut | hbeyond
  · rw [if_pos hcut, if_pos ⟨hout, hcut⟩, List.getElem?_append_right hout]
  · obtain ⟨-, -, -, hrest⟩ := hu
    have hbytes := s.params.bitsMax_range.2.2
    rw [if_neg (by omega), if_neg (by omega)]
    refine (hrest j (.inr ?_)).symm
    show (0 + l.length + 7) / 8 * 8 ≤ j
    omega

/-- A payload that does not fit after its header: the ENCODE part and COMPRESS end with BitsOverflow, and differ in CMD, BITS_LEN
and HDR_LEN only (R127, R138, R149). -/
theorem compress_parts_of_payload_overflow {s s₃ t : State} {p : List Bool} (h0 : s.blkLen ≠ 0)
    (h1 : s.blkLen.toNat ≤ s.params.blockMax) (hp : (CodeTree.huffman (blockBytes s)).payload (blockBytes s) = some p)
    (hfit : (CodeTree.huffman (blockBytes s)).header.length ≤ s.params.bitsMax)
    (hover : s.params.bitsMax < (CodeTree.huffman (blockBytes s)).header.length + p.length)
    (hs₃ : exec .encode (afterSerializePart s) = .next s₃) (ht : exec .compress s = .next t) :
    s₃.err = true ∧ Errored 0x00000050 .bitsOverflow 0 t ∧ s₃.errCode = Err.bitsOverflow.code ∧ t.bitsLen = 0 ∧
      t.hdrLen = 0 ∧ SameRegs [.cmd, .bitsLen, .hdrLen] s₃ t ∧ SameBlk s₃ t ∧ SameBits s₃ t ∧ SameNodes s₃ t ∧
      SameSurroundings s₃ t := by
  obtain ⟨hout, hT, hbitsLen, -, hblkLen, hparams, hblock, -⟩ := afterSerializePart_effect h0 hfit
  obtain ⟨hc, -⟩ := CodeTree.huffman_spec s h0
  have hbound : (afterSerializePart s).bitsLen.toNat ≤ (afterSerializePart s).params.bitsMax := by
    rw [hbitsLen, hparams]
    exact hfit
  have hfull : (afterSerializePart s).params.bitsMax < (afterSerializePart s).bitsLen.toNat + p.length := by
    rw [hbitsLen, hparams]
    exact hover
  rw [exec_encode_overflows (by rw [hblkLen, hparams]; exact h1) hbound hT hc (by rw [hblock]; exact hp) hfull] at hs₃
  rw [exec_compress_overflows h0 h1 hp hover] at ht
  obtain rfl := Host.Outcome.next.inj hs₃
  obtain rfl := Host.Outcome.next.inj ht
  obtain ⟨herr, hcut⟩ := afterCompressOverflow_effect (l := (CodeTree.huffman (blockBytes s)).header ++ p) h0
    (by rw [List.length_append]; exact hover)
  have hbits := sameBits_of_cut hparams hfit hout (afterEncodeFail_cut_bit .bitsOverflow 0 hbound hfull) hcut
  obtain ⟨hregs, hblk, hnodes, hsurr⟩ := (afterCompressOverflow_after_encode h0 _ _).frame
    (changed := [.cmd, .bitsLen, .hdrLen]) (by decide) (.inl (by decide)) (.inl (by decide))
  obtain ⟨hlen, hhdr⟩ := afterCompressOverflow_lengths (((CodeTree.huffman (blockBytes s)).header ++ p).take
    s.params.bitsMax) s
  exact ⟨rfl, herr, rfl, hlen, hhdr, hregs, hblk, hbits, hnodes, hsurr⟩

/-- An output that fits: COMPRESS differs from its ENCODE part in CMD only (R127). -/
theorem compress_parts_of_fit {s s₃ t : State} {p : List Bool} (h0 : s.blkLen ≠ 0)
    (h1 : s.blkLen.toNat ≤ s.params.blockMax) (hp : (CodeTree.huffman (blockBytes s)).payload (blockBytes s) = some p)
    (hfit : (CodeTree.huffman (blockBytes s)).header.length + p.length ≤ s.params.bitsMax)
    (hs₃ : exec .encode (afterSerializePart s) = .next s₃) (ht : exec .compress s = .next t) :
    s₃.err = false ∧ SameRegs [.cmd] s₃ t ∧ SameBlk s₃ t ∧ SameBits s₃ t ∧ SameNodes s₃ t ∧ SameSurroundings s₃ t := by
  obtain ⟨hout, hT, hbitsLen, hhdrLen, hblkLen, hparams, hblock, -⟩ := afterSerializePart_effect h0 (by omega)
  obtain ⟨hc, -⟩ := CodeTree.huffman_spec s h0
  have hroom : (afterSerializePart s).bitsLen.toNat + p.length ≤ (afterSerializePart s).params.bitsMax := by
    rw [hbitsLen, hparams]
    exact hfit
  rw [exec_encode_fits (by rw [hblkLen, hparams]; exact h1) hT hc (by rw [hblock]; exact hp) hroom] at hs₃
  obtain ⟨q, hq, hfits, -⟩ := exec_compress_spec h0 h1
  obtain rfl : p = q := Option.some.inj (hp.symm.trans hq)
  rw [hfits hfit] at ht
  obtain rfl := Host.Outcome.next.inj hs₃
  obtain rfl := Host.Outcome.next.inj ht
  obtain ⟨⟨-, -, -, herr, -⟩, hpay, -⟩ := afterOutput_effect (w := 0x00000041) (n := (afterSerializePart s).hdrLen)
    (changed := frameRegs ++ [.bitsLen]) hroom (List.Subset.refl _) (.inr rfl)
  obtain ⟨-, hwhole, -⟩ := afterCompress_completes (l := (CodeTree.huffman (blockBytes s)).header ++ p)
    (n := (CodeTree.huffman (blockBytes s)).header.length) h0 (by rw [List.length_append]; exact hfit) (by simp)
  have hjoined := hout.trans hpay
  have hhdr : (afterCompress ((CodeTree.huffman (blockBytes s)).header ++ p) (CodeTree.huffman (blockBytes s)).header.length
      s).hdrLen = (afterOutput 0x00000041 p (afterSerializePart s).hdrLen (afterSerializePart s)).hdrLen := by
    rw [afterOutput_frame, hhdrLen]
    rfl
  obtain ⟨hregs, hblk, hnodes, hsurr⟩ := (afterCompress_after_encode h0 ((CodeTree.huffman (blockBytes s)).header ++ p) p
    (afterSerializePart s).hdrLen (CodeTree.huffman (blockBytes s)).header.length).frame (changed := [.cmd]) (by decide)
    (.inr (BitVec.eq_of_toNat_eq (hwhole.1.trans hjoined.1.symm))) (.inr hhdr)
  exact ⟨herr, hregs, hblk, hjoined.sameBits hwhole, hnodes, hsurr⟩

/-- A block that passes the checks of BUILD and COMPRESS is legal and not empty (R131, R143). -/
theorem legal_of_checks {s : State} (h : firstError [checkBlkLen s, checkBlockNotEmpty s] = none) :
    s.blkLen ≠ 0 ∧ s.blkLen.toNat ≤ s.params.blockMax := by
  have h1 : s.blkLen.toNat ≤ s.params.blockMax := by
    by_contra hcon
    simp [firstError, checkBlkLen_some (Nat.not_le.mp hcon)] at h
  refine ⟨fun h0 => ?_, h1⟩
  simp [firstError, checkBlkLen_none h1, checkBlockNotEmpty_some h0] at h

/-- Settles O42: the four ways COMPRESS can end, each beside the parts it ran. -/
theorem compressIsItsParts : Obligations.CompressIsItsParts := by
  intro s s₁ t hs₁ ht
  cases hcheck : firstError [checkBlkLen s, checkBlockNotEmpty s] with
  | some x =>
    obtain ⟨e, info⟩ := x
    obtain ⟨herr₁, hsame⟩ := compress_parts_of_refused hcheck hs₁ ht
    exact ⟨fun _ => hsame, fun h => absurd h (by simp [herr₁])⟩
  | none =>
    obtain ⟨h0, h1⟩ := legal_of_checks hcheck
    obtain ⟨hT, hbits, -, hparams, -, -, herr₁⟩ := afterBuildPart_effect h0
    obtain ⟨hc, -⟩ := CodeTree.huffman_spec s h0
    obtain ⟨p, hp, -⟩ := exec_compress_spec h0 h1
    have hzero : (afterBuildPart s).bitsLen.toNat = 0 := by rw [hbits]; rfl
    rw [exec_build (s := { s with bitsLen := 0 }) h0 h1] at hs₁
    obtain rfl : afterBuildPart s = s₁ := Host.Outcome.next.inj hs₁
    refine ⟨fun h => absurd h (by simp [herr₁]), fun _ s₂ hs₂ => ?_⟩
    rcases Nat.lt_or_ge s.params.bitsMax (CodeTree.huffman (blockBytes s)).header.length with hlong | hfit
    · obtain ⟨herr₂, hend⟩ := compress_parts_of_header_overflow h0 h1 hlong hs₂ ht
      exact ⟨fun _ => hend, fun h => absurd h (by simp [herr₂])⟩
    rw [exec_serialize_fits hT hc (by rw [hzero, hparams]; omega)] at hs₂
    obtain rfl : afterSerializePart s = s₂ := Host.Outcome.next.inj hs₂
    obtain ⟨-, -, -, -, -, -, -, herr₂⟩ := afterSerializePart_effect h0 hfit
    refine ⟨fun h => absurd h (by simp [herr₂]), fun _ s₃ hs₃ => ?_⟩
    rcases Nat.lt_or_ge s.params.bitsMax ((CodeTree.huffman (blockBytes s)).header.length + p.length) with hover | hroom
    · obtain ⟨herr₃, hend⟩ := compress_parts_of_payload_overflow h0 h1 hp hfit hover hs₃ ht
      exact ⟨fun _ => hend, fun h => absurd h (by simp [herr₃])⟩
    · obtain ⟨herr₃, hend⟩ := compress_parts_of_fit h0 h1 hp hroom hs₃ ht
      exact ⟨fun h => absurd h (by simp [herr₃]), fun _ => hend⟩

end Sys2Proof
end

section
/-! Scope: the control commands NOP and CLEAR. -/

namespace Sys2Proof

open Sys2Proof.Machine

/-! ### NOP (R171) -/

/-- The state after NOP: the first and the last lines of the frame and nothing between. -/
def afterNop (s : State) : State := endCommand (beginCommand 0x00000000 s)

theorem exec_nop (s : State) : exec .nop s = .next (afterNop s) := exec_completed rfl rfl

/-- NOP makes no node pending and takes none away. -/
theorem findPending_afterNop (s : State) : findPending (afterNop s) = findPending s :=
  (findPending_endCommand _).trans (findPending_beginCommand _ _)

/-- The frame alone writes the control registers alone (R170). -/
theorem onlyFrameChanged_afterNop (s : State) : OnlyFrameChanged s (afterNop s) := by
  have hregs : SameRegs frameRegs s (afterNop s) :=
    sameRegs_intro (.inl (by decide)) (by decide) (.inl (by decide)) (.inl (by decide)) (.inr rfl) (.inr rfl) (.inr rfl)
      (.inr rfl) (.inr rfl) (.inr rfl) (.inr (findPending_afterNop s)) (.inr rfl) (.inr rfl) (.inr rfl) rfl
  exact ⟨hregs, sameDerivedFlags_of rfl rfl rfl rfl (fun _ => rfl), fun _ => rfl, fun _ => rfl, fun _ => rfl,
    rfl, rfl, rfl, rfl, rfl⟩

/-- Settles O17: NOP is the command frame around an empty body. -/
theorem nopEffect : Obligations.NopEffect := fun s =>
  ⟨afterNop s, exec_nop s, completed_end _ _ _ rfl, onlyFrameChanged_afterNop s⟩

/-! ### CLEAR (R172) -/

/-- The state after CLEAR. The word in CMD is CLEAR's own until the body sets it to 0. -/
def afterClear (s : State) : State := finish (clearBody (beginCommand 0x00000001 s))

theorem exec_clear (s : State) : exec .clear s = .next (afterClear s) := rfl

/-- CLEAR leaves no tree (R90). -/
theorem noTree_afterClear (s : State) : NoTree (afterClear s) := ⟨rfl, rfl, fun _ => rfl⟩

/-- After CLEAR no node is pending, as after reset. -/
theorem findPending_afterClear (s : State) : findPending (afterClear s) = none := findPending_noTree rfl

/-- After CLEAR every register but STATUS reads as after hardware reset with the same parameters. -/
theorem sameRegs_resetOf_afterClear (s : State) : SameRegs [.status] (State.resetOf s.params s.resets) (afterClear s) :=
  sameRegs_intro (.inr rfl) (by decide) (.inr rfl) (.inr rfl) (.inr rfl) (.inr rfl) (.inr rfl) (.inr rfl) (.inr rfl)
    (.inr rfl) (.inr ((findPending_afterClear s).trans (findPending_resetOf _ _).symm)) (.inr rfl) (.inr rfl) (.inr rfl) rfl

/-- After CLEAR, DONE is the one bit of STATUS that is 1: the arena is empty, so no derived field depends on the state
before. -/
theorem statusWord_afterClear (s : State) : statusWord (afterClear s) = 2 := by
  have htree : treePresent (afterClear s) = false := rfl
  have hcomplete : treeComplete (afterClear s) = false := rfl
  have hsingle : treeSingle (afterClear s) = false := rfl
  have htail : tailPresent (afterClear s) = false := rfl
  rw [statusWord, htail, hsingle, hcomplete, htree]
  rfl

/-- Settles O18: the registers are those of the reset state but for STATUS, and CLEAR touches neither BLK nor BITS. -/
theorem clearEffect : Obligations.ClearEffect := by
  intro s
  refine ⟨afterClear s, exec_clear s, fun r => ?_, noTree_afterClear s, fun _ => rfl, fun _ => rfl, rfl, rfl, rfl, rfl, rfl⟩
  by_cases hr : r = .status
  · subst hr
    exact statusWord_afterClear s
  · rw [sameRegs_resetOf_afterClear s r (by simpa using hr), readReg_resetOf, if_neg hr]

end Sys2Proof
end

section
/-! Scope: the errors: which check raises which, and what errors a command can raise at all (60_exceptions.md). -/

namespace Sys2Proof

open Sys2Proof.Machine

/-! ### The checks of every command, in their order (R145) -/

/-- A check that a command makes or does not make. -/
def checkIf (b : Bool) (c : State → Check) : List (State → Check) := if b then [c] else []

/-- The BadLength checks of a command, in the order of R143. -/
def Instr.lengthChecks (i : Instr) : List (State → Check) :=
  checkIf i.checksBlkLen checkBlkLen ++ checkIf i.checksBitsLen checkBitsLen ++ checkIf i.checksCursor checkCursor

/-- The checks that a command makes once its lengths are legal, in the order of R145. -/
def Instr.stateChecks : Instr → List (State → Check)
  | .tleaf _ | .texpand => [checkTree]
  | .serialize => [checkTree, checkComplete, checkHeaderFits]
  | .lookup _ | .encode | .decode => [checkTree, checkComplete]
  | .build | .compress => [checkBlockNotEmpty]
  | .nop | .clear | .tinit | .deserialize | .decompress | .hExpand | .hLeaf _ => []

/-- What a command runs behind its checks. -/
def Instr.run : Instr → State → BodyResult
  | .nop => nopBody
  | .clear => clearBody
  | .tinit => fun s => .completed (treeInit s)
  | .tleaf v => onPending (fun p s => .completed (makeLeaf p v s))
  | .texpand => onPending expandOrRaise
  | .serialize => serializeRun
  | .deserialize => deserializeRun
  | .build => fun s => .completed (buildRun s)
  | .lookup v => lookupRun v
  | .encode => encodeAppend
  | .decode => decodeRun
  | .compress => compressRun
  | .decompress => decompressRun
  | .hExpand => .completed
  | .hLeaf _ => .completed

/-- The body of a command is its run behind its checks (R145). -/
theorem bodyOf_eq_guarded (i : Instr) (s : State) : bodyOf i s = guarded (i.lengthChecks ++ i.stateChecks) i.run s := by
  cases i <;> rfl

/-- The checks of one list, then those of another. -/
theorem firstError_append (l r : List Check) : firstError (l ++ r) = (firstError l).or (firstError r) := by
  induction l with
  | nil => rfl
  | cons c rest ih =>
    cases c with
    | none => exact ih
    | some x => rfl

theorem firstError_checkIf (b : Bool) (c : State → Check) (s : State) :
    firstError ((checkIf b c).map (fun c => c s)) = if b = true then c s else none := by
  cases b with
  | false => rfl
  | true =>
    show firstError [c s] = c s
    cases c s <;> rfl

/-- The length checks of a command find its BadLength (R143). -/
theorem firstError_lengthChecks (i : Instr) (s : State) :
    firstError (i.lengthChecks.map (fun c => c s)) = (badLength i s).map (Prod.mk .badLength) := by
  simp only [Instr.lengthChecks, List.map_append, firstError_append, firstError_checkIf, badLength, checkBlkLen,
    checkBitsLen, checkCursor, ite_and]
  split_ifs <;> rfl

/-- The checks of a command find its BadLength, or else what its other checks find (R145). -/
theorem firstError_checks (i : Instr) (s : State) :
    firstError ((i.lengthChecks ++ i.stateChecks).map (fun c => c s)) =
      ((badLength i s).map (Prod.mk .badLength)).or (firstError (i.stateChecks.map (fun c => c s))) := by
  rw [List.map_append, firstError_append, firstError_lengthChecks]

/-- The checks see the frame's first lines as nothing. -/
theorem stateChecks_beginCommand (i : Instr) (w : Word) (s : State) :
    i.stateChecks.map (fun c => c (beginCommand w s)) = i.stateChecks.map (fun c => c s) := by
  cases i <;> simp [Instr.stateChecks]

/-- A command ends errored at the first of its checks that finds an error, and nothing else changes (R145, R149). -/
theorem endsErrored_of_checks {i : Instr} {s : State} {e : Err} {info : Word} (hi : i.isCommand = true)
    (h : ((badLength i s).map (Prod.mk .badLength)).or (firstError (i.stateChecks.map (fun c => c s))) = some (e, info)) :
    EndsErrored i s e info := by
  refine endsErrored_of_body (exec_command hi s) ((bodyOf_eq_guarded i _).trans (guarded_some ?_))
  rw [firstError_checks, stateChecks_beginCommand]
  exact h

/-- With legal lengths the other checks decide (R145). -/
theorem endsErrored_of_stateChecks {i : Instr} {s : State} {e : Err} {info : Word} (hi : i.isCommand = true)
    (hlen : badLength i s = none) (h : firstError (i.stateChecks.map (fun c => c s)) = some (e, info)) :
    EndsErrored i s e info :=
  endsErrored_of_checks hi (by rw [hlen]; exact h)

/-! ### What a command can raise at all (R130) -/

/-- The codes of the errors differ (R130). -/
theorem Err.code_injective : Function.Injective Err.code := by
  intro a b
  cases a <;> cases b <;> decide

/-- After a command ERRCODE is 0, or the code of an error of the command that its body raised (R130, R170). -/
theorem exec_errCode {i : Instr} {s t : State} (hi : i.isCommand = true) (hx : exec i s = .next t) :
    t.errCode = 0 ∨
      ∃ e ∈ i.errors, ∃ info u, bodyOf i (beginCommand (wordOf i) s) = .raised e info u ∧ t.errCode = e.code := by
  by_cases hc : i = .clear
  · subst hc
    cases hx
    exact .inl rfl
  have hends := bodyOf_ends hi hc (beginCommand (wordOf i) s)
  rcases exec_body_cases hi s with ⟨u, hb, hu⟩ | ⟨e, info, u, hb, hu⟩
  · cases hx.symm.trans hu
    rw [hb] at hends
    obtain ⟨-, -, -, -, -, hcode, -⟩ := hends.1.control
    exact .inl hcode
  · cases hx.symm.trans hu
    exact .inr ⟨e, hends.2 e info u hb, info, u, hb, rfl⟩

/-- The code of an error tells the error. -/
theorem exec_raised_of_errCode {i : Instr} {s t : State} {e : Err} (hi : i.isCommand = true) (hx : exec i s = .next t)
    (hcode : t.errCode = e.code) :
    e ∈ i.errors ∧ ∃ info u, bodyOf i (beginCommand (wordOf i) s) = .raised e info u := by
  rcases exec_errCode hi hx with h0 | ⟨e', he', info, u, hb, hcode'⟩
  · exact absurd (hcode.symm.trans h0) (Err.code_ne_zero e)
  · obtain rfl : e = e' := Err.code_injective (hcode.symm.trans hcode')
    exact ⟨he', info, u, hb⟩

/-- ERRCODE after a command is 0 or one of its errors' codes. -/
theorem exec_errCode_mem {i : Instr} {s t : State} (hi : i.isCommand = true) (hx : exec i s = .next t) :
    t.errCode ∈ 0 :: i.errors.map Err.code := by
  rcases exec_errCode hi hx with h0 | ⟨e, he, -, -, -, hcode⟩
  · exact h0 ▸ List.mem_cons_self
  · exact hcode ▸ List.mem_cons_of_mem _ (List.mem_map_of_mem he)

/-! ### BadLength (R143) -/

/-- A body does not raise an error that its ends do not list. -/
theorem Machine.Ends.not_raised {a b c : Bool} {errs : List Err} {s u : State} {r : BodyResult} {e : Err} {info : Word}
    (h : Ends a b c errs s r) (he : e ∉ errs) : r ≠ .raised e info u :=
  fun hr => he (h.2 e info u hr)

/-- No other check finds a BadLength. -/
theorem stateChecks_not_badLength (i : Instr) (s : State) (info : Word) :
    firstError (i.stateChecks.map (fun c => c s)) ≠ some (.badLength, info) := by
  intro h
  obtain ⟨c, hc, hfound⟩ := List.mem_map.mp (firstError_mem h)
  have hmem : c = checkTree ∨ c = checkComplete ∨ c = checkHeaderFits ∨ c = checkBlockNotEmpty := by
    cases i <;> simp only [Instr.stateChecks, List.mem_cons, List.not_mem_nil, or_false] at hc <;> tauto
  rcases hmem with rfl | rfl | rfl | rfl
  · cases checkTree_err hfound
  · cases checkComplete_err hfound
  · cases checkHeaderFits_err hfound
  · cases checkBlockNotEmpty_err hfound

/-- BITS_LEN of a command that checks it and raises no BadLength (R143). -/
theorem bitsLen_le_of_badLength {i : Instr} {s : State} (hi : i.checksBitsLen = true) (h : badLength i s = none) :
    s.bitsLen.toNat ≤ s.params.bitsMax := by
  by_contra hcon
  simp only [badLength, hi, Nat.not_le.mp hcon, and_self, if_true] at h
  split at h <;> cases h

/-- Behind its checks no command raises a BadLength (R145). -/
theorem run_not_badLength (i : Instr) {s u : State} {info : Word} (h : badLength i s = none) :
    i.run s ≠ .raised .badLength info u := by
  cases i with
  | tleaf v =>
    simp only [Instr.run, onPending]
    cases findPending s <;> nofun
  | texpand =>
    simp only [Instr.run, onPending]
    cases findPending s with
    | none => nofun
    | some p =>
      simp only [expandOrRaise]
      cases expand p s <;> nofun
  | lookup v =>
    simp only [Instr.run, lookupRun]
    cases lookupPath s v <;> nofun
  | serialize => exact (serializeRun_ends s (bitsLen_le_of_badLength rfl h)).not_raised (by decide)
  | deserialize => exact (deserializeRun_ends s).not_raised (by decide)
  | encode => exact (encodeAppend_ends s (bitsLen_le_of_badLength rfl h)).not_raised (by decide)
  | decode => exact (decodeRun_ends s).not_raised (by decide)
  | compress => exact (compressRun_ends (b := false) s).not_raised (by decide)
  | decompress => exact (decompressRun_ends s).not_raised (by decide)
  | nop | clear | tinit | build | hExpand | hLeaf v => nofun

/-- A body raises BadLength at its length checks alone (R143). -/
theorem badLength_of_bodyOf {i : Instr} {s u : State} {info : Word} (h : bodyOf i s = .raised .badLength info u) :
    badLength i s = some info := by
  rw [bodyOf_eq_guarded] at h
  cases hlen : badLength i s with
  | some x =>
    rw [guarded_some (by rw [firstError_checks, hlen]; rfl)] at h
    cases h
    rfl
  | none =>
    rcases guarded_cases (i.lengthChecks ++ i.stateChecks) i.run s with ⟨e, info', hfound, hraised⟩ | ⟨-, hrun⟩
    · cases hraised.symm.trans h
      rw [firstError_checks, hlen] at hfound
      exact absurd hfound (stateChecks_not_badLength i s info)
    · exact absurd (hrun.symm.trans h) (run_not_badLength i hlen)

/-- Settles O51: the length checks come first, and nothing else raises BadLength. -/
theorem badLengthRule : Obligations.BadLengthRule := by
  intro i s hi
  refine ⟨fun info h => endsErrored_of_checks hi (by rw [h]; rfl), fun hlen t hx hcode => ?_⟩
  obtain ⟨-, info, u, hb⟩ := exec_raised_of_errCode (e := .badLength) hi hx hcode
  cases hlen.symm.trans (badLength_of_bodyOf (s := beginCommand (wordOf i) s) hb)

/-! ### EmptyBlock (R131) -/

/-- What the checks of BUILD and COMPRESS find: a BadLength, or an EmptyBlock of a block that is empty (R131, R143). -/
theorem blockChecks_some {s : State} {e : Err} {info : Word}
    (h : firstError [checkBlkLen s, checkBlockNotEmpty s] = some (e, info)) :
    e = .badLength ∨ (e = .emptyBlock ∧ s.blkLen = 0) := by
  by_cases hlen : s.blkLen.toNat ≤ s.params.blockMax
  · by_cases h0 : s.blkLen = 0
    · rw [checkBlkLen_none hlen, checkBlockNotEmpty_some h0] at h
      cases h
      exact .inr ⟨rfl, h0⟩
    · rw [checkBlkLen_none hlen, checkBlockNotEmpty_none h0] at h
      cases h
  · rw [checkBlkLen_some (Nat.not_le.mp hlen)] at h
    cases h
    exact .inl rfl

/-- BUILD raises the errors of its two checks only (R115). -/
theorem buildBody_raised {s u : State} {e : Err} {info : Word} (h : buildBody s = .raised e info u) :
    e = .badLength ∨ (e = .emptyBlock ∧ s.blkLen = 0) := by
  rcases guarded_cases [checkBlkLen, checkBlockNotEmpty] (fun s => .completed (buildRun s)) s with
    ⟨e', info', hfound, hraised⟩ | ⟨-, hrun⟩
  · cases hraised.symm.trans h
    exact blockChecks_some hfound
  · cases hrun.symm.trans h

/-- COMPRESS of a block that is not empty can overflow BITS only: its tree has a code for every byte of the block (R127). -/
theorem compressRun_raised {s u : State} {e : Err} {info : Word} (h0 : s.blkLen ≠ 0)
    (h : compressRun s = .raised e info u) : e = .bitsOverflow := by
  obtain ⟨p, -, hfits, hover⟩ := compressRun_spec (s := s) rfl (blockBytes_ne_nil h0)
  rcases Nat.lt_or_ge s.params.bitsMax ((CodeTree.huffman (blockBytes s)).header.length + p.length) with hlt | hle
  · cases (hover hlt).symm.trans h
    rfl
  · cases (hfits hle).symm.trans h

/-- COMPRESS raises the errors of its two checks, or overflows BITS (R127). -/
theorem compressBody_raised {s u : State} {e : Err} {info : Word} (h : compressBody s = .raised e info u) :
    e = .badLength ∨ (e = .emptyBlock ∧ s.blkLen = 0) ∨ e = .bitsOverflow := by
  rcases guarded_cases [checkBlkLen, checkBlockNotEmpty] compressRun s with ⟨e', info', hfound, hraised⟩ | ⟨hpass, hrun⟩
  · cases hraised.symm.trans h
    exact (blockChecks_some hfound).imp_right .inl
  · exact .inr (.inr (compressRun_raised (legal_of_checks hpass).1 (hrun.symm.trans h)))

/-- An EmptyBlock comes from BUILD or COMPRESS of an empty block (R131). -/
theorem emptyBlock_of_bodyOf {i : Instr} {s u : State} {info : Word} (hi : .emptyBlock ∈ i.errors)
    (h : bodyOf i s = .raised .emptyBlock info u) : s.blkLen = 0 ∧ (i = .build ∨ i = .compress) := by
  cases i with
  | build =>
    obtain ⟨⟨⟩⟩ | ⟨-, h0⟩ := buildBody_raised h
    exact ⟨h0, .inl rfl⟩
  | compress =>
    obtain ⟨⟨⟩⟩ | ⟨-, h0⟩ | ⟨⟨⟩⟩ := compressBody_raised h
    exact ⟨h0, .inr rfl⟩
  | _ => simp [Instr.errors] at hi

/-- An empty block ends BUILD and COMPRESS before any work (R131). -/
theorem emptyBlock_endsErrored {i : Instr} {s : State} (hi : i = .build ∨ i = .compress) (h0 : s.blkLen = 0) :
    EndsErrored i s .emptyBlock 0 := by
  rcases hi with rfl | rfl
  all_goals exact endsErrored_of_stateChecks rfl (by simp [badLength, Instr.checksBlkLen, Instr.checksBitsLen,
    Instr.checksCursor, h0]) (by simp [Instr.stateChecks, firstError, checkBlockNotEmpty_some h0])

/-- DECOMPRESS of no bits at all is a header cut off at its first bit (R131, R132). -/
theorem exec_decompress_empty {s : State} (h0 : s.bitsLen = 0) :
    ∃ t, exec .decompress s = .next t ∧ Errored 0x00000051 .truncatedHeader 0 t ∧ t.blkLen = 0 := by
  have hnil : bitsFrom (decompressStart s) = [] := by
    apply List.eq_nil_of_length_eq_zero
    rw [bitsFrom_length]
    show s.bitsLen.toNat - 0 = 0
    rw [h0]
    rfl
  have hrun := deserializeRun_cut (s := decompressStart s) (T := .leaf 0) (j := 0) (tail := []) rfl
    (Nat.le_trans (by decide) s.params.nodeCap_range.1) hnil rfl List.nil_prefix (by decide)
  exact ⟨_, exec_decompress_fails (by rw [h0]; exact Nat.zero_le _) hrun, ⟨rfl, rfl, rfl, rfl, rfl, rfl, rfl⟩, rfl⟩

/-- Settles O52: the two commands that check for an empty block, that no other raises it, and DECOMPRESS of no bits. -/
theorem emptyBlockRule : Obligations.EmptyBlockRule := by
  intro s
  refine ⟨fun h0 => ⟨emptyBlock_endsErrored (.inl rfl) h0, emptyBlock_endsErrored (.inr rfl) h0⟩,
    fun i t hi hx hcode => ?_, exec_decompress_empty⟩
  obtain ⟨hmem, info, u, hb⟩ := exec_raised_of_errCode (e := .emptyBlock) hi hx hcode
  exact emptyBlock_of_bodyOf (s := beginCommand (wordOf i) s) hmem hb

/-! ### NoTree, NoPending and TreeIncomplete (R135, R136, R137) -/

/-- The commands that need a tree check for it first, once their lengths are legal (R135). -/
theorem stateChecks_needTree {i : Instr}
    (hi : (∃ v, i = .tleaf v) ∨ i = .texpand ∨ i = .serialize ∨ (∃ v, i = .lookup v) ∨ i = .encode ∨ i = .decode) :
    i.isCommand = true ∧ ∃ rest, i.stateChecks = checkTree :: rest := by
  rcases hi with ⟨v, rfl⟩ | rfl | rfl | ⟨v, rfl⟩ | rfl | rfl
  all_goals exact ⟨rfl, _, rfl⟩

/-- The commands that need a complete tree check for that next (R137). -/
theorem stateChecks_needComplete {i : Instr} (hi : i = .serialize ∨ (∃ v, i = .lookup v) ∨ i = .encode ∨ i = .decode) :
    i.isCommand = true ∧ ∃ rest, i.stateChecks = checkTree :: checkComplete :: rest := by
  rcases hi with rfl | ⟨v, rfl⟩ | rfl | rfl
  all_goals exact ⟨rfl, _, rfl⟩

/-- Settles O53: the checks that follow BadLength, and NoPending from the search for the pending node. -/
theorem treeConditionErrors : Obligations.TreeConditionErrors := by
  intro i s hlen
  refine ⟨fun h0 hi => ?_, fun h0 hnone hi => ?_, fun p hp hi => ?_⟩
  · obtain ⟨hcmd, rest, hchecks⟩ := stateChecks_needTree hi
    exact endsErrored_of_stateChecks hcmd hlen (by simp [hchecks, firstError, checkTree_some h0])
  · rcases hi with ⟨v, rfl⟩ | rfl
    all_goals exact (onPending_errors rfl).2 h0 hnone
  · obtain ⟨hcmd, rest, hchecks⟩ := stateChecks_needComplete hi
    exact endsErrored_of_stateChecks hcmd hlen (by
      simp [hchecks, firstError, checkTree_none (nodeCnt_ne_of_pending hp), checkComplete_some hp])

/-! ### The table of errors (R130) -/

/-- COMPRESS shares ENCODE's loop and never raises its NoCode (R127, R130). -/
theorem exec_compress_errCode {s t : State} (hx : exec .compress s = .next t) :
    t.errCode ∈ ([0x00, 0x18, 0x01, 0x15] : List Byte) := by
  rcases exec_errCode rfl hx with h0 | ⟨e, -, info, u, hb, hcode⟩
  · rw [h0]
    decide
  · rw [hcode]
    rcases compressBody_raised hb with rfl | ⟨rfl, -⟩ | rfl
    all_goals decide

/-- Settles O54: every command's list is 0 and the codes of its errors. -/
theorem errorTable : Obligations.ErrorTable := by
  intro s t
  refine ⟨fun i hi hx => ?_, fun v => exec_errCode_mem rfl, exec_errCode_mem rfl, exec_errCode_mem rfl,
    exec_errCode_mem rfl, exec_errCode_mem rfl, fun v => exec_errCode_mem rfl, exec_errCode_mem rfl, exec_errCode_mem rfl,
    exec_compress_errCode, exec_errCode_mem rfl⟩
  simp only [List.mem_cons, List.not_mem_nil, or_false] at hi
  rcases hi with rfl | rfl | rfl
  all_goals exact List.mem_singleton.mp (exec_errCode_mem rfl hx)

end Sys2Proof
end
